-- ==== Sys2Proof/Word.lean ====
section
/-!
DEFINITION. The word types of the block.

The block's widths are those of spec/00_scope.md rule R11: u8, u16, u32 and i16.  A byte is a bit
vector because the spec masks, shifts and compares it; a byte string is a list of bytes, byte 0
first (R11).  An i16 is a 16-bit vector whose value is `BitVec.toInt`.
-/

namespace Sys2Proof

/-- `u8` of R11. -/
abbrev Byte := BitVec 8

/-- A byte string of R11: `s[i]` is its byte `i`, counting from 0. -/
abbrev Bytes := List Byte

end Sys2Proof
end

