-- ==== Sys2Proof/Syntax.lean ====
section
/-!
DEFINITION. The operations of the block: one constructor of `Instr` per row of
spec/opcode_table.json (21 port operations, 6 bus frames, 4 upstream packet kinds).

The spec has three encoding layers (spec/30_encoding.md, opening): the operation port, the bus
frames and the upstream packet kinds.  A port operation carries the operands of R80; a bus frame
carries the bytes after its first byte; an upstream packet carries its envelope (the operands the
host stack supplies with a packet, R140) and the fields its kind assembles (R86, R87, R89, R90).
-/

namespace Sys2Proof

/-- The closed enumeration of family tags, in the order of R16. -/
inductive Family where
  | unknown | wiredX | wirelessX | nextGen | legacy | keyboard | mouse | idleVariant
deriving DecidableEq, Repr, Inhabited

/-- The target families of R17. -/
inductive TargetFamily where
  | disconnected | standard | cockpit
deriving DecidableEq, Repr, Inhabited

/-- The CanonicalPadState of R28.  The four stick axes are i16 values in two's complement. -/
structure PadState where
  buttons : BitVec 16
  lt : Byte
  rt : Byte
  lx : BitVec 16
  ly : BitVec 16
  rx : BitVec 16
  ry : BitVec 16
deriving DecidableEq, Repr, Inhabited

/-- The envelope of an upstream packet: the operands of DECODE that come before its buffer
(R80, R140).  `hostFam` is the family the host stack declares; `inEp` and `outEp` are used only
when a presence packet allocates. -/
structure PacketHeader where
  addr : Byte
  chan : Byte
  hostFam : Family
  inEp : Byte
  outEp : Byte
deriving DecidableEq, Repr, Inhabited

/-- What a matched packet kind assembles from the buffer: the pad fields (R86, R87), the presence
value (R89), the modifier byte and key codes (R90), or nothing (R91). -/
inductive Packet where
  | pad (p : PadState)
  | presence (present : Bool)
  | chatpad (mods : Byte) (keys : Bytes)
  | reinit
deriving DecidableEq, Repr, Inhabited

/-- One constructor per row of spec/opcode_table.json. -/
inductive Instr where
  -- operation port (R80)
  | reset (id : BitVec 2)
  | attach (addr : Byte) (fam : Family) (inEp : Byte) (outEp : Byte) (chan : Byte)
  | detach (addr : Byte)
  | decode (h : PacketHeader) (len : BitVec 9) (buf : Bytes)
  | readPad (i : Byte)
  | buttonEdge (i : Byte)
  | commitEdges (i : Byte)
  | isDown (i : Byte) (code : Byte)
  | wasPressed (i : Byte) (code : Byte)
  | setRumble (i : Byte) (l : Byte) (r : Byte)
  | setLed (i : Byte) (q : Byte)
  | setCpled (i : Byte) (bits : Byte)
  | feedbackTick (i : Byte) (now : BitVec 32)
  | slotWrite (k : Byte) (tf : BitVec 4) (bytes : Bytes)
  | slotRead (k : Byte) (tf : BitVec 4)
  | coordPoll
  | coordPing (k : Byte)
  | peerReceive (t : Bytes)
  | peerRequest
  | peerSetOut (tf : BitVec 4) (bytes : Bytes)
  | peerRead
  -- bus frames (R93 to R97): the bytes after the first one
  | statusDisc (rest : Bytes)
  | statusStd (report : Bytes)
  | statusCockpit (report : Bytes)
  | statusReserved (fam : BitVec 4) (rest : Bytes)
  | ping (rest : Bytes)
  | response (k : Byte) (rx : Bytes)
  -- upstream packet kinds (R84 to R91)
  | pad (h : PacketHeader) (p : PadState)
  | presence (h : PacketHeader) (present : Bool)
  | chatpad (h : PacketHeader) (mods : Byte) (keys : Bytes)
  | reinit (h : PacketHeader)
deriving DecidableEq, Repr, Inhabited

/-! ### Inputs (the channels a node's operations arrive on) -/

/-- Where a node's input bytes come from: the operation port (R80), a bus transaction delivered to
a peer (R192), the answer a coordinator reads from peer `k` (R95), or the upstream host stack with
a packet's envelope (R60, R140). -/
inductive Channel where
  | port
  | busFrame
  | busResponse (k : Byte)
  | upstream (h : PacketHeader)
deriving DecidableEq, Repr, Inhabited

/-- One delivered input: a whole byte string on one channel (R67, R96). -/
structure Input where
  channel : Channel
  bytes : Bytes
deriving DecidableEq, Repr, Inhabited

/-- Why the operation port cannot accept a byte string (R81, R82).  Each is a refusal, safe: the
run stops where the spec gives the word no meaning. -/
inductive Reject where
  /-- The string is empty, so it holds no OPC. -/
  | emptyWord
  /-- The OPC is in no row of R80. -/
  | unknownOpcode (opc : Byte)
  /-- Fewer bytes than the operation's operands take (R81). -/
  | missingOperand
  /-- More bytes than the operation's operands take (R81). -/
  | trailingBytes
  /-- A byte or byte pair whose value does not fit its operand's width (R81, log entry 8). -/
  | operandWidth
  /-- PEER_RECEIVE's byte string is not as long as its length says (R81, R82). -/
  | lengthMismatch
  /-- The first byte of a bus transaction is no frame of R97 (fetch hands it to PEER_RECEIVE). -/
  | notAFrame
  /-- No kind of the layout accepts the packet (fetch hands it to DECODE). -/
  | noKind
deriving DecidableEq, Repr, Inhabited

/-- What a decoder answers. -/
inductive Decoded where
  | instr (i : Instr)
  | reject (r : Reject)
deriving DecidableEq, Repr

end Sys2Proof
end

