-- ==== Sys2Proof/Config.lean ====
section
/-!
DEFINITION. The parameters of the block (spec/00_scope.md rules R8 to R10) as plain data, and the
free values a model must not choose.

A `Config` is one value of the parameters that R8 marks open or that its decisions keep as
parameters.  It is carried in `State` so that a statement about every state is a statement about
every well-formed parameter set; no operation writes it (R20, R75).  `MAX_DEV` is not a field: it
is the length of the pool.  The opaque constants below have no body, so nothing can evaluate them:
they are the answers of external agents (`draw`, R13) after the scripted ones are used up, and the
command bytes nothing gives (R170).
-/

namespace Sys2Proof

/-- The five chatpad modifiers of R92. -/
inductive Modifier where
  | shift | green | orange | messenger | capslock
deriving DecidableEq, Repr, Inhabited

/-- `MODCODE(m)` and `MODBIT(m)` of one modifier (R8, R92). -/
structure ModEntry where
  code : Byte
  bit : Byte
deriving DecidableEq, Repr, Inhabited

/-- `MODCODE` and `MODBIT` for the five modifiers. -/
structure ModTable where
  shift : ModEntry
  green : ModEntry
  orange : ModEntry
  messenger : ModEntry
  capslock : ModEntry
deriving DecidableEq, Repr, Inhabited

/-- A feedback command with its arguments: the kinds of R170. -/
inductive Cmd where
  | rumble (l r : Byte)
  | led (q : Byte)
  | cpInit
  | cpLed (bit : Nat) (on : Bool)
  | powerOff
  | keepalive
deriving DecidableEq, Repr, Inhabited

/-- The kind of a feedback command without its arguments: the info of error E5 (R231). -/
inductive CmdKind where
  | rumble | led | cpInit | cpLed | powerOff | keepalive
deriving DecidableEq, Repr, Inhabited

/-- One `(off, mask, val)` triple of a kind's `match` list (R84). -/
structure MatchTriple where
  off : Nat
  mask : Byte
  val : Byte
deriving DecidableEq, Repr, Inhabited

/-- One entry of a PAD kind's button list: `Bit(off, bit, cmask)` or `Ana(off, cmask)` (R86). -/
inductive ButtonEntry where
  | bit (off : Nat) (bit : Byte) (cmask : BitVec 16)
  | ana (off : Nat) (cmask : BitVec 16)
deriving DecidableEq, Repr, Inhabited

/-- A trigger field: `Byte(off)` or `U16Shr(off, sh)` (R87). -/
inductive TrigForm where
  | byte (off : Nat)
  | u16Shr (off : Nat) (sh : Nat)
deriving DecidableEq, Repr, Inhabited

/-- The fields of a PAD kind (R86, R87). -/
structure PadFields where
  buttons : List ButtonEntry
  lt : TrigForm
  rt : TrigForm
  lx : Nat
  ly : Nat
  rx : Nat
  ry : Nat
deriving DecidableEq, Repr, Inhabited

/-- The type of a packet kind with the fields that type has (R84). -/
inductive KindBody where
  | pad (f : PadFields)
  | presence (presOff : Nat) (presBit : Byte)
  | chatpad (modOff : Nat) (keyOffs : List Nat)
  | reinit
deriving DecidableEq, Repr, Inhabited

/-- A packet kind of `LAYOUT(f)`: `{type, minLen, match, fields}` (R84). -/
structure Kind where
  minLen : Nat
  matchOn : List MatchTriple
  body : KindBody
deriving DecidableEq, Repr, Inhabited

/-- The feedback capabilities of a family: `HAS_RUMBLE`, `HAS_LED`, `CP_INIT`, `CP_LED`,
`HAS_POWEROFF`, `HAS_KEEPALIVE` (R8). -/
structure Caps where
  rumble : Bool
  led : Bool
  cpInit : Bool
  cpLed : Bool
  powerOff : Bool
  keepalive : Bool
deriving DecidableEq, Repr, Inhabited

/-- One value of the parameters of R8.
* `layouts`: `LAYOUT`, the ordered kind list of each family (an unlisted family has no kind).
* `supported`, `presenceDriven`: `SUPPORTED` and the families with `PRESENCE_DRIVEN`.
* `caps`: the capabilities (an unlisted family has none).
* `powerMask`: `POWER_MASK`.  `mods`: `MODCODE` and `MODBIT`.  `cpKeys`: `CP_KEYS`.
* `inLenStd`, `inLenCockpit`, `outLenStd`, `outLenCockpit`: `IN_LEN` and `OUT_LEN` of the two
  connected target families.  `placeholder`: `PLACEHOLDER`.
* `cmds`: `CMD`, the listed values; `Config.cmd` of Machine/Params.lean says what an unlisted
  command is. -/
structure Config where
  layouts : List (Family × List Kind)
  supported : List Family
  presenceDriven : List Family
  caps : List (Family × Caps)
  powerMask : BitVec 16
  mods : ModTable
  cpKeys : Nat
  inLenStd : Nat
  inLenCockpit : Nat
  outLenStd : Nat
  outLenCockpit : Nat
  placeholder : Byte
  cmds : List ((Family × Cmd) × List Bytes)
deriving DecidableEq, Repr, Inhabited

/-- The answer of the upstream transaction primitive to one transfer: bytes transferred, or an
error (`bytesOrError`, R170). -/
inductive TransferResult where
  | transferred (n : Nat)
  | error
deriving DecidableEq, Repr, Inhabited

/-- FREE VALUE (log entry 5): the byte string of a feedback command that `Config.cmds` does not
list; its bytes are open (R170). -/
opaque Config.openCmd : Family → Cmd → Bytes

/-- FREE VALUE (log entry 4): the answer of the upstream primitive to the `n`-th unscripted draw
(R170). -/
opaque Config.freeTransfer : Nat → TransferResult

/-- FREE VALUE (log entry 4): the error code `endWrite` answers at the `n`-th unscripted draw
(R191). -/
opaque Config.freeErr : Nat → Byte

/-- FREE VALUE (log entry 4): the byte string a bus read receives at the `n`-th unscripted draw
(R191). -/
opaque Config.freeRx : Nat → Bytes

/-- FREE VALUE (log entry 13): how much of a frame a peer sees when the send failed: nothing, or a
number of leading bytes (R198(b)). -/
opaque Config.freePartial : Nat → Option Nat

/-- FREE VALUE (log entry 19): what a node of a contended bus address sees of a write: nothing, or
any bytes (I7). -/
opaque Config.freeStray : Nat → Option Bytes

end Sys2Proof
end

