-- ==== Sys2Proof/Machine/Params.lean ====
section
/-!
DEFINITION. The constants of spec/00_scope.md rule R8, the readers of a `Config`, and the
well-formedness of a parameter set (R9, and R84 to R90 for the layouts).
-/

namespace Sys2Proof

/-- `MAX_LEN`, the largest upstream buffer length. -/
def maxLen : Nat := 256
/-- `ANALOG_CUT`: a byte is pressed iff it is greater. -/
def analogCut : Byte := 0x20
/-- `MAX_PLAYERS`, the number of ControllerSlots. -/
def maxPlayers : Nat := 4
/-- `NUM_PEERS`, the peer slots the coordinator polls. -/
def numPeers : Nat := 3
/-- `HIST_SLOTS`, the chatpad edge-history slots. -/
def histSlots : Nat := 3
/-- `TAG`, the tag nibble of a status byte. -/
def statusTag : BitVec 4 := 0xF
/-- `PING`, the ping byte. -/
def pingByte : Byte := 0xAA
/-- `KEEPALIVE_MS`: the keepalive fires when the elapsed time is at least this. -/
def keepaliveMs : BitVec 32 := 1000
/-- `POWER_MS`: the power-off fires when the hold is longer than this. -/
def powerMs : BitVec 32 := 1000
/-- `TICK_MS`, the least tick period. -/
def tickMs : Nat := 4
/-- `CP_LED_BITS`, the width of the chatpad LED fields. -/
def cpLedBits : Nat := 8
/-- `PEER_ADDR(k)`, the bus address of peer k (R69). -/
def peerAddr (k : Nat) : Nat := k

/-- A family with no feedback branch. -/
def noCaps : Caps := ⟨false, false, false, false, false, false⟩

namespace Config

/-- `f ∈ SUPPORTED`.  UNKNOWN is never supported (R131, corner cases). -/
def isSupported (c : Config) (f : Family) : Bool := f != .unknown && c.supported.contains f

/-- `PRESENCE_DRIVEN(f)`. -/
def isPresenceDriven (c : Config) (f : Family) : Bool := c.presenceDriven.contains f

/-- `LAYOUT(f)`. -/
def layout (c : Config) (f : Family) : List Kind := (c.layouts.lookup f).getD []

/-- The capabilities of family `f`. -/
def capsOf (c : Config) (f : Family) : Caps := (c.caps.lookup f).getD noCaps

/-- `IN_LEN(tf)`. -/
def inLen (c : Config) : TargetFamily → Nat
  | .disconnected => 0
  | .standard => c.inLenStd
  | .cockpit => c.inLenCockpit

/-- `OUT_LEN(tf)`. -/
def outLen (c : Config) : TargetFamily → Nat
  | .disconnected => 1
  | .standard => c.outLenStd
  | .cockpit => c.outLenCockpit

/-- `CMD(f, kind, args)`: the list of byte strings of a command.  A command the parameters do not
list is one string of open bytes (DESIGN CHOICE, log entry 5). -/
def cmd (c : Config) (f : Family) (k : Cmd) : List Bytes :=
  (c.cmds.lookup (f, k)).getD [Config.openCmd f k]

end Config

/-- The row of modifier `m`. -/
def ModTable.entry (t : ModTable) : Modifier → ModEntry
  | .shift => t.shift
  | .green => t.green
  | .orange => t.orange
  | .messenger => t.messenger
  | .capslock => t.capslock

/-- The five rows in the order of R92. -/
def ModTable.entries (t : ModTable) : List ModEntry :=
  [t.shift, t.green, t.orange, t.messenger, t.capslock]

/-- The kind name of a command. -/
def Cmd.kind : Cmd → CmdKind
  | .rumble _ _ => .rumble
  | .led _ => .led
  | .cpInit => .cpInit
  | .cpLed _ _ => .cpLed
  | .powerOff => .powerOff
  | .keepalive => .keepalive

/-- A value with exactly one bit set. -/
def singleBit {w : Nat} (b : BitVec w) : Bool := b != 0 && (b &&& (b - 1)) == 0

/-- A single canonical button bit, never the reserved bit 11 (R29, R86). -/
def canonicalBit (m : BitVec 16) : Bool := singleBit m && m != 0x0800

/-- A button entry within a kind of `n` bytes (R86, R88). -/
def ButtonEntry.wf (n : Nat) : ButtonEntry → Bool
  | .bit off b m => decide (off < n) && singleBit b && canonicalBit m
  | .ana off m => decide (off < n) && canonicalBit m

/-- A trigger field within a kind of `n` bytes (R87, R88). -/
def TrigForm.wf (n : Nat) : TrigForm → Bool
  | .byte off => decide (off < n)
  | .u16Shr off sh => decide (off + 1 < n) && decide (sh ≤ 8)

/-- A stick field within a kind of `n` bytes (R88). -/
def stickWf (n : Nat) (off : Nat) : Bool := decide (off + 1 < n)

/-- The fields of a kind of `n` bytes, with `cpKeys` chatpad keys (R86 to R90). -/
def KindBody.wf (n cpKeys : Nat) : KindBody → Bool
  | .pad f => f.buttons.all (ButtonEntry.wf n) && f.lt.wf n && f.rt.wf n &&
      stickWf n f.lx && stickWf n f.ly && stickWf n f.rx && stickWf n f.ry
  | .presence off b => decide (off < n) && singleBit b
  | .chatpad m ks => decide (m < n) && ks.all (fun o => decide (o < n)) && ks.length == cpKeys
  | .reinit => true

/-- A kind: `minLen` in 1..256 and every offset below it (R84, R88). -/
def Kind.wf (cpKeys : Nat) (k : Kind) : Bool :=
  decide (1 ≤ k.minLen) && decide (k.minLen ≤ maxLen) &&
    k.matchOn.all (fun m => decide (m.off < k.minLen)) && k.body.wf k.minLen cpKeys

/-- A PRESENCE kind. -/
def KindBody.isPresence : KindBody → Bool
  | .presence _ _ => true
  | _ => false

/-- A CHATPAD kind. -/
def KindBody.isChatpad : KindBody → Bool
  | .chatpad _ _ => true
  | _ => false

/-- `LAYOUT(f)` under R88: every kind well formed, at most one PRESENCE and one CHATPAD kind, and a
PRESENCE kind only in a presence-driven family. -/
def Config.layoutWf (c : Config) (f : Family) : Bool :=
  let l := c.layout f
  l.all (Kind.wf c.cpKeys) &&
    decide ((l.filter (fun k => k.body.isPresence)).length ≤ 1) &&
    decide ((l.filter (fun k => k.body.isChatpad)).length ≤ 1) &&
    (c.isPresenceDriven f || l.all (fun k => !k.body.isPresence))

/-- The eight family tags. -/
def allFamilies : List Family :=
  [.unknown, .wiredX, .wirelessX, .nextGen, .legacy, .keyboard, .mouse, .idleVariant]

/-- The modifier table of R9: the codes nonzero and pairwise distinct, every bit a single bit. -/
def ModTable.wf (t : ModTable) : Bool :=
  t.entries.all (fun e => e.code != 0 && singleBit e.bit) &&
    decide ((t.entries.map (fun e => e.code)).Nodup)

/-- The report lengths of R9. -/
def Config.lengthsWf (c : Config) : Bool :=
  decide (c.inLenStd ≤ 255) && decide (c.inLenCockpit ≤ 255) &&
    decide (1 ≤ c.outLenStd) && decide (c.outLenStd ≤ 255) &&
    decide (1 ≤ c.outLenCockpit) && decide (c.outLenCockpit ≤ 255)

/-- Well-formedness of a parameter set (R9), but for `MAX_DEV`, which `State.paramsWf` checks. -/
def Config.wf (c : Config) : Bool :=
  c.lengthsWf && c.mods.wf && allFamilies.all c.layoutWf

end Sys2Proof
end

