-- ==== Sys2Proof/Machine/Profiles.lean ====
section
/-!
DEFINITION. The named configuration profiles of spec/30_encoding.md rules R100 to R105 and the
capability defaults of spec/92_eei_decisions.md D47.

They are not claims about the hardware (R100 to R105 say so): they are the one complete parameter
set the spec writes out, and `State.reset` carries them (DESIGN CHOICE, log entry 3).
-/

namespace Sys2Proof

/-- The canonical button masks of R29. -/
def btnUp : BitVec 16 := 0x0001
def btnDown : BitVec 16 := 0x0002
def btnLeft : BitVec 16 := 0x0004
def btnRight : BitVec 16 := 0x0008
def btnStart : BitVec 16 := 0x0010
def btnBack : BitVec 16 := 0x0020
def btnLS : BitVec 16 := 0x0040
def btnRS : BitVec 16 := 0x0080
def btnLB : BitVec 16 := 0x0100
def btnRB : BitVec 16 := 0x0200
def btnGuide : BitVec 16 := 0x0400
def btnA : BitVec 16 := 0x1000
def btnB : BitVec 16 := 0x2000
def btnX : BitVec 16 := 0x4000
def btnY : BitVec 16 := 0x8000

/-- The "byte 2" button entries of R100, at byte `o`. -/
def gkByte2 (o : Nat) : List ButtonEntry :=
  [.bit o 0x01 btnUp, .bit o 0x02 btnDown, .bit o 0x04 btnLeft, .bit o 0x08 btnRight,
   .bit o 0x10 btnStart, .bit o 0x20 btnBack, .bit o 0x40 btnLS, .bit o 0x80 btnRS]

/-- The "byte 3" button entries of R100, at byte `o`. -/
def gkByte3 (o : Nat) : List ButtonEntry :=
  [.bit o 0x01 btnLB, .bit o 0x02 btnRB, .bit o 0x04 btnGuide, .bit o 0x10 btnA,
   .bit o 0x20 btnB, .bit o 0x40 btnX, .bit o 0x80 btnY]

/-- Profile `GK-WIRED` (R100). -/
def gkWired : List Kind :=
  [{ minLen := 20
     matchOn := [⟨0, 0xFF, 0x00⟩, ⟨1, 0xFF, 0x14⟩]
     body := .pad
       { buttons := gkByte2 2 ++ gkByte3 3
         lt := .byte 4, rt := .byte 5, lx := 6, ly := 8, rx := 10, ry := 12 } }]

/-- Profile `GK-LEGACY` (R101). -/
def gkLegacy : List Kind :=
  [{ minLen := 20
     matchOn := [⟨0, 0xFF, 0x00⟩, ⟨1, 0xFF, 0x14⟩]
     body := .pad
       { buttons := gkByte2 2 ++
           [.ana 4 btnA, .ana 5 btnB, .ana 6 btnX, .ana 7 btnY, .ana 8 btnRB, .ana 9 btnLB]
         lt := .byte 10, rt := .byte 11, lx := 12, ly := 14, rx := 16, ry := 18 } }]

/-- Profile `GK-NEXT` (R102). -/
def gkNext : List Kind :=
  [{ minLen := 18
     matchOn := [⟨0, 0xFF, 0x20⟩]
     body := .pad
       { buttons :=
           [.bit 4 0x04 btnStart, .bit 4 0x08 btnBack, .bit 4 0x10 btnA, .bit 4 0x20 btnB,
            .bit 4 0x40 btnX, .bit 4 0x80 btnY,
            .bit 5 0x01 btnUp, .bit 5 0x02 btnDown, .bit 5 0x04 btnLeft, .bit 5 0x08 btnRight,
            .bit 5 0x10 btnLB, .bit 5 0x20 btnRB, .bit 5 0x40 btnLS, .bit 5 0x80 btnRS]
         lt := .u16Shr 6 2, rt := .u16Shr 8 2, lx := 10, ly := 12, rx := 14, ry := 16 } }]

/-- Profile `T-WIRELESS` (R103): PRESENCE, PAD, REINIT, CHATPAD, in this order. -/
def tWireless : List Kind :=
  [{ minLen := 2, matchOn := [⟨0, 0xFF, 0x08⟩], body := .presence 1 0x80 },
   { minLen := 18
     matchOn := [⟨0, 0xFF, 0x00⟩, ⟨1, 0xFF, 0x01⟩, ⟨3, 0xFF, 0xF0⟩]
     body := .pad
       { buttons := gkByte2 6 ++ gkByte3 7
         lt := .byte 8, rt := .byte 9, lx := 10, ly := 12, rx := 14, ry := 16 } },
   { minLen := 28
     matchOn := [⟨0, 0xFF, 0x00⟩, ⟨1, 0xFF, 0x02⟩, ⟨24, 0xFF, 0xF0⟩], body := .reinit },
   { minLen := 28
     matchOn := [⟨0, 0xFF, 0x00⟩, ⟨1, 0xFF, 0x02⟩, ⟨24, 0xFF, 0x00⟩]
     body := .chatpad 25 [26, 27] }]

/-- Profile `T-CHATPAD` (R104). -/
def tChatpad : ModTable :=
  { shift := ⟨0xE0, 0x01⟩, green := ⟨0xE1, 0x02⟩, orange := ⟨0xE2, 0x04⟩,
    messenger := ⟨0xE3, 0x08⟩, capslock := ⟨0xE4, 0x20⟩ }

/-- The capability defaults (spec/92_eei_decisions.md D47). -/
def defaultCaps : List (Family × Caps) :=
  [(.wiredX, ⟨true, true, false, false, false, false⟩),
   (.wirelessX, ⟨true, true, true, true, true, true⟩),
   (.nextGen, ⟨true, false, false, false, false, false⟩),
   (.legacy, ⟨true, false, false, false, false, false⟩)]

/-- The parameter set made of the profiles of R100 to R105 and the defaults of R8.  No profile
gives IDLE_VARIANT a packet kind and no source gives the command bytes. -/
def profileConfig : Config :=
  { layouts := [(.wiredX, gkWired), (.wirelessX, tWireless), (.nextGen, gkNext),
                (.legacy, gkLegacy)]
    supported := [.wiredX, .wirelessX, .nextGen, .legacy, .idleVariant]
    presenceDriven := [.wirelessX]
    caps := defaultCaps
    powerMask := btnGuide
    mods := tChatpad
    cpKeys := 2
    inLenStd := 20
    inLenCockpit := 26
    outLenStd := 6
    outLenCockpit := 22
    placeholder := 0x00
    cmds := [] }

/-- `MAX_DEV` of R8. -/
def profileMaxDev : Nat := 4

end Sys2Proof
end

