-- ==== Sys2Proof/Machine/Operands.lean ====
section
/-!
DEFINITION. Every value the block assembles from input bytes (spec/30_encoding.md rule R99), the
number codes of the two enumerations (R16, R17), and packet classification (R85).
-/

namespace Sys2Proof

/-! ### Enumeration codes -/

/-- The 3-bit value of a family tag (R16, R26). -/
def Family.code : Family → BitVec 3
  | .unknown => 0
  | .wiredX => 1
  | .wirelessX => 2
  | .nextGen => 3
  | .legacy => 4
  | .keyboard => 5
  | .mouse => 6
  | .idleVariant => 7

/-- The family tag of a 3-bit value; all eight are legal (R26). -/
def Family.ofCode (v : BitVec 3) : Family :=
  match v.toNat with
  | 0 => .unknown
  | 1 => .wiredX
  | 2 => .wirelessX
  | 3 => .nextGen
  | 4 => .legacy
  | 5 => .keyboard
  | 6 => .mouse
  | _ => .idleVariant

/-- The 4-bit value of a target family (R17). -/
def TargetFamily.code : TargetFamily → BitVec 4
  | .disconnected => 0
  | .standard => 1
  | .cockpit => 2

/-- The target family of a 4-bit value; 3 to 15 name none (R40, R97). -/
def TargetFamily.ofCode (v : BitVec 4) : Option TargetFamily :=
  match v.toNat with
  | 0 => some .disconnected
  | 1 => some .standard
  | 2 => some .cockpit
  | _ => none

/-! ### Buffer reads (R12, R62) -/

/-- `rd8(buf, off)`.  A read at or beyond the buffer's end is never made under a well-formed layout
(R61); outside one it reads 0. -/
def rd8 (buf : Bytes) (off : Nat) : Byte := buf.getD off 0

/-- `rd16le(buf, off)`: byte `off` is the low byte (R62, R64). -/
def rd16le (buf : Bytes) (off : Nat) : BitVec 16 := rd8 buf (off + 1) ++ rd8 buf off

/-! ### PAD fields (R86, R87) -/

/-- The canonical bits one button entry contributes (R86). -/
def ButtonEntry.bits (buf : Bytes) : ButtonEntry → BitVec 16
  | .bit off b m => if rd8 buf off &&& b ≠ 0 then m else 0
  | .ana off m => if analogCut < rd8 buf off then m else 0

/-- `buttons(K, buf)`: the union of the entries' bits; a bit no entry names reads 0 (R86). -/
def assembleButtons (es : List ButtonEntry) (buf : Bytes) : BitVec 16 :=
  es.foldl (fun acc e => acc ||| e.bits buf) 0

/-- `trig(form, buf)`: one byte, or a shifted little-endian u16 truncated to 8 bits (R87, R142). -/
def TrigForm.read (buf : Bytes) : TrigForm → Byte
  | .byte off => rd8 buf off
  | .u16Shr off sh => (rd16le buf off >>> sh).setWidth 8

/-- The canonical pad state of a PAD kind (R142). -/
def PadFields.read (f : PadFields) (buf : Bytes) : PadState :=
  { buttons := assembleButtons f.buttons buf
    lt := f.lt.read buf
    rt := f.rt.read buf
    lx := rd16le buf f.lx
    ly := rd16le buf f.ly
    rx := rd16le buf f.rx
    ry := rd16le buf f.ry }

/-! ### Packet kinds (R85 to R91) -/

/-- The fields a kind assembles from a buffer it matched. -/
def KindBody.read (b : KindBody) (buf : Bytes) : Packet :=
  match b with
  | .pad f => .pad (f.read buf)
  | .presence off bit => .presence (rd8 buf off &&& bit != 0)
  | .chatpad m ks => .chatpad (rd8 buf m) (ks.map (rd8 buf))
  | .reinit => .reinit

/-- A match triple holds: `buf[off] & mask = val` (R85). -/
def MatchTriple.holds (buf : Bytes) (m : MatchTriple) : Bool := rd8 buf m.off &&& m.mask == m.val

/-- The kind accepts the buffer: long enough, and every triple holds (R85). -/
def Kind.accepts (buf : Bytes) (k : Kind) : Bool :=
  decide (k.minLen ≤ buf.length) && k.matchOn.all (MatchTriple.holds buf)

/-- `classify`: the first kind, in list order, that accepts the buffer (R85). -/
def classify (l : List Kind) (buf : Bytes) : Option Kind := l.find? (Kind.accepts buf)

/-- The kind has the type the packet's fields belong to (R84). -/
def KindBody.hasTypeOf (b : KindBody) (p : Packet) : Bool :=
  match b, p with
  | .pad _, .pad _ => true
  | .presence _ _, .presence _ => true
  | .chatpad _ _, .chatpad _ _ => true
  | .reinit, .reinit => true
  | _, _ => false

/-! ### Operand legality (R80, R82) -/

/-- `k` names a ControllerSlot (R80). -/
def isPlayer (k : Byte) : Bool := decide (k.toNat < maxPlayers)

/-- `k` names a polled peer, 1..3 (R80). -/
def isPeer (k : Byte) : Bool := decide (1 ≤ k.toNat) && decide (k.toNat ≤ numPeers)

/-- `tf` names a target family with report buffers, 1 or 2 (R82). -/
def isReportFamily (tf : BitVec 4) : Bool := tf == 1 || tf == 2

/-- The layout of a family has a kind of the packet's type. -/
def hasKind (l : List Kind) (p : Packet) : Bool := l.any (fun k => k.body.hasTypeOf p)

/-- The in-report a SLOT_WRITE of family `tf` carries has this length. -/
def inReportOk (c : Config) (tf : BitVec 4) (bytes : Bytes) : Bool :=
  match TargetFamily.ofCode tf with
  | some f => bytes.length == c.inLen f
  | none => false

/-- The out-report a PEER_SET_OUT of family `tf` carries has this length. -/
def outReportOk (c : Config) (tf : BitVec 4) (bytes : Bytes) : Bool :=
  match TargetFamily.ofCode tf with
  | some .standard => bytes.length == c.outLenStd
  | some .cockpit => bytes.length == c.outLenCockpit
  | _ => false

end Sys2Proof
end

