-- ==== Sys2Proof/Decode.lean ====
section
/-!
DEFINITION. The decoders of the three encoding layers (spec/30_encoding.md), total on any bytes and
rejecting by name, and after them the encoder written from the same tables.

* The operation port: `OPC ++ operands`, each operand in the smallest whole number of bytes,
  little-endian (R80, R81).
* The bus frames: the table of R97 on the first byte.
* The upstream packet kinds: the first kind of the layout that accepts the buffer (R85).

Ranges that R82 names (slots, players, target families, byte-string lengths) are not the decoder's:
the operation itself refuses them.  A byte too large for its operand's width is rejected here
(DESIGN CHOICE, log entry 8).
-/

namespace Sys2Proof

/-! ### The operation port -/

/-- The operation codes of R80. -/
inductive Opc where
  | reset | attach | detach | decode | readPad | buttonEdge | commitEdges | isDown | wasPressed
  | setRumble | setLed | setCpled | feedbackTick | slotWrite | slotRead | coordPoll | coordPing
  | peerReceive | peerRequest | peerSetOut | peerRead
deriving DecidableEq, Repr

/-- The OPC byte of each operation (R80). -/
def Opc.byte : Opc → Byte
  | .reset => 0x00
  | .attach => 0x01
  | .detach => 0x02
  | .decode => 0x03
  | .readPad => 0x04
  | .buttonEdge => 0x05
  | .commitEdges => 0x06
  | .isDown => 0x07
  | .wasPressed => 0x08
  | .setRumble => 0x09
  | .setLed => 0x0A
  | .setCpled => 0x0B
  | .feedbackTick => 0x0C
  | .slotWrite => 0x10
  | .slotRead => 0x11
  | .coordPoll => 0x12
  | .coordPing => 0x13
  | .peerReceive => 0x20
  | .peerRequest => 0x21
  | .peerSetOut => 0x22
  | .peerRead => 0x23

/-- The 21 operations in the order of R80's table. -/
def allOpcs : List Opc :=
  [.reset, .attach, .detach, .decode, .readPad, .buttonEdge, .commitEdges, .isDown, .wasPressed,
   .setRumble, .setLed, .setCpled, .feedbackTick, .slotWrite, .slotRead, .coordPoll, .coordPing,
   .peerReceive, .peerRequest, .peerSetOut, .peerRead]

/-- The operation an OPC byte names, if any: a total lookup in R80's table. -/
def Opc.ofByte (b : Byte) : Option Opc := allOpcs.find? (fun o => o.byte == b)

/-- The answer for an operand string of the wrong length: `n` operand bytes were wanted. -/
def arityReject (n : Nat) (ops : Bytes) : Decoded :=
  .reject (if ops.length < n then .missingOperand else .trailingBytes)

/-- An operand string that must be empty. -/
def arity0 (i : Instr) : Bytes → Decoded
  | [] => .instr i
  | ops => arityReject 0 ops

/-- An operand string of one byte. -/
def arity1 (k : Byte → Decoded) : Bytes → Decoded
  | [a] => k a
  | ops => arityReject 1 ops

/-- An operand string of two bytes. -/
def arity2 (k : Byte → Byte → Decoded) : Bytes → Decoded
  | [a, b] => k a b
  | ops => arityReject 2 ops

/-- An operand string of three bytes. -/
def arity3 (k : Byte → Byte → Byte → Decoded) : Bytes → Decoded
  | [a, b, c] => k a b c
  | ops => arityReject 3 ops

/-- An operand string of five bytes. -/
def arity5 (k : Byte → Byte → Byte → Byte → Byte → Decoded) : Bytes → Decoded
  | [a, b, c, d, e] => k a b c d e
  | ops => arityReject 5 ops

/-- An operand of `w ≤ 8` bits in one byte: the bits above it must be 0. -/
def narrow (w : Nat) (b : Byte) (k : BitVec w → Decoded) : Decoded :=
  if b.toNat < 2 ^ w then k (b.setWidth w) else .reject .operandWidth

/-- The u9 `len` operand in two bytes, low byte first (R81): bits above bit 8 must be 0. -/
def narrowLen (lo hi : Byte) (k : BitVec 9 → Decoded) : Decoded :=
  if hi.toNat < 2 then k ((hi ++ lo).setWidth 9) else .reject .operandWidth

/-- A u32 from four bytes, low byte first (R81). -/
def u32le (b0 b1 b2 b3 : Byte) : BitVec 32 := b3 ++ b2 ++ b1 ++ b0

/-- The operands of each operation (R80, R81). -/
def decodeOperands : Opc → Bytes → Decoded
  | .reset, ops => arity1 (fun b => narrow 2 b fun id => .instr (.reset id)) ops
  | .attach, ops =>
      arity5 (fun addr f inEp outEp chan =>
        narrow 3 f fun f => .instr (.attach addr (Family.ofCode f) inEp outEp chan)) ops
  | .detach, ops => arity1 (fun addr => .instr (.detach addr)) ops
  | .decode, addr :: chan :: f :: inEp :: outEp :: lo :: hi :: buf =>
      narrow 3 f fun f => narrowLen lo hi fun len =>
        .instr (.decode ⟨addr, chan, Family.ofCode f, inEp, outEp⟩ len buf)
  | .decode, _ => .reject .missingOperand
  | .readPad, ops => arity1 (fun i => .instr (.readPad i)) ops
  | .buttonEdge, ops => arity1 (fun i => .instr (.buttonEdge i)) ops
  | .commitEdges, ops => arity1 (fun i => .instr (.commitEdges i)) ops
  | .isDown, ops => arity2 (fun i code => .instr (.isDown i code)) ops
  | .wasPressed, ops => arity2 (fun i code => .instr (.wasPressed i code)) ops
  | .setRumble, ops => arity3 (fun i l r => .instr (.setRumble i l r)) ops
  | .setLed, ops => arity2 (fun i q => .instr (.setLed i q)) ops
  | .setCpled, ops => arity2 (fun i bits => .instr (.setCpled i bits)) ops
  | .feedbackTick, ops =>
      arity5 (fun i b0 b1 b2 b3 => .instr (.feedbackTick i (u32le b0 b1 b2 b3))) ops
  | .slotWrite, k :: tf :: bytes => narrow 4 tf fun tf => .instr (.slotWrite k tf bytes)
  | .slotWrite, _ => .reject .missingOperand
  | .slotRead, ops => arity2 (fun k tf => narrow 4 tf fun tf => .instr (.slotRead k tf)) ops
  | .coordPoll, ops => arity0 .coordPoll ops
  | .coordPing, ops => arity1 (fun k => .instr (.coordPing k)) ops
  | .peerReceive, lo :: hi :: t =>
      if t.length = (hi ++ lo).toNat then .instr (.peerReceive t) else .reject .lengthMismatch
  | .peerReceive, _ => .reject .missingOperand
  | .peerRequest, ops => arity0 .peerRequest ops
  | .peerSetOut, tf :: bytes => narrow 4 tf fun tf => .instr (.peerSetOut tf bytes)
  | .peerSetOut, _ => .reject .missingOperand
  | .peerRead, ops => arity0 .peerRead ops

/-- The operation port's decoder: one operation is one whole byte string (R81). -/
def decodePort : Bytes → Decoded
  | [] => .reject .emptyWord
  | opc :: ops =>
    match Opc.ofByte opc with
    | none => .reject (.unknownOpcode opc)
    | some o => decodeOperands o ops

/-! ### Bus frames -/

/-- The `TAG` field of a status byte, bits 7 to 4 (R93). -/
def tagOf (b : Byte) : BitVec 4 := b.extractLsb' 4 4

/-- The `FAM` field of a status byte, bits 3 to 0 (R93). -/
def famOf (b : Byte) : BitVec 4 := b.extractLsb' 0 4

/-- The status byte `0xF0 | tf` (R93). -/
def statusByte (fam : BitVec 4) : Byte := statusTag ++ fam

/-- The frame a coordinator-to-peer transaction starts with, by R97's table on its first byte. -/
def decodeFrame : Bytes → Decoded
  | [] => .reject .notAFrame
  | b :: rest =>
    if b = pingByte then .instr (.ping rest)
    else if tagOf b = statusTag then
      match TargetFamily.ofCode (famOf b) with
      | some .disconnected => .instr (.statusDisc rest)
      | some .standard => .instr (.statusStd rest)
      | some .cockpit => .instr (.statusCockpit rest)
      | none => .instr (.statusReserved (famOf b) rest)
    else .reject .notAFrame

/-! ### Upstream packets -/

/-- The packet instruction of assembled fields. -/
def Packet.instr (h : PacketHeader) : Packet → Instr
  | .pad p => .pad h p
  | .presence b => .presence h b
  | .chatpad m ks => .chatpad h m ks
  | .reinit => .reinit h

/-- The packet a buffer holds under layout `l`: classify, then assemble the kind's fields (R85). -/
def decodePacket (l : List Kind) (h : PacketHeader) (buf : Bytes) : Decoded :=
  match classify l buf with
  | none => .reject .noKind
  | some k => .instr ((k.body.read buf).instr h)

/-! ### All channels -/

/-- The decoder of every channel; only upstream packets look at the layout `l`. -/
def decode (l : List Kind) (x : Input) : Decoded :=
  match x.channel with
  | .port => decodePort x.bytes
  | .busFrame => decodeFrame x.bytes
  | .busResponse k => .instr (.response k x.bytes)
  | .upstream h => decodePacket l h x.bytes

/-! ### The encoder -/

/-- A u16 as two bytes, low byte first. -/
def u16bytes (v : BitVec 16) : Bytes := [v.extractLsb' 0 8, v.extractLsb' 8 8]

/-- A u32 as four bytes, low byte first (R81). -/
def u32bytes (v : BitVec 32) : Bytes :=
  [v.extractLsb' 0 8, v.extractLsb' 8 8, v.extractLsb' 16 8, v.extractLsb' 24 8]

/-- Set the bits of `v` in byte `off` of a buffer. -/
def orByte (off : Nat) (v : Byte) (buf : Bytes) : Bytes := buf.set off (rd8 buf off ||| v)

/-- Write a little-endian u16 at `off`. -/
def putU16 (off : Nat) (v : BitVec 16) (buf : Bytes) : Bytes :=
  (buf.set off (v.extractLsb' 0 8)).set (off + 1) (v.extractLsb' 8 8)

/-- The buffer a synthetic packet of kind `k` starts from: `minLen` zero bytes with every match
byte set to its value (R143). -/
def Kind.blank (k : Kind) : Bytes :=
  k.matchOn.foldl (fun buf m => buf.set m.off m.val) (List.replicate k.minLen 0)

/-- Make one button entry read pressed or not (R143): a `Bit` entry's bit, or 0xFF in an `Ana`
entry's byte. -/
def ButtonEntry.press (buttons : BitVec 16) (e : ButtonEntry) (buf : Bytes) : Bytes :=
  match e with
  | .bit off b m => if buttons &&& m ≠ 0 then orByte off b buf else buf
  | .ana off m => if buttons &&& m ≠ 0 then buf.set off 0xFF else buf

/-- Write a trigger so that reading it back gives `v` (R87). -/
def TrigForm.put (v : Byte) (t : TrigForm) (buf : Bytes) : Bytes :=
  match t with
  | .byte off => buf.set off v
  | .u16Shr off sh => putU16 off (v.setWidth 16 <<< sh) buf

/-- The synthetic PAD packet of R143, with the analog fields of `p`. -/
def PadFields.put (f : PadFields) (p : PadState) (buf : Bytes) : Bytes :=
  putU16 f.ry p.ry (putU16 f.rx p.rx (putU16 f.ly p.ly (putU16 f.lx p.lx
    (f.rt.put p.rt (f.lt.put p.lt
      (f.buttons.foldl (fun b e => e.press p.buttons b) buf))))))

/-- Write a list of bytes at a list of offsets. -/
def putKeys : List Nat → Bytes → Bytes → Bytes
  | o :: os, k :: ks, buf => putKeys os ks (buf.set o k)
  | _, _, buf => buf

/-- Write the fields of a packet into a blank buffer of its kind. -/
def KindBody.put (b : KindBody) (p : Packet) (buf : Bytes) : Bytes :=
  match b, p with
  | .pad f, .pad st => f.put st buf
  | .presence off bit, .presence true => orByte off bit buf
  | .presence off bit, .presence false => buf.set off (rd8 buf off &&& ~~~bit)
  | .chatpad m ks, .chatpad mods keys => putKeys ks keys (buf.set m mods)
  | _, _ => buf

/-- The synthetic packet of kind `k` that carries `p`. -/
def Kind.synth (k : Kind) (p : Packet) : Bytes := k.body.put p k.blank

/-- The synthetic packet for `p` under a layout: that of the first kind of `p`'s type. -/
def synthPacket (l : List Kind) (p : Packet) : Bytes :=
  match l.find? (fun k => k.body.hasTypeOf p) with
  | none => []
  | some k => k.synth p

/-- The encoding of an instruction: its channel and its bytes.  Only the upstream packets look at
the layout. -/
def encode (l : List Kind) : Instr → Input
  | .reset id => ⟨.port, [Opc.reset.byte, id.setWidth 8]⟩
  | .attach addr fam inEp outEp chan =>
      ⟨.port, [Opc.attach.byte, addr, fam.code.setWidth 8, inEp, outEp, chan]⟩
  | .detach addr => ⟨.port, [Opc.detach.byte, addr]⟩
  | .decode h len buf =>
      ⟨.port, Opc.decode.byte :: h.addr :: h.chan :: h.hostFam.code.setWidth 8 :: h.inEp ::
        h.outEp :: (u16bytes (len.setWidth 16) ++ buf)⟩
  | .readPad i => ⟨.port, [Opc.readPad.byte, i]⟩
  | .buttonEdge i => ⟨.port, [Opc.buttonEdge.byte, i]⟩
  | .commitEdges i => ⟨.port, [Opc.commitEdges.byte, i]⟩
  | .isDown i code => ⟨.port, [Opc.isDown.byte, i, code]⟩
  | .wasPressed i code => ⟨.port, [Opc.wasPressed.byte, i, code]⟩
  | .setRumble i l r => ⟨.port, [Opc.setRumble.byte, i, l, r]⟩
  | .setLed i q => ⟨.port, [Opc.setLed.byte, i, q]⟩
  | .setCpled i bits => ⟨.port, [Opc.setCpled.byte, i, bits]⟩
  | .feedbackTick i now => ⟨.port, Opc.feedbackTick.byte :: i :: u32bytes now⟩
  | .slotWrite k tf bytes => ⟨.port, Opc.slotWrite.byte :: k :: tf.setWidth 8 :: bytes⟩
  | .slotRead k tf => ⟨.port, [Opc.slotRead.byte, k, tf.setWidth 8]⟩
  | .coordPoll => ⟨.port, [Opc.coordPoll.byte]⟩
  | .coordPing k => ⟨.port, [Opc.coordPing.byte, k]⟩
  | .peerReceive t => ⟨.port, Opc.peerReceive.byte :: (u16bytes (BitVec.ofNat 16 t.length) ++ t)⟩
  | .peerRequest => ⟨.port, [Opc.peerRequest.byte]⟩
  | .peerSetOut tf bytes => ⟨.port, Opc.peerSetOut.byte :: tf.setWidth 8 :: bytes⟩
  | .peerRead => ⟨.port, [Opc.peerRead.byte]⟩
  | .statusDisc rest => ⟨.busFrame, statusByte TargetFamily.disconnected.code :: rest⟩
  | .statusStd report => ⟨.busFrame, statusByte TargetFamily.standard.code :: report⟩
  | .statusCockpit report => ⟨.busFrame, statusByte TargetFamily.cockpit.code :: report⟩
  | .statusReserved fam rest => ⟨.busFrame, statusByte fam :: rest⟩
  | .ping rest => ⟨.busFrame, pingByte :: rest⟩
  | .response k rx => ⟨.busResponse k, rx⟩
  | .pad h p => ⟨.upstream h, synthPacket l (.pad p)⟩
  | .presence h b => ⟨.upstream h, synthPacket l (.presence b)⟩
  | .chatpad h m ks => ⟨.upstream h, synthPacket l (.chatpad m ks)⟩
  | .reinit h => ⟨.upstream h, synthPacket l .reinit⟩

/-! ### A word of the opcode table -/

/-- The bytes of a number as the opcode table numbers them: bit 0 is the least significant bit of
the first byte. -/
def wordBytes (nbits w : Nat) : Bytes :=
  (List.range (nbits / 8)).map (fun i => BitVec.ofNat 8 (w >>> (8 * i)))

/-- Lengthen a byte string with zero bytes to `n` bytes, or cut it there. -/
def fitTo (n : Nat) (b : Bytes) : Bytes := (b ++ List.replicate n 0).take n

/-- The number of bytes an operation has before its byte-string operand. -/
def Opc.headLen : Opc → Nat
  | .reset | .detach | .readPad | .buttonEdge | .commitEdges | .coordPing | .peerSetOut => 2
  | .isDown | .wasPressed | .setLed | .setCpled | .slotWrite | .slotRead | .peerReceive => 3
  | .setRumble => 4
  | .attach | .feedbackTick => 6
  | .decode => 8
  | .coordPoll | .peerRequest | .peerRead => 1

/-- The length of the byte-string operand that a head of `headLen` bytes asks for (R80, R81). -/
def Opc.tailLen (c : Config) (o : Opc) (head : Bytes) : Nat :=
  match o with
  | .decode => (rd16le head 6).toNat
  | .peerReceive => (rd16le head 1).toNat
  | .slotWrite => ((TargetFamily.ofCode (famOf (rd8 head 2))).map c.inLen).getD 0
  | .peerSetOut =>
      match TargetFamily.ofCode (famOf (rd8 head 1)) with
      | some .standard => c.outLenStd
      | some .cockpit => c.outLenCockpit
      | _ => 0
  | _ => 0

/-- The whole length of the frame a first byte starts (R96): a status frame's report, or 1. -/
def frameLen (c : Config) (b : Byte) : Nat :=
  if tagOf b = statusTag then
    match TargetFamily.ofCode (famOf b) with
    | some tf => 1 + c.inLen tf
    | none => 1
  else 1

/-- The input an opcode-table word stands for, its bits above `nbits` zero: a first byte that is an
OPC arrives on the port, one that starts a frame of R97 on the bus (the two sets of first bytes are
disjoint), and any other first byte is a port word the port rejects. -/
def tableInput (c : Config) (nbits w : Nat) : Input :=
  let given := wordBytes nbits w
  match given with
  | [] => ⟨.port, []⟩
  | b :: _ =>
    match Opc.ofByte b with
    | some o =>
        let head := fitTo o.headLen given
        ⟨.port, fitTo (o.headLen + o.tailLen c head) given⟩
    | none =>
        if b = pingByte ∨ tagOf b = statusTag then ⟨.busFrame, fitTo (frameLen c b) given⟩
        else ⟨.port, given⟩

/-- The instruction the decoder reads from an opcode-table word. -/
def decodeTableWord (nbits w : Nat) : Option Instr :=
  match decode [] (tableInput profileConfig nbits w) with
  | .instr i => some i
  | .reject _ => none

end Sys2Proof
end

