-- ==== Sys2Proof/Machine/State.lean ====
section
/-!
DEFINITION. The state of one node as plain data (spec/10_state.md), its fault and refusal reasons,
and the state right after reset.

`State` holds what R20 gives a node: the node identity, the DeviceRecord pool, the coordinator's
ControllerSlots and the peer's ControllerSlot.  Beside these it holds the model's own fields, none
of which is state of the block: the parameters (`cfg`), whether a RESET has happened (`booted`), the
input port (`inputs`), the two output ports (`result`, `events`), and the answers external agents
will give (`upTape`, `errTape`, `rxTape`, `drawCount`).
-/

namespace Sys2Proof

namespace Machine

/-! ### The DeviceRecord (R23 to R38) -/

/-- The two rumble levels of R31. -/
structure Rumble where
  l : Byte
  r : Byte
deriving DecidableEq, Repr

/-- `cpHist[0..3)` of R34. -/
structure Hist where
  h0 : Byte
  h1 : Byte
  h2 : Byte
deriving DecidableEq, Repr

/-- One DeviceRecord: the fields of R26 to R37. -/
structure DeviceRecord where
  /-- `fam` (R26): the record is free iff it is UNKNOWN (R25). -/
  fam : Family
  /-- The transport handles and the key `(addr, chan)` (R27). -/
  addr : Byte
  inEp : Byte
  outEp : Byte
  chan : Byte
  /-- The canonical pad state (R28). -/
  pad : PadState
  /-- The previous-cycle button mask (R30). -/
  prevButtons : BitVec 16
  /-- Requested and actual rumble levels (R31). -/
  rumReq : Rumble
  rumAct : Rumble
  /-- Requested and actual LED (R32). -/
  ledReq : Byte
  ledAct : Byte
  /-- The chatpad live state: modifier byte and `CP_KEYS` key codes (R33). -/
  cpMods : Byte
  cpKeys : Bytes
  /-- The chatpad edge history (R34). -/
  cpHist : Hist
  /-- "chatpad needs re-initialization" (R35). -/
  cpInitPending : Bool
  /-- Requested and actual chatpad LEDs (R36). -/
  cpLedReq : Byte
  cpLedAct : Byte
  /-- Time of the last keepalive emission (R37). -/
  tPeriodic : BitVec 32
  /-- Last time the power condition was seen false, or of the last power-off (R37). -/
  tPowerHold : BitVec 32
deriving DecidableEq, Repr

/-- A pad state with every field 0. -/
def zeroPad : PadState := ⟨0, 0, 0, 0, 0, 0, 0⟩

/-- A record with every field 0 (R25), for `n = CP_KEYS` key codes. -/
def zeroRecord (n : Nat) : DeviceRecord :=
  { fam := .unknown, addr := 0, inEp := 0, outEp := 0, chan := 0, pad := zeroPad,
    prevButtons := 0, rumReq := ⟨0, 0⟩, rumAct := ⟨0, 0⟩, ledReq := 0, ledAct := 0,
    cpMods := 0, cpKeys := List.replicate n 0, cpHist := ⟨0, 0, 0⟩, cpInitPending := false,
    cpLedReq := 0, cpLedAct := 0, tPeriodic := 0, tPowerHold := 0 }

/-! ### ControllerSlots (R39 to R41) -/

/-- One ControllerSlot: the target family and both report pairs (R40, R41). -/
structure CtrlSlot where
  tf : TargetFamily
  inStd : Bytes
  inCockpit : Bytes
  outStd : Bytes
  outCockpit : Bytes
deriving DecidableEq, Repr

/-- A ControllerSlot at its reset value: DISCONNECTED, every buffer byte 0 (R44). -/
def resetSlot (c : Config) : CtrlSlot :=
  { tf := .disconnected
    inStd := List.replicate c.inLenStd 0
    inCockpit := List.replicate c.inLenCockpit 0
    outStd := List.replicate c.outLenStd 0
    outCockpit := List.replicate c.outLenCockpit 0 }

/-- `C.slot[0..MAX_PLAYERS)` (R40). -/
structure Slots where
  p0 : CtrlSlot
  p1 : CtrlSlot
  p2 : CtrlSlot
  p3 : CtrlSlot
deriving DecidableEq, Repr

/-- The four slots at their reset values. -/
def resetSlots (c : Config) : Slots := ⟨resetSlot c, resetSlot c, resetSlot c, resetSlot c⟩

/-! ### Outputs -/

/-- The cause E8 carries (R231). -/
inductive FrameError where
  | len | tag
deriving DecidableEq, Repr

/-- The error conditions E1 to E9 with their info (R231). -/
inductive ErrorInfo where
  | malformed (len : BitVec 9)                            -- E1
  | unsupported (fam : Family)                            -- E2
  | poolFull (addr chan : Byte)                           -- E3
  | noDevice (addr chan : Byte)                           -- E4
  | uptxFail (slot : Nat) (kind : CmdKind)                -- E5
  | busSendFail (k : Nat) (err : Byte)                    -- E6
  | busShortRead (k : Nat) (n : Nat) (expected : Nat)     -- E7
  | frameReject (why : FrameError) (b : Byte) (n : Nat)   -- E8
  | storeMismatch                                         -- E9, never raised by this block
deriving DecidableEq, Repr

/-- The events of R13. -/
inductive Event where
  | uptx (addr : Byte) (ep : Byte) (p : Bytes)
  | busw (addr : Nat) (frame : Bytes)
  | busr (addr : Nat) (expected : Nat)
  | ackPing
  | familyChanged (tf : TargetFamily)
  | diag (e : ErrorInfo)
deriving DecidableEq, Repr

/-- The result port (R42, R80). -/
inductive Result where
  | none
  | slot (s : Option Nat)
  | isPad (b : Bool)
  | pad (p : PadState)
  | mask (m : BitVec 16)
  | bit (b : Bool)
  | bytes (b : Bytes)
  | report (tf : TargetFamily) (b : Bytes)
deriving DecidableEq, Repr

/-! ### The node -/

/-- One node.  The first five fields after `cfg` are R20's; the others are the model's own. -/
structure State where
  /-- The parameters (R8); no operation writes them. -/
  cfg : Config
  /-- `NODE_ID` (R22). -/
  nodeId : BitVec 2
  /-- `rec[0..MAX_DEV)` (R23); its length is `MAX_DEV`. -/
  pool : List DeviceRecord
  /-- `C.slot[0..4)` (R40). -/
  slots : Slots
  /-- `P` (R41). -/
  peer : CtrlSlot
  /-- A RESET has happened (R238: every other operation before the first one is refused). -/
  booted : Bool
  /-- The inputs delivered and not yet taken, oldest first (R239). -/
  inputs : List Input
  /-- The result port: what the last operation returned. -/
  result : Result
  /-- The event port: every event emitted so far, oldest first. -/
  events : List Event
  /-- The answers the upstream primitive will give next (R170). -/
  upTape : List TransferResult
  /-- The error codes bus sends will answer next (R191). -/
  errTape : List Byte
  /-- The byte strings bus reads will receive next (R191). -/
  rxTape : List Bytes
  /-- How many draws were taken from the free values instead. -/
  drawCount : Nat
deriving DecidableEq, Repr

/-- The block "never traps, halts or stops" (R230): no fault exists, so the type has no value. -/
inductive Fault where
deriving DecidableEq, Repr

/-- Why an operation is refused (R238).  Every refusal is safe: it stops the run where the spec
says the model must have no step. -/
inductive Refusal where
  /-- Raised by an arm of `exec` that has no meaning yet; safe. -/
  | notModelled (mnemonic : String)
  /-- Raised by the step when the operation port cannot decode the bytes (R81, R98); safe. -/
  | badWord (r : Reject)
  /-- Raised by every operation but RESET before the first RESET (R238, R263); safe. -/
  | beforeReset
  /-- Raised by an operation of the other role (R190, R244); safe. -/
  | wrongRole
  /-- Raised by an operation whose operand is out of range (R82); safe. -/
  | operandRange
  /-- Raised by every operation under a parameter set that breaks R9; safe. -/
  | illFormedParameters
deriving DecidableEq, Repr

/-- The machine right after `RESET 0` with the parameter set of R100 to R105: every element at the
value of R44, nothing delivered, nothing emitted.  `NODE_ID` is the sampled input, here 0 (DESIGN
CHOICE, log entry 2); the parameters are the spec's named profiles (DESIGN CHOICE, log entry 3). -/
def State.reset : State :=
  { cfg := profileConfig
    nodeId := 0
    pool := List.replicate profileMaxDev (zeroRecord profileConfig.cpKeys)
    slots := resetSlots profileConfig
    peer := resetSlot profileConfig
    booted := true
    inputs := []
    result := .none
    events := []
    upTape := []
    errTape := []
    rxTape := []
    drawCount := 0 }

end Machine
end Sys2Proof
end

