-- ==== Sys2Proof/Machine/Ops.lean ====
section
/-!
DEFINITION. The named operations over a node's state: its role, the DeviceRecord pool, the report
buffers, the output ports, the draws, raising an error condition, and the acceptance of an
operation.

The block has no trap: `raise` (spec/00_scope.md rule R13, spec/60_exceptions.md rules R230, R231
and R241) is the only exceptional action, and nothing is returned from (R242).
-/

namespace Sys2Proof.Machine

/-! ### Role and parameters -/

/-- `ROLE` of R22. -/
inductive Role where
  | coordinator | peer
deriving DecidableEq, Repr

/-- `ROLE` is derived from `NODE_ID`: 0 is the coordinator, 1 to 3 a peer (R22). -/
def State.role (s : State) : Role := if s.nodeId = 0 then .coordinator else .peer

/-- `MAX_DEV`: the number of records in the pool (R23). -/
def State.maxDev (s : State) : Nat := s.pool.length

/-- The node's parameters meet R9, `1 ≤ MAX_DEV ≤ 255` among them. -/
def State.paramsWf (s : State) : Bool :=
  s.cfg.wf && decide (1 ≤ s.maxDev) && decide (s.maxDev ≤ 255)

/-! ### The output ports and raise (R13) -/

/-- `emit EV(args)`. -/
def State.emit (s : State) (e : Event) : State := { s with events := s.events ++ [e] }

/-- `return v`: put `v` on the result port. -/
def State.ret (s : State) (v : Result) : State := { s with result := v }

/-- Which error conditions R231 marks as reported.  E9 is never raised. -/
def ErrorInfo.reported : ErrorInfo → Bool
  | .malformed _ => false
  | .unsupported _ => false
  | .poolFull _ _ => true
  | .noDevice _ _ => false
  | .uptxFail _ _ => true
  | .busSendFail _ _ => true
  | .busShortRead _ _ _ => true
  | .frameReject _ _ _ => true
  | .storeMismatch => false

/-- `raise E(info)`: a reported condition emits `DIAG(E, info)`, a silent one emits nothing; no
state changes and no vector is taken (R13, R231, R241). -/
def State.raise (s : State) (e : ErrorInfo) : State := if e.reported then s.emit (.diag e) else s

/-! ### Draws (R13): scripted answers first, then free values -/

/-- `draw res` after a UPTX (R170). -/
def State.drawTransfer (s : State) : TransferResult × State :=
  match s.upTape with
  | r :: rest => (r, { s with upTape := rest })
  | [] => (Config.freeTransfer s.drawCount, { s with drawCount := s.drawCount + 1 })

/-- `draw err` after a BUSW (R191). -/
def State.drawErr (s : State) : Byte × State :=
  match s.errTape with
  | e :: rest => (e, { s with errTape := rest })
  | [] => (Config.freeErr s.drawCount, { s with drawCount := s.drawCount + 1 })

/-- `draw rx` after a BUSR (R191). -/
def State.drawRx (s : State) : Bytes × State :=
  match s.rxTape with
  | r :: rest => (r, { s with rxTape := rest })
  | [] => (Config.freeRx s.drawCount, { s with drawCount := s.drawCount + 1 })

/-! ### The DeviceRecord pool (R23 to R25, R130 to R132) -/

/-- A record is live iff its family is not UNKNOWN (R25). -/
def DeviceRecord.live (r : DeviceRecord) : Bool := r.fam != .unknown

/-- `rec[i]`.  An index at or beyond `MAX_DEV` is never read: the operation refuses it (R82). -/
def State.dev (s : State) (i : Nat) : DeviceRecord := s.pool.getD i (zeroRecord s.cfg.cpKeys)

/-- `rec[i] <- r`. -/
def State.setRec (s : State) (i : Nat) (r : DeviceRecord) : State :=
  { s with pool := s.pool.set i r }

/-- The record has the key `(addr, chan)` and is live (R27, R130). -/
def DeviceRecord.hasKey (r : DeviceRecord) (addr chan : Byte) : Bool :=
  r.live && r.addr == addr && r.chan == chan

/-- `lookup(addr, chan)` (R130); R38(a) makes the answer unique. -/
def State.lookup (s : State) (addr chan : Byte) : Option Nat :=
  s.pool.findIdx? (fun r => r.hasKey addr chan)

/-- The lowest free index, if any (R131). -/
def State.freeIndex (s : State) : Option Nat := s.pool.findIdx? (fun r => !r.live)

/-- The record an allocation writes: zero but for the five handles and the chatpad init flag,
`CP_INIT(f)` (R131). -/
def freshRecord (c : Config) (f : Family) (addr inEp outEp chan : Byte) : DeviceRecord :=
  { zeroRecord c.cpKeys with
    fam := f, addr := addr, inEp := inEp, outEp := outEp, chan := chan,
    cpInitPending := (c.capsOf f).cpInit }

/-- `alloc` of R131: the lowest free slot, or E3 and NONE. -/
def State.alloc (s : State) (f : Family) (addr inEp outEp chan : Byte) : Option Nat × State :=
  match s.freeIndex with
  | none => (none, s.raise (.poolFull addr chan))
  | some i => (some i, s.setRec i (freshRecord s.cfg f addr inEp outEp chan))

/-- `free(s)` of R132: every field 0. -/
def State.free (s : State) (i : Nat) : State := s.setRec i (zeroRecord s.cfg.cpKeys)

/-- Change record `i` if it is live; a free record is left unchanged (R151, R160 to R162). -/
def State.updateLive (s : State) (i : Nat) (f : DeviceRecord → DeviceRecord) : State :=
  if (s.dev i).live then s.setRec i (f (s.dev i)) else s

/-! ### ControllerSlots (R40, R41) -/

/-- The player index of an operand; the operation refuses 4 and above (R82). -/
def playerIx (k : Byte) : Fin 4 := Fin.ofNat 4 k.toNat

/-- `C.slot[k]`. -/
def Slots.get (c : Slots) (k : Fin 4) : CtrlSlot :=
  match k with
  | 0 => c.p0
  | 1 => c.p1
  | 2 => c.p2
  | 3 => c.p3

/-- `C.slot[k] <- v`. -/
def Slots.set (c : Slots) (k : Fin 4) (v : CtrlSlot) : Slots :=
  match k with
  | 0 => { c with p0 := v }
  | 1 => { c with p1 := v }
  | 2 => { c with p2 := v }
  | 3 => { c with p3 := v }

/-- `C.slot[k]` of a node. -/
def State.slot (s : State) (k : Fin 4) : CtrlSlot := s.slots.get k

/-- `C.slot[k] <- v` of a node. -/
def State.setSlot (s : State) (k : Fin 4) (v : CtrlSlot) : State :=
  { s with slots := s.slots.set k v }

/-- `P <- v`. -/
def State.setPeer (s : State) (v : CtrlSlot) : State := { s with peer := v }

/-- `in[tf]`; DISCONNECTED has no in-report buffer (R40). -/
def CtrlSlot.inBuf (c : CtrlSlot) : TargetFamily → Bytes
  | .disconnected => []
  | .standard => c.inStd
  | .cockpit => c.inCockpit

/-- `out[tf]`; DISCONNECTED has no out-report buffer (R40, R195). -/
def CtrlSlot.outBuf (c : CtrlSlot) : TargetFamily → Bytes
  | .disconnected => []
  | .standard => c.outStd
  | .cockpit => c.outCockpit

/-- `in[tf] <- b`. -/
def CtrlSlot.setIn (c : CtrlSlot) (tf : TargetFamily) (b : Bytes) : CtrlSlot :=
  match tf with
  | .disconnected => c
  | .standard => { c with inStd := b }
  | .cockpit => { c with inCockpit := b }

/-- `out[tf] <- b`. -/
def CtrlSlot.setOut (c : CtrlSlot) (tf : TargetFamily) (b : Bytes) : CtrlSlot :=
  match tf with
  | .disconnected => c
  | .standard => { c with outStd := b }
  | .cockpit => { c with outCockpit := b }

/-- Copy the bytes of `new` over the first bytes of `old`; the length of `old` and its later bytes
stay (R194, R196). -/
def overwrite (old new : Bytes) : Bytes := new.take old.length ++ old.drop new.length

/-! ### The report buffers as one byte-addressed memory (R60, "report buffers") -/

/-- The eight kinds of report buffer: a coordinator slot's or the peer's, in or out, of either
connected family. -/
inductive BufId where
  | coordIn (k : Fin 4) (cockpit : Bool)
  | coordOut (k : Fin 4) (cockpit : Bool)
  | peerIn (cockpit : Bool)
  | peerOut (cockpit : Bool)
deriving DecidableEq, Repr

/-- The byte string a buffer holds. -/
def State.buffer (s : State) : BufId → Bytes
  | .coordIn k false => (s.slot k).inStd
  | .coordIn k true => (s.slot k).inCockpit
  | .coordOut k false => (s.slot k).outStd
  | .coordOut k true => (s.slot k).outCockpit
  | .peerIn false => s.peer.inStd
  | .peerIn true => s.peer.inCockpit
  | .peerOut false => s.peer.outStd
  | .peerOut true => s.peer.outCockpit

/-- The length R40 and R41 give a buffer. -/
def BufId.size (c : Config) : BufId → Nat
  | .coordIn _ false | .peerIn false => c.inLenStd
  | .coordIn _ true | .peerIn true => c.inLenCockpit
  | .coordOut _ false | .peerOut false => c.outLenStd
  | .coordOut _ true | .peerOut true => c.outLenCockpit

/-- The byte at an offset of a report buffer, `none` beyond its end (R60). -/
def State.readByte (s : State) (b : BufId) (off : Nat) : Option Byte := (s.buffer b)[off]?

/-- Every report buffer of a ControllerSlot has its length (R40, R41). -/
def CtrlSlot.wf (c : Config) (sl : CtrlSlot) : Bool :=
  sl.inStd.length == c.inLenStd && sl.inCockpit.length == c.inLenCockpit &&
    sl.outStd.length == c.outLenStd && sl.outCockpit.length == c.outLenCockpit

/-- The report-buffer memory has its one form: each of the 20 buffers has exactly the length of its
family and direction, so equal memories are equal data. -/
def Memory.wf (s : State) : Bool :=
  s.slots.p0.wf s.cfg && s.slots.p1.wf s.cfg && s.slots.p2.wf s.cfg && s.slots.p3.wf s.cfg &&
    s.peer.wf s.cfg

/-! ### Acceptance of an operation (R82, R190, R238) -/

/-- Run `act` if the port accepts the operation: the parameters are well formed (R9), a RESET has
happened, the node has the operation's role, and the operands are in range; otherwise refuse, with
no state change. -/
def accept (role : Role) (legal : Bool) (s : State) (act : State → State) :
    Host.Outcome State Fault Refusal :=
  if s.paramsWf = false then .refused .illFormedParameters
  else if s.booted = false then .refused .beforeReset
  else if s.role ≠ role then .refused .wrongRole
  else if legal = false then .refused .operandRange
  else .next (act s)

/-- The slot operand `s < MAX_DEV` (R82). -/
def State.slotLegal (s : State) (i : Byte) : Bool := decide (i.toNat < s.maxDev)

end Sys2Proof.Machine
end

