-- ==== Sys2Proof/Machine/Coordinator.lean ====
section
/-!
DEFINITION. The coordinator's transport operations (spec/42_transport.md rules R193 to R201) and
the RESPONSE frame.
-/

namespace Sys2Proof.Machine

/-- The status frame of a slot: `[0xF0 | tf] ++ in[tf][0 .. IN_LEN(tf))` (R93). -/
def statusFrame (c : Config) (sl : CtrlSlot) : Bytes :=
  statusByte sl.tf.code :: (sl.inBuf sl.tf).take (c.inLen sl.tf)

/-- The receive step (R194 to R196): copy at most `E` received bytes over the out-report's first
bytes, drain the rest, and raise E7 on a short read.  A disconnected slot has no buffer to copy
to. -/
def receiveStep (k : Fin 4) (tf : TargetFamily) (rx : Bytes) (e : Nat) (s : State) : State :=
  let sl := s.slot k
  let s1 := s.setSlot k (sl.setOut tf (overwrite (sl.outBuf tf) (rx.take e)))
  if rx.length < e then s1.raise (.busShortRead k.val rx.length e) else s1

/-- The read half of a peer's poll: BUSR, the draw of `rx`, and the receive step (R193). -/
def pollRead (k : Fin 4) (tf : TargetFamily) (s : State) : State :=
  let e := s.cfg.outLen tf
  let d := (s.emit (.busr (peerAddr k.val) e)).drawRx
  receiveStep k tf d.1 e d.2

/-- The send half of a peer's poll: BUSW of the status frame, and the draw of `err` (R193). -/
def pollSend (k : Fin 4) (s : State) : Byte × State :=
  (s.emit (.busw (peerAddr k.val) (statusFrame s.cfg (s.slot k)))).drawErr

/-- One peer of COORD_POLL: the status frame, the draw of `err`, then E6 or the read (R193). -/
def pollPeer (k : Fin 4) (s : State) : State :=
  let d := pollSend k s
  if d.1 ≠ 0 then d.2.raise (.busSendFail k.val d.1) else pollRead k (s.slot k).tf d.2

/-- The peers in polling order (R193). -/
def polledPeers : List (Fin 4) := [1, 2, 3]

/-- COORD_POLL's effect: all three peers, whatever happened to the earlier ones (R193). -/
def coordPollOp (s : State) : State := (polledPeers.foldl (fun s k => pollPeer k s) s).ret .none

/-- COORD_POLL. -/
def execCoordPoll (s : State) : Host.Outcome State Fault Refusal :=
  accept .coordinator true s coordPollOp

/-- BUSW of the ping byte, and the draw of `err` (R197). -/
def pingSend (k : Byte) (s : State) : Byte × State :=
  (s.emit (.busw (peerAddr k.toNat) [pingByte])).drawErr

/-- COORD_PING's effect (R197). -/
def coordPingOp (k : Byte) (s : State) : State :=
  let d := pingSend k s
  (if d.1 ≠ 0 then d.2.raise (.busSendFail k.toNat d.1) else d.2).ret .none

/-- COORD_PING; `k` outside 1..3 is refused (R82). -/
def execCoordPing (k : Byte) (s : State) : Host.Outcome State Fault Refusal :=
  accept .coordinator (isPeer k) s (coordPingOp k)

/-- SLOT_WRITE's effect (R200).  An illegal `tf` is refused before this runs. -/
def slotWriteOp (k : Fin 4) (tf : BitVec 4) (bytes : Bytes) (s : State) : State :=
  match TargetFamily.ofCode tf with
  | none => s
  | some f => (s.setSlot k ({ s.slot k with tf := f }.setIn f bytes)).ret .none

/-- SLOT_WRITE; an illegal `k` or `tf`, or bytes of the wrong length, are refused (R82). -/
def execSlotWrite (k : Byte) (tf : BitVec 4) (bytes : Bytes) (s : State) :
    Host.Outcome State Fault Refusal :=
  accept .coordinator (isPlayer k && inReportOk s.cfg tf bytes) s (slotWriteOp (playerIx k) tf bytes)

/-- The out-report of family `tf` in a slot (R201). -/
def slotReadOp (k : Fin 4) (tf : BitVec 4) (s : State) : State :=
  match TargetFamily.ofCode tf with
  | none => s
  | some f => s.ret (.bytes ((s.slot k).outBuf f))

/-- SLOT_READ; an illegal `k`, or `tf` outside 1 and 2, is refused (R82, R201). -/
def execSlotRead (k : Byte) (tf : BitVec 4) (s : State) : Host.Outcome State Fault Refusal :=
  accept .coordinator (isPlayer k && isReportFamily tf) s (slotReadOp (playerIx k) tf)

/-- The receive step of a response frame from peer `k`, at the size the coordinator expects
(R95, R194). -/
def responseOp (k : Fin 4) (rx : Bytes) (s : State) : State :=
  let tf := (s.slot k).tf
  (receiveStep k tf rx (s.cfg.outLen tf) s).ret .none

/-- RESPONSE as an input of its own: the coordinator's receive step for the frame (R194; DESIGN
CHOICE, log entry 6). -/
def execResponse (k : Byte) (rx : Bytes) (s : State) : Host.Outcome State Fault Refusal :=
  accept .coordinator (isPeer k) s (responseOp (playerIx k) rx)

end Sys2Proof.Machine
end

