-- ==== Sys2Proof/Machine/Decoder.lean ====
section
/-!
DEFINITION. DECODE and its four packet paths (spec/40_decoder.md rules R140 to R145), and the four
upstream packet kinds as instructions of their own.

DECODE classifies its buffer and runs the matched kind's path.  A packet-kind instruction is a
packet already classified: it runs the same checks that do not need the buffer, then the same path.
-/

namespace Sys2Proof.Machine

/-- The family a packet is decoded with: the record's if the key is live, else the host's
(R140 step 4). -/
def State.familyFor (s : State) (h : PacketHeader) : Family :=
  match s.lookup h.addr h.chan with
  | some i => (s.dev i).fam
  | none => h.hostFam

/-- `presence` (R141): allocate on present with no record, free on absent with one. -/
def presencePath (f : Family) (h : PacketHeader) (present : Bool) (s : State) : State :=
  match present, s.lookup h.addr h.chan with
  | true, none => (s.alloc f h.addr h.inEp h.outEp h.chan).2.ret (.isPad false)
  | false, some i => (s.free i).ret (.isPad false)
  | _, _ => s.ret (.isPad false)

/-- `pad` (R142): every pad field is overwritten; a new pad report. -/
def padPath (i : Nat) (p : PadState) (s : State) : State :=
  (s.setRec i { s.dev i with pad := p }).ret (.isPad true)

/-- `chatpad` (R144): the live chatpad state is replaced. -/
def chatpadPath (i : Nat) (mods : Byte) (keys : Bytes) (s : State) : State :=
  (s.setRec i { s.dev i with cpMods := mods, cpKeys := keys }).ret (.isPad false)

/-- `reinit` (R145). -/
def reinitPath (i : Nat) (s : State) : State :=
  (s.setRec i { s.dev i with cpInitPending := true }).ret (.isPad false)

/-- Steps 8 to 10 of DECODE on the fields of a matched kind (R140). -/
def packetPath (f : Family) (h : PacketHeader) (p : Packet) (s : State) : State :=
  match p, s.lookup h.addr h.chan with
  | .presence b, _ => presencePath f h b s
  | .pad p, some i => padPath i p s
  | .chatpad m ks, some i => chatpadPath i m ks s
  | .reinit, some i => reinitPath i s
  | _, none => (s.raise (.noDevice h.addr h.chan)).ret (.isPad false)

/-- DECODE (R140), step by step. -/
def decodePacketOp (h : PacketHeader) (len : BitVec 9) (buf : Bytes) (s : State) : State :=
  if maxLen < len.toNat then (s.raise (.malformed len)).ret (.isPad false)
  else if h.addr = 0 then (s.raise (.noDevice h.addr h.chan)).ret (.isPad false)
  else
    let f := s.familyFor h
    if s.cfg.isSupported f = false then (s.raise (.unsupported f)).ret (.isPad false)
    else
      match classify (s.cfg.layout f) buf with
      | none => (s.raise (.malformed len)).ret (.isPad false)
      | some k => packetPath f h (k.body.read buf) s

/-- DECODE; a buffer not as long as `len` says is refused (R82). -/
def execDecode (h : PacketHeader) (len : BitVec 9) (buf : Bytes) (s : State) :
    Host.Outcome State Fault Refusal :=
  accept .coordinator (buf.length == len.toNat) s (decodePacketOp h len buf)

/-- A classified packet: DECODE's steps 2, 4 and 5, no new data where the family's layout has no
kind of the packet's type (step 7; E1 is silent), then steps 8 to 10 (log entry 7). -/
def packetOp (h : PacketHeader) (p : Packet) (s : State) : State :=
  if h.addr = 0 then (s.raise (.noDevice h.addr h.chan)).ret (.isPad false)
  else
    let f := s.familyFor h
    if s.cfg.isSupported f = false then (s.raise (.unsupported f)).ret (.isPad false)
    else if hasKind (s.cfg.layout f) p = false then s.ret (.isPad false)
    else packetPath f h p s

/-- PAD (R142). -/
def execPad (h : PacketHeader) (p : PadState) (s : State) : Host.Outcome State Fault Refusal :=
  accept .coordinator true s (packetOp h (.pad p))

/-- PRESENCE (R141). -/
def execPresence (h : PacketHeader) (present : Bool) (s : State) :
    Host.Outcome State Fault Refusal :=
  accept .coordinator true s (packetOp h (.presence present))

/-- CHATPAD (R144). -/
def execChatpad (h : PacketHeader) (mods : Byte) (keys : Bytes) (s : State) :
    Host.Outcome State Fault Refusal :=
  accept .coordinator true s (packetOp h (.chatpad mods keys))

/-- REINIT (R145). -/
def execReinit (h : PacketHeader) (s : State) : Host.Outcome State Fault Refusal :=
  accept .coordinator true s (packetOp h .reinit)

end Sys2Proof.Machine
end

