-- ==== Sys2Proof/Machine/Flags.lean ====
section
/-!
DEFINITION. The one-bit outcomes and guards.  The block stores no condition codes (R42); what plays
their part are the edge mask, the chatpad key test, the chatpad history, and the guards of the
feedback branches.
-/

namespace Sys2Proof.Machine

/-- The rising-edge mask of BUTTON_EDGE (R150). -/
def DeviceRecord.edgeMask (r : DeviceRecord) : BitVec 16 := r.pad.buttons &&& ~~~r.prevButtons

/-- `isDown(s, X)` (R152): code 0 is never down, a modifier code is tested through `cpMods` only,
any other code through membership in `cpKeys`. -/
def DeviceRecord.isDown (c : Config) (r : DeviceRecord) (x : Byte) : Bool :=
  if r.fam = .unknown ∨ x = 0 then false
  else
    match c.mods.entries.find? (fun e => e.code == x) with
    | some e => r.cpMods &&& e.bit != 0
    | none => r.cpKeys.contains x

/-- Step 1 of WAS_PRESSED: an entry whose code is no longer down is cleared (R153). -/
def Hist.expire (down : Byte → Bool) (h : Hist) : Hist :=
  { h0 := if h.h0 ≠ 0 ∧ down h.h0 = false then 0 else h.h0
    h1 := if h.h1 ≠ 0 ∧ down h.h1 = false then 0 else h.h1
    h2 := if h.h2 ≠ 0 ∧ down h.h2 = false then 0 else h.h2 }

/-- The history holds code `x` (R153 step 3). -/
def Hist.holds (h : Hist) (x : Byte) : Bool := h.h0 == x || h.h1 == x || h.h2 == x

/-- Claim the lowest free entry for `x`, if one is free (R153 steps 4 and 5). -/
def Hist.claim (h : Hist) (x : Byte) : Option Hist :=
  if h.h0 = 0 then some { h with h0 := x }
  else if h.h1 = 0 then some { h with h1 := x }
  else if h.h2 = 0 then some { h with h2 := x }
  else none

/-- The nonzero entries are pairwise distinct (R38(c)). -/
def Hist.distinct (h : Hist) : Bool :=
  (h.h0 == 0 || (h.h0 != h.h1 && h.h0 != h.h2)) && (h.h1 == 0 || h.h1 != h.h2)

/-- The power-button-held condition (R176). -/
def DeviceRecord.held (c : Config) (r : DeviceRecord) : Bool :=
  (c.capsOf r.fam).powerOff && r.pad.buttons &&& c.powerMask != 0

/-- `now -_32 tPowerHold > 1000` (R171, R176). -/
def DeviceRecord.holdElapsed (r : DeviceRecord) (now : BitVec 32) : Bool :=
  decide (powerMs < now - r.tPowerHold)

/-- `now -_32 tPeriodic >= 1000` (R171, R177). -/
def DeviceRecord.periodElapsed (r : DeviceRecord) (now : BitVec 32) : Bool :=
  decide (keepaliveMs ≤ now - r.tPeriodic)

/-- The six branches of the feedback state machine, in priority order (R171). -/
inductive Branch where
  | rumble | led | cpInit | cpLed | powerOff | keepalive
deriving DecidableEq, Repr

/-- The guard of each branch, on the record after the hold-timer update (R171). -/
def DeviceRecord.guard (c : Config) (r : DeviceRecord) (now : BitVec 32) : Branch → Bool
  | .rumble => (c.capsOf r.fam).rumble && r.rumReq != r.rumAct
  | .led => (c.capsOf r.fam).led && r.ledReq != r.ledAct
  | .cpInit => (c.capsOf r.fam).cpInit && r.cpInitPending
  | .cpLed => (c.capsOf r.fam).cpLed && r.cpLedReq != r.cpLedAct
  | .powerOff => r.held c && r.holdElapsed now
  | .keepalive => (c.capsOf r.fam).keepalive && r.periodElapsed now

/-- The branches in the source's priority order (R171). -/
def branches : List Branch := [.rumble, .led, .cpInit, .cpLed, .powerOff, .keepalive]

/-- The branch a tick runs: the first whose guard holds (R171). -/
def DeviceRecord.selectBranch (c : Config) (r : DeviceRecord) (now : BitVec 32) : Option Branch :=
  branches.find? (fun b => r.guard c now b)

end Sys2Proof.Machine
end

