-- ==== Sys2Proof/Machine/Feedback.lean ====
section
/-!
DEFINITION. FEEDBACK_TICK (spec/41_feedback.md rules R170 to R177).
-/

namespace Sys2Proof.Machine

/-- Send the byte strings of a command, in list order, stopping at the first failed transfer
(R170).  `true` is OK, `false` is FAIL. -/
def sendStrings (i : Nat) (kind : CmdKind) (addr ep : Byte) : List Bytes → State → Bool × State
  | [], s => (true, s)
  | p :: ps, s =>
    match (s.emit (.uptx addr ep p)).drawTransfer with
    | (.error, s') => (false, s'.raise (.uptxFail i kind))
    | (.transferred _, s') => sendStrings i kind addr ep ps s'

/-- `send(s, kind, args)` (R170): to the record's own address and output endpoint. -/
def send (i : Nat) (k : Cmd) (s : State) : Bool × State :=
  let r := s.dev i
  sendStrings i k.kind r.addr r.outEp (s.cfg.cmd r.fam k) s

/-- Send a command, and change the record only if the send was OK (R172 to R175). -/
def sendThen (i : Nat) (k : Cmd) (f : DeviceRecord → DeviceRecord) (s : State) : State :=
  match send i k s with
  | (true, s') => s'.setRec i (f (s'.dev i))
  | (false, s') => s'

/-- Send a command and change the record whatever the result (R176, R177). -/
def sendAnyway (i : Nat) (k : Cmd) (f : DeviceRecord → DeviceRecord) (s : State) : State :=
  let s' := (send i k s).2
  s'.setRec i (f (s'.dev i))

/-- Bit `b` of a byte set to `on`. -/
def setBit (v : Byte) (b : Nat) (on : Bool) : Byte :=
  if on then v ||| (1#8 <<< b) else v &&& ~~~(1#8 <<< b)

/-- One bit of the chatpad LED branch: a command if the bit differs, and the actual bit follows
its own success (R175). -/
def cpledBit (i b : Nat) (s : State) : State :=
  let r := s.dev i
  let want := r.cpLedReq.getLsbD b
  if want != r.cpLedAct.getLsbD b then
    sendThen i (.cpLed b want) (fun r => { r with cpLedAct := setBit r.cpLedAct b want }) s
  else s

/-- The chatpad LED branch: bits 0 to 7 ascending; a failed bit does not stop the later ones
(R175). -/
def cpled (i : Nat) (s : State) : State :=
  (List.range cpLedBits).foldl (fun s b => cpledBit i b s) s

/-- The action of each branch (R172 to R177). -/
def runBranch (i : Nat) (now : BitVec 32) (b : Branch) (s : State) : State :=
  let r := s.dev i
  match b with
  | .rumble => sendThen i (.rumble r.rumReq.l r.rumReq.r) (fun d => { d with rumAct := r.rumReq }) s
  | .led => sendThen i (.led r.ledReq) (fun d => { d with ledAct := r.ledReq }) s
  | .cpInit => sendThen i .cpInit (fun d => { d with cpInitPending := false }) s
  | .cpLed => cpled i s
  | .powerOff => sendAnyway i .powerOff (fun d => { d with tPowerHold := now }) s
  | .keepalive => sendAnyway i .keepalive (fun d => { d with tPeriodic := now }) s

/-- The hold-timer update at the start of a tick (R171, R176). -/
def holdTimer (i : Nat) (now : BitVec 32) (s : State) : State :=
  if (s.dev i).held s.cfg then s else s.setRec i { s.dev i with tPowerHold := now }

/-- FEEDBACK_TICK's effect: nothing on a free slot; otherwise the hold timer, then at most one
branch (R171). -/
def feedbackTickOp (i : Nat) (now : BitVec 32) (s : State) : State :=
  if (s.dev i).live = false then s.ret .none
  else
    let s1 := holdTimer i now s
    match (s1.dev i).selectBranch s1.cfg now with
    | none => s1.ret .none
    | some b => (runBranch i now b s1).ret .none

/-- FEEDBACK_TICK. -/
def execFeedbackTick (i : Byte) (now : BitVec 32) (s : State) :
    Host.Outcome State Fault Refusal :=
  accept .coordinator (s.slotLegal i) s (feedbackTickOp i.toNat now)

end Sys2Proof.Machine
end

