-- ==== Sys2Proof/Machine/Peer.lean ====
section
/-!
DEFINITION. The peer's transport operations (spec/42_transport.md rules R210 to R215) and the bus
frames a peer receives (spec/30_encoding.md rule R97).
-/

namespace Sys2Proof.Machine

/-- A transaction the peer discards: E8 with its cause, first byte and byte count (R210, R237). -/
def rejectFrame (why : FrameError) (b : Byte) (n : Nat) (s : State) : State :=
  (s.raise (.frameReject why b n)).ret .none

/-- A status frame of family `tf` with the bytes `rest` after its status byte: accepted whole iff
the payload has the family's length, else discarded whole (R210).  FAMILY_CHANGED is emitted
exactly when an accepted frame changes `P.tf` (R215). -/
def acceptStatus (tf : TargetFamily) (rest : Bytes) (s : State) : State :=
  if rest.length = s.cfg.inLen tf then
    let s1 := s.setPeer ({ s.peer with tf := tf }.setIn tf rest)
    (if s.peer.tf ≠ tf then s1.emit (.familyChanged tf) else s1).ret .none
  else rejectFrame .len (statusByte tf.code) (rest.length + 1) s

/-- A ping: ACK_PING and no state change, whatever its length (R211). -/
def acceptPing (s : State) : State := (s.emit .ackPing).ret .none

/-- PEER_RECEIVE's effect on a whole transaction (R97, R210). -/
def peerReceiveOp (t : Bytes) (s : State) : State :=
  match t with
  | [] => s.ret .none
  | b :: rest =>
    if b = pingByte then acceptPing s
    else if tagOf b = statusTag then
      match TargetFamily.ofCode (famOf b) with
      | some tf => acceptStatus tf rest s
      | none => rejectFrame .tag b t.length s
    else rejectFrame .tag b t.length s

/-- PEER_RECEIVE (R210). -/
def execPeerReceive (t : Bytes) (s : State) : Host.Outcome State Fault Refusal :=
  accept .peer true s (peerReceiveOp t)

/-- The response frame: the placeholder if disconnected, else the out-report of the peer's own
target family (R95, R212). -/
def responseFrame (c : Config) (p : CtrlSlot) : Bytes :=
  if p.tf = .disconnected then [c.placeholder] else (p.outBuf p.tf).take (c.outLen p.tf)

/-- PEER_REQUEST (R212): no state changes. -/
def execPeerRequest (s : State) : Host.Outcome State Fault Refusal :=
  accept .peer true s (fun s => s.ret (.bytes (responseFrame s.cfg s.peer)))

/-- PEER_SET_OUT's effect (R213).  An illegal `tf` is refused before this runs. -/
def peerSetOutOp (tf : BitVec 4) (bytes : Bytes) (s : State) : State :=
  match TargetFamily.ofCode tf with
  | none => s
  | some f => (s.setPeer (s.peer.setOut f bytes)).ret .none

/-- PEER_SET_OUT; `tf` outside 1 and 2, or bytes of the wrong length, are refused (R82). -/
def execPeerSetOut (tf : BitVec 4) (bytes : Bytes) (s : State) :
    Host.Outcome State Fault Refusal :=
  accept .peer (outReportOk s.cfg tf bytes) s (peerSetOutOp tf bytes)

/-- PEER_READ (R214): the target family and its in-report, empty if disconnected. -/
def execPeerRead (s : State) : Host.Outcome State Fault Refusal :=
  accept .peer true s (fun s => s.ret (.report s.peer.tf (s.peer.inBuf s.peer.tf)))

/-- STATUS_DISC, first byte 0xF0: accepted iff nothing follows (R97). -/
def execStatusDisc (rest : Bytes) (s : State) : Host.Outcome State Fault Refusal :=
  accept .peer true s (acceptStatus .disconnected rest)

/-- STATUS_STD, first byte 0xF1 (R97). -/
def execStatusStd (report : Bytes) (s : State) : Host.Outcome State Fault Refusal :=
  accept .peer true s (acceptStatus .standard report)

/-- STATUS_COCKPIT, first byte 0xF2 (R97). -/
def execStatusCockpit (report : Bytes) (s : State) : Host.Outcome State Fault Refusal :=
  accept .peer true s (acceptStatus .cockpit report)

/-- STATUS_RESERVED, first byte 0xF3 to 0xFF: discarded with E8(TAG) (R97, R210).  A family nibble
of 0 to 2 is no reserved frame and is refused. -/
def execStatusReserved (fam : BitVec 4) (rest : Bytes) (s : State) :
    Host.Outcome State Fault Refusal :=
  accept .peer (decide (3 ≤ fam.toNat)) s
    (rejectFrame .tag (statusByte fam) (rest.length + 1))

/-- PING, first byte 0xAA; later bytes are ignored (R94, R211). -/
def execPing (_rest : Bytes) (s : State) : Host.Outcome State Fault Refusal :=
  accept .peer true s acceptPing

end Sys2Proof.Machine
end

