-- ==== Sys2Proof/Machine/Pool.lean ====
section
/-!
DEFINITION. Pool management: ATTACH (spec/40_decoder.md rule R131) and DETACH (R132).
-/

namespace Sys2Proof.Machine

/-- The effect of ATTACH (R131). -/
def attachDevice (addr : Byte) (fam : Family) (inEp outEp chan : Byte) (s : State) : State :=
  if addr = 0 then (s.raise (.noDevice addr chan)).ret (.slot none)
  else if s.cfg.isSupported fam = false then (s.raise (.unsupported fam)).ret (.slot none)
  else if s.cfg.isPresenceDriven fam then s.ret (.slot none)
  else
    match s.lookup addr chan with
    | some i => s.ret (.slot (some i))
    | none => (s.alloc fam addr inEp outEp chan).2.ret (.slot (s.alloc fam addr inEp outEp chan).1)

/-- ATTACH. -/
def execAttach (addr : Byte) (fam : Family) (inEp outEp chan : Byte) (s : State) :
    Host.Outcome State Fault Refusal :=
  accept .coordinator true s (attachDevice addr fam inEp outEp chan)

/-- The effect of DETACH: every live record of the address is freed; address 0 frees none (R132). -/
def detachAddr (addr : Byte) (s : State) : State :=
  if addr = 0 then s.ret .none
  else
    { s with
      pool := s.pool.map (fun r =>
        if r.live && r.addr == addr then zeroRecord s.cfg.cpKeys else r)
      result := .none }

/-- DETACH. -/
def execDetach (addr : Byte) (s : State) : Host.Outcome State Fault Refusal :=
  accept .coordinator true s (detachAddr addr)

end Sys2Proof.Machine
end

