-- ==== Sys2Proof/Machine/Queries.lean ====
section
/-!
DEFINITION. The pad queries (spec/40_decoder.md rules R149 to R151), the chatpad queries (R152,
R153) and the feedback requests (R160 to R162).
-/

namespace Sys2Proof.Machine

/-- READ_PAD (R149). -/
def execReadPad (i : Byte) (s : State) : Host.Outcome State Fault Refusal :=
  accept .coordinator (s.slotLegal i) s (fun s => s.ret (.pad (s.dev i.toNat).pad))

/-- BUTTON_EDGE (R150). -/
def execButtonEdge (i : Byte) (s : State) : Host.Outcome State Fault Refusal :=
  accept .coordinator (s.slotLegal i) s (fun s => s.ret (.mask (s.dev i.toNat).edgeMask))

/-- COMMIT_EDGES (R151). -/
def execCommitEdges (i : Byte) (s : State) : Host.Outcome State Fault Refusal :=
  accept .coordinator (s.slotLegal i) s (fun s =>
    (s.updateLive i.toNat (fun r => { r with prevButtons := r.pad.buttons })).ret .none)

/-- IS_DOWN (R152). -/
def execIsDown (i code : Byte) (s : State) : Host.Outcome State Fault Refusal :=
  accept .coordinator (s.slotLegal i) s (fun s =>
    s.ret (.bit ((s.dev i.toNat).isDown s.cfg code)))

/-- What WAS_PRESSED does to a live record's history, and its answer (R153 steps 1 to 5). -/
def DeviceRecord.press (c : Config) (r : DeviceRecord) (x : Byte) : Bool × Hist :=
  let h := r.cpHist.expire (r.isDown c)
  if r.isDown c x = false then (false, h)
  else if h.holds x then (false, h)
  else
    match h.claim x with
    | none => (false, h)
    | some h' => (true, h')

/-- The effect of WAS_PRESSED (R153). -/
def wasPressedOp (i : Nat) (x : Byte) (s : State) : State :=
  let r := s.dev i
  if r.live = false then s.ret (.bit false)
  else (s.setRec i { r with cpHist := (r.press s.cfg x).2 }).ret (.bit (r.press s.cfg x).1)

/-- WAS_PRESSED. -/
def execWasPressed (i code : Byte) (s : State) : Host.Outcome State Fault Refusal :=
  accept .coordinator (s.slotLegal i) s (wasPressedOp i.toNat code)

/-- SET_RUMBLE (R160). -/
def execSetRumble (i l r : Byte) (s : State) : Host.Outcome State Fault Refusal :=
  accept .coordinator (s.slotLegal i) s (fun s =>
    (s.updateLive i.toNat (fun d => { d with rumReq := ⟨l, r⟩ })).ret .none)

/-- SET_LED (R161). -/
def execSetLed (i q : Byte) (s : State) : Host.Outcome State Fault Refusal :=
  accept .coordinator (s.slotLegal i) s (fun s =>
    (s.updateLive i.toNat (fun d => { d with ledReq := q })).ret .none)

/-- SET_CPLED (R162). -/
def execSetCpled (i bits : Byte) (s : State) : Host.Outcome State Fault Refusal :=
  accept .coordinator (s.slotLegal i) s (fun s =>
    (s.updateLive i.toNat (fun d => { d with cpLedReq := bits })).ret .none)

end Sys2Proof.Machine
end

