-- ==== Sys2Proof/Machine/Reset.lean ====
section
/-!
DEFINITION. RESET (spec/70_reset_and_hazards.md rules R260, R261).
-/

namespace Sys2Proof.Machine

/-- The state RESET gives: every element at its value of R44, in whatever role.  The pool keeps its
number of records, `MAX_DEV`. -/
def State.afterReset (s : State) (id : BitVec 2) : State :=
  { s with
    nodeId := id
    pool := List.replicate s.maxDev (zeroRecord s.cfg.cpKeys)
    slots := resetSlots s.cfg
    peer := resetSlot s.cfg
    booted := true
    result := .none }

/-- RESET: accepted in any role and before any other operation (R260). -/
def execReset (id : BitVec 2) (s : State) : Host.Outcome State Fault Refusal :=
  if s.paramsWf = false then .refused .illFormedParameters else .next (s.afterReset id)

end Sys2Proof.Machine
end

