-- ==== Sys2Proof/Machine/Dispatch.lean ====
section
/-!
DEFINITION. The meaning of every instruction: one arm per constructor of `Instr`.
-/

namespace Sys2Proof.Machine

def exec (i : Instr) (s : State) : Host.Outcome State Fault Refusal :=
  match i with
  -- operation port
  | .reset id => Sys2Proof.Machine.execReset id s
  | .attach addr fam inEp outEp chan => Sys2Proof.Machine.execAttach addr fam inEp outEp chan s
  | .detach addr => Sys2Proof.Machine.execDetach addr s
  | .decode h len buf => Sys2Proof.Machine.execDecode h len buf s
  | .readPad ix => Sys2Proof.Machine.execReadPad ix s
  | .buttonEdge ix => Sys2Proof.Machine.execButtonEdge ix s
  | .commitEdges ix => Sys2Proof.Machine.execCommitEdges ix s
  | .isDown ix code => Sys2Proof.Machine.execIsDown ix code s
  | .wasPressed ix code => Sys2Proof.Machine.execWasPressed ix code s
  | .setRumble ix l r => Sys2Proof.Machine.execSetRumble ix l r s
  | .setLed ix q => Sys2Proof.Machine.execSetLed ix q s
  | .setCpled ix bits => Sys2Proof.Machine.execSetCpled ix bits s
  | .feedbackTick ix now => Sys2Proof.Machine.execFeedbackTick ix now s
  | .slotWrite k tf bytes => Sys2Proof.Machine.execSlotWrite k tf bytes s
  | .slotRead k tf => Sys2Proof.Machine.execSlotRead k tf s
  | .coordPoll => Sys2Proof.Machine.execCoordPoll s
  | .coordPing k => Sys2Proof.Machine.execCoordPing k s
  | .peerReceive t => Sys2Proof.Machine.execPeerReceive t s
  | .peerRequest => Sys2Proof.Machine.execPeerRequest s
  | .peerSetOut tf bytes => Sys2Proof.Machine.execPeerSetOut tf bytes s
  | .peerRead => Sys2Proof.Machine.execPeerRead s
  -- bus frames
  | .statusDisc rest => Sys2Proof.Machine.execStatusDisc rest s
  | .statusStd report => Sys2Proof.Machine.execStatusStd report s
  | .statusCockpit report => Sys2Proof.Machine.execStatusCockpit report s
  | .statusReserved fam rest => Sys2Proof.Machine.execStatusReserved fam rest s
  | .ping rest => Sys2Proof.Machine.execPing rest s
  | .response k rx => Sys2Proof.Machine.execResponse k rx s
  -- upstream packet kinds
  | .pad h p => Sys2Proof.Machine.execPad h p s
  | .presence h present => Sys2Proof.Machine.execPresence h present s
  | .chatpad h mods keys => Sys2Proof.Machine.execChatpad h mods keys s
  | .reinit h => Sys2Proof.Machine.execReinit h s

end Sys2Proof.Machine
end

