-- ==== Sys2Proof/Machine/Fetch.lean ====
section
/-!
DEFINITION. Taking a node's next input and reading the instruction it holds.

The block fetches nothing from memory (spec/10_state.md rule R21): its operations are delivered by
agents (spec/60_exceptions.md rule R239), here as the list `State.inputs`, oldest first.
-/

namespace Sys2Proof.Machine

/-- The oldest delivered input and the state without it. -/
def takeInput (s : State) : Option (Input × State) :=
  match s.inputs with
  | [] => none
  | x :: rest => some (x, { s with inputs := rest })

/-- The DECODE of a packet: its first 511 bytes, the most the 9-bit `len` can hold.  A packet longer
than that is too long either way (R140 step 1; log entry 11). -/
def decodeOfPacket (h : PacketHeader) (buf : Bytes) : Instr :=
  .decode h (BitVec.ofNat 9 (buf.take 511).length) (buf.take 511)

/-- A packet the family's layout recognises is its packet-kind instruction; any other packet is a
DECODE of its buffer, whose steps then say why it is no new data (R140, R239). -/
def fetchPacket (s : State) (h : PacketHeader) (buf : Bytes) : Decoded :=
  let whole : Decoded := .instr (decodeOfPacket h buf)
  if buf.length ≤ maxLen ∧ h.addr ≠ 0 ∧ s.cfg.isSupported (s.familyFor h) = true then
    match decodePacket (s.cfg.layout (s.familyFor h)) h buf with
    | .instr i => .instr i
    | .reject _ => whole
  else whole

/-- A bus transaction that starts a frame of R97 is that frame's instruction; any other one is a
PEER_RECEIVE of the whole transaction (R192). -/
def fetchFrame (t : Bytes) : Decoded :=
  match decodeFrame t with
  | .instr i => .instr i
  | .reject _ => .instr (.peerReceive t)

/-- The instruction an input holds for a node in state `s`. -/
def fetch (s : State) (x : Input) : Decoded :=
  match x.channel with
  | .port => decodePort x.bytes
  | .busFrame => fetchFrame x.bytes
  | .busResponse k => .instr (.response k x.bytes)
  | .upstream h => fetchPacket s h x.bytes

/-- The role whose nodes an input is delivered to: a bus frame and the peer operations
(OPC 0x20 to 0x23) go to a peer, RESET to either role, everything else to the coordinator (R80). -/
def inputRole (x : Input) : Option Role :=
  match x.channel with
  | .busFrame => some .peer
  | .port =>
      match x.bytes with
      | [] => none
      | b :: _ =>
          if b = Opc.reset.byte then none
          else if 0x20 ≤ b then some .peer
          else some .coordinator
  | _ => some .coordinator

/-- A node identity of the role: the node's own where it fits, else node 0 or node 1 (R22). -/
def idForRole (r : Option Role) (id : BitVec 2) : BitVec 2 :=
  match r with
  | none => id
  | some .coordinator => 0
  | some .peer => if id = 0 then 1 else id

/-- Deliver an opcode-table word as the next input, to a node of the role that accepts it: the role
is part of what the port's decoder accepts (R81; log entry 9). -/
def placeWord (s : State) (nbits w : Nat) : State :=
  let x := tableInput s.cfg nbits w
  { s with inputs := x :: s.inputs, nodeId := idForRole (inputRole x) s.nodeId }

end Sys2Proof.Machine
end

