-- ==== Sys2Proof/Machine/Step.lean ====
section
/-!
DEFINITION. One step of a node: take the oldest delivered input, read its instruction, execute it.
A node with nothing delivered waits for its next operation (spec/70_reset_and_hazards.md rule
R260, entry point).  Each step is one whole operation, never part of one (spec/20_memory.md R67).
-/

namespace Sys2Proof.Machine

/-- One step. -/
def step (s : State) : Host.Outcome State Fault Refusal :=
  match takeInput s with
  | none => .next s
  | some (x, s') =>
    match fetch s' x with
    | .instr i => exec i s'
    | .reject r => .refused (.badWord r)

/-- `s` with an opcode-table word delivered as its next input. -/
def State.withFetchWord (s : State) (nbits w : Nat) : State := placeWord s nbits w

end Sys2Proof.Machine
end

