-- ==== Sys2Proof/Machine/Asm.lean ====
section
/-!
DEFINITION. The assembler spelling of an instruction (spec/30_encoding.md rule R83): a mnemonic and
its operands, `MNEMONIC op1, op2, ...`, with byte strings in hex, byte 0 first.  R83 writes
operations only; a frame or packet instruction is written with its row's mnemonic in the same way.
-/

namespace Sys2Proof

/-- The row of spec/opcode_table.json an instruction belongs to. -/
def Instr.mnemonic : Instr → String
  | .reset _ => "RESET"
  | .attach _ _ _ _ _ => "ATTACH"
  | .detach _ => "DETACH"
  | .decode _ _ _ => "DECODE"
  | .readPad _ => "READ_PAD"
  | .buttonEdge _ => "BUTTON_EDGE"
  | .commitEdges _ => "COMMIT_EDGES"
  | .isDown _ _ => "IS_DOWN"
  | .wasPressed _ _ => "WAS_PRESSED"
  | .setRumble _ _ _ => "SET_RUMBLE"
  | .setLed _ _ => "SET_LED"
  | .setCpled _ _ => "SET_CPLED"
  | .feedbackTick _ _ => "FEEDBACK_TICK"
  | .slotWrite _ _ _ => "SLOT_WRITE"
  | .slotRead _ _ => "SLOT_READ"
  | .coordPoll => "COORD_POLL"
  | .coordPing _ => "COORD_PING"
  | .peerReceive _ => "PEER_RECEIVE"
  | .peerRequest => "PEER_REQUEST"
  | .peerSetOut _ _ => "PEER_SET_OUT"
  | .peerRead => "PEER_READ"
  | .statusDisc _ => "STATUS_DISC"
  | .statusStd _ => "STATUS_STD"
  | .statusCockpit _ => "STATUS_COCKPIT"
  | .statusReserved _ _ => "STATUS_RESERVED"
  | .ping _ => "PING"
  | .response _ _ => "RESPONSE"
  | .pad _ _ => "PAD"
  | .presence _ _ => "PRESENCE"
  | .chatpad _ _ _ => "CHATPAD"
  | .reinit _ => "REINIT"

/-- The tag name of a family (R16). -/
def Family.name : Family → String
  | .unknown => "UNKNOWN"
  | .wiredX => "WIRED_X"
  | .wirelessX => "WIRELESS_X"
  | .nextGen => "NEXT_GEN"
  | .legacy => "LEGACY"
  | .keyboard => "KEYBOARD"
  | .mouse => "MOUSE"
  | .idleVariant => "IDLE_VARIANT"

/-- A hex digit. -/
def hexDigit (n : Nat) : String :=
  (["0", "1", "2", "3", "4", "5", "6", "7", "8", "9", "A", "B", "C", "D", "E", "F"]).getD n "0"

/-- A byte as two hex digits. -/
def hexByte (b : Byte) : String := hexDigit (b.toNat / 16) ++ hexDigit (b.toNat % 16)

/-- A byte string: `[b0 b1 ...]`. -/
def asmBytes (b : Bytes) : String := "[" ++ String.intercalate " " (b.map hexByte) ++ "]"

/-- An unsigned operand in decimal. -/
def asmNat {w : Nat} (v : BitVec w) : String := toString v.toNat

/-- An i16 operand in decimal. -/
def asmInt (v : BitVec 16) : String := toString v.toInt

/-- The envelope of a packet in DECODE's operand order. -/
def asmHeader (h : PacketHeader) : List String :=
  [asmNat h.addr, asmNat h.chan, h.hostFam.name, asmNat h.inEp, asmNat h.outEp]

/-- The operands of an instruction in the order of its row. -/
def Instr.operands : Instr → List String
  | .reset id => [asmNat id]
  | .attach addr fam inEp outEp chan =>
      [asmNat addr, fam.name, asmNat inEp, asmNat outEp, asmNat chan]
  | .detach addr => [asmNat addr]
  | .decode h len buf => asmHeader h ++ [asmNat len, asmBytes buf]
  | .readPad i => [asmNat i]
  | .buttonEdge i => [asmNat i]
  | .commitEdges i => [asmNat i]
  | .isDown i code => [asmNat i, asmNat code]
  | .wasPressed i code => [asmNat i, asmNat code]
  | .setRumble i l r => [asmNat i, asmNat l, asmNat r]
  | .setLed i q => [asmNat i, asmNat q]
  | .setCpled i bits => [asmNat i, asmNat bits]
  | .feedbackTick i now => [asmNat i, asmNat now]
  | .slotWrite k tf bytes => [asmNat k, asmNat tf, asmBytes bytes]
  | .slotRead k tf => [asmNat k, asmNat tf]
  | .coordPoll => []
  | .coordPing k => [asmNat k]
  | .peerReceive t => [asmBytes t]
  | .peerRequest => []
  | .peerSetOut tf bytes => [asmNat tf, asmBytes bytes]
  | .peerRead => []
  | .statusDisc rest => [asmBytes rest]
  | .statusStd report => [asmBytes report]
  | .statusCockpit report => [asmBytes report]
  | .statusReserved fam rest => [asmNat fam, asmBytes rest]
  | .ping rest => [asmBytes rest]
  | .response k rx => [asmNat k, asmBytes rx]
  | .pad h p => asmHeader h ++ [asmNat p.buttons, asmNat p.lt, asmNat p.rt, asmInt p.lx,
      asmInt p.ly, asmInt p.rx, asmInt p.ry]
  | .presence h b => asmHeader h ++ [if b then "1" else "0"]
  | .chatpad h m ks => asmHeader h ++ [asmNat m, asmBytes ks]
  | .reinit h => asmHeader h

/-- The assembler line of an instruction: `MNEMONIC op1, op2, ...` (R83). -/
def Instr.asm (i : Instr) : String :=
  match i.operands with
  | [] => i.mnemonic
  | ops => i.mnemonic ++ " " ++ String.intercalate ", " ops

end Sys2Proof
end

