-- ==== Sys2Proof/Machine/Pseudo.lean ====
section
/-!
DEFINITION. The pseudo-operations of spec/30_encoding.md rule R83 and the coordinator's tick of
spec/70_reset_and_hazards.md rule R268, as exact expansions into operations.
-/

namespace Sys2Proof.Machine

/-- Run operations one after another; a refusal ends the run (R238, R265). -/
def runInstrs : List Instr → State → Host.Outcome State Fault Refusal
  | [], s => .next s
  | i :: is, s =>
    match exec i s with
    | .next s' => runInstrs is s'
    | .fault r => .fault r
    | .refused r => .refused r

/-- Run `g` on the state a run ends in. -/
def andThen (o : Host.Outcome State Fault Refusal)
    (g : State → Host.Outcome State Fault Refusal) : Host.Outcome State Fault Refusal :=
  match o with
  | .next s => g s
  | .fault r => .fault r
  | .refused r => .refused r

/-- The live slots, ascending (R83). -/
def State.liveSlots (s : State) : List Nat :=
  (List.range s.maxDev).filter (fun i => (s.dev i).live)

/-- `COMMIT_ALL` (R83). -/
def commitAll (s : State) : List Instr :=
  s.liveSlots.map (fun i => .commitEdges (BitVec.ofNat 8 i))

/-- `FEEDBACK_ALL now` (R83). -/
def feedbackAll (now : BitVec 32) (s : State) : List Instr :=
  s.liveSlots.map (fun i => .feedbackTick (BitVec.ofNat 8 i) now)

/-- `DISCONNECT addr` (R83). -/
def disconnect (addr : Byte) : List Instr := [.detach addr]

/-- What the host stack reports of its devices in one tick (R268). -/
inductive HostEvent where
  | attach (addr : Byte) (fam : Family) (inEp outEp chan : Byte)
  | detach (addr : Byte)
deriving DecidableEq, Repr

/-- A read of a slot by the mapping engine (R268). -/
inductive Query where
  | readPad (i : Byte)
  | buttonEdge (i : Byte)
  | isDown (i code : Byte)
  | wasPressed (i code : Byte)
deriving DecidableEq, Repr

/-- A feedback request of the mapping engine (R268). -/
inductive Request where
  | rumble (i l r : Byte)
  | led (i q : Byte)
  | cpled (i bits : Byte)
deriving DecidableEq, Repr

/-- The report the mapping engine writes into one ControllerSlot (R268, R200). -/
structure SlotReport where
  tf : BitVec 4
  bytes : Bytes
deriving DecidableEq, Repr

/-- A read of a ControllerSlot after the poll (R268, R201). -/
structure SlotQuery where
  k : Byte
  tf : BitVec 4
deriving DecidableEq, Repr

/-- The operation of each. -/
def HostEvent.op : HostEvent → Instr
  | .attach addr fam inEp outEp chan => .attach addr fam inEp outEp chan
  | .detach addr => .detach addr

def Query.op : Query → Instr
  | .readPad i => .readPad i
  | .buttonEdge i => .buttonEdge i
  | .isDown i code => .isDown i code
  | .wasPressed i code => .wasPressed i code

def Request.op : Request → Instr
  | .rumble i l r => .setRumble i l r
  | .led i q => .setLed i q
  | .cpled i bits => .setCpled i bits

def SlotQuery.op (q : SlotQuery) : Instr := .slotRead q.k q.tf

/-- What the agents around the block choose in one tick (R268): the packets received since the last
tick and the device events, each in arrival order, the mapping engine's reads and requests, one
report for each of the four ControllerSlots, and the reads after the poll.  What stands where is in
the types: a plan is a tick of R268 and nothing else. -/
structure TickPlan where
  packets : List (PacketHeader × Bytes)
  hostEvents : List HostEvent
  queries : List Query
  requests : List Request
  slot0 : SlotReport
  slot1 : SlotReport
  slot2 : SlotReport
  slot3 : SlotReport
  slotReads : List SlotQuery
deriving DecidableEq, Repr

/-- `SLOT_WRITE k, tf, bytes` for `k = 0 .. MAX_PLAYERS-1` (R268). -/
def TickPlan.slotWrites (p : TickPlan) : List Instr :=
  [.slotWrite 0 p.slot0.tf p.slot0.bytes, .slotWrite 1 p.slot1.tf p.slot1.bytes,
   .slotWrite 2 p.slot2.tf p.slot2.bytes, .slotWrite 3 p.slot3.tf p.slot3.bytes]

/-- The operations of a tick before COMMIT_ALL, in R268's order: host-side polling, then the mapping
engine's reads, requests and slot writes. -/
def TickPlan.before (p : TickPlan) : List Instr :=
  p.packets.map (fun x => decodeOfPacket x.1 x.2) ++ p.hostEvents.map HostEvent.op ++
    p.queries.map Query.op ++ p.requests.map Request.op ++ p.slotWrites

/-- `TICK now` (R268): host-side polling, mapping with COMMIT_ALL, FEEDBACK_ALL and COORD_POLL, then
the slot reads; the two ALL expansions see the slots live at that point. -/
def tick (p : TickPlan) (now : BitVec 32) (s : State) : Host.Outcome State Fault Refusal :=
  andThen (runInstrs p.before s)
    fun s1 => andThen (runInstrs (commitAll s1) s1)
      fun s2 => andThen (runInstrs (feedbackAll now s2) s2)
        fun s3 => runInstrs (.coordPoll :: p.slotReads.map SlotQuery.op) s3

/-- The tick contract (R269): the `now` of two successive ticks differ by at least `TICK_MS`. -/
def ticksSpaced : List (BitVec 32) → Bool
  | a :: b :: rest => decide (tickMs ≤ (b - a).toNat) && ticksSpaced (b :: rest)
  | _ => true

end Sys2Proof.Machine
end

