-- ==== Sys2Proof/Machine/System.lean ====
section
/-!
DEFINITION. The coupled bus: up to four nodes joined by the inter-node bus (spec/42_transport.md rule
R198, spec/20_memory.md rules R69, R72 and R73, spec/60_exceptions.md rules R240 and R247).

A node is a `State` with the bus transactions its operation in progress still owes.  Which node sits
at a bus address is read from its `NODE_ID` at the moment of the transaction (R69), so a node that is
reset to another identity moves.  COORD_POLL and COORD_PING run one bus transaction per step of the
system, and any other node may step between two of them: the order of operations of different nodes
is fixed by the bus alone (R73, R240(a)).  Within its own node an operation stays whole: the
coordinator takes no further input until its transactions are done (R67, R265).
-/

namespace Sys2Proof.Machine

/-! ### Nodes and the bus -/

/-- One bus transaction an operation in progress still owes: the status frame to peer `k`, the read
that follows a good send (with the target family the frame was sent with), or a ping (R193, R197). -/
inductive BusTask where
  | send (k : Fin 4)
  | read (k : Fin 4) (tf : TargetFamily)
  | ping (k : Byte)
deriving DecidableEq, Repr

/-- A node on the bus.  `todo` is empty between the node's operations. -/
structure BusNode where
  node : State
  todo : List BusTask
deriving DecidableEq, Repr

/-- The nodes of a system in any order; a place in the list is an adapter, not a bus address. -/
structure System where
  nodes : List BusNode
  /-- What a peer sees of the next failed sends: nothing, or that many leading bytes (R198(b)). -/
  partialTape : List (Option Nat)
  /-- How many of those draws came from the free value instead. -/
  partialCount : Nat
  /-- What the nodes of a contended address see of the next writes: nothing, or any bytes (I7). -/
  strayTape : List (Option Bytes)
  /-- How many of those draws came from the free value instead. -/
  strayCount : Nat
  /-- The places whose nodes move next, first one first (R240(a): the order is a draw). -/
  turns : List (Fin 4)
deriving DecidableEq, Repr

/-- Replace the node at a place. -/
def System.setNode (y : System) (j : Nat) (n : BusNode) : System :=
  { y with nodes := y.nodes.set j n }

/-- Draw what a peer sees of a failed send (R198(b)). -/
def System.drawPartial (y : System) : Option Nat × System :=
  match y.partialTape with
  | d :: rest => (d, { y with partialTape := rest })
  | [] => (Config.freePartial y.partialCount, { y with partialCount := y.partialCount + 1 })

/-- Draw what a node of a contended address sees of a write (I7). -/
def System.drawStray (y : System) : Option Bytes × System :=
  match y.strayTape with
  | d :: rest => (d, { y with strayTape := rest })
  | [] => (Config.freeStray y.strayCount, { y with strayCount := y.strayCount + 1 })

/-! ### Who answers an address -/

/-- A node that has been reset and whose parameters meet R9: one that can execute an operation. -/
def State.alive (p : State) : Bool := p.paramsWf && p.booted

/-- The node is a live peer at bus address `a`: `PEER_ADDR` of its `NODE_ID` (R69, D24). -/
def State.answersAt (p : State) (a : Nat) : Bool :=
  p.alive && p.role == .peer && peerAddr p.nodeId.toNat == a

/-- The places of the live peers at bus address `a`. -/
def System.placesAt (y : System) (a : Nat) : List Nat :=
  (List.range y.nodes.length).filter (fun j => (y.nodes[j]?).any (fun n => n.node.answersAt a))

/-- The number of live coordinators. -/
def System.coordinators (y : System) : Nat :=
  y.nodes.countP (fun n => n.node.alive && n.node.role == .coordinator)

/-- Who answers a bus address. -/
inductive Listener where
  /-- No live peer sits there (R198(d)). -/
  | nobody
  /-- One live peer, under one coordinator: R198(a) to (c). -/
  | one (j : Nat)
  /-- Several live peers of one identity, or any under two coordinators: outside the source, so the
  outcomes are draws (R247, I7). -/
  | contended (js : List Nat)
deriving DecidableEq, Repr

/-- The listener at a bus address, from the identities the nodes have at this moment.  The spec says
that a contended address' bus outcomes are draws; that several peers of one identity contend for
their own address only, and two coordinators for every address, is DESIGN CHOICE, log entry 19. -/
def System.listener (y : System) (a : Nat) : Listener :=
  match y.placesAt a with
  | [] => .nobody
  | [j] => if y.coordinators ≤ 1 then .one j else .contended [j]
  | js => .contended js

/-- An input that is a bus event: in a system such events come from the bus alone (R192). -/
def isBusEvent (x : Input) : Bool :=
  match x.channel with
  | .busFrame | .busResponse _ => true
  | .port => x.bytes.head? == some Opc.peerReceive.byte || x.bytes.head? == some Opc.peerRequest.byte
  | .upstream _ => false

/-- "up to four such adapters" (R247), with no bus event delivered but over the bus (R192), and an
operation in progress only at a live coordinator (R190). -/
def System.wf (y : System) : Bool :=
  decide (y.nodes.length ≤ 4) && y.nodes.all (fun n =>
    n.node.inputs.all (fun x => !isBusEvent x) &&
      (n.todo.isEmpty || (n.node.alive && n.node.role == .coordinator)))

/-! ### Transactions -/

/-- The node at a place executes one operation; a place with no node, or a node that refuses the
operation, is left as it is. -/
def System.nodeRuns (y : System) (j : Nat) (i : Instr) : System :=
  match y.nodes[j]? with
  | none => y
  | some n =>
    match exec i n.node with
    | .next p => y.setNode j { n with node := p }
    | _ => y

/-- One node of a contended address takes a drawn byte string, or nothing (I7). -/
def System.strayWrite (y : System) (j : Nat) : System :=
  match y.drawStray with
  | (none, y') => y'
  | (some b, y') => y'.nodeRuns j (.peerReceive b)

/-- Delivery of a written frame at bus address `a`: the whole of it if `err = 0` (R198(a)), else
nothing or a prefix of it (R198(b)); at a contended address each node sees a draw (I7). -/
def System.deliver (y : System) (a : Nat) (frame : Bytes) (err : Byte) : System :=
  match y.listener a with
  | .nobody => y
  | .one j =>
    if err = 0 then y.nodeRuns j (.peerReceive frame)
    else
      match y.drawPartial with
      | (none, y') => y'
      | (some n, y') => y'.nodeRuns j (.peerReceive (frame.take n))
  | .contended js => js.foldl System.strayWrite y

/-- The received string: the drawn string's length is `n`; its bytes below the response's length
are the response's, the later ones are drawn (R198(c)). -/
def couple (resp raw : Bytes) : Bytes := resp.take raw.length ++ raw.drop resp.length

/-- The response of a peer (R212). -/
def State.response (p : State) : Bytes := responseFrame p.cfg p.peer

/-- The read of bus address `a`, with the drawn string `raw`: one live peer executes one
PEER_REQUEST, and the string agrees with its response (R198(c)); with no live peer, and at a contended
address, the string is the draw (R198(d), I7). -/
def System.request (y : System) (a : Nat) (raw : Bytes) : Bytes × System :=
  match y.listener a with
  | .nobody => (raw, y)
  | .one j =>
    match y.nodes[j]? with
    | none => (raw, y)
    | some n => (couple n.node.response raw, y.nodeRuns j .peerRequest)
  | .contended js => (raw, js.foldl (fun y j => y.nodeRuns j .peerRequest) y)

/-! ### Operations in progress -/

/-- The transactions an operation's acceptance leaves its node to do: three peers for COORD_POLL, in
order (R193), one write for COORD_PING (R197), none for any other. -/
def busTasks : Instr → List BusTask
  | .coordPoll => polledPeers.map BusTask.send
  | .coordPing k => [.ping k]
  | _ => []

/-- The node at place `i` does the transaction `t`; `rest` is what it owes after it.  A good send is
followed by its read, a failed one is E6 and no read (R193). -/
def System.runTask (y : System) (i : Nat) (n : BusNode) (t : BusTask) (rest : List BusTask) :
    System :=
  match t with
  | .send k =>
    let d := pollSend k n.node
    let n' : BusNode :=
      if d.1 ≠ 0 then ⟨d.2.raise (.busSendFail k.val d.1), rest⟩
      else ⟨d.2, .read k (n.node.slot k).tf :: rest⟩
    (y.setNode i n').deliver (peerAddr k.val) (statusFrame n.node.cfg (n.node.slot k)) d.1
  | .read k tf =>
    let e := n.node.cfg.outLen tf
    let d := (n.node.emit (.busr (peerAddr k.val) e)).drawRx
    let r := y.request (peerAddr k.val) d.1
    r.2.setNode i ⟨receiveStep k tf r.1 e d.2, rest⟩
  | .ping k =>
    let d := pingSend k n.node
    let c := if d.1 ≠ 0 then d.2.raise (.busSendFail k.toNat d.1) else d.2
    (y.setNode i ⟨c, rest⟩).deliver (peerAddr k.toNat) [pingByte] d.1

/-- What the node at place `i` is after `exec i` answered `s`: done, or, for an operation that uses
the bus, as it was before (`c`) with its transactions to do and the result port empty. -/
def startOp (i : Instr) (c s : State) : BusNode :=
  match busTasks i with
  | [] => ⟨s, []⟩
  | ts => ⟨c.ret .none, ts⟩

/-- An outcome of one node inside the system. -/
def System.lift (o : Host.Outcome State Fault Refusal) (f : State → System) :
    Host.Outcome System Fault Refusal :=
  match o with
  | .next s => .next (f s)
  | .fault r => .fault r
  | .refused r => .refused r

/-- The node at place `i` accepts an operation.  It is accepted or refused as it is uncoupled. -/
def System.accept (y : System) (i : Nat) (op : Instr) (c : State) :
    Host.Outcome System Fault Refusal :=
  System.lift (exec op c) (fun s => y.setNode i (startOp op c s))

/-- The node at place `i` moves: it goes on with its operation in progress, or takes its next input;
with no input it waits, and a place with no node does nothing. -/
def System.nodeStep (y : System) (i : Nat) : Host.Outcome System Fault Refusal :=
  match y.nodes[i]? with
  | none => .next y
  | some n =>
    match n.todo with
    | t :: rest => .next (y.runTask i n t rest)
    | [] =>
      match takeInput n.node with
      | none => .next y
      | some (x, c) =>
        match fetch c x with
        | .instr op => y.accept i op c
        | .reject r => .refused (.badWord r)

/-- One step of the system: the node whose turn it is moves; with no turn left, nothing does. -/
def System.step (y : System) : Host.Outcome System Fault Refusal :=
  match y.turns with
  | [] => .next y
  | i :: rest => ({ y with turns := rest } : System).nodeStep i.val

/-- `m` steps of the system. -/
def System.steps : Nat → System → Host.Outcome System Fault Refusal
  | 0, y => .next y
  | m + 1, y =>
    match y.step with
    | .next y' => System.steps m y'
    | o => o

/-- Four nodes right after their resets, each with its own identity (R247). -/
def System.reset : System :=
  { nodes := [⟨State.reset, []⟩, ⟨State.reset.afterReset 1, []⟩, ⟨State.reset.afterReset 2, []⟩,
      ⟨State.reset.afterReset 3, []⟩]
    partialTape := []
    partialCount := 0
    strayTape := []
    strayCount := 0
    turns := [] }

end Sys2Proof.Machine
end

