-- ==== Sys2Proof/WellFormed.lean ====
section
/-!
DEFINITION. Well-formed instructions: the operand ranges of spec/30_encoding.md rule R82, the
lengths of R80 and R97, and the fields the layout can carry for the packet kinds.

An ill-formed port operation is refused by its own meaning (R82, R238).  An ill-formed frame is
not: a peer discards it (R97, R210), and that is its meaning.
-/

namespace Sys2Proof

/-- The canonical bits a button list names. -/
def namedButtons (es : List ButtonEntry) : BitVec 16 :=
  es.foldl (fun acc e => acc ||| (match e with | .bit _ _ m => m | .ana _ m => m)) 0

/-- Every button of `p` is one some PAD kind of the layout names. -/
def buttonsNamed (l : List Kind) (p : PadState) : Bool :=
  l.any fun k =>
    match k.body with
    | .pad f => p.buttons &&& ~~~ namedButtons f.buttons == 0
    | _ => false

/-- The check of each instruction, for parameters `c`, a pool of `maxDev` records and the layout
`l` of the packet's family. -/
def Instr.wellFormed (c : Config) (maxDev : Nat) (l : List Kind) : Instr → Bool
  | .reset _ => true
  | .attach _ _ _ _ _ => true
  | .detach _ => true
  | .decode _ len buf => buf.length == len.toNat
  | .readPad i => decide (i.toNat < maxDev)
  | .buttonEdge i => decide (i.toNat < maxDev)
  | .commitEdges i => decide (i.toNat < maxDev)
  | .isDown i _ => decide (i.toNat < maxDev)
  | .wasPressed i _ => decide (i.toNat < maxDev)
  | .setRumble i _ _ => decide (i.toNat < maxDev)
  | .setLed i _ => decide (i.toNat < maxDev)
  | .setCpled i _ => decide (i.toNat < maxDev)
  | .feedbackTick i _ => decide (i.toNat < maxDev)
  | .slotWrite k tf bytes => isPlayer k && inReportOk c tf bytes
  | .slotRead k tf => isPlayer k && isReportFamily tf
  | .coordPoll => true
  | .coordPing k => isPeer k
  | .peerReceive t => decide (t.length < 65536)
  | .peerRequest => true
  | .peerSetOut tf bytes => outReportOk c tf bytes
  | .peerRead => true
  | .statusDisc rest => rest.length == 0
  | .statusStd report => report.length == c.inLenStd
  | .statusCockpit report => report.length == c.inLenCockpit
  | .statusReserved fam _ => decide (3 ≤ fam.toNat)
  | .ping rest => rest.length == 0
  | .response k _ => isPeer k
  | .pad _ p => hasKind l (.pad p) && buttonsNamed l p
  | .presence _ b => hasKind l (.presence b)
  | .chatpad _ m ks => hasKind l (.chatpad m ks) && ks.length == c.cpKeys
  | .reinit _ => hasKind l .reinit

end Sys2Proof
end

