-- ==== Sys2Proof/Safety.lean ====
section
/-!
DEFINITION. The terms statements are made in: when a node accepts an operation, the invariants of
spec/10_state.md rule R38, and what an operation leaves unchanged.
-/

namespace Sys2Proof.Machine

/-! ### Accepting a node -/

/-- The node's parameters meet R9, a RESET has happened, and the node has role `r`: what R238 asks
of a node before an operation of that role with operands in range. -/
structure Ready (r : Role) (s : State) : Prop where
  params : s.paramsWf = true
  booted : s.booted = true
  role : s.role = r

/-- The role R80 gives each operation; RESET has none.  A frame a peer receives is the peer's, a
response and an upstream packet the coordinator's. -/
def roleOf : Instr → Option Role
  | .reset _ => none
  | .peerReceive _ | .peerRequest | .peerSetOut _ _ | .peerRead
  | .statusDisc _ | .statusStd _ | .statusCockpit _ | .statusReserved _ _ | .ping _ => some .peer
  | _ => some .coordinator

/-! ### Invariants (R38, R25, R29, R40) -/

/-- One record: a free record is all zero (R25); a live one has a supported family and a nonzero
address (R38(b)); the history's nonzero entries are distinct (R38(c)); `CP_KEYS` key codes; and
the reserved button bit 11 reads 0 (R29). -/
structure RecordOk (c : Config) (r : DeviceRecord) : Prop where
  freeIsZero : r.live = false → r = zeroRecord c.cpKeys
  liveSupported : r.live = true → c.isSupported r.fam = true
  liveAddr : r.live = true → r.addr ≠ 0
  histDistinct : r.cpHist.distinct = true
  keyCount : r.cpKeys.length = c.cpKeys
  reservedButton : r.pad.buttons.getLsbD 11 = false
  reservedPrev : r.prevButtons.getLsbD 11 = false

/-- At most one live record per key (R38(a)). -/
def KeysUnique (s : State) : Prop :=
  ∀ i j addr chan, i < s.maxDev → j < s.maxDev →
    (s.dev i).hasKey addr chan = true → (s.dev j).hasKey addr chan = true → i = j

/-- The invariant of a node. -/
structure Inv (s : State) : Prop where
  params : s.paramsWf = true
  records : ∀ i, i < s.maxDev → RecordOk s.cfg (s.dev i)
  keys : KeysUnique s
  memory : Memory.wf s = true

/-- The invariant of a coupled system: its form, and every node's invariant. -/
structure System.Inv (y : System) : Prop where
  wf : y.wf = true
  nodes : ∀ n ∈ y.nodes, Machine.Inv n.node

/-! ### The events of a feedback command -/

/-- `evs` is what one command emits (R170): its strings in order, to one address and endpoint, all of
them when the send is OK, else those up to the failed one and then E5. -/
def CommandEvents (i : Nat) (kind : CmdKind) (addr ep : Byte) (strings : List Bytes) (ok : Bool)
    (evs : List Event) : Prop :=
  ∃ n, evs = (strings.take n).map (fun p => .uptx addr ep p) ++
      (if ok then [] else [.diag (.uptxFail i kind)]) ∧
    (ok = true → n = strings.length) ∧ (ok = false → 1 ≤ n ∧ n ≤ strings.length)

/-! ### Frames -/

/-- The parameters, the identity, the boot flag and the undelivered inputs are unchanged. -/
structure SameControl (s t : State) : Prop where
  cfg : t.cfg = s.cfg
  nodeId : t.nodeId = s.nodeId
  booted : t.booted = s.booted
  inputs : t.inputs = s.inputs

/-- No answer of an external agent was drawn. -/
structure NoDraw (s t : State) : Prop where
  upTape : t.upTape = s.upTape
  errTape : t.errTape = s.errTape
  rxTape : t.rxTape = s.rxTape
  drawCount : t.drawCount = s.drawCount

/-- Every record but those of `touched` is unchanged, and so is `MAX_DEV`. -/
structure SameRecordsBut (touched : Nat → Prop) (s t : State) : Prop where
  count : t.maxDev = s.maxDev
  records : ∀ j, ¬ touched j → t.dev j = s.dev j

/-- No record changed. -/
abbrev SameRecords (s t : State) : Prop := SameRecordsBut (fun _ => False) s t

/-- Every target family but those of `touchedSlot` and, unless `touchedPeer`, the peer's is
unchanged. -/
structure SameFamiliesBut (touchedSlot : Fin 4 → Prop) (touchedPeer : Prop) (s t : State) :
    Prop where
  slots : ∀ k, ¬ touchedSlot k → (t.slot k).tf = (s.slot k).tf
  peer : ¬ touchedPeer → t.peer.tf = s.peer.tf

/-- No target family changed. -/
abbrev SameFamilies (s t : State) : Prop := SameFamiliesBut (fun _ => False) False s t

/-- Every byte of the report buffers outside `touched` reads as before. -/
def SameBytesBut (touched : BufId → Nat → Prop) (s t : State) : Prop :=
  ∀ b off, ¬ touched b off → t.readByte b off = s.readByte b off

/-- Every byte of the report buffers reads as before. -/
abbrev SameBytes (s t : State) : Prop := SameBytesBut (fun _ _ => False) s t

/-- Nothing of the node changed but its output ports, the records of `touched`, and the draws. -/
structure OnlyRecords (touched : Nat → Prop) (s t : State) : Prop where
  control : SameControl s t
  records : SameRecordsBut touched s t
  families : SameFamilies s t
  bytes : SameBytes s t

/-- No state element of R44 changed, and no draw was taken: only the output ports may differ. -/
structure OnlyOutputs (s t : State) : Prop where
  control : SameControl s t
  draws : NoDraw s t
  records : SameRecords s t
  families : SameFamilies s t
  bytes : SameBytes s t

/-- The operation returned `v` and emitted the events `evs`, in this order. -/
structure Answers (v : Result) (evs : List Event) (s t : State) : Prop where
  result : t.result = v
  events : t.events = s.events ++ evs

/-- The buffer of family `tf` (standard or cockpit). -/
def isCockpit (tf : TargetFamily) : Bool := tf == .cockpit

end Sys2Proof.Machine
end

