-- ==== Sys2Proof/Certificates/Slice0/Obligations.lean ====
section
/-!
DEFINITION. The statements about the model, one `def Obligations.<Name> : Prop` each, made from the
numbered rules of spec/.  Nothing is proved here.

Words used (Safety.lean): `Ready r s` says a node of role `r` accepts operations; `Answers v evs`
says what the result port holds and which events were emitted; `OnlyOutputs` says no state element
of R44 changed and no draw was taken; `OnlyRecords touched` says nothing changed but the records of
`touched`, the output ports and the draws; `SameBytesBut touched` speaks of every byte of the report
buffers through `State.readByte`.  A free value (a draw after the scripted answers, a command's
bytes) is opaque: a statement holds for every value of it.
-/

open Sys2Proof Sys2Proof.Machine

/-! ## The step and the decoder -/

/-- A step takes the oldest delivered input and is `exec` of the instruction it holds, on the state
without that input; a port word the decoder rejects is refused by its reject; a packet no kind
recognises is a DECODE (of at most 511 bytes, which is all its `len` can hold), a transaction that is
no frame a PEER_RECEIVE; with nothing delivered the node waits (R81, R192, R239, R260).  The list of
inputs is the model's choice (log entry 11), and so are a response as an input of its own (log entry
6) and a recognised packet as the instruction of its kind (log entry 7). -/
def Obligations.StepRunsTheDecodedInstruction : Prop :=
  ∀ s : State,
    (s.inputs = [] → step s = .next s) ∧
    ∀ (x : Input) (rest : List Input), s.inputs = x :: rest →
      (∀ b i, x = ⟨.port, b⟩ → decodePort b = .instr i →
        step s = exec i { s with inputs := rest }) ∧
      (∀ b r, x = ⟨.port, b⟩ → decodePort b = .reject r → step s = .refused (.badWord r)) ∧
      (∀ t i, x = ⟨.busFrame, t⟩ → decodeFrame t = .instr i →
        step s = exec i { s with inputs := rest }) ∧
      (∀ t r, x = ⟨.busFrame, t⟩ → decodeFrame t = .reject r →
        step s = exec (.peerReceive t) { s with inputs := rest }) ∧
      (∀ k rx, x = ⟨.busResponse k, rx⟩ →
        step s = exec (.response k rx) { s with inputs := rest }) ∧
      (∀ h buf i, x = ⟨.upstream h, buf⟩ → buf.length ≤ 256 → h.addr ≠ 0 →
        s.cfg.isSupported (s.familyFor h) = true →
        decodePacket (s.cfg.layout (s.familyFor h)) h buf = .instr i →
        step s = exec i { s with inputs := rest }) ∧
      (∀ h buf, x = ⟨.upstream h, buf⟩ →
        (256 < buf.length ∨ h.addr = 0 ∨ s.cfg.isSupported (s.familyFor h) = false ∨
          classify (s.cfg.layout (s.familyFor h)) buf = none) →
        step s = exec (.decode h (BitVec.ofNat 9 (buf.take 511).length) (buf.take 511))
          { s with inputs := rest })

/-- Words written out from the encodings of R80, R81, R93, R94 and the programs P1 to P5 decode to
the instructions they stand for: the port's operations of the pool, the decoder, the pad and chatpad
queries, feedback, the ControllerSlots and both roles' transport, the bus frames, and a packet of the
profile of R103. -/
def Obligations.SpecWordsDecode : Prop :=
  decodePort [0x00, 0x00] = .instr (.reset 0) ∧
  decodePort [0x01, 0x03, 0x04, 0x81, 0x01, 0x00] = .instr (.attach 3 .legacy 0x81 0x01 0) ∧
  decodePort [0x02, 0x02] = .instr (.detach 2) ∧
  decodePort [0x03, 0x05, 0x00, 0x02, 0x81, 0x01, 0x02, 0x00, 0x08, 0x80] =
    .instr (.decode ⟨5, 0, .wirelessX, 0x81, 0x01⟩ 2 [0x08, 0x80]) ∧
  decodePort [0x04, 0x00] = .instr (.readPad 0) ∧
  decodePort [0x08, 0x00, 0x17] = .instr (.wasPressed 0 0x17) ∧
  decodePort [0x09, 0x00, 0x80, 0x40] = .instr (.setRumble 0 0x80 0x40) ∧
  decodePort [0x0C, 0x00, 0xE8, 0x03, 0x00, 0x00] = .instr (.feedbackTick 0 1000) ∧
  decodePort [0x11, 0x03, 0x02] = .instr (.slotRead 3 2) ∧
  decodePort [0x12] = .instr .coordPoll ∧
  decodePort [0x20, 0x01, 0x00, 0xAA] = .instr (.peerReceive [0xAA]) ∧
  decodePort [0x22, 0x01, 0x00, 0x06, 0x11, 0x22, 0x33, 0x44] =
    .instr (.peerSetOut 1 [0x00, 0x06, 0x11, 0x22, 0x33, 0x44]) ∧
  decodePort [0x0D] = .reject (.unknownOpcode 0x0D) ∧
  decodePort [0x24] = .reject (.unknownOpcode 0x24) ∧
  decodeFrame [0xF0] = .instr (.statusDisc []) ∧
  decodeFrame [0xF1, 0x07] = .instr (.statusStd [0x07]) ∧
  decodeFrame [0xF3] = .instr (.statusReserved 3 []) ∧
  decodeFrame [0xAA] = .instr (.ping []) ∧
  decodePacket tWireless ⟨5, 0, .wirelessX, 0x81, 0x01⟩ [0x08, 0x80] =
    .instr (.presence ⟨5, 0, .wirelessX, 0x81, 0x01⟩ true)

/-- HEADLINE. Decoding the encoding of a well-formed port operation, bus frame or response gives it
back, with every operand at every value its width admits (R80, R81, R93 to R97). -/
def Obligations.DecodeOfEncodeIsIdentity : Prop :=
  ∀ (c : Config) (maxDev : Nat) (l : List Kind) (i : Instr),
    i.wellFormed c maxDev l = true →
    (∀ h, (encode l i).channel ≠ .upstream h) →
    decode l (encode l i) = .instr i

/-- The other direction: a port word or a bus frame that decodes is the encoding of what it decodes
to, so no two byte strings mean one instruction (R81, R97).  For the port this rests on the model's
choice to reject spare operand bits (log entry 8). -/
def Obligations.AcceptedWordsHaveOneReading : Prop :=
  (∀ (l : List Kind) (b : Bytes) (i : Instr), decodePort b = .instr i →
    encode l i = ⟨.port, b⟩) ∧
  (∀ (l : List Kind) (t : Bytes) (i : Instr), decodeFrame t = .instr i →
    encode l i = ⟨.busFrame, t⟩)

/-- HEADLINE. R143: the synthetic packet of a button set decodes to that set.  For a PAD kind whose
entries on one canonical bit agree, whose match bytes are each named once and carry no button, and
whose analog button bytes carry no other entry, and for every button set some buffer gives, the
packet with each entry pressed according to the set is accepted and reads back as the set.  (The
clause on analog bytes is the model's: R143 does not say it, and without it the property fails,
log entry 10.) -/
def Obligations.SyntheticPadReadsBack : Prop :=
  ∀ (cpKeys n : Nat) (ms : List MatchTriple) (f : PadFields) (buttons : BitVec 16) (src : Bytes),
    Kind.wf cpKeys ⟨n, ms, .pad f⟩ = true →
    (∀ m ∈ ms, m.val &&& m.mask = m.val) →
    (ms.map (fun m => m.off)).Nodup →
    (∀ m ∈ ms, ∀ e ∈ f.buttons,
      match e with | .bit off _ _ => m.off ≠ off | .ana off _ => m.off ≠ off) →
    (∀ e ∈ f.buttons, ∀ e' ∈ f.buttons,
      (match e with | .bit _ _ m => m | .ana _ m => m) =
        (match e' with | .bit _ _ m => m | .ana _ m => m) → e = e') →
    (∀ off m, ButtonEntry.ana off m ∈ f.buttons → ∀ e ∈ f.buttons,
      (match e with | .bit o _ _ => o | .ana o _ => o) = off → e = .ana off m) →
    n ≤ src.length → assembleButtons f.buttons src = buttons →
    let syn := f.buttons.foldl (fun b e => e.press buttons b) (Kind.blank ⟨n, ms, .pad f⟩)
    syn.length = n ∧ Kind.accepts syn ⟨n, ms, .pad f⟩ = true ∧
      assembleButtons f.buttons syn = buttons

/-! ## Reset, roles and refusals -/

/-- R260: RESET (OPC 0x00) gives every state element its value of R44, in any role and before any
other operation; the parameters and what the surroundings hold are untouched. -/
def Obligations.ResetGivesResetValues : Prop :=
  ∀ (id : BitVec 2) (s : State), s.paramsWf = true →
    decodePort [0x00, id.setWidth 8] = .instr (.reset id) ∧
    ∃ t, exec (.reset id) s = .next t ∧
      t.nodeId = id ∧ t.role = (if id = 0 then .coordinator else .peer) ∧ t.booted = true ∧
      t.maxDev = s.maxDev ∧
      (∀ i, i < s.maxDev → t.dev i = zeroRecord s.cfg.cpKeys) ∧
      (∀ k, (t.slot k).tf = .disconnected) ∧ t.peer.tf = .disconnected ∧
      (∀ b off, t.readByte b off = if off < b.size s.cfg then some 0 else none) ∧
      t.cfg = s.cfg ∧ t.inputs = s.inputs ∧ NoDraw s t ∧ Answers .none [] s t

/-- R264: what a user sees right after a reset. -/
def Obligations.UserViewAfterReset : Prop :=
  ∀ (s t : State), exec (.reset 0) s = .next t →
    (∀ i : Byte, i.toNat < t.maxDev →
      exec (.readPad i) t = .next (t.ret (.pad ⟨0, 0, 0, 0, 0, 0, 0⟩)) ∧
      (∀ x, exec (.isDown i x) t = .next (t.ret (.bit false))) ∧
      (∀ x, ∃ u, exec (.wasPressed i x) t = .next u ∧ OnlyOutputs t u ∧
        Answers (.bit false) [] t u) ∧
      (∀ now, exec (.feedbackTick i now) t = .next (t.ret .none))) ∧
    (∀ k : Byte, k.toNat < 4 →
      exec (.slotRead k 1) t = .next (t.ret (.bytes (List.replicate t.cfg.outLenStd 0))) ∧
      exec (.slotRead k 2) t = .next (t.ret (.bytes (List.replicate t.cfg.outLenCockpit 0)))) ∧
    (∀ id u, id ≠ 0 → exec (.reset id) s = .next u →
      exec .peerRead u = .next (u.ret (.report .disconnected [])))

/-- Before the first RESET every other operation is refused (R238, R263). -/
def Obligations.NothingRunsBeforeReset : Prop :=
  ∀ (i : Instr) (s : State), s.paramsWf = true → s.booted = false → (∀ id, i ≠ .reset id) →
    exec i s = .refused .beforeReset

/-- An operation of the other role is refused, whatever its operands (R190, R238, R244). -/
def Obligations.OtherRoleIsRefused : Prop :=
  ∀ (i : Instr) (s : State) (r : Role), roleOf i = some r → s.paramsWf = true →
    s.booted = true → s.role ≠ r → exec i s = .refused .wrongRole

/-- R82: each out-of-range operand is refused, and a DECODE of more than 256 bytes is not. -/
def Obligations.OutOfRangeOperandsAreRefused : Prop :=
  (∀ s, Ready .coordinator s →
    (∀ i : Byte, s.maxDev ≤ i.toNat →
      exec (.readPad i) s = .refused .operandRange ∧
      exec (.buttonEdge i) s = .refused .operandRange ∧
      exec (.commitEdges i) s = .refused .operandRange ∧
      (∀ x, exec (.isDown i x) s = .refused .operandRange) ∧
      (∀ x, exec (.wasPressed i x) s = .refused .operandRange) ∧
      (∀ l r, exec (.setRumble i l r) s = .refused .operandRange) ∧
      (∀ q, exec (.setLed i q) s = .refused .operandRange) ∧
      (∀ b, exec (.setCpled i b) s = .refused .operandRange) ∧
      (∀ now, exec (.feedbackTick i now) s = .refused .operandRange)) ∧
    (∀ (k : Byte) tf bytes, 4 ≤ k.toNat →
      exec (.slotWrite k tf bytes) s = .refused .operandRange ∧
      exec (.slotRead k tf) s = .refused .operandRange) ∧
    (∀ k : Byte, k.toNat = 0 ∨ 3 < k.toNat → exec (.coordPing k) s = .refused .operandRange) ∧
    (∀ (k : Byte) (tf : BitVec 4) bytes, 2 < tf.toNat →
      exec (.slotWrite k tf bytes) s = .refused .operandRange) ∧
    (∀ (k : Byte) (tf : BitVec 4), tf.toNat = 0 ∨ 2 < tf.toNat →
      exec (.slotRead k tf) s = .refused .operandRange) ∧
    (∀ (k : Byte) (f : TargetFamily) bytes, bytes.length ≠ s.cfg.inLen f →
      exec (.slotWrite k f.code bytes) s = .refused .operandRange) ∧
    (∀ h (len : BitVec 9) buf, buf.length ≠ len.toNat →
      exec (.decode h len buf) s = .refused .operandRange) ∧
    (∀ h (len : BitVec 9) buf, buf.length = len.toNat → 256 < len.toNat →
      ∃ t, exec (.decode h len buf) s = .next t)) ∧
  (∀ s, Ready .peer s →
    (∀ (tf : BitVec 4) bytes, tf.toNat = 0 ∨ 2 < tf.toNat →
      exec (.peerSetOut tf bytes) s = .refused .operandRange) ∧
    (∀ (f : TargetFamily) bytes, bytes.length ≠ s.cfg.outLen f →
      exec (.peerSetOut f.code bytes) s = .refused .operandRange)) ∧
  (∀ (lo hi : Byte) (t : Bytes), t.length ≠ lo.toNat + 256 * hi.toNat →
    decodePort (0x20 :: lo :: hi :: t) = .reject .lengthMismatch)

/-! ## The DeviceRecord pool -/

/-- R131: ATTACH (OPC 0x01), every case.  NONE for address 0, an unsupported family and a presence-driven one;
the live slot for a live key; E3 and NONE with the pool full; else the lowest free slot, filled. -/
def Obligations.AttachFollowsItsRule : Prop :=
  ∀ (s : State) (addr : Byte) (fam : Family) (inEp outEp chan : Byte),
    Ready .coordinator s → KeysUnique s →
    decodePort [0x01, addr, fam.code.setWidth 8, inEp, outEp, chan] =
      .instr (.attach addr fam inEp outEp chan) ∧ s.cfg.isSupported .unknown = false ∧
    ∃ t, exec (.attach addr fam inEp outEp chan) s = .next t ∧ NoDraw s t ∧
      (addr = 0 ∨ s.cfg.isSupported fam = false ∨ s.cfg.isPresenceDriven fam = true →
        OnlyOutputs s t ∧ Answers (.slot none) [] s t) ∧
      (addr ≠ 0 → s.cfg.isSupported fam = true → s.cfg.isPresenceDriven fam = false →
        (∀ i, i < s.maxDev → (s.dev i).hasKey addr chan = true →
          OnlyOutputs s t ∧ Answers (.slot (some i)) [] s t) ∧
        ((∀ i, i < s.maxDev → (s.dev i).hasKey addr chan = false) →
          ((∀ i, i < s.maxDev → (s.dev i).live = true) →
            OnlyOutputs s t ∧ Answers (.slot none) [.diag (.poolFull addr chan)] s t) ∧
          (∀ i, i < s.maxDev → (s.dev i).live = false → (∀ j, j < i → (s.dev j).live = true) →
            t.dev i = { zeroRecord s.cfg.cpKeys with
              fam := fam, addr := addr, inEp := inEp, outEp := outEp, chan := chan,
              cpInitPending := (s.cfg.capsOf fam).cpInit } ∧
            OnlyRecords (fun j => j = i) s t ∧ Answers (.slot (some i)) [] s t)))

/-- R132: DETACH (OPC 0x02) frees every record of its address and touches nothing else; address 0 frees
none. -/
def Obligations.DetachFreesEveryRecordOfItsAddress : Prop :=
  ∀ (s : State) (addr : Byte), Ready .coordinator s →
    decodePort [0x02, addr] = .instr (.detach addr) ∧
    ∃ t, exec (.detach addr) s = .next t ∧ NoDraw s t ∧ Answers .none [] s t ∧
      OnlyRecords (fun j => j < s.maxDev ∧ addr ≠ 0 ∧ (s.dev j).live = true ∧
        (s.dev j).addr = addr) s t ∧
      (addr ≠ 0 → ∀ j, j < s.maxDev → (s.dev j).live = true → (s.dev j).addr = addr →
        t.dev j = zeroRecord s.cfg.cpKeys)

/-! ## DECODE and the upstream packets -/

/-- A packet that is too long, names address 0, has an unsupported family, matches no kind, or is
no presence packet and has no record, is no new data: result 0, no state change and no event
(R140, R231, R232, R233). -/
def Obligations.UnrecognisedPacketsChangeNothing : Prop :=
  ∀ (s : State) (h : PacketHeader) (len : BitVec 9) (buf : Bytes),
    Ready .coordinator s → buf.length = len.toNat →
    (256 < len.toNat ∨ h.addr = 0 ∨ s.cfg.isSupported (s.familyFor h) = false ∨
      classify (s.cfg.layout (s.familyFor h)) buf = none ∨
      (∃ k, classify (s.cfg.layout (s.familyFor h)) buf = some k ∧ k.body.isPresence = false ∧
        ∀ i, i < s.maxDev → (s.dev i).hasKey h.addr h.chan = false)) →
    ∃ t, exec (.decode h len buf) s = .next t ∧ OnlyOutputs s t ∧ Answers (.isPad false) [] s t

/-- R142: a PAD packet of a live record overwrites every field of its pad state, whatever family
the host declared, and nothing else; the result is 1. -/
def Obligations.PadPacketOverwritesThePadState : Prop :=
  ∀ (s : State) (h : PacketHeader) (len : BitVec 9) (buf : Bytes) (i n : Nat)
    (ms : List MatchTriple) (f : PadFields),
    Ready .coordinator s → KeysUnique s → buf.length = len.toNat → len.toNat ≤ 256 →
    i < s.maxDev → (s.dev i).hasKey h.addr h.chan = true → h.addr ≠ 0 →
    s.cfg.isSupported (s.dev i).fam = true →
    classify (s.cfg.layout (s.dev i).fam) buf = some ⟨n, ms, .pad f⟩ →
    ∃ t, exec (.decode h len buf) s = .next t ∧
      t.dev i = { s.dev i with pad :=
        { buttons := assembleButtons f.buttons buf
          lt := f.lt.read buf, rt := f.rt.read buf
          lx := rd16le buf f.lx, ly := rd16le buf f.ly
          rx := rd16le buf f.rx, ry := rd16le buf f.ry } } ∧
      OnlyRecords (fun j => j = i) s t ∧ NoDraw s t ∧ Answers (.isPad true) [] s t

/-- R86: canonical bit `b` reads 1 iff some entry names it and its condition holds: a Bit entry's
bit is set, or an Ana entry's byte is above 0x20. -/
def Obligations.ButtonReadsItsEntries : Prop :=
  ∀ (es : List ButtonEntry) (buf : Bytes) (b : Nat),
    (assembleButtons es buf).getLsbD b = true ↔
      (∃ off bit m, ButtonEntry.bit off bit m ∈ es ∧ m.getLsbD b = true ∧
        buf.getD off 0 &&& bit ≠ 0) ∨
      (∃ off m, ButtonEntry.ana off m ∈ es ∧ m.getLsbD b = true ∧
        0x20 < (buf.getD off 0).toNat)

/-- R62: a 16-bit field is little-endian and reads as a two's complement value, at any offset; the
four sticks of a PAD kind are such fields; a shifted trigger is the same field shifted and cut to 8
bits, and a byte trigger is its one byte (R65, R87). -/
def Obligations.SixteenBitFieldsAreLittleEndian : Prop :=
  ∀ (buf : Bytes) (off : Nat) (lo hi : Byte), buf[off]? = some lo → buf[off + 1]? = some hi →
    (rd16le buf off).toNat = lo.toNat + 256 * hi.toNat ∧
    (TrigForm.byte off).read buf = lo ∧
    (rd16le buf off).toInt =
      (if hi.toNat < 128 then (lo.toNat + 256 * hi.toNat : Int)
        else (lo.toNat + 256 * hi.toNat : Int) - 65536) ∧
    (∀ sh, ((TrigForm.u16Shr off sh).read buf).toNat =
      (lo.toNat + 256 * hi.toNat) / 2 ^ sh % 256) ∧
    ∀ f : PadFields,
      (f.lx = off → (f.read buf).lx.toInt = (rd16le buf off).toInt) ∧
      (f.ly = off → (f.read buf).ly.toInt = (rd16le buf off).toInt) ∧
      (f.rx = off → (f.read buf).rx.toInt = (rd16le buf off).toInt) ∧
      (f.ry = off → (f.read buf).ry.toInt = (rd16le buf off).toInt)

/-- DECODE of a buffer some kind accepts is the packet-kind instruction of that kind's fields, each
read where the kind says: the pad fields of R86 and R87, the presence bit of R89, the modifier byte
and key codes of R90.  That a packet kind is an instruction of its own is the model's (log entry 7). -/
def Obligations.DecodeIsItsPacketKind : Prop :=
  ∀ (s : State) (h : PacketHeader) (len : BitVec 9) (buf : Bytes) (n : Nat) (ms : List MatchTriple)
    (body : KindBody),
    Ready .coordinator s → buf.length = len.toNat → len.toNat ≤ 256 → h.addr ≠ 0 →
    s.cfg.isSupported (s.familyFor h) = true →
    classify (s.cfg.layout (s.familyFor h)) buf = some ⟨n, ms, body⟩ →
    (∀ f, body = .pad f → exec (.decode h len buf) s =
      exec (.pad h
        { buttons := assembleButtons f.buttons buf
          lt := f.lt.read buf, rt := f.rt.read buf
          lx := rd16le buf f.lx, ly := rd16le buf f.ly
          rx := rd16le buf f.rx, ry := rd16le buf f.ry }) s) ∧
    (∀ off bit, body = .presence off bit → exec (.decode h len buf) s =
      exec (.presence h (decide (buf.getD off 0 &&& bit ≠ 0))) s) ∧
    (∀ m ks, body = .chatpad m ks → exec (.decode h len buf) s =
      exec (.chatpad h (buf.getD m 0) (ks.map (fun o => buf.getD o 0))) s) ∧
    (body = .reinit → exec (.decode h len buf) s = exec (.reinit h) s)

/-- R141: the PRESENCE kind.  Present with no record allocates the lowest free slot (E3 if none is
free), absent with a record frees it, and a repeated announcement changes nothing; never a pad
report. -/
def Obligations.PresenceAllocatesAndFrees : Prop :=
  ∀ (s : State) (h : PacketHeader) (present : Bool),
    Ready .coordinator s → KeysUnique s → h.addr ≠ 0 →
    s.cfg.isSupported (s.familyFor h) = true →
    hasKind (s.cfg.layout (s.familyFor h)) (.presence present) = true →
    ∃ t, exec (.presence h present) s = .next t ∧ NoDraw s t ∧
      (∀ i, i < s.maxDev → (s.dev i).hasKey h.addr h.chan = true →
        (present = true → OnlyOutputs s t ∧ Answers (.isPad false) [] s t) ∧
        (present = false → t.dev i = zeroRecord s.cfg.cpKeys ∧
          OnlyRecords (fun j => j = i) s t ∧ Answers (.isPad false) [] s t)) ∧
      ((∀ i, i < s.maxDev → (s.dev i).hasKey h.addr h.chan = false) →
        (present = false → OnlyOutputs s t ∧ Answers (.isPad false) [] s t) ∧
        (present = true → (∀ i, i < s.maxDev → (s.dev i).live = true) →
          OnlyOutputs s t ∧
            Answers (.isPad false) [.diag (.poolFull h.addr h.chan)] s t) ∧
        (present = true → ∀ i, i < s.maxDev → (s.dev i).live = false →
          (∀ j, j < i → (s.dev j).live = true) →
          t.dev i = { zeroRecord s.cfg.cpKeys with
            fam := h.hostFam, addr := h.addr, inEp := h.inEp, outEp := h.outEp, chan := h.chan,
            cpInitPending := (s.cfg.capsOf h.hostFam).cpInit } ∧
          OnlyRecords (fun j => j = i) s t ∧ Answers (.isPad false) [] s t))

/-- The PAD, CHATPAD and REINIT kinds on a live record: each writes its own fields and nothing else
(the history is not touched by CHATPAD), and only PAD is a new pad report (R142, R144, R145). -/
def Obligations.PacketKindsWriteTheirFields : Prop :=
  ∀ (s : State) (h : PacketHeader) (i : Nat),
    Ready .coordinator s → KeysUnique s → h.addr ≠ 0 → i < s.maxDev →
    (s.dev i).hasKey h.addr h.chan = true → s.cfg.isSupported (s.dev i).fam = true →
    (∀ p, hasKind (s.cfg.layout (s.dev i).fam) (.pad p) = true →
      ∃ t, exec (.pad h p) s = .next t ∧ t.dev i = { s.dev i with pad := p } ∧
        OnlyRecords (fun j => j = i) s t ∧ NoDraw s t ∧ Answers (.isPad true) [] s t) ∧
    (∀ m ks, hasKind (s.cfg.layout (s.dev i).fam) (.chatpad m ks) = true →
      ∃ t, exec (.chatpad h m ks) s = .next t ∧
        t.dev i = { s.dev i with cpMods := m, cpKeys := ks } ∧
        OnlyRecords (fun j => j = i) s t ∧ NoDraw s t ∧ Answers (.isPad false) [] s t) ∧
    (hasKind (s.cfg.layout (s.dev i).fam) .reinit = true →
      ∃ t, exec (.reinit h) s = .next t ∧
        t.dev i = { s.dev i with cpInitPending := true } ∧
        OnlyRecords (fun j => j = i) s t ∧ NoDraw s t ∧ Answers (.isPad false) [] s t)

/-- PAD, CHATPAD and REINIT packets for a key with no record are dropped (R140 step 9).  As
instructions, and where the family's layout has no such kind, this is the model's choice (log entry
7). -/
def Obligations.PacketsOfFreedKeysAreDropped : Prop :=
  ∀ (s : State) (h : PacketHeader), Ready .coordinator s →
    (∀ i, i < s.maxDev → (s.dev i).hasKey h.addr h.chan = false) →
    (∀ p, ∃ t, exec (.pad h p) s = .next t ∧ OnlyOutputs s t ∧
      Answers (.isPad false) [] s t) ∧
    (∀ m ks, ∃ t, exec (.chatpad h m ks) s = .next t ∧ OnlyOutputs s t ∧
      Answers (.isPad false) [] s t) ∧
    (∃ t, exec (.reinit h) s = .next t ∧ OnlyOutputs s t ∧ Answers (.isPad false) [] s t)

/-! ## Queries -/

/-- R149: READ_PAD (OPC 0x04) returns the seven fields and changes nothing; a record with every field
0, as R25 gives a free slot, reads all zeros. -/
def Obligations.ReadPadReturnsThePadState : Prop :=
  ∀ (s : State) (i : Byte), Ready .coordinator s → i.toNat < s.maxDev →
    decodePort [0x04, i] = .instr (.readPad i) ∧
    ∃ t, exec (.readPad i) s = .next t ∧ OnlyOutputs s t ∧
      Answers (.pad (s.dev i.toNat).pad) [] s t ∧
      (s.dev i.toNat = zeroRecord s.cfg.cpKeys → Answers (.pad ⟨0, 0, 0, 0, 0, 0, 0⟩) [] s t)

/-- R150: bit `b` of BUTTON_EDGE's (OPC 0x05) mask is set iff the button is down and its
`prevButtons` bit is 0; a record with every field 0 gives 0. -/
def Obligations.ButtonEdgeIsRisingEdges : Prop :=
  ∀ (s : State) (i : Byte), Ready .coordinator s → i.toNat < s.maxDev →
    decodePort [0x05, i] = .instr (.buttonEdge i) ∧
    ∃ t m, exec (.buttonEdge i) s = .next t ∧ OnlyOutputs s t ∧ Answers (.mask m) [] s t ∧
      (∀ b, m.getLsbD b = true ↔
        (s.dev i.toNat).pad.buttons.getLsbD b = true ∧
          (s.dev i.toNat).prevButtons.getLsbD b = false) ∧
      (s.dev i.toNat = zeroRecord s.cfg.cpKeys → m = 0)

/-- R151: COMMIT_EDGES (OPC 0x06) copies the buttons of a live record and leaves a free one. -/
def Obligations.CommitEdgesClosesTheWindow : Prop :=
  ∀ (s : State) (i : Byte), Ready .coordinator s → i.toNat < s.maxDev →
    decodePort [0x06, i] = .instr (.commitEdges i) ∧
    ∃ t, exec (.commitEdges i) s = .next t ∧ NoDraw s t ∧ Answers .none [] s t ∧
      OnlyRecords (fun j => j = i.toNat) s t ∧
      t.dev i.toNat = (if (s.dev i.toNat).fam ≠ .unknown then
        { s.dev i.toNat with prevButtons := (s.dev i.toNat).pad.buttons } else s.dev i.toNat)

/-- R152: IS_DOWN (OPC 0x07).  Never for a free slot or code 0; a modifier code through its bit of `cpMods`
only; any other code through membership in `cpKeys`. -/
def Obligations.IsDownTestsModifiersAndKeys : Prop :=
  ∀ (s : State) (i x : Byte), Ready .coordinator s → i.toNat < s.maxDev →
    decodePort [0x07, i, x] = .instr (.isDown i x) ∧
    ∃ t d, exec (.isDown i x) s = .next t ∧ OnlyOutputs s t ∧ Answers (.bit d) [] s t ∧
      ((s.dev i.toNat).fam = .unknown ∨ x = 0 → d = false) ∧
      ((s.dev i.toNat).fam ≠ .unknown → x ≠ 0 →
        (∀ m : Modifier, x = (s.cfg.mods.entry m).code →
          (d = true ↔ (s.dev i.toNat).cpMods &&& (s.cfg.mods.entry m).bit ≠ 0)) ∧
        ((∀ m : Modifier, x ≠ (s.cfg.mods.entry m).code) →
          (d = true ↔ x ∈ (s.dev i.toNat).cpKeys)))

/-- R153: WAS_PRESSED (OPC 0x08).  A free slot answers 0.  Otherwise the history first loses every entry whose
code is not down; then a code that is down, not yet held and finds a free entry claims the lowest
one and answers 1, and in every other case the answer is 0 and nothing is claimed. -/
def Obligations.WasPressedExpiresThenClaims : Prop :=
  ∀ (s : State) (i x : Byte), Ready .coordinator s → i.toNat < s.maxDev →
    decodePort [0x08, i, x] = .instr (.wasPressed i x) ∧
    ∃ t d, exec (.wasPressed i x) s = .next t ∧ NoDraw s t ∧ Answers (.bit d) [] s t ∧
      OnlyRecords (fun j => j = i.toNat) s t ∧
      ((s.dev i.toNat).fam = .unknown → d = false ∧ OnlyOutputs s t) ∧
      ((s.dev i.toNat).fam ≠ .unknown →
        let r := s.dev i.toNat
        let keep := fun c : Byte => if c ≠ 0 ∧ r.isDown s.cfg c = false then 0 else c
        let h0 := keep r.cpHist.h0
        let h1 := keep r.cpHist.h1
        let h2 := keep r.cpHist.h2
        ∃ h : Hist, t.dev i.toNat = { r with cpHist := h } ∧
          ((r.isDown s.cfg x = false ∨ x = h0 ∨ x = h1 ∨ x = h2 ∨
              (h0 ≠ 0 ∧ h1 ≠ 0 ∧ h2 ≠ 0)) → d = false ∧ h = ⟨h0, h1, h2⟩) ∧
          (r.isDown s.cfg x = true → x ≠ h0 → x ≠ h1 → x ≠ h2 →
            (h0 = 0 → d = true ∧ h = ⟨x, h1, h2⟩) ∧
            (h0 ≠ 0 → h1 = 0 → d = true ∧ h = ⟨h0, x, h2⟩) ∧
            (h0 ≠ 0 → h1 ≠ 0 → h2 = 0 → d = true ∧ h = ⟨h0, h1, x⟩)))

/-- The first half of R154: once WAS_PRESSED has reported code `x` of a slot, it never reports it again
through any sequence of further queries, of any code and slot, and CHATPAD packets, each of which
keeps `x` down if it is the slot's own.  CHATPAD as an instruction is the model's form of DECODE's
path (log entry 7). -/
def Obligations.HeldKeyIsReportedOnce : Prop :=
  ∀ (s t u : State) (i x : Byte) (ops : List Instr),
    Ready .coordinator s → KeysUnique s → i.toNat < s.maxDev →
    exec (.wasPressed i x) s = .next t → t.result = .bit true →
    (∀ op ∈ ops, (∃ j y, op = .wasPressed j y) ∨
      ∃ h m ks, op = .chatpad h m ks ∧
        ((s.dev i.toNat).hasKey h.addr h.chan = true →
          ({ s.dev i.toNat with cpMods := m, cpKeys := ks } : DeviceRecord).isDown s.cfg x = true)) →
    runInstrs ops t = .next u →
    ∃ v, exec (.wasPressed i x) u = .next v ∧ v.result = .bit false

/-- The second half of R154: after a packet that releases `x`, a query, and a packet that presses
it again, WAS_PRESSED reports `x` again.  CHATPAD as an instruction is log entry 7's. -/
def Obligations.RepressedKeyIsReportedAgain : Prop :=
  ∀ (s : State) (i x : Byte) (h : PacketHeader) (m m' : Byte) (ks ks' : Bytes),
    Ready .coordinator s → KeysUnique s → i.toNat < s.maxDev → h.addr ≠ 0 →
    (s.dev i.toNat).hasKey h.addr h.chan = true →
    s.cfg.isSupported (s.dev i.toNat).fam = true →
    hasKind (s.cfg.layout (s.dev i.toNat).fam) (.chatpad m ks) = true →
    (s.dev i.toNat).cpHist.holds x = true → x ≠ 0 →
    ({ s.dev i.toNat with cpMods := m, cpKeys := ks } : DeviceRecord).isDown s.cfg x = false →
    ({ s.dev i.toNat with cpMods := m', cpKeys := ks' } : DeviceRecord).isDown s.cfg x = true →
    ∃ t, runInstrs
        [.chatpad h m ks, .wasPressed i x, .chatpad h m' ks', .wasPressed i x] s = .next t ∧
      t.result = .bit true

/-- R160 to R162: each SET operation (OPC 0x09 to 0x0B) writes its requested field of a live record and nothing else;
a free slot is left unchanged. -/
def Obligations.RequestsWriteOnlyTheirField : Prop :=
  ∀ (s : State) (i : Byte), Ready .coordinator s → i.toNat < s.maxDev →
    (∀ l r, decodePort [0x09, i, l, r] = .instr (.setRumble i l r) ∧
      ∃ t, exec (.setRumble i l r) s = .next t ∧ NoDraw s t ∧ Answers .none [] s t ∧
      OnlyRecords (fun j => j = i.toNat) s t ∧
      t.dev i.toNat = (if (s.dev i.toNat).fam ≠ .unknown then
        { s.dev i.toNat with rumReq := ⟨l, r⟩ } else s.dev i.toNat)) ∧
    (∀ q, decodePort [0x0A, i, q] = .instr (.setLed i q) ∧
      ∃ t, exec (.setLed i q) s = .next t ∧ NoDraw s t ∧ Answers .none [] s t ∧
      OnlyRecords (fun j => j = i.toNat) s t ∧
      t.dev i.toNat = (if (s.dev i.toNat).fam ≠ .unknown then
        { s.dev i.toNat with ledReq := q } else s.dev i.toNat)) ∧
    (∀ b, decodePort [0x0B, i, b] = .instr (.setCpled i b) ∧
      ∃ t, exec (.setCpled i b) s = .next t ∧ NoDraw s t ∧ Answers .none [] s t ∧
      OnlyRecords (fun j => j = i.toNat) s t ∧
      t.dev i.toNat = (if (s.dev i.toNat).fam ≠ .unknown then
        { s.dev i.toNat with cpLedReq := b } else s.dev i.toNat))

/-! ## Feedback -/

/-- R170: `send` emits the command's strings in order, to the record's own address and output
endpoint, one draw each; it stops at the first error and raises E5, and answers OK iff no draw was
an error.  Nothing else changes.  The draws are scripted answers (log entry 4). -/
def Obligations.SendStopsAtTheFirstFailure : Prop :=
  ∀ (s : State) (i : Nat) (k : Cmd),
    let r := s.dev i
    let strings := s.cfg.cmd r.fam k
    (∀ (oks rest : List TransferResult), s.upTape = oks ++ rest → oks.length = strings.length →
      (∀ o ∈ oks, o ≠ .error) →
      send i k s = (true, { s with
        upTape := rest
        events := s.events ++ strings.map (fun p => .uptx r.addr r.outEp p) })) ∧
    (∀ (oks rest : List TransferResult), s.upTape = oks ++ .error :: rest →
      oks.length < strings.length → (∀ o ∈ oks, o ≠ .error) →
      send i k s = (false, { s with
        upTape := rest
        events := s.events ++
          (strings.take (oks.length + 1)).map (fun p => .uptx r.addr r.outEp p) ++
          [.diag (.uptxFail i k.kind)] }))

/-- FEEDBACK_TICK on a free slot, and on a live slot no guard of which holds: no command, and of a
live record only the hold timer moves, to `now` unless the power button is held (R171, R176). -/
def Obligations.IdleTickMovesOnlyTheHoldTimer : Prop :=
  ∀ (s : State) (i : Byte) (now : BitVec 32), Ready .coordinator s → i.toNat < s.maxDev →
    let r := s.dev i.toNat
    let caps := s.cfg.capsOf r.fam
    let held := caps.powerOff = true ∧ r.pad.buttons &&& s.cfg.powerMask ≠ 0
    (r.fam = .unknown →
      ∃ t, exec (.feedbackTick i now) s = .next t ∧ OnlyOutputs s t ∧ Answers .none [] s t) ∧
    (r.fam ≠ .unknown →
      ¬ (caps.rumble = true ∧ r.rumReq ≠ r.rumAct) → ¬ (caps.led = true ∧ r.ledReq ≠ r.ledAct) →
      ¬ (caps.cpInit = true ∧ r.cpInitPending = true) →
      ¬ (caps.cpLed = true ∧ r.cpLedReq ≠ r.cpLedAct) →
      ¬ (held ∧ 1000 < (now - r.tPowerHold).toNat) →
      ¬ (caps.keepalive = true ∧ 1000 ≤ (now - r.tPeriodic).toNat) →
      ∃ t, exec (.feedbackTick i now) s = .next t ∧ NoDraw s t ∧ Answers .none [] s t ∧
        OnlyRecords (fun j => j = i.toNat) s t ∧
        (held → t.dev i.toNat = r) ∧
        (¬ held → t.dev i.toNat = { r with tPowerHold := now }))

/-- The rumble, LED and chatpad-init branches, in priority order: the command is sent, and the
actual field follows only if the send was OK (R171 to R174).  `send` is the operation of R170, on
the state after the hold-timer update. -/
def Obligations.SuccessGatedBranches : Prop :=
  ∀ (s : State) (i : Byte) (now : BitVec 32), Ready .coordinator s → i.toNat < s.maxDev →
    (s.dev i.toNat).fam ≠ .unknown →
    let r := s.dev i.toNat
    let caps := s.cfg.capsOf r.fam
    let held := caps.powerOff = true ∧ r.pad.buttons &&& s.cfg.powerMask ≠ 0
    ∀ r1 : DeviceRecord, (held → r1 = r) → (¬ held → r1 = { r with tPowerHold := now }) →
    let s1 := s.setRec i.toNat r1
    (caps.rumble = true → r.rumReq ≠ r.rumAct →
      ∃ t, exec (.feedbackTick i now) s = .next t ∧ t.result = .none ∧
        t.events = (send i.toNat (.rumble r.rumReq.l r.rumReq.r) s1).2.events ∧
        OnlyRecords (fun j => j = i.toNat) s t ∧
        t.dev i.toNat = (if (send i.toNat (.rumble r.rumReq.l r.rumReq.r) s1).1 = true then
          { r1 with rumAct := r.rumReq } else r1)) ∧
    (¬ (caps.rumble = true ∧ r.rumReq ≠ r.rumAct) → caps.led = true → r.ledReq ≠ r.ledAct →
      ∃ t, exec (.feedbackTick i now) s = .next t ∧ t.result = .none ∧
        t.events = (send i.toNat (.led r.ledReq) s1).2.events ∧
        OnlyRecords (fun j => j = i.toNat) s t ∧
        t.dev i.toNat = (if (send i.toNat (.led r.ledReq) s1).1 = true then
          { r1 with ledAct := r.ledReq } else r1)) ∧
    (¬ (caps.rumble = true ∧ r.rumReq ≠ r.rumAct) → ¬ (caps.led = true ∧ r.ledReq ≠ r.ledAct) →
      caps.cpInit = true → r.cpInitPending = true →
      ∃ t, exec (.feedbackTick i now) s = .next t ∧ t.result = .none ∧
        t.events = (send i.toNat .cpInit s1).2.events ∧
        OnlyRecords (fun j => j = i.toNat) s t ∧
        t.dev i.toNat = (if (send i.toNat .cpInit s1).1 = true then
          { r1 with cpInitPending := false } else r1))

/-- The power-off and keepalive branches: they fire at an elapsed time of more than 1000, and of
1000 or more, modulo 2^32, after every higher branch; the timer restarts whatever the send answers
(R171, R176, R177). -/
def Obligations.TimedBranches : Prop :=
  ∀ (s : State) (i : Byte) (now : BitVec 32), Ready .coordinator s → i.toNat < s.maxDev →
    (s.dev i.toNat).fam ≠ .unknown →
    let r := s.dev i.toNat
    let caps := s.cfg.capsOf r.fam
    let held := caps.powerOff = true ∧ r.pad.buttons &&& s.cfg.powerMask ≠ 0
    ¬ (caps.rumble = true ∧ r.rumReq ≠ r.rumAct) → ¬ (caps.led = true ∧ r.ledReq ≠ r.ledAct) →
    ¬ (caps.cpInit = true ∧ r.cpInitPending = true) →
    ¬ (caps.cpLed = true ∧ r.cpLedReq ≠ r.cpLedAct) →
    (held → 1000 < (now - r.tPowerHold).toNat →
      ∃ t, exec (.feedbackTick i now) s = .next t ∧ t.result = .none ∧
        t.events = (send i.toNat .powerOff s).2.events ∧
        OnlyRecords (fun j => j = i.toNat) s t ∧
        t.dev i.toNat = { r with tPowerHold := now }) ∧
    (held → (now - r.tPowerHold).toNat ≤ 1000 → caps.keepalive = true →
      1000 ≤ (now - r.tPeriodic).toNat →
      ∃ t, exec (.feedbackTick i now) s = .next t ∧ t.result = .none ∧
        t.events = (send i.toNat .keepalive s).2.events ∧
        OnlyRecords (fun j => j = i.toNat) s t ∧
        t.dev i.toNat = { r with tPeriodic := now }) ∧
    (¬ held → caps.keepalive = true → 1000 ≤ (now - r.tPeriodic).toNat →
      ∃ t, exec (.feedbackTick i now) s = .next t ∧ t.result = .none ∧
        t.events = (send i.toNat .keepalive s).2.events ∧
        OnlyRecords (fun j => j = i.toNat) s t ∧
        t.dev i.toNat = { r with tPowerHold := now, tPeriodic := now })

/-- The chatpad LED branch with every transfer succeeding: one command per differing bit, lowest
bit first, and the actual LEDs become the requested ones (R171, R175).  The transfers' answers are
scripted (log entry 4). -/
def Obligations.ChatpadLedBranchSyncsEveryBit : Prop :=
  ∀ (s : State) (i : Byte) (now : BitVec 32) (oks rest : List TransferResult),
    Ready .coordinator s → i.toNat < s.maxDev → (s.dev i.toNat).fam ≠ .unknown →
    let r := s.dev i.toNat
    let caps := s.cfg.capsOf r.fam
    let sent := (((List.range 8).filter
      (fun b => r.cpLedReq.getLsbD b != r.cpLedAct.getLsbD b)).map
        (fun b => s.cfg.cmd r.fam (.cpLed b (r.cpLedReq.getLsbD b)))).flatten
    ¬ (caps.rumble = true ∧ r.rumReq ≠ r.rumAct) → ¬ (caps.led = true ∧ r.ledReq ≠ r.ledAct) →
    ¬ (caps.cpInit = true ∧ r.cpInitPending = true) →
    caps.cpLed = true → r.cpLedReq ≠ r.cpLedAct →
    s.upTape = oks ++ rest → oks.length = sent.length → (∀ o ∈ oks, o ≠ .error) →
    ∃ t, exec (.feedbackTick i now) s = .next t ∧ t.upTape = rest ∧
      Answers .none (sent.map (fun p => .uptx r.addr r.outEp p)) s t ∧
      OnlyRecords (fun j => j = i.toNat) s t ∧
      (t.dev i.toNat).cpLedAct = r.cpLedReq

/-- The chatpad LED branch in general.  For every tick the requested LEDs stay and each bit of the
actual ones is the requested one or the one from before.  When the branch runs, each differing bit is
sent, lowest first, whatever the earlier bits answered; a bit whose send was OK takes the requested
value, and any other bit keeps its own (R175). -/
def Obligations.ChatpadLedBitsChangeOneByOne : Prop :=
  ∀ (s t : State) (i : Byte) (now : BitVec 32),
    i.toNat < s.maxDev → exec (.feedbackTick i now) s = .next t →
    let r := s.dev i.toNat
    let r' := t.dev i.toNat
    let caps := s.cfg.capsOf r.fam
    let differs := fun b => r.cpLedReq.getLsbD b != r.cpLedAct.getLsbD b
    (r'.cpLedReq = r.cpLedReq ∧
      ∀ b, r'.cpLedAct.getLsbD b = r.cpLedAct.getLsbD b ∨
        r'.cpLedAct.getLsbD b = r.cpLedReq.getLsbD b) ∧
    (r.fam ≠ .unknown →
      ¬ (caps.rumble = true ∧ r.rumReq ≠ r.rumAct) → ¬ (caps.led = true ∧ r.ledReq ≠ r.ledAct) →
      ¬ (caps.cpInit = true ∧ r.cpInitPending = true) →
      caps.cpLed = true → r.cpLedReq ≠ r.cpLedAct →
      ∃ (ok : Nat → Bool) (evs : Nat → List Event),
        t.events = s.events ++ (((List.range 8).filter differs).map evs).flatten ∧
        (∀ b, b < 8 → differs b = true →
          CommandEvents i.toNat .cpLed r.addr r.outEp
            (s.cfg.cmd r.fam (.cpLed b (r.cpLedReq.getLsbD b))) (ok b) (evs b)) ∧
        ∀ b, b < 8 → r'.cpLedAct.getLsbD b =
          (if differs b = true ∧ ok b = true then r.cpLedReq.getLsbD b
            else r.cpLedAct.getLsbD b))

/-- R178: one tick on a live slot runs at most one branch, the first whose guard holds on the record
after the hold-timer update (`r1`).  With none, there is no command and the record is `r1`.  With one,
the events are those of its command alone (of its commands, one for each of up to eight bits, for the
chatpad LEDs), and no field but that branch's differs from `r1`: no other branch sent, failed or
changed anything. -/
def Obligations.TickRunsAtMostOneBranch : Prop :=
  ∀ (s t : State) (i : Byte) (now : BitVec 32),
    i.toNat < s.maxDev → exec (.feedbackTick i now) s = .next t →
    let r := s.dev i.toNat
    let r' := t.dev i.toNat
    let held := (s.cfg.capsOf r.fam).powerOff = true ∧ r.pad.buttons &&& s.cfg.powerMask ≠ 0
    let sends := fun (k : Cmd) (ok : Bool) => ∃ evs, t.events = s.events ++ evs ∧
      CommandEvents i.toNat k.kind r.addr r.outEp (s.cfg.cmd r.fam k) ok evs
    (r.fam = .unknown → t.events = s.events ∧ r' = r) ∧
    (r.fam ≠ .unknown →
      ∃ r1 : DeviceRecord, (held → r1 = r) ∧ (¬ held → r1 = { r with tPowerHold := now }) ∧
        (∀ (pre post : List Branch) (b : Branch), branches = pre ++ b :: post →
          (r1.selectBranch s.cfg now = some b ↔
            r1.guard s.cfg now b = true ∧ ∀ b' ∈ pre, r1.guard s.cfg now b' = false)) ∧
        match r1.selectBranch s.cfg now with
        | none => t.events = s.events ∧ r' = r1
        | some .rumble => ∃ ok, sends (.rumble r.rumReq.l r.rumReq.r) ok ∧
            r' = (if ok then { r1 with rumAct := r.rumReq } else r1)
        | some .led => ∃ ok, sends (.led r.ledReq) ok ∧
            r' = (if ok then { r1 with ledAct := r.ledReq } else r1)
        | some .cpInit => ∃ ok, sends .cpInit ok ∧
            r' = (if ok then { r1 with cpInitPending := false } else r1)
        | some .cpLed =>
            ∃ (bits : List Nat) (ok : Nat → Bool) (evs : Nat → List Event) (act : Byte),
              bits.Sublist (List.range 8) ∧ t.events = s.events ++ (bits.map evs).flatten ∧
              (∀ b ∈ bits, CommandEvents i.toNat .cpLed r.addr r.outEp
                (s.cfg.cmd r.fam (.cpLed b (r.cpLedReq.getLsbD b))) (ok b) (evs b)) ∧
              r' = { r1 with cpLedAct := act }
        | some .powerOff => ∃ ok, sends .powerOff ok ∧ r' = { r1 with tPowerHold := now }
        | some .keepalive => ∃ ok, sends .keepalive ok ∧ r' = { r1 with tPeriodic := now })

/-- R179: with constant requests and no failed send, four ticks bring every actual field a
family drives to its request, and after them only the power-off and keepalive branches can fire. -/
def Obligations.FeedbackConvergesInFourTicks : Prop :=
  ∀ (s t : State) (i : Byte) (n1 n2 n3 n4 : BitVec 32),
    i.toNat < s.maxDev → (s.dev i.toNat).fam ≠ .unknown →
    runInstrs [.feedbackTick i n1, .feedbackTick i n2, .feedbackTick i n3, .feedbackTick i n4] s
      = .next t →
    (∀ e ∈ t.events.drop s.events.length, ∀ j k, e ≠ .diag (.uptxFail j k)) →
    let caps := s.cfg.capsOf (s.dev i.toNat).fam
    let r' := t.dev i.toNat
    (caps.rumble = true → r'.rumAct = (s.dev i.toNat).rumReq) ∧
    (caps.led = true → r'.ledAct = (s.dev i.toNat).ledReq) ∧
    (caps.cpInit = true → r'.cpInitPending = false) ∧
    (caps.cpLed = true → r'.cpLedAct = (s.dev i.toNat).cpLedReq) ∧
    ∀ now, r'.selectBranch t.cfg now = none ∨ r'.selectBranch t.cfg now = some .powerOff ∨
      r'.selectBranch t.cfg now = some .keepalive

/-! ## The coordinator's transport -/

/-- R193 to R196: COORD_POLL (OPC 0x12) serves peers 1, 2 and 3 in this order, whatever happened to the
earlier ones.  Each gets its status frame; a nonzero error code gives E6 and no read; else the
received bytes below the expected size replace the out-report's first bytes, the surplus is drained,
and a short read gives E7 and keeps the other bytes.  No other byte, family or record changes.  That
the draws are scripted answers while there are any is the model's (log entry 4): the three sends take
the next codes, and the good sends, in the order of their peers, the next strings, whichever sends
are good. -/
def Obligations.PollServesEveryPeer : Prop :=
  ∀ s : State, Ready .coordinator s → Memory.wf s = true →
    decodePort [0x12] = .instr .coordPoll ∧
    ∃ (t : State) (err : Fin 4 → Byte) (rx : Fin 4 → Bytes),
      let ev := fun k : Fin 4 =>
        let sl := s.slot k
        Event.busw k.val ((0xF0#8 ||| sl.tf.code.setWidth 8) :: sl.inBuf sl.tf) ::
          (if err k ≠ 0 then [.diag (.busSendFail k.val (err k))]
           else .busr k.val (s.cfg.outLen sl.tf) ::
            (if (rx k).length < s.cfg.outLen sl.tf then
              [.diag (.busShortRead k.val (rx k).length (s.cfg.outLen sl.tf))] else []))
      let peers : List (Fin 4) := [1, 2, 3]
      let good := peers.filter (fun k => err k == 0)
      let replaced := fun (k : Fin 4) (off : Nat) =>
        k ≠ 0 ∧ err k = 0 ∧ off < (rx k).length ∧ off < s.cfg.outLen (s.slot k).tf
      exec .coordPoll s = .next t ∧ Answers .none (ev 1 ++ ev 2 ++ ev 3) s t ∧
      SameControl s t ∧ SameRecords s t ∧ SameFamilies s t ∧ t.upTape = s.upTape ∧
      SameBytesBut (fun b off => ∃ k, (s.slot k).tf ≠ .disconnected ∧
        b = .coordOut k (isCockpit (s.slot k).tf) ∧ replaced k off) s t ∧
      (∀ k off, (s.slot k).tf ≠ .disconnected → replaced k off →
        t.readByte (.coordOut k (isCockpit (s.slot k).tf)) off = (rx k)[off]?) ∧
      (∀ (n : Nat) k e, peers[n]? = some k → s.errTape[n]? = some e → err k = e) ∧
      t.errTape = s.errTape.drop 3 ∧
      (∀ (n : Nat) k r, good[n]? = some k → s.rxTape[n]? = some r → rx k = r) ∧
      t.rxTape = s.rxTape.drop good.length

/-- R217: one poll issues at most six bus outputs, and a peer always answers a request with at least
one byte. -/
def Obligations.PollIsBounded : Prop :=
  (∀ s t, exec .coordPoll s = .next t →
    ∃ evs, t.events = s.events ++ evs ∧
      (evs.filter (fun e => match e with | .busw _ _ => true | .busr _ _ => true | _ => false)).length
        ≤ 2 * 3) ∧
  (∀ s t, Memory.wf s = true → exec .peerRequest s = .next t →
    ∃ b, t.result = .bytes b ∧ 1 ≤ b.length ∧ b.length ≤ 255)

/-- R197: COORD_PING (OPC 0x13) writes the one ping byte to its peer, reports a failed send, and changes no
state of the coordinator; a COORD_POLL never writes a ping.  The error code is the scripted one while
there is one (log entry 4). -/
def Obligations.PingIsOneByteAndChangesNothing : Prop :=
  ∀ (s : State) (k : Byte), Ready .coordinator s → 1 ≤ k.toNat → k.toNat ≤ 3 →
    decodePort [0x13, k] = .instr (.coordPing k) ∧
    ∃ (t : State) (err : Byte), exec (.coordPing k) s = .next t ∧
      Answers .none (.busw k.toNat [0xAA] ::
        (if err ≠ 0 then [.diag (.busSendFail k.toNat err)] else [])) s t ∧
      SameControl s t ∧ SameRecords s t ∧ SameFamilies s t ∧ SameBytes s t ∧
      t.upTape = s.upTape ∧ t.rxTape = s.rxTape ∧
      (∀ e es, s.errTape = e :: es → err = e ∧ t.errTape = es) ∧
    ∀ u, exec .coordPoll s = .next u →
      ∃ evs, u.events = s.events ++ evs ∧ ∀ a, Event.busw a [0xAA] ∉ evs

/-- R200: SLOT_WRITE (OPC 0x10) sets the slot's family and, for a connected one, that family's
in-report; every other byte and family stays; an illegal family or a wrong length is refused. -/
def Obligations.SlotWriteSetsFamilyAndReport : Prop :=
  ∀ (s : State) (k : Byte) (f : TargetFamily) (bytes : Bytes),
    Ready .coordinator s → k.toNat < 4 →
    decodePort (0x10 :: k :: f.code.setWidth 8 :: bytes) = .instr (.slotWrite k f.code bytes) ∧
    (∀ tf : BitVec 4, 2 < tf.toNat → exec (.slotWrite k tf bytes) s = .refused .operandRange) ∧
    (bytes.length ≠ s.cfg.inLen f →
      exec (.slotWrite k f.code bytes) s = .refused .operandRange) ∧
    (bytes.length = s.cfg.inLen f →
    ∃ t, exec (.slotWrite k f.code bytes) s = .next t ∧ NoDraw s t ∧ Answers .none [] s t ∧
      SameControl s t ∧ SameRecords s t ∧
      (t.slot (Fin.ofNat 4 k.toNat)).tf = f ∧
      SameFamiliesBut (fun j => j = Fin.ofNat 4 k.toNat) False s t ∧
      SameBytesBut (fun b _ => f ≠ .disconnected ∧
        b = .coordIn (Fin.ofNat 4 k.toNat) (isCockpit f)) s t ∧
      (f ≠ .disconnected → ∀ off,
        t.readByte (.coordIn (Fin.ofNat 4 k.toNat) (isCockpit f)) off = bytes[off]?))

/-- R201: SLOT_READ (OPC 0x11) returns the out-report of the named family and changes nothing; the
family DISCONNECTED is refused. -/
def Obligations.SlotReadReturnsTheOutReport : Prop :=
  ∀ (s : State) (k : Byte), Ready .coordinator s → k.toNat < 4 →
    decodePort [0x11, k, 0x01] = .instr (.slotRead k 1) ∧
    decodePort [0x11, k, 0x02] = .instr (.slotRead k 2) ∧
    exec (.slotRead k 0) s = .refused .operandRange ∧
    (∃ t, exec (.slotRead k 1) s = .next t ∧ OnlyOutputs s t ∧
      Answers (.bytes (s.slot (Fin.ofNat 4 k.toNat)).outStd) [] s t) ∧
    (∃ t, exec (.slotRead k 2) s = .next t ∧ OnlyOutputs s t ∧
      Answers (.bytes (s.slot (Fin.ofNat 4 k.toNat)).outCockpit) [] s t)

/-- The RESPONSE frame as an input of its own (the model's choice, log entry 6): the receive step
of R194 for the peer's slot. -/
def Obligations.ResponseFrameIsTheReceiveStep : Prop :=
  ∀ (s : State) (k : Byte) (rx : Bytes), Ready .coordinator s → Memory.wf s = true →
    1 ≤ k.toNat → k.toNat ≤ 3 →
    let ix : Fin 4 := Fin.ofNat 4 k.toNat
    let tf := (s.slot ix).tf
    let e := s.cfg.outLen tf
    let touched := fun b off => tf ≠ .disconnected ∧ b = BufId.coordOut ix (isCockpit tf) ∧
      off < rx.length ∧ off < e
    ∃ t, exec (.response k rx) s = .next t ∧ NoDraw s t ∧
      Answers .none (if rx.length < e then [.diag (.busShortRead k.toNat rx.length e)] else []) s t ∧
      SameControl s t ∧ SameRecords s t ∧ SameFamilies s t ∧ SameBytesBut touched s t ∧
      (∀ b off, touched b off → t.readByte b off = rx[off]?)

/-! ## The peer -/

/-- R210, R211: PEER_RECEIVE (OPC 0x20) on every transaction: empty, ping, a status frame of the right length, one of
the wrong length, and everything else. -/
def Obligations.PeerReceiveFollowsItsRule : Prop :=
  ∀ (s : State), Ready .peer s →
    (∀ t : Bytes, t.length < 65536 →
      decodePort (0x20 :: BitVec.ofNat 8 t.length :: BitVec.ofNat 8 (t.length / 256) :: t) =
        .instr (.peerReceive t)) ∧
    (∃ t, exec (.peerReceive []) s = .next t ∧ OnlyOutputs s t ∧ Answers .none [] s t) ∧
    (∀ rest, ∃ t, exec (.peerReceive (0xAA :: rest)) s = .next t ∧ OnlyOutputs s t ∧
      Answers .none [.ackPing] s t) ∧
    (∀ (f : TargetFamily) (rest : Bytes),
      ∃ t, exec (.peerReceive ((0xF0#8 ||| f.code.setWidth 8) :: rest)) s = .next t ∧
        (rest.length = s.cfg.inLen f →
          NoDraw s t ∧ SameControl s t ∧ SameRecords s t ∧ t.peer.tf = f ∧
          SameFamiliesBut (fun _ => False) True s t ∧
          SameBytesBut (fun b _ => f ≠ .disconnected ∧ b = .peerIn (isCockpit f)) s t ∧
          (f ≠ .disconnected → ∀ off, t.readByte (.peerIn (isCockpit f)) off = rest[off]?) ∧
          Answers .none (if s.peer.tf ≠ f then [.familyChanged f] else []) s t) ∧
        (rest.length ≠ s.cfg.inLen f → OnlyOutputs s t ∧
          Answers .none
            [.diag (.frameReject .len (0xF0#8 ||| f.code.setWidth 8) (1 + rest.length))] s t)) ∧
    (∀ (b : Byte) (rest : Bytes), b ≠ 0xAA → ¬ (0xF0 ≤ b.toNat ∧ b.toNat ≤ 0xF2) →
      ∃ t, exec (.peerReceive (b :: rest)) s = .next t ∧ OnlyOutputs s t ∧
        Answers .none [.diag (.frameReject .tag b (1 + rest.length))] s t)

/-- A bus frame as an instruction is PEER_RECEIVE of its whole transaction (R97, R192). -/
def Obligations.FrameIsItsTransaction : Prop :=
  ∀ (s : State) (l : List Kind) (t : Bytes) (i : Instr), decodeFrame t = .instr i →
    exec i s = exec (.peerReceive t) s ∧ encode l i = ⟨.busFrame, t⟩

/-- The frame instructions on every length: a status frame of its family's length is accepted whole,
any other length discards it whole with E8(LEN); a reserved one is discarded with E8(TAG); a ping is
acknowledged (R97, R210, R211). -/
def Obligations.BusFramesComplete : Prop :=
  ∀ (s : State) (rest : Bytes), Ready .peer s →
    (∀ (f : TargetFamily) (i : Instr),
      (f = .disconnected ∧ i = .statusDisc rest) ∨ (f = .standard ∧ i = .statusStd rest) ∨
        (f = .cockpit ∧ i = .statusCockpit rest) →
      ∃ t, exec i s = .next t ∧ NoDraw s t ∧ SameControl s t ∧ SameRecords s t ∧
        (rest.length = s.cfg.inLen f →
          t.peer.tf = f ∧ SameFamiliesBut (fun _ => False) True s t ∧
          SameBytesBut (fun b _ => f ≠ .disconnected ∧ b = .peerIn (isCockpit f)) s t ∧
          (f ≠ .disconnected → ∀ off, t.readByte (.peerIn (isCockpit f)) off = rest[off]?) ∧
          Answers .none (if s.peer.tf ≠ f then [.familyChanged f] else []) s t) ∧
        (rest.length ≠ s.cfg.inLen f → OnlyOutputs s t ∧
          Answers .none
            [.diag (.frameReject .len (0xF0#8 ||| f.code.setWidth 8) (1 + rest.length))] s t)) ∧
    (∀ fam : BitVec 4, 3 ≤ fam.toNat →
      ∃ t, exec (.statusReserved fam rest) s = .next t ∧ OnlyOutputs s t ∧
        Answers .none
          [.diag (.frameReject .tag (0xF0#8 ||| fam.setWidth 8) (1 + rest.length))] s t) ∧
    (∃ t, exec (.ping rest) s = .next t ∧ OnlyOutputs s t ∧ Answers .none [.ackPing] s t)

/-- R212: PEER_REQUEST (OPC 0x21) answers the placeholder if disconnected, else the whole out-report
of the peer's own family, 1 to 255 bytes, and changes no state. -/
def Obligations.PeerRequestAnswersItsOwnFamily : Prop :=
  ∀ s : State, Ready .peer s → Memory.wf s = true →
    decodePort [0x21] = .instr .peerRequest ∧
    ∃ t, exec .peerRequest s = .next t ∧ OnlyOutputs s t ∧
      (∀ b, t.result = .bytes b → 1 ≤ b.length ∧ b.length ≤ 255) ∧
      (s.peer.tf = .disconnected → Answers (.bytes [s.cfg.placeholder]) [] s t) ∧
      (s.peer.tf = .standard → Answers (.bytes s.peer.outStd) [] s t) ∧
      (s.peer.tf = .cockpit → Answers (.bytes s.peer.outCockpit) [] s t)

/-- R213: PEER_SET_OUT (OPC 0x22) replaces the out-report of the named family; `P.tf` and every other
byte stay; the family DISCONNECTED is refused. -/
def Obligations.PeerSetOutReplacesOneReport : Prop :=
  ∀ (s : State) (f : TargetFamily) (bytes : Bytes),
    Ready .peer s → f ≠ .disconnected → bytes.length = s.cfg.outLen f →
    decodePort (0x22 :: f.code.setWidth 8 :: bytes) = .instr (.peerSetOut f.code bytes) ∧
    (∀ b, exec (.peerSetOut 0 b) s = .refused .operandRange) ∧
    ∃ t, exec (.peerSetOut f.code bytes) s = .next t ∧ NoDraw s t ∧ Answers .none [] s t ∧
      SameControl s t ∧ SameRecords s t ∧ SameFamilies s t ∧
      SameBytesBut (fun b _ => b = .peerOut (isCockpit f)) s t ∧
      ∀ off, t.readByte (.peerOut (isCockpit f)) off = bytes[off]?

/-- R214: PEER_READ (OPC 0x23) returns the family and its in-report, empty if disconnected, and changes
nothing. -/
def Obligations.PeerReadReturnsFamilyAndReport : Prop :=
  ∀ s : State, Ready .peer s →
    decodePort [0x23] = .instr .peerRead ∧
    ∃ t, exec .peerRead s = .next t ∧ OnlyOutputs s t ∧
      (s.peer.tf = .disconnected → Answers (.report .disconnected []) [] s t) ∧
      (s.peer.tf = .standard → Answers (.report .standard s.peer.inStd) [] s t) ∧
      (s.peer.tf = .cockpit → Answers (.report .cockpit s.peer.inCockpit) [] s t)

/-- R215 over every instruction: FAMILY_CHANGED(tf) is emitted exactly when an operation other than
RESET changes `P.tf`, and then to `tf`. -/
def Obligations.FamilyChangedIffTheFamilyChanged : Prop :=
  ∀ (i : Instr) (s t : State), (∀ id, i ≠ .reset id) → exec i s = .next t →
    ∃ evs, t.events = s.events ++ evs ∧
      ∀ tf, Event.familyChanged tf ∈ evs ↔ (t.peer.tf = tf ∧ s.peer.tf ≠ tf)

/-- R219: a discarded transaction leaves no byte behind: the next transaction is received exactly
as if the discarded one had never arrived, but for the events already emitted. -/
def Obligations.DiscardedFramesLeaveNoTrace : Prop :=
  ∀ (s t u v : State) (bad next : Bytes) (why : FrameError) (b : Byte) (n : Nat),
    exec (.peerReceive bad) s = .next t →
    t.events = s.events ++ [.diag (.frameReject why b n)] →
    exec (.peerReceive next) s = .next u → exec (.peerReceive next) t = .next v →
    v.peer = u.peer ∧ ∃ evs, u.events = s.events ++ evs ∧ v.events = t.events ++ evs

/-! ## The coupled bus -/

/-- R216, the source's scenario 2 under the coupled bus, with peer 1 the one live peer at bus address
1.  A good send leaves the coordinator's family and report at the peer; a read that follows it, from
whatever state the system is in by then, leaves the peer's out-report of that moment in the
coordinator's slot 1; and a whole poll with nothing between its transactions does both.  The
codes and strings drawn are scripted (log entry 4). -/
def Obligations.CoupledPollExchangesReports : Prop :=
  ∀ (y : System) (i j : Nat) (n p : BusNode),
    y.nodes[i]? = some n → Ready .coordinator n.node → Memory.wf n.node = true →
    y.nodes[j]? = some p → y.listener 1 = .one j → Memory.wf p.node = true →
    p.node.cfg = n.node.cfg → (n.node.slot 1).tf = .standard →
    (∀ rest es, n.todo = .send 1 :: rest → n.node.errTape = 0 :: es →
      ∃ y' n' p', y.nodeStep i = .next y' ∧ y'.nodes[i]? = some n' ∧
        n'.todo = .read 1 .standard :: rest ∧ y'.nodes[j]? = some p' ∧ y'.listener 1 = .one j ∧
        p'.node.peer.tf = .standard ∧ p'.node.peer.inStd = (n.node.slot 1).inStd ∧
        p'.node.peer.outStd = p.node.peer.outStd) ∧
    (∀ rest r rs, n.todo = .read 1 .standard :: rest → p.node.peer.tf = .standard →
      n.node.rxTape = r :: rs → n.node.cfg.outLenStd ≤ r.length →
      ∃ y' n', y.nodeStep i = .next y' ∧ y'.nodes[i]? = some n' ∧ n'.todo = rest ∧
        (n'.node.slot 1).outStd = p.node.peer.outStd) ∧
    (∀ ins es r rs, n.todo = [] → n.node.inputs = ⟨.port, [0x12]⟩ :: ins →
      n.node.errTape = 0 :: es → n.node.rxTape = r :: rs → n.node.cfg.outLenStd ≤ r.length →
      i < 4 → y.turns = List.replicate 7 (Fin.ofNat 4 i) →
      ∃ m y' n' p', m ≤ 7 ∧ y.steps m = .next y' ∧ y'.nodes[i]? = some n' ∧ n'.todo = [] ∧
        n'.node.inputs = ins ∧ y'.nodes[j]? = some p' ∧ p'.node.peer.tf = .standard ∧
        p'.node.peer.inStd = (n.node.slot 1).inStd ∧
        (n'.node.slot 1).outStd = p.node.peer.outStd)

/-- R218, the block's steps 3 to 5 of scenario 3: once slot `k` is DISCONNECTED, a good send to the one
live peer at bus address `k` writes the one byte 0xF0 there, the peer becomes DISCONNECTED, and it
emits FAMILY_CHANGED(0) iff it was not already; and so does a whole poll whose send to `k` is good.  The codes
drawn are scripted (log entry 4). -/
def Obligations.DisconnectReachesThePeer : Prop :=
  ∀ (y : System) (i j : Nat) (k : Fin 4) (n p : BusNode),
    y.nodes[i]? = some n → Ready .coordinator n.node → k ≠ 0 →
    y.nodes[j]? = some p → y.listener k.val = .one j → (n.node.slot k).tf = .disconnected →
    let reached := fun p' : BusNode => p'.node.peer.tf = .disconnected ∧
      p'.node.events = p.node.events ++
        (if p.node.peer.tf ≠ .disconnected then [.familyChanged .disconnected] else [])
    (∀ rest es, n.todo = .send k :: rest → n.node.errTape = 0 :: es →
      ∃ y' n' p', y.nodeStep i = .next y' ∧ y'.nodes[i]? = some n' ∧
        n'.node.events = n.node.events ++ [.busw k.val [0xF0]] ∧
        y'.nodes[j]? = some p' ∧ reached p') ∧
    (∀ (ins : List Input) (e1 e2 e3 : Byte) (es : List Byte), n.todo = [] →
      n.node.inputs = ⟨.port, [0x12]⟩ :: ins → n.node.errTape = e1 :: e2 :: e3 :: es →
      (![0, e1, e2, e3] : Fin 4 → Byte) k = 0 →
      i < 4 → y.turns = List.replicate 7 (Fin.ofNat 4 i) →
      ∃ m y' n' p', m ≤ 7 ∧ y.steps m = .next y' ∧ y'.nodes[i]? = some n' ∧ n'.todo = [] ∧
        n'.node.inputs = ins ∧
        Event.busw k.val [0xF0] ∈ n'.node.events.drop n.node.events.length ∧
        y'.nodes[j]? = some p' ∧ reached p')

/-- A coupled poll, with whatever the other nodes do between its transactions, is one of the polls the
coordinator has on free draws: once a node whose next input is COORD_POLL has taken that input and
owes nothing more, some error codes and received strings make the uncoupled COORD_POLL end with the
same slots, records, events and identity (R191, R198, R240(a), D27). -/
def Obligations.CoupledPollRefinesFreePoll : Prop :=
  ∀ (y y' : System) (m i : Nat) (n n' : BusNode) (rest : List Input),
    y.nodes[i]? = some n → n.todo = [] → n.node.inputs = ⟨.port, [0x12]⟩ :: rest →
    y.steps m = .next y' → y'.nodes[i]? = some n' → n'.todo = [] → n'.node.inputs = rest →
    ∃ (es : List Byte) (rs : List Bytes) (t : State),
      exec .coordPoll { n.node with inputs := rest, errTape := es, rxTape := rs } = .next t ∧
      n'.node.slots = t.slots ∧ n'.node.pool = t.pool ∧ n'.node.peer = t.peer ∧
      n'.node.events = t.events ∧ n'.node.nodeId = t.nodeId ∧ n'.node.cfg = t.cfg

/-- R198(c), (d) and R69: the one live peer at bus address `a` is the one whose identity is `a`; what
is read from it has the drawn length, agrees with its response below the response's length, and is
drawn beyond it; with no live peer there, or at a contended address (I7, log entry 19), the string is
the draw. -/
def Obligations.CoupledReadAgreesWithResponse : Prop :=
  (∀ (resp raw : Bytes),
    (couple resp raw).length = raw.length ∧
    ∀ i, i < raw.length →
      (i < resp.length → (couple resp raw)[i]? = resp[i]?) ∧
      (resp.length ≤ i → (couple resp raw)[i]? = raw[i]?)) ∧
  ∀ (y : System) (a : Nat) (raw : Bytes),
    (y.listener a = .nobody ↔
      ∀ n ∈ y.nodes, ¬ (n.node.alive = true ∧ n.node.nodeId ≠ 0 ∧ n.node.nodeId.toNat = a)) ∧
    (y.listener a = .nobody → y.request a raw = (raw, y)) ∧
    (∀ js, y.listener a = .contended js → (y.request a raw).1 = raw) ∧
    ∀ j, y.listener a = .one j →
      ∃ n, y.nodes[j]? = some n ∧ n.node.alive = true ∧ n.node.nodeId ≠ 0 ∧
        n.node.nodeId.toNat = a ∧
        (∀ j' n', y.nodes[j']? = some n' → n'.node.alive = true → n'.node.nodeId ≠ 0 →
          n'.node.nodeId.toNat = a → j' = j) ∧
        (y.request a raw).1 = couple n.node.response raw

/-! ## Whole-machine rules -/

/-- The reset state meets the invariant. -/
def Obligations.ResetStateIsInvariant : Prop := Inv State.reset

/-- HEADLINE. R38, R25, R29, R40: from every state that meets the invariant, whatever input is
delivered next, the step answers a state that meets it: at most one live record per key, every live
record supported with a nonzero address, every free record all zero, distinct history entries,
button bit 11 clear, and every report buffer of its length.  So does every node of a coupled system
whichever node moves, and an operation is in progress only at a live coordinator (R190, R192, R247). -/
def Obligations.EveryStepKeepsTheInvariant : Prop :=
  (∀ s t : State, Inv s → step s = .next t → Inv t) ∧
  (∀ y y' : System, y.Inv → y.step = .next y' → y'.Inv)

/-- The parameters and `MAX_DEV` are never written (R20, R75); the identity is written by RESET
alone (R22, R261). -/
def Obligations.ParametersAndIdentityAreFixed : Prop :=
  ∀ (i : Instr) (s t : State), exec i s = .next t →
    t.cfg = s.cfg ∧ t.maxDev = s.maxDev ∧ ((∀ id, i ≠ .reset id) → t.nodeId = s.nodeId) ∧
    t.booted = true ∧ t.inputs = s.inputs

/-- R244: a coordinator's operation never writes `P`, and a peer's never writes the pool or the
ControllerSlots of `C`. -/
def Obligations.RolesKeepToTheirHalf : Prop :=
  ∀ (i : Instr) (s t : State), exec i s = .next t →
    (roleOf i = some .coordinator → t.peer = s.peer) ∧
    (roleOf i = some .peer → t.pool = s.pool ∧ t.slots = s.slots)

/-- Each field of a record that stays live has the writers its rule names and no other: the pad
state (R28), the previous mask (R30), the requests (R31, R32, R36), the actual fields (R31, R32,
R36, R38(d)), the chatpad live state (R33), the history (R34), the init flag (R35) and the timers
(R37); the handles and the family never change (R27).  PAD, CHATPAD and REINIT as instructions are the
model's form of DECODE's paths (log entry 7). -/
def Obligations.RecordFieldsHaveTheirWriters : Prop :=
  ∀ (i : Instr) (s t : State) (j : Nat), exec i s = .next t → j < s.maxDev →
    (s.dev j).live = true → (t.dev j).live = true →
    let r := s.dev j
    let r' := t.dev j
    (r'.fam = r.fam ∧ r'.addr = r.addr ∧ r'.inEp = r.inEp ∧ r'.outEp = r.outEp ∧
      r'.chan = r.chan) ∧
    (r'.pad ≠ r.pad → (∃ h len buf, i = .decode h len buf) ∨ ∃ h p, i = .pad h p) ∧
    (r'.prevButtons ≠ r.prevButtons → ∃ x, i = .commitEdges x) ∧
    (r'.rumReq ≠ r.rumReq → ∃ x a b, i = .setRumble x a b) ∧
    (r'.ledReq ≠ r.ledReq → ∃ x q, i = .setLed x q) ∧
    (r'.cpLedReq ≠ r.cpLedReq → ∃ x b, i = .setCpled x b) ∧
    (r'.rumAct ≠ r.rumAct ∨ r'.ledAct ≠ r.ledAct ∨ r'.cpLedAct ≠ r.cpLedAct ∨
      r'.tPeriodic ≠ r.tPeriodic ∨ r'.tPowerHold ≠ r.tPowerHold →
      ∃ x now, i = .feedbackTick x now) ∧
    (r'.cpMods ≠ r.cpMods ∨ r'.cpKeys ≠ r.cpKeys →
      (∃ h len buf, i = .decode h len buf) ∨ ∃ h m ks, i = .chatpad h m ks) ∧
    (r'.cpHist ≠ r.cpHist → ∃ x c, i = .wasPressed x c) ∧
    (r'.cpInitPending ≠ r.cpInitPending →
      (∃ h len buf, i = .decode h len buf ∧ r'.cpInitPending = true) ∨
      (∃ h, i = .reinit h ∧ r'.cpInitPending = true) ∨
      ∃ x now, i = .feedbackTick x now ∧ r'.cpInitPending = false)

/-- R83: COMMIT_ALL completes and commits every live slot; free slots stay as they are. -/
def Obligations.CommitAllCommitsEveryLiveSlot : Prop :=
  ∀ s : State, Ready .coordinator s →
    ∃ t, runInstrs (commitAll s) s = .next t ∧ t.maxDev = s.maxDev ∧
      ∀ j, j < s.maxDev → t.dev j = (if (s.dev j).fam ≠ .unknown then
        { s.dev j with prevButtons := (s.dev j).pad.buttons } else s.dev j)
end

