-- ==== Sys2Proof/Laws/Decode.lean ====
section
/-!
SUPPORT. The encoding tables read back: enumeration codes, operation codes, status-byte fields and
little-endian operands.
-/

namespace Sys2Proof

@[simp] theorem family_ofCode_code (f : Family) : Family.ofCode f.code = f := by
  cases f <;> rfl

theorem family_code_ofCode (v : BitVec 3) : (Family.ofCode v).code = v := by
  revert v; decide

@[simp] theorem targetFamily_ofCode_code (tf : TargetFamily) :
    TargetFamily.ofCode tf.code = some tf := by
  cases tf <;> rfl

theorem targetFamily_code_of_ofCode {v : BitVec 4} {tf : TargetFamily}
    (h : TargetFamily.ofCode v = some tf) : tf.code = v := by
  revert v tf; decide

/-- A 4-bit value names no target family iff it is 3 or more (R97). -/
theorem targetFamily_ofCode_none {v : BitVec 4} :
    TargetFamily.ofCode v = none ↔ 3 ≤ v.toNat := by
  revert v; decide

/-- The table of R80 gives each operation back from its OPC byte. -/
@[simp] theorem opc_ofByte_byte (o : Opc) : Opc.ofByte o.byte = some o := by
  cases o <;> rfl

theorem opc_byte_of_ofByte {b : Byte} {o : Opc} (h : Opc.ofByte b = some o) : o.byte = b := by
  have := List.find?_some h
  simpa using this

/-- No two operations of R80 have one OPC. -/
theorem opc_byte_injective {a b : Opc} (h : a.byte = b.byte) : a = b := by
  have := congrArg Opc.ofByte h
  simpa using this

@[simp] theorem tagOf_statusByte (f : BitVec 4) : tagOf (statusByte f) = statusTag := by
  revert f; decide

@[simp] theorem famOf_statusByte (f : BitVec 4) : famOf (statusByte f) = f := by
  revert f; decide

theorem statusByte_of_tag {b : Byte} (h : tagOf b = statusTag) : statusByte (famOf b) = b := by
  revert b; decide

/-- No status byte is the ping byte (spec/90_conflicts.md C3). -/
theorem statusByte_ne_ping (f : BitVec 4) : statusByte f ≠ pingByte := by
  revert f; decide

@[simp] theorem u16bytes_length (v : BitVec 16) : (u16bytes v).length = 2 := rfl
@[simp] theorem u32bytes_length (v : BitVec 32) : (u32bytes v).length = 4 := rfl

/-- Two bytes of a u16 put together again. -/
theorem u16bytes_append (v : BitVec 16) : v.extractLsb' 8 8 ++ v.extractLsb' 0 8 = v := by
  ext i hi
  simp only [BitVec.getElem_append, BitVec.getElem_extractLsb']
  split
  · simp [hi]
  · rename_i h
    simp only [BitVec.getLsbD_eq_getElem, hi, show 8 + (i - 8) = i by omega]

/-- Four bytes of a u32 put together again. -/
theorem u32le_u32bytes (v : BitVec 32) :
    u32le (v.extractLsb' 0 8) (v.extractLsb' 8 8) (v.extractLsb' 16 8) (v.extractLsb' 24 8) = v := by
  apply BitVec.eq_of_getLsbD_eq
  intro i hi
  unfold u32le
  rw [BitVec.getLsbD_append, BitVec.getLsbD_append, BitVec.getLsbD_append]
  simp only [BitVec.getLsbD_extractLsb']
  by_cases h1 : i < 8
  · simp [h1]
  by_cases h2 : i < 16
  · simp [h1, show i - 8 < 8 by omega, show 8 + (i - 8) = i by omega]
  by_cases h3 : i < 24
  · simp [h1, show ¬ i - 8 < 8 by omega, show i - 8 - 8 < 8 by omega,
      show 16 + (i - 8 - 8) = i by omega]
  · simp [h1, show ¬ i - 8 < 8 by omega, show ¬ i - 8 - 8 < 8 by omega,
      show i - 8 - 8 - 8 < 8 by omega, show 24 + (i - 8 - 8 - 8) = i by omega]

/-- A narrow operand written in one byte reads back (R81). -/
theorem narrow_setWidth {w : Nat} (hw : w ≤ 8) (v : BitVec w) (k : BitVec w → Decoded) :
    narrow w (v.setWidth 8) k = k v := by
  have h2 : 2 ^ w ≤ 2 ^ 8 := Nat.pow_le_pow_right (by decide) hw
  have hlt := v.isLt
  have ht : (v.setWidth 8).toNat = v.toNat := by
    rw [BitVec.toNat_setWidth]; exact Nat.mod_eq_of_lt (by omega)
  unfold narrow
  rw [ht, if_pos hlt]
  congr 1
  apply BitVec.eq_of_toNat_eq
  rw [BitVec.toNat_setWidth, ht]
  exact Nat.mod_eq_of_lt hlt

/-- A narrow operand that decodes is the one its byte encodes. -/
theorem setWidth_of_narrow {w : Nat} {b : Byte} (hb : b.toNat < 2 ^ w) :
    ((b.setWidth w).setWidth 8 : Byte) = b := by
  apply BitVec.eq_of_toNat_eq
  rw [BitVec.toNat_setWidth, BitVec.toNat_setWidth, Nat.mod_eq_of_lt hb]
  exact Nat.mod_eq_of_lt b.isLt

/-- A read inside a buffer is its byte. -/
theorem rd8_eq_getElem {buf : Bytes} {off : Nat} (h : off < buf.length) :
    rd8 buf off = buf[off] := by
  simp [rd8, List.getD_eq_getElem?_getD, h]

theorem rd8_set_same {buf : Bytes} {off : Nat} (h : off < buf.length) (v : Byte) :
    rd8 (buf.set off v) off = v := by
  simp [rd8, List.getD_eq_getElem?_getD, h]

theorem rd8_set_other {buf : Bytes} {i off : Nat} (h : i ≠ off) (v : Byte) :
    rd8 (buf.set off v) i = rd8 buf i := by
  simp [rd8, List.getD_eq_getElem?_getD, Ne.symm h]

/-- A kind that classification returns is a kind of the layout that accepts the buffer (R85). -/
theorem classify_some {l : List Kind} {buf : Bytes} {k : Kind} (h : classify l buf = some k) :
    k ∈ l ∧ k.accepts buf = true :=
  ⟨List.mem_of_find?_eq_some h, List.find?_some h⟩

/-- An accepted buffer is at least as long as the kind's `minLen` (R85). -/
theorem minLen_le_of_accepts {buf : Bytes} {k : Kind} (h : k.accepts buf = true) :
    k.minLen ≤ buf.length := by
  simp only [Kind.accepts, Bool.and_eq_true, decide_eq_true_eq] at h
  exact h.1

/-- Every supported family's layout is well formed in a well-formed parameter set. -/
theorem layoutWf_of_wf {c : Config} (h : c.wf = true) (f : Family) : c.layoutWf f = true := by
  simp only [Config.wf, Bool.and_eq_true, List.all_eq_true] at h
  exact h.2 f (by cases f <;> decide)

theorem kindWf_of_wf {c : Config} (h : c.wf = true) {f : Family} {k : Kind}
    (hk : k ∈ c.layout f) : k.wf c.cpKeys = true := by
  have hl := layoutWf_of_wf h f
  simp only [Config.layoutWf, Bool.and_eq_true, List.all_eq_true] at hl
  exact hl.1.1.1 k hk

theorem profileConfig_wf : profileConfig.wf = true := by decide

end Sys2Proof
end

