-- ==== Sys2Proof/Laws/State.lean ====
section
/-!
SUPPORT. One lemma per field per update of `State`, each true by unfolding the update once, so that
no later proof unfolds a record update.
-/

namespace Sys2Proof.Machine

variable (s : State)

/-! ### `emit` -/

@[simp] theorem emit_cfg (e : Event) : (s.emit e).cfg = s.cfg := rfl
@[simp] theorem emit_nodeId (e : Event) : (s.emit e).nodeId = s.nodeId := rfl
@[simp] theorem emit_pool (e : Event) : (s.emit e).pool = s.pool := rfl
@[simp] theorem emit_slots (e : Event) : (s.emit e).slots = s.slots := rfl
@[simp] theorem emit_peer (e : Event) : (s.emit e).peer = s.peer := rfl
@[simp] theorem emit_booted (e : Event) : (s.emit e).booted = s.booted := rfl
@[simp] theorem emit_inputs (e : Event) : (s.emit e).inputs = s.inputs := rfl
@[simp] theorem emit_result (e : Event) : (s.emit e).result = s.result := rfl
@[simp] theorem emit_events (e : Event) : (s.emit e).events = s.events ++ [e] := rfl
@[simp] theorem emit_upTape (e : Event) : (s.emit e).upTape = s.upTape := rfl
@[simp] theorem emit_errTape (e : Event) : (s.emit e).errTape = s.errTape := rfl
@[simp] theorem emit_rxTape (e : Event) : (s.emit e).rxTape = s.rxTape := rfl
@[simp] theorem emit_drawCount (e : Event) : (s.emit e).drawCount = s.drawCount := rfl

/-! ### `ret` -/

@[simp] theorem ret_cfg (v : Result) : (s.ret v).cfg = s.cfg := rfl
@[simp] theorem ret_nodeId (v : Result) : (s.ret v).nodeId = s.nodeId := rfl
@[simp] theorem ret_pool (v : Result) : (s.ret v).pool = s.pool := rfl
@[simp] theorem ret_slots (v : Result) : (s.ret v).slots = s.slots := rfl
@[simp] theorem ret_peer (v : Result) : (s.ret v).peer = s.peer := rfl
@[simp] theorem ret_booted (v : Result) : (s.ret v).booted = s.booted := rfl
@[simp] theorem ret_inputs (v : Result) : (s.ret v).inputs = s.inputs := rfl
@[simp] theorem ret_result (v : Result) : (s.ret v).result = v := rfl
@[simp] theorem ret_events (v : Result) : (s.ret v).events = s.events := rfl
@[simp] theorem ret_upTape (v : Result) : (s.ret v).upTape = s.upTape := rfl
@[simp] theorem ret_errTape (v : Result) : (s.ret v).errTape = s.errTape := rfl
@[simp] theorem ret_rxTape (v : Result) : (s.ret v).rxTape = s.rxTape := rfl
@[simp] theorem ret_drawCount (v : Result) : (s.ret v).drawCount = s.drawCount := rfl

/-! ### `setRec` -/

@[simp] theorem setRec_cfg (i : Nat) (r : DeviceRecord) : (s.setRec i r).cfg = s.cfg := rfl
@[simp] theorem setRec_nodeId (i : Nat) (r : DeviceRecord) : (s.setRec i r).nodeId = s.nodeId := rfl
@[simp] theorem setRec_pool (i : Nat) (r : DeviceRecord) : (s.setRec i r).pool = s.pool.set i r := rfl
@[simp] theorem setRec_slots (i : Nat) (r : DeviceRecord) : (s.setRec i r).slots = s.slots := rfl
@[simp] theorem setRec_peer (i : Nat) (r : DeviceRecord) : (s.setRec i r).peer = s.peer := rfl
@[simp] theorem setRec_booted (i : Nat) (r : DeviceRecord) : (s.setRec i r).booted = s.booted := rfl
@[simp] theorem setRec_inputs (i : Nat) (r : DeviceRecord) : (s.setRec i r).inputs = s.inputs := rfl
@[simp] theorem setRec_result (i : Nat) (r : DeviceRecord) : (s.setRec i r).result = s.result := rfl
@[simp] theorem setRec_events (i : Nat) (r : DeviceRecord) : (s.setRec i r).events = s.events := rfl
@[simp] theorem setRec_upTape (i : Nat) (r : DeviceRecord) : (s.setRec i r).upTape = s.upTape := rfl
@[simp] theorem setRec_errTape (i : Nat) (r : DeviceRecord) : (s.setRec i r).errTape = s.errTape := rfl
@[simp] theorem setRec_rxTape (i : Nat) (r : DeviceRecord) : (s.setRec i r).rxTape = s.rxTape := rfl
@[simp] theorem setRec_drawCount (i : Nat) (r : DeviceRecord) : (s.setRec i r).drawCount = s.drawCount := rfl

/-! ### `setSlot` -/

@[simp] theorem setSlot_cfg (k : Fin 4) (v : CtrlSlot) : (s.setSlot k v).cfg = s.cfg := rfl
@[simp] theorem setSlot_nodeId (k : Fin 4) (v : CtrlSlot) : (s.setSlot k v).nodeId = s.nodeId := rfl
@[simp] theorem setSlot_pool (k : Fin 4) (v : CtrlSlot) : (s.setSlot k v).pool = s.pool := rfl
@[simp] theorem setSlot_slots (k : Fin 4) (v : CtrlSlot) : (s.setSlot k v).slots = s.slots.set k v := rfl
@[simp] theorem setSlot_peer (k : Fin 4) (v : CtrlSlot) : (s.setSlot k v).peer = s.peer := rfl
@[simp] theorem setSlot_booted (k : Fin 4) (v : CtrlSlot) : (s.setSlot k v).booted = s.booted := rfl
@[simp] theorem setSlot_inputs (k : Fin 4) (v : CtrlSlot) : (s.setSlot k v).inputs = s.inputs := rfl
@[simp] theorem setSlot_result (k : Fin 4) (v : CtrlSlot) : (s.setSlot k v).result = s.result := rfl
@[simp] theorem setSlot_events (k : Fin 4) (v : CtrlSlot) : (s.setSlot k v).events = s.events := rfl
@[simp] theorem setSlot_upTape (k : Fin 4) (v : CtrlSlot) : (s.setSlot k v).upTape = s.upTape := rfl
@[simp] theorem setSlot_errTape (k : Fin 4) (v : CtrlSlot) : (s.setSlot k v).errTape = s.errTape := rfl
@[simp] theorem setSlot_rxTape (k : Fin 4) (v : CtrlSlot) : (s.setSlot k v).rxTape = s.rxTape := rfl
@[simp] theorem setSlot_drawCount (k : Fin 4) (v : CtrlSlot) : (s.setSlot k v).drawCount = s.drawCount := rfl

/-! ### `setPeer` -/

@[simp] theorem setPeer_cfg (v : CtrlSlot) : (s.setPeer v).cfg = s.cfg := rfl
@[simp] theorem setPeer_nodeId (v : CtrlSlot) : (s.setPeer v).nodeId = s.nodeId := rfl
@[simp] theorem setPeer_pool (v : CtrlSlot) : (s.setPeer v).pool = s.pool := rfl
@[simp] theorem setPeer_slots (v : CtrlSlot) : (s.setPeer v).slots = s.slots := rfl
@[simp] theorem setPeer_peer (v : CtrlSlot) : (s.setPeer v).peer = v := rfl
@[simp] theorem setPeer_booted (v : CtrlSlot) : (s.setPeer v).booted = s.booted := rfl
@[simp] theorem setPeer_inputs (v : CtrlSlot) : (s.setPeer v).inputs = s.inputs := rfl
@[simp] theorem setPeer_result (v : CtrlSlot) : (s.setPeer v).result = s.result := rfl
@[simp] theorem setPeer_events (v : CtrlSlot) : (s.setPeer v).events = s.events := rfl
@[simp] theorem setPeer_upTape (v : CtrlSlot) : (s.setPeer v).upTape = s.upTape := rfl
@[simp] theorem setPeer_errTape (v : CtrlSlot) : (s.setPeer v).errTape = s.errTape := rfl
@[simp] theorem setPeer_rxTape (v : CtrlSlot) : (s.setPeer v).rxTape = s.rxTape := rfl
@[simp] theorem setPeer_drawCount (v : CtrlSlot) : (s.setPeer v).drawCount = s.drawCount := rfl

/-! ### `raise` -/

@[simp] theorem raise_cfg (e : ErrorInfo) : (s.raise e).cfg = s.cfg := by
  unfold State.raise; split <;> rfl
@[simp] theorem raise_nodeId (e : ErrorInfo) : (s.raise e).nodeId = s.nodeId := by
  unfold State.raise; split <;> rfl
@[simp] theorem raise_pool (e : ErrorInfo) : (s.raise e).pool = s.pool := by
  unfold State.raise; split <;> rfl
@[simp] theorem raise_slots (e : ErrorInfo) : (s.raise e).slots = s.slots := by
  unfold State.raise; split <;> rfl
@[simp] theorem raise_peer (e : ErrorInfo) : (s.raise e).peer = s.peer := by
  unfold State.raise; split <;> rfl
@[simp] theorem raise_booted (e : ErrorInfo) : (s.raise e).booted = s.booted := by
  unfold State.raise; split <;> rfl
@[simp] theorem raise_inputs (e : ErrorInfo) : (s.raise e).inputs = s.inputs := by
  unfold State.raise; split <;> rfl
@[simp] theorem raise_result (e : ErrorInfo) : (s.raise e).result = s.result := by
  unfold State.raise; split <;> rfl
theorem raise_events (e : ErrorInfo) :
    (s.raise e).events = s.events ++ (if e.reported then [.diag e] else []) := by
  unfold State.raise; split <;> simp
@[simp] theorem raise_upTape (e : ErrorInfo) : (s.raise e).upTape = s.upTape := by
  unfold State.raise; split <;> rfl
@[simp] theorem raise_errTape (e : ErrorInfo) : (s.raise e).errTape = s.errTape := by
  unfold State.raise; split <;> rfl
@[simp] theorem raise_rxTape (e : ErrorInfo) : (s.raise e).rxTape = s.rxTape := by
  unfold State.raise; split <;> rfl
@[simp] theorem raise_drawCount (e : ErrorInfo) : (s.raise e).drawCount = s.drawCount := by
  unfold State.raise; split <;> rfl

/-! ### `drawTransfer` -/

@[simp] theorem drawTransfer_cfg : s.drawTransfer.2.cfg = s.cfg := by
  unfold State.drawTransfer; split <;> rfl
@[simp] theorem drawTransfer_nodeId : s.drawTransfer.2.nodeId = s.nodeId := by
  unfold State.drawTransfer; split <;> rfl
@[simp] theorem drawTransfer_pool : s.drawTransfer.2.pool = s.pool := by
  unfold State.drawTransfer; split <;> rfl
@[simp] theorem drawTransfer_slots : s.drawTransfer.2.slots = s.slots := by
  unfold State.drawTransfer; split <;> rfl
@[simp] theorem drawTransfer_peer : s.drawTransfer.2.peer = s.peer := by
  unfold State.drawTransfer; split <;> rfl
@[simp] theorem drawTransfer_booted : s.drawTransfer.2.booted = s.booted := by
  unfold State.drawTransfer; split <;> rfl
@[simp] theorem drawTransfer_inputs : s.drawTransfer.2.inputs = s.inputs := by
  unfold State.drawTransfer; split <;> rfl
@[simp] theorem drawTransfer_result : s.drawTransfer.2.result = s.result := by
  unfold State.drawTransfer; split <;> rfl
@[simp] theorem drawTransfer_events : s.drawTransfer.2.events = s.events := by
  unfold State.drawTransfer; split <;> rfl
@[simp] theorem drawTransfer_errTape : s.drawTransfer.2.errTape = s.errTape := by
  unfold State.drawTransfer; split <;> rfl
@[simp] theorem drawTransfer_rxTape : s.drawTransfer.2.rxTape = s.rxTape := by
  unfold State.drawTransfer; split <;> rfl

/-! ### `drawErr` -/

@[simp] theorem drawErr_cfg : s.drawErr.2.cfg = s.cfg := by
  unfold State.drawErr; split <;> rfl
@[simp] theorem drawErr_nodeId : s.drawErr.2.nodeId = s.nodeId := by
  unfold State.drawErr; split <;> rfl
@[simp] theorem drawErr_pool : s.drawErr.2.pool = s.pool := by
  unfold State.drawErr; split <;> rfl
@[simp] theorem drawErr_slots : s.drawErr.2.slots = s.slots := by
  unfold State.drawErr; split <;> rfl
@[simp] theorem drawErr_peer : s.drawErr.2.peer = s.peer := by
  unfold State.drawErr; split <;> rfl
@[simp] theorem drawErr_booted : s.drawErr.2.booted = s.booted := by
  unfold State.drawErr; split <;> rfl
@[simp] theorem drawErr_inputs : s.drawErr.2.inputs = s.inputs := by
  unfold State.drawErr; split <;> rfl
@[simp] theorem drawErr_result : s.drawErr.2.result = s.result := by
  unfold State.drawErr; split <;> rfl
@[simp] theorem drawErr_events : s.drawErr.2.events = s.events := by
  unfold State.drawErr; split <;> rfl
@[simp] theorem drawErr_upTape : s.drawErr.2.upTape = s.upTape := by
  unfold State.drawErr; split <;> rfl
@[simp] theorem drawErr_rxTape : s.drawErr.2.rxTape = s.rxTape := by
  unfold State.drawErr; split <;> rfl

/-! ### `drawRx` -/

@[simp] theorem drawRx_cfg : s.drawRx.2.cfg = s.cfg := by
  unfold State.drawRx; split <;> rfl
@[simp] theorem drawRx_nodeId : s.drawRx.2.nodeId = s.nodeId := by
  unfold State.drawRx; split <;> rfl
@[simp] theorem drawRx_pool : s.drawRx.2.pool = s.pool := by
  unfold State.drawRx; split <;> rfl
@[simp] theorem drawRx_slots : s.drawRx.2.slots = s.slots := by
  unfold State.drawRx; split <;> rfl
@[simp] theorem drawRx_peer : s.drawRx.2.peer = s.peer := by
  unfold State.drawRx; split <;> rfl
@[simp] theorem drawRx_booted : s.drawRx.2.booted = s.booted := by
  unfold State.drawRx; split <;> rfl
@[simp] theorem drawRx_inputs : s.drawRx.2.inputs = s.inputs := by
  unfold State.drawRx; split <;> rfl
@[simp] theorem drawRx_result : s.drawRx.2.result = s.result := by
  unfold State.drawRx; split <;> rfl
@[simp] theorem drawRx_events : s.drawRx.2.events = s.events := by
  unfold State.drawRx; split <;> rfl
@[simp] theorem drawRx_upTape : s.drawRx.2.upTape = s.upTape := by
  unfold State.drawRx; split <;> rfl
@[simp] theorem drawRx_errTape : s.drawRx.2.errTape = s.errTape := by
  unfold State.drawRx; split <;> rfl

/-! ### `afterReset` -/

@[simp] theorem afterReset_cfg (id : BitVec 2) : (s.afterReset id).cfg = s.cfg := rfl
@[simp] theorem afterReset_nodeId (id : BitVec 2) : (s.afterReset id).nodeId = id := rfl
@[simp] theorem afterReset_pool (id : BitVec 2) : (s.afterReset id).pool = List.replicate s.maxDev (zeroRecord s.cfg.cpKeys) := rfl
@[simp] theorem afterReset_slots (id : BitVec 2) : (s.afterReset id).slots = resetSlots s.cfg := rfl
@[simp] theorem afterReset_peer (id : BitVec 2) : (s.afterReset id).peer = resetSlot s.cfg := rfl
@[simp] theorem afterReset_booted (id : BitVec 2) : (s.afterReset id).booted = true := rfl
@[simp] theorem afterReset_inputs (id : BitVec 2) : (s.afterReset id).inputs = s.inputs := rfl
@[simp] theorem afterReset_result (id : BitVec 2) : (s.afterReset id).result = Result.none := rfl
@[simp] theorem afterReset_events (id : BitVec 2) : (s.afterReset id).events = s.events := rfl
@[simp] theorem afterReset_upTape (id : BitVec 2) : (s.afterReset id).upTape = s.upTape := rfl
@[simp] theorem afterReset_errTape (id : BitVec 2) : (s.afterReset id).errTape = s.errTape := rfl
@[simp] theorem afterReset_rxTape (id : BitVec 2) : (s.afterReset id).rxTape = s.rxTape := rfl
@[simp] theorem afterReset_drawCount (id : BitVec 2) : (s.afterReset id).drawCount = s.drawCount := rfl

end Sys2Proof.Machine
end

