-- ==== Sys2Proof/Laws/Ops.lean ====
section
/-!
SUPPORT. What each shared operation of Machine/Ops.lean can do, said once; later proofs cite these
lemmas and do not unfold the operations.
-/

namespace Sys2Proof.Machine

/-! ### Acceptance -/

/-- The only way an accepted operation answers a next state. -/
theorem accept_next {role : Role} {legal : Bool} {s t : State} {act : State → State} :
    accept role legal s act = .next t ↔
      s.paramsWf = true ∧ s.booted = true ∧ s.role = role ∧ legal = true ∧ t = act s := by
  unfold accept
  split
  · simp [*]
  split
  · simp [*]
  split
  · simp [*]
  split
  · simp [*]
  rename_i h1 h2 h3 h4
  simp only [Bool.not_eq_false, not_not] at h1 h2 h3 h4
  simp only [h1, h2, h3, h4, true_and, Host.Outcome.next.injEq]
  exact eq_comm

/-- On a ready node with operands in range, the operation runs. -/
theorem accept_ready {role : Role} {s : State} (h : Ready role s) (act : State → State) :
    accept role true s act = .next (act s) :=
  accept_next.2 ⟨h.params, h.booted, h.role, rfl, rfl⟩

/-- On a ready node, what happens depends on the operands alone. -/
theorem accept_of_ready {role : Role} {s : State} (h : Ready role s) (legal : Bool)
    (act : State → State) :
    accept role legal s act = if legal then .next (act s) else .refused .operandRange := by
  cases legal
  · simp [accept, h.params, h.booted, h.role]
  · simp [accept_ready h]

/-- Before the first RESET every accepted operation is refused (R238). -/
theorem accept_beforeReset {role : Role} {legal : Bool} {s : State} {act : State → State}
    (hp : s.paramsWf = true) (hb : s.booted = false) :
    accept role legal s act = .refused .beforeReset := by
  simp [accept, hp, hb]

/-- An operation of the other role is refused (R190). -/
theorem accept_wrongRole {role : Role} {legal : Bool} {s : State} {act : State → State}
    (hp : s.paramsWf = true) (hb : s.booted = true) (hr : s.role ≠ role) :
    accept role legal s act = .refused .wrongRole := by
  simp [accept, hp, hb, hr]

/-! ### raise -/

theorem raise_silent {s : State} {e : ErrorInfo} (h : e.reported = false) : s.raise e = s := by
  simp [State.raise, h]

theorem raise_reported {s : State} {e : ErrorInfo} (h : e.reported = true) :
    s.raise e = s.emit (.diag e) := by
  simp [State.raise, h]

@[simp] theorem raise_malformed (s : State) (len : BitVec 9) : s.raise (.malformed len) = s := rfl
@[simp] theorem raise_unsupported (s : State) (f : Family) : s.raise (.unsupported f) = s := rfl
@[simp] theorem raise_noDevice (s : State) (a c : Byte) : s.raise (.noDevice a c) = s := rfl
@[simp] theorem raise_poolFull (s : State) (a c : Byte) :
    s.raise (.poolFull a c) = s.emit (.diag (.poolFull a c)) := rfl
@[simp] theorem raise_uptxFail (s : State) (i : Nat) (k : CmdKind) :
    s.raise (.uptxFail i k) = s.emit (.diag (.uptxFail i k)) := rfl
@[simp] theorem raise_busSendFail (s : State) (k : Nat) (e : Byte) :
    s.raise (.busSendFail k e) = s.emit (.diag (.busSendFail k e)) := rfl
@[simp] theorem raise_busShortRead (s : State) (k n e : Nat) :
    s.raise (.busShortRead k n e) = s.emit (.diag (.busShortRead k n e)) := rfl
@[simp] theorem raise_frameReject (s : State) (w : FrameError) (b : Byte) (n : Nat) :
    s.raise (.frameReject w b n) = s.emit (.diag (.frameReject w b n)) := rfl

/-! ### Draws -/

theorem drawTransfer_cons {s : State} {r : TransferResult} {rest : List TransferResult}
    (h : s.upTape = r :: rest) : s.drawTransfer = (r, { s with upTape := rest }) := by
  simp [State.drawTransfer, h]

theorem drawErr_cons {s : State} {e : Byte} {rest : List Byte} (h : s.errTape = e :: rest) :
    s.drawErr = (e, { s with errTape := rest }) := by
  simp [State.drawErr, h]

theorem drawRx_cons {s : State} {r : Bytes} {rest : List Bytes} (h : s.rxTape = r :: rest) :
    s.drawRx = (r, { s with rxTape := rest }) := by
  simp [State.drawRx, h]

/-- A draw takes the script's next answer, if there is one, and leaves the rest of the script. -/
theorem drawErr_script (s : State) :
    (∀ e, s.errTape[0]? = some e → s.drawErr.1 = e) ∧ s.drawErr.2.errTape = s.errTape.drop 1 := by
  unfold State.drawErr
  split <;> simp_all

theorem drawRx_script (s : State) :
    (∀ r, s.rxTape[0]? = some r → s.drawRx.1 = r) ∧ s.drawRx.2.rxTape = s.rxTape.drop 1 := by
  unfold State.drawRx
  split <;> simp_all

/-! ### The chatpad history (R153) -/

/-- Expiring keeps every code that is still down. -/
theorem Hist.holds_expire {h : Hist} {down : Byte → Bool} {x : Byte} (hd : down x = true)
    (hx : h.holds x = true) : (h.expire down).holds x = true := by
  simp only [Hist.holds, Hist.expire, Bool.or_eq_true, beq_iff_eq] at *
  rcases hx with (rfl | rfl) | rfl <;> simp [hd]

/-- A claim holds its own code and keeps every nonzero code that was held. -/
theorem Hist.holds_claim {h h' : Hist} {x y : Byte} (hc : h.claim y = some h')
    (hx : x = y ∨ (x ≠ 0 ∧ h.holds x = true)) : h'.holds x = true := by
  unfold Hist.claim at hc
  simp only [Hist.holds, Bool.or_eq_true, beq_iff_eq] at *
  split at hc
  · cases hc; grind
  split at hc
  · cases hc; grind
  split at hc
  · cases hc; grind
  · cases hc

/-! ### The pool -/

@[simp] theorem maxDev_setRec (s : State) (i : Nat) (r : DeviceRecord) :
    (s.setRec i r).maxDev = s.maxDev := by
  simp [State.maxDev]

theorem dev_setRec (s : State) (i j : Nat) (r : DeviceRecord) :
    (s.setRec i r).dev j = if i = j ∧ j < s.maxDev then r else s.dev j := by
  simp only [State.dev, setRec_pool, setRec_cfg, State.maxDev, List.getD_eq_getElem?_getD,
    List.getElem?_set]
  by_cases h : i = j
  · subst h
    by_cases hl : i < s.pool.length <;> simp [hl]
  · simp [h]

@[simp] theorem dev_setRec_same {s : State} {i : Nat} (h : i < s.maxDev) (r : DeviceRecord) :
    (s.setRec i r).dev i = r := by
  simp [dev_setRec, h]

theorem dev_setRec_other {s : State} {i j : Nat} (h : j ≠ i) (r : DeviceRecord) :
    (s.setRec i r).dev j = s.dev j := by
  simp [dev_setRec, Ne.symm h]

/-- A read of a record depends on the pool and the parameters alone. -/
theorem dev_congr {s t : State} (hp : t.pool = s.pool) (hc : t.cfg = s.cfg) (i : Nat) :
    t.dev i = s.dev i := by
  simp [State.dev, hp, hc]

theorem maxDev_congr {s t : State} (hp : t.pool = s.pool) : t.maxDev = s.maxDev := by
  simp [State.maxDev, hp]

theorem dev_mem {s : State} {i : Nat} (h : i < s.maxDev) : s.dev i ∈ s.pool := by
  simp only [State.dev, List.getD_eq_getElem?_getD]
  rw [List.getElem?_eq_getElem h]
  exact List.getElem_mem h

theorem dev_eq_getElem {s : State} {i : Nat} (h : i < s.pool.length) : s.dev i = s.pool[i] := by
  simp [State.dev, List.getD_eq_getElem?_getD, List.getElem?_eq_getElem h]

@[simp] theorem dev_emit (s : State) (e : Event) (i : Nat) : (s.emit e).dev i = s.dev i := rfl
@[simp] theorem dev_ret (s : State) (v : Result) (i : Nat) : (s.ret v).dev i = s.dev i := rfl
@[simp] theorem dev_setSlot (s : State) (k : Fin 4) (v : CtrlSlot) (i : Nat) :
    (s.setSlot k v).dev i = s.dev i := rfl
@[simp] theorem dev_setPeer (s : State) (v : CtrlSlot) (i : Nat) :
    (s.setPeer v).dev i = s.dev i := rfl
@[simp] theorem dev_raise (s : State) (e : ErrorInfo) (i : Nat) :
    (s.raise e).dev i = s.dev i := dev_congr (by simp) (by simp) i
@[simp] theorem maxDev_emit (s : State) (e : Event) : (s.emit e).maxDev = s.maxDev := rfl
@[simp] theorem maxDev_ret (s : State) (v : Result) : (s.ret v).maxDev = s.maxDev := rfl
@[simp] theorem maxDev_setSlot (s : State) (k : Fin 4) (v : CtrlSlot) :
    (s.setSlot k v).maxDev = s.maxDev := rfl
@[simp] theorem maxDev_setPeer (s : State) (v : CtrlSlot) :
    (s.setPeer v).maxDev = s.maxDev := rfl
@[simp] theorem maxDev_raise (s : State) (e : ErrorInfo) : (s.raise e).maxDev = s.maxDev :=
  maxDev_congr (by simp)

/-- A slot `lookup` returns holds the key (R130). -/
theorem lookup_some {s : State} {addr chan : Byte} {i : Nat} (h : s.lookup addr chan = some i) :
    i < s.maxDev ∧ (s.dev i).hasKey addr chan = true := by
  unfold State.lookup at h
  obtain ⟨hi, hk, -⟩ := List.findIdx?_eq_some_iff_getElem.1 h
  exact ⟨hi, by simpa [dev_eq_getElem hi] using hk⟩

/-- `lookup` answers NONE iff no record holds the key (R130). -/
theorem lookup_none {s : State} {addr chan : Byte} :
    s.lookup addr chan = none ↔ ∀ i, i < s.maxDev → (s.dev i).hasKey addr chan = false := by
  unfold State.lookup
  rw [List.findIdx?_eq_none_iff_findIdx_eq, List.findIdx_eq_length]
  constructor
  · intro h i hi
    simpa using h _ (dev_mem hi)
  · intro h x hx
    obtain ⟨i, hi, rfl⟩ := List.getElem_of_mem hx
    simpa [dev_eq_getElem hi] using h i hi

/-- Where keys are unique, `lookup` finds the slot that holds the key. -/
theorem lookup_of_key {s : State} (hu : KeysUnique s) {addr chan : Byte} {i : Nat}
    (hi : i < s.maxDev) (hk : (s.dev i).hasKey addr chan = true) :
    s.lookup addr chan = some i := by
  cases h : s.lookup addr chan with
  | none => simp [lookup_none.1 h i hi] at hk
  | some j =>
    obtain ⟨hj, hkj⟩ := lookup_some h
    rw [hu j i addr chan hj hi hkj hk]

/-- No two live records of the pool have one key, as a computation (R38(a)). -/
def keysDistinct (s : State) : Bool :=
  (List.range s.maxDev).all fun i => (List.range s.maxDev).all fun j =>
    i == j || !((s.dev i).live && (s.dev j).live && (s.dev i).addr == (s.dev j).addr &&
      (s.dev i).chan == (s.dev j).chan)

theorem keysUnique_of_distinct {s : State} (h : keysDistinct s = true) : KeysUnique s := by
  intro i j addr chan hi hj h1 h2
  simp only [DeviceRecord.hasKey, Bool.and_eq_true, beq_iff_eq] at h1 h2
  have := List.all_eq_true.1 (List.all_eq_true.1 h i (List.mem_range.2 hi)) j (List.mem_range.2 hj)
  simpa [h1.1.1, h2.1.1, h1.1.2, h2.1.2, h1.2, h2.2] using this

/-- The free index is the lowest free one (R131). -/
theorem freeIndex_some {s : State} {i : Nat} (h : s.freeIndex = some i) :
    i < s.maxDev ∧ (s.dev i).live = false ∧ ∀ j, j < i → (s.dev j).live = true := by
  unfold State.freeIndex at h
  obtain ⟨hi, hk, hlt⟩ := List.findIdx?_eq_some_iff_getElem.1 h
  refine ⟨hi, by simpa [dev_eq_getElem hi] using hk, fun j hj => ?_⟩
  have hjl : j < s.pool.length := lt_trans hj hi
  simpa [dev_eq_getElem hjl] using hlt j hj

/-- No free index iff every record is live. -/
theorem freeIndex_none {s : State} :
    s.freeIndex = none ↔ ∀ i, i < s.maxDev → (s.dev i).live = true := by
  unfold State.freeIndex
  rw [List.findIdx?_eq_none_iff_findIdx_eq, List.findIdx_eq_length]
  constructor
  · intro h i hi
    simpa using h _ (dev_mem hi)
  · intro h x hx
    obtain ⟨i, hi, rfl⟩ := List.getElem_of_mem hx
    simpa [dev_eq_getElem hi] using h i hi

/-- All an allocation can do (R131). -/
theorem alloc_cases (s : State) (f : Family) (addr inEp outEp chan : Byte) :
    (s.freeIndex = none ∧
      s.alloc f addr inEp outEp chan = (none, s.emit (.diag (.poolFull addr chan)))) ∨
    (∃ i, s.freeIndex = some i ∧
      s.alloc f addr inEp outEp chan =
        (some i, s.setRec i (freshRecord s.cfg f addr inEp outEp chan))) := by
  unfold State.alloc
  cases h : s.freeIndex with
  | none => exact .inl ⟨rfl, by simp⟩
  | some i => exact .inr ⟨i, rfl, rfl⟩

@[simp] theorem zeroRecord_live (n : Nat) : (zeroRecord n).live = false := rfl

theorem live_iff {r : DeviceRecord} : r.live = true ↔ r.fam ≠ .unknown := by
  simp [DeviceRecord.live]

/-! ### ControllerSlots and report buffers -/

@[simp] theorem slots_get_set_same (c : Slots) (k : Fin 4) (v : CtrlSlot) :
    (c.set k v).get k = v := by
  fin_cases k <;> rfl

theorem slots_get_set_other (c : Slots) {j k : Fin 4} (h : j ≠ k) (v : CtrlSlot) :
    (c.set k v).get j = c.get j := by
  fin_cases k <;> fin_cases j <;> first | rfl | exact absurd rfl h

@[simp] theorem slot_setSlot_same (s : State) (k : Fin 4) (v : CtrlSlot) :
    (s.setSlot k v).slot k = v := by simp [State.slot]

theorem slot_setSlot_other (s : State) {j k : Fin 4} (h : j ≠ k) (v : CtrlSlot) :
    (s.setSlot k v).slot j = s.slot j := by simp [State.slot, slots_get_set_other _ h]

theorem slot_congr {s t : State} (h : t.slots = s.slots) (k : Fin 4) : t.slot k = s.slot k := by
  simp [State.slot, h]

@[simp] theorem slot_setRec (s : State) (i : Nat) (r : DeviceRecord) (k : Fin 4) :
    (s.setRec i r).slot k = s.slot k := rfl
@[simp] theorem slot_emit (s : State) (e : Event) (k : Fin 4) : (s.emit e).slot k = s.slot k := rfl
@[simp] theorem slot_ret (s : State) (v : Result) (k : Fin 4) : (s.ret v).slot k = s.slot k := rfl
@[simp] theorem slot_setPeer (s : State) (v : CtrlSlot) (k : Fin 4) :
    (s.setPeer v).slot k = s.slot k := rfl
@[simp] theorem slot_raise (s : State) (e : ErrorInfo) (k : Fin 4) :
    (s.raise e).slot k = s.slot k := slot_congr (by simp) k

@[simp] theorem setIn_tf (c : CtrlSlot) (tf : TargetFamily) (b : Bytes) :
    (c.setIn tf b).tf = c.tf := by cases tf <;> rfl
@[simp] theorem setOut_tf (c : CtrlSlot) (tf : TargetFamily) (b : Bytes) :
    (c.setOut tf b).tf = c.tf := by cases tf <;> rfl
@[simp] theorem setIn_outBuf (c : CtrlSlot) (tf g : TargetFamily) (b : Bytes) :
    (c.setIn tf b).outBuf g = c.outBuf g := by cases tf <;> cases g <;> rfl
@[simp] theorem setOut_inBuf (c : CtrlSlot) (tf g : TargetFamily) (b : Bytes) :
    (c.setOut tf b).inBuf g = c.inBuf g := by cases tf <;> cases g <;> rfl

theorem setIn_inBuf_same (c : CtrlSlot) {tf : TargetFamily} (h : tf ≠ .disconnected) (b : Bytes) :
    (c.setIn tf b).inBuf tf = b := by cases tf <;> first | rfl | exact absurd rfl h

theorem setOut_outBuf_same (c : CtrlSlot) {tf : TargetFamily} (h : tf ≠ .disconnected)
    (b : Bytes) : (c.setOut tf b).outBuf tf = b := by
  cases tf <;> first | rfl | exact absurd rfl h

theorem setIn_inBuf_other (c : CtrlSlot) {tf g : TargetFamily} (h : g ≠ tf) (b : Bytes) :
    (c.setIn tf b).inBuf g = c.inBuf g := by
  cases tf <;> cases g <;> first | rfl | exact absurd rfl h

theorem setOut_outBuf_other (c : CtrlSlot) {tf g : TargetFamily} (h : g ≠ tf) (b : Bytes) :
    (c.setOut tf b).outBuf g = c.outBuf g := by
  cases tf <;> cases g <;> first | rfl | exact absurd rfl h

/-- Overwriting keeps a buffer's length (R196). -/
@[simp] theorem overwrite_length (old new : Bytes) : (overwrite old new).length = old.length := by
  simp [overwrite]; omega

/-- Byte `i` of an overwritten buffer: the new byte where one was delivered, else the old one
(R194, R196). -/
theorem overwrite_getElem? (old new : Bytes) (i : Nat) (hi : i < old.length) :
    (overwrite old new)[i]? = if i < new.length then new[i]? else old[i]? := by
  unfold overwrite
  by_cases h : i < new.length
  · rw [List.getElem?_append_left (by simp; omega)]
    simp [h, hi]
  · rw [List.getElem?_append_right (by simp; omega)]
    simp only [h, List.length_take, List.getElem?_drop, ite_false]
    congr 1; omega

/-- A buffer of the right lengths has the wf form. -/
theorem slot_wf_iff {c : Config} {sl : CtrlSlot} :
    sl.wf c = true ↔ sl.inStd.length = c.inLenStd ∧ sl.inCockpit.length = c.inLenCockpit ∧
      sl.outStd.length = c.outLenStd ∧ sl.outCockpit.length = c.outLenCockpit := by
  simp [CtrlSlot.wf, and_assoc]

theorem memory_wf_iff {s : State} :
    Memory.wf s = true ↔ (∀ k, (s.slot k).wf s.cfg = true) ∧ s.peer.wf s.cfg = true := by
  constructor
  · intro h
    simp only [Memory.wf, Bool.and_eq_true] at h
    refine ⟨fun k => ?_, h.2⟩
    fin_cases k
    · exact h.1.1.1.1
    · exact h.1.1.1.2
    · exact h.1.1.2
    · exact h.1.2
  · rintro ⟨h, hp⟩
    simp only [Memory.wf, Bool.and_eq_true]
    exact ⟨⟨⟨⟨h 0, h 1⟩, h 2⟩, h 3⟩, hp⟩

theorem inBuf_length {c : Config} {sl : CtrlSlot} (h : sl.wf c = true) (tf : TargetFamily) :
    (sl.inBuf tf).length = c.inLen tf := by
  obtain ⟨h1, h2, -, -⟩ := slot_wf_iff.1 h
  cases tf
  · rfl
  · exact h1
  · exact h2

theorem outBuf_length {c : Config} {sl : CtrlSlot} (h : sl.wf c = true) {tf : TargetFamily}
    (hd : tf ≠ .disconnected) : (sl.outBuf tf).length = c.outLen tf := by
  obtain ⟨-, -, h1, h2⟩ := slot_wf_iff.1 h
  cases tf
  · exact absurd rfl hd
  · exact h1
  · exact h2

theorem setIn_wf {c : Config} {sl : CtrlSlot} (h : sl.wf c = true) {tf : TargetFamily} {b : Bytes}
    (hb : b.length = c.inLen tf) : (sl.setIn tf b).wf c = true := by
  rw [slot_wf_iff] at *
  cases tf
  · exact h
  · exact ⟨hb, h.2⟩
  · exact ⟨h.1, hb, h.2.2⟩

theorem setOut_wf {c : Config} {sl : CtrlSlot} (h : sl.wf c = true) {tf : TargetFamily} {b : Bytes}
    (hb : tf ≠ .disconnected → b.length = c.outLen tf) : (sl.setOut tf b).wf c = true := by
  rw [slot_wf_iff] at *
  cases tf
  · exact h
  · exact ⟨h.1, h.2.1, hb (by simp), h.2.2.2⟩
  · exact ⟨h.1, h.2.1, h.2.2.1, hb (by simp)⟩

theorem setTf_wf {c : Config} {sl : CtrlSlot} (h : sl.wf c = true) (tf : TargetFamily) :
    ({ sl with tf := tf } : CtrlSlot).wf c = true := h

/-! ### Every memory operation keeps the report buffers' form -/

theorem memory_wf_congr {s t : State} (hc : t.cfg = s.cfg) (hs : t.slots = s.slots)
    (hp : t.peer = s.peer) : Memory.wf t = Memory.wf s := by
  simp [Memory.wf, hc, hs, hp]

theorem memory_wf_setSlot {s : State} (h : Memory.wf s = true) {k : Fin 4} {v : CtrlSlot}
    (hv : v.wf s.cfg = true) : Memory.wf (s.setSlot k v) = true := by
  rw [memory_wf_iff] at *
  refine ⟨fun j => ?_, h.2⟩
  by_cases hj : j = k
  · subst hj; simpa using hv
  · simpa [slot_setSlot_other s hj] using h.1 j

theorem memory_wf_setPeer {s : State} (h : Memory.wf s = true) {v : CtrlSlot}
    (hv : v.wf s.cfg = true) : Memory.wf (s.setPeer v) = true := by
  rw [memory_wf_iff] at *
  exact ⟨h.1, hv⟩

theorem resetSlot_wf (c : Config) : (resetSlot c).wf c = true := by
  simp [slot_wf_iff, resetSlot]

theorem memory_wf_afterReset (s : State) (id : BitVec 2) : Memory.wf (s.afterReset id) = true := by
  simp [Memory.wf, resetSlots, resetSlot_wf]

theorem memory_wf_reset : Memory.wf State.reset = true := by decide

/-! ### Roles -/

theorem role_coordinator_iff {s : State} : s.role = .coordinator ↔ s.nodeId = 0 := by
  simp [State.role]

theorem role_peer_iff {s : State} : s.role = .peer ↔ s.nodeId ≠ 0 := by
  simp [State.role]

end Sys2Proof.Machine
end

