-- ==== Sys2Proof/Laws/Feedback.lean ====
section
/-!
SUPPORT. What the emission primitive and the branch actions of FEEDBACK_TICK can do
(spec/41_feedback.md rules R170 to R177), said once.
-/

namespace Sys2Proof.Machine

/-- Nothing changed but the event port and the draws of the upstream primitive, and every event is a
transfer to `(addr, ep)` or the failure of command `kind` of slot `i`. -/
structure Emitted (i : Nat) (kind : CmdKind) (addr ep : Byte) (ok : Bool) (s t : State) : Prop where
  frame : t = { s with events := t.events, upTape := t.upTape, drawCount := t.drawCount }
  events : ∃ evs, t.events = s.events ++ evs ∧
    (∀ e ∈ evs, (∃ p, e = .uptx addr ep p) ∨ e = .diag (.uptxFail i kind)) ∧
    (ok = false → Event.diag (.uptxFail i kind) ∈ evs)

/-- Everything `sendStrings` can do (R170). -/
theorem sendStrings_emitted (i : Nat) (kind : CmdKind) (addr ep : Byte) (ps : List Bytes)
    (s : State) :
    Emitted i kind addr ep (sendStrings i kind addr ep ps s).1 s
      (sendStrings i kind addr ep ps s).2 := by
  induction ps generalizing s with
  | nil => exact ⟨rfl, [], by simp [sendStrings], by simp, by simp [sendStrings]⟩
  | cons p ps ih =>
    obtain ⟨r, t, hd⟩ : ∃ r t, (s.emit (.uptx addr ep p)).drawTransfer = (r, t) := ⟨_, _, rfl⟩
    have hf : t = { s with events := s.events ++ [.uptx addr ep p], upTape := t.upTape,
                           drawCount := t.drawCount } := by
      have := congrArg Prod.snd hd
      simp only at this
      subst this
      unfold State.drawTransfer State.emit
      split <;> rfl
    have hev : t.events = s.events ++ [.uptx addr ep p] := congrArg State.events hf
    cases r with
    | error =>
      rw [show sendStrings i kind addr ep (p :: ps) s = (false, t.raise (.uptxFail i kind)) by
        simp [sendStrings, hd]]
      refine ⟨?_, [.uptx addr ep p, .diag (.uptxFail i kind)], ?_, ?_, ?_⟩
      · rw [raise_uptxFail, hf]; rfl
      · simp [hev]
      · simp
      · simp
    | transferred n =>
      rw [show sendStrings i kind addr ep (p :: ps) s = sendStrings i kind addr ep ps t by
        simp [sendStrings, hd]]
      obtain ⟨h1, evs, h2, h3, h4⟩ := ih t
      refine ⟨?_, .uptx addr ep p :: evs, ?_, ?_, ?_⟩
      · rw [h1, hf]
      · rw [h2, hev]; simp
      · intro e he
        rcases List.mem_cons.1 he with rfl | he
        · exact .inl ⟨p, rfl⟩
        · exact h3 e he
      · intro h; exact List.mem_cons_of_mem _ (h4 h)

/-- Everything `send` can do (R170). -/
theorem send_emitted (i : Nat) (k : Cmd) (s : State) :
    Emitted i k.kind (s.dev i).addr (s.dev i).outEp (send i k s).1 s (send i k s).2 :=
  sendStrings_emitted ..

namespace Emitted

variable {i : Nat} {kind : CmdKind} {addr ep : Byte} {ok : Bool} {s t : State}

theorem pool (h : Emitted i kind addr ep ok s t) : t.pool = s.pool := by rw [h.frame]
theorem cfg (h : Emitted i kind addr ep ok s t) : t.cfg = s.cfg := by rw [h.frame]
theorem nodeId (h : Emitted i kind addr ep ok s t) : t.nodeId = s.nodeId := by rw [h.frame]
theorem slots (h : Emitted i kind addr ep ok s t) : t.slots = s.slots := by rw [h.frame]
theorem peer (h : Emitted i kind addr ep ok s t) : t.peer = s.peer := by rw [h.frame]
theorem booted (h : Emitted i kind addr ep ok s t) : t.booted = s.booted := by rw [h.frame]
theorem inputs (h : Emitted i kind addr ep ok s t) : t.inputs = s.inputs := by rw [h.frame]
theorem result (h : Emitted i kind addr ep ok s t) : t.result = s.result := by rw [h.frame]
theorem errTape (h : Emitted i kind addr ep ok s t) : t.errTape = s.errTape := by rw [h.frame]
theorem rxTape (h : Emitted i kind addr ep ok s t) : t.rxTape = s.rxTape := by rw [h.frame]
theorem dev (h : Emitted i kind addr ep ok s t) (j : Nat) : t.dev j = s.dev j :=
  dev_congr h.pool h.cfg j
theorem maxDev (h : Emitted i kind addr ep ok s t) : t.maxDev = s.maxDev := maxDev_congr h.pool

end Emitted

/-- The record after a success-gated send (R172 to R175). -/
theorem sendThen_dev {i : Nat} {s : State} (hi : i < s.maxDev) (k : Cmd)
    (f : DeviceRecord → DeviceRecord) :
    (sendThen i k f s).dev i = if (send i k s).1 = true then f (s.dev i) else s.dev i := by
  have h := send_emitted i k s
  unfold sendThen
  split
  · rename_i t he
    rw [he] at h
    have hm : i < t.maxDev := by rw [h.maxDev]; exact hi
    simp [he, hm, h.dev]
  · rename_i t he
    rw [he] at h
    simp [he, h.dev]

/-- The events of a success-gated send are those of the send (R170). -/
theorem sendThen_events (i : Nat) (k : Cmd) (f : DeviceRecord → DeviceRecord) (s : State) :
    (sendThen i k f s).events = (send i k s).2.events := by
  unfold sendThen
  split <;> rename_i t he <;> simp [he]

/-- The record after a send whose result is ignored (R176, R177). -/
theorem sendAnyway_dev {i : Nat} {s : State} (hi : i < s.maxDev) (k : Cmd)
    (f : DeviceRecord → DeviceRecord) : (sendAnyway i k f s).dev i = f (s.dev i) := by
  have h := send_emitted i k s
  have hm : i < (send i k s).2.maxDev := by rw [h.maxDev]; exact hi
  simp [sendAnyway, hm, h.dev]

theorem sendAnyway_events (i : Nat) (k : Cmd) (f : DeviceRecord → DeviceRecord) (s : State) :
    (sendAnyway i k f s).events = (send i k s).2.events := rfl

/-- The fields no feedback action writes, and the records it leaves alone. -/
structure OnlySlot (i : Nat) (s t : State) : Prop where
  cfg : t.cfg = s.cfg
  nodeId : t.nodeId = s.nodeId
  slots : t.slots = s.slots
  peer : t.peer = s.peer
  booted : t.booted = s.booted
  inputs : t.inputs = s.inputs
  result : t.result = s.result
  errTape : t.errTape = s.errTape
  rxTape : t.rxTape = s.rxTape
  maxDev : t.maxDev = s.maxDev
  others : ∀ j, j ≠ i → t.dev j = s.dev j

namespace OnlySlot

variable {i : Nat} {s t u : State}

theorem refl (i : Nat) (s : State) : OnlySlot i s s :=
  ⟨rfl, rfl, rfl, rfl, rfl, rfl, rfl, rfl, rfl, rfl, fun _ _ => rfl⟩

theorem trans (h : OnlySlot i s t) (g : OnlySlot i t u) : OnlySlot i s u :=
  ⟨g.cfg.trans h.cfg, g.nodeId.trans h.nodeId, g.slots.trans h.slots, g.peer.trans h.peer,
    g.booted.trans h.booted, g.inputs.trans h.inputs, g.result.trans h.result,
    g.errTape.trans h.errTape, g.rxTape.trans h.rxTape, g.maxDev.trans h.maxDev,
    fun j hj => (g.others j hj).trans (h.others j hj)⟩

theorem setRec (i : Nat) (r : DeviceRecord) (s : State) : OnlySlot i s (s.setRec i r) :=
  ⟨rfl, rfl, rfl, rfl, rfl, rfl, rfl, rfl, rfl, maxDev_setRec s i r,
    fun _ hj => dev_setRec_other hj r⟩

theorem of_emitted {kind : CmdKind} {addr ep : Byte} {ok : Bool}
    (h : Emitted i kind addr ep ok s t) : OnlySlot i s t :=
  ⟨h.cfg, h.nodeId, h.slots, h.peer, h.booted, h.inputs, h.result, h.errTape, h.rxTape, h.maxDev,
    fun j _ => h.dev j⟩

end OnlySlot

theorem sendThen_onlySlot (i : Nat) (k : Cmd) (f : DeviceRecord → DeviceRecord) (s : State) :
    OnlySlot i s (sendThen i k f s) := by
  have h := OnlySlot.of_emitted (send_emitted i k s)
  unfold sendThen
  split <;> rename_i t he <;> rw [he] at h
  · exact h.trans (OnlySlot.setRec ..)
  · exact h

theorem sendAnyway_onlySlot (i : Nat) (k : Cmd) (f : DeviceRecord → DeviceRecord) (s : State) :
    OnlySlot i s (sendAnyway i k f s) :=
  (OnlySlot.of_emitted (send_emitted i k s)).trans (OnlySlot.setRec ..)

theorem cpledBit_onlySlot (i b : Nat) (s : State) : OnlySlot i s (cpledBit i b s) := by
  unfold cpledBit
  dsimp only
  split
  · exact sendThen_onlySlot ..
  · exact OnlySlot.refl i s

theorem cpled_onlySlot (i : Nat) (s : State) : OnlySlot i s (cpled i s) := by
  have h : ∀ (bs : List Nat) (s : State),
      OnlySlot i s (bs.foldl (fun s b => cpledBit i b s) s) := by
    intro bs
    induction bs with
    | nil => exact fun s => OnlySlot.refl i s
    | cons b bs ih => exact fun s => (cpledBit_onlySlot i b s).trans (ih _)
  exact h _ s

/-- A branch touches its own record and the output ports alone. -/
theorem runBranch_onlySlot (i : Nat) (now : BitVec 32) (b : Branch) (s : State) :
    OnlySlot i s (runBranch i now b s) := by
  cases b <;> unfold runBranch <;>
    first | exact sendThen_onlySlot .. | exact sendAnyway_onlySlot .. | exact cpled_onlySlot ..

theorem holdTimer_onlySlot (i : Nat) (now : BitVec 32) (s : State) :
    OnlySlot i s (holdTimer i now s) := by
  unfold holdTimer
  split
  · exact OnlySlot.refl i s
  · exact OnlySlot.setRec ..

/-- Everything a tick can do: nothing on a free slot, the hold timer alone, or the hold timer and
one branch (R171). -/
theorem feedbackTickOp_cases (i : Nat) (now : BitVec 32) (s : State) :
    ((s.dev i).live = false ∧ feedbackTickOp i now s = s.ret .none) ∨
    ((s.dev i).live = true ∧
      (((holdTimer i now s).dev i).selectBranch s.cfg now = none ∧
        feedbackTickOp i now s = (holdTimer i now s).ret .none ∨
      ∃ b, ((holdTimer i now s).dev i).selectBranch s.cfg now = some b ∧
        feedbackTickOp i now s = (runBranch i now b (holdTimer i now s)).ret .none)) := by
  have hc := (holdTimer_onlySlot i now s).cfg
  cases hl : (s.dev i).live
  · exact .inl ⟨rfl, by simp [feedbackTickOp, hl]⟩
  · refine .inr ⟨rfl, ?_⟩
    cases hb : ((holdTimer i now s).dev i).selectBranch s.cfg now with
    | none => exact .inl ⟨rfl, by simp [feedbackTickOp, hl, hc, hb]⟩
    | some b => exact .inr ⟨b, rfl, by simp [feedbackTickOp, hl, hc, hb]⟩

end Sys2Proof.Machine
end

