-- ==== Sys2Proof/Laws/Transport.lean ====
section
/-!
SUPPORT. What the transport operations can do (spec/42_transport.md), said once, and that every
operation keeps the report buffers' form.
-/

namespace Sys2Proof.Machine

/-! ### The coordinator's receive step and poll (R193 to R196) -/

/-- Nothing changed but slot `k`'s out-reports, the event port and the bus draws; the slot's family,
in-reports and buffer lengths stay. -/
structure OnlyOutReport (k : Fin 4) (s t : State) : Prop where
  cfg : t.cfg = s.cfg
  nodeId : t.nodeId = s.nodeId
  pool : t.pool = s.pool
  peer : t.peer = s.peer
  booted : t.booted = s.booted
  inputs : t.inputs = s.inputs
  result : t.result = s.result
  upTape : t.upTape = s.upTape
  others : ∀ j, j ≠ k → t.slot j = s.slot j
  tf : (t.slot k).tf = (s.slot k).tf
  inStd : (t.slot k).inStd = (s.slot k).inStd
  inCockpit : (t.slot k).inCockpit = (s.slot k).inCockpit
  outStd : (t.slot k).outStd.length = (s.slot k).outStd.length
  outCockpit : (t.slot k).outCockpit.length = (s.slot k).outCockpit.length
  events : ∃ evs, t.events = s.events ++ evs ∧ ∀ tf, Event.familyChanged tf ∉ evs

namespace OnlyOutReport

variable {k : Fin 4} {s t u : State}

theorem trans (h : OnlyOutReport k s t) (g : OnlyOutReport k t u) : OnlyOutReport k s u := by
  obtain ⟨e1, he1, hn1⟩ := h.events
  obtain ⟨e2, he2, hn2⟩ := g.events
  exact ⟨g.cfg.trans h.cfg, g.nodeId.trans h.nodeId, g.pool.trans h.pool, g.peer.trans h.peer,
    g.booted.trans h.booted, g.inputs.trans h.inputs, g.result.trans h.result,
    g.upTape.trans h.upTape, fun j hj => (g.others j hj).trans (h.others j hj), g.tf.trans h.tf,
    g.inStd.trans h.inStd, g.inCockpit.trans h.inCockpit, g.outStd.trans h.outStd,
    g.outCockpit.trans h.outCockpit, e1 ++ e2, by rw [he2, he1, List.append_assoc],
    fun tf => by simp [hn1 tf, hn2 tf]⟩

theorem emit {e : Event} (he : ∀ tf, e ≠ .familyChanged tf) (s : State) :
    OnlyOutReport k s (s.emit e) :=
  ⟨rfl, rfl, rfl, rfl, rfl, rfl, rfl, rfl, fun _ _ => rfl, rfl, rfl, rfl, rfl, rfl, [e], rfl,
    fun tf => by simpa using (he tf).symm⟩

theorem raise (e : ErrorInfo) (s : State) : OnlyOutReport k s (s.raise e) := by
  cases h : e.reported
  · rw [raise_silent h]
    exact ⟨rfl, rfl, rfl, rfl, rfl, rfl, rfl, rfl, fun _ _ => rfl, rfl, rfl, rfl, rfl, rfl, [],
      by simp, by simp⟩
  · rw [raise_reported h]
    exact emit (by simp) s

theorem drawErr (s : State) : OnlyOutReport k s s.drawErr.2 := by
  unfold State.drawErr
  split <;> exact ⟨rfl, rfl, rfl, rfl, rfl, rfl, rfl, rfl, fun _ _ => rfl, rfl, rfl, rfl, rfl, rfl,
    [], by simp, by simp⟩

theorem drawRx (s : State) : OnlyOutReport k s s.drawRx.2 := by
  unfold State.drawRx
  split <;> exact ⟨rfl, rfl, rfl, rfl, rfl, rfl, rfl, rfl, fun _ _ => rfl, rfl, rfl, rfl, rfl, rfl,
    [], by simp, by simp⟩

theorem wf (h : OnlyOutReport k s t) (hw : Memory.wf s = true) : Memory.wf t = true := by
  rw [memory_wf_iff] at *
  rw [h.cfg, h.peer]
  refine ⟨fun j => ?_, hw.2⟩
  by_cases hj : j = k
  · subst hj
    have := slot_wf_iff.1 (hw.1 j)
    rw [slot_wf_iff, h.inStd, h.inCockpit, h.outStd, h.outCockpit]
    exact this
  · rw [h.others j hj]; exact hw.1 j

end OnlyOutReport

/-- The out-report a receive step leaves (R194 to R196): the delivered bytes below `e` over the old
ones. -/
theorem receiveStep_slot (k : Fin 4) (tf : TargetFamily) (rx : Bytes) (e : Nat) (s : State) :
    (receiveStep k tf rx e s).slot k =
      (s.slot k).setOut tf (overwrite ((s.slot k).outBuf tf) (rx.take e)) := by
  unfold receiveStep
  dsimp only
  split <;> simp

/-- A receive step reports exactly the short reads (R196). -/
theorem receiveStep_events (k : Fin 4) (tf : TargetFamily) (rx : Bytes) (e : Nat) (s : State) :
    (receiveStep k tf rx e s).events =
      s.events ++ (if rx.length < e then [.diag (.busShortRead k.val rx.length e)] else []) := by
  unfold receiveStep
  dsimp only
  split <;> simp

theorem receiveStep_only (k : Fin 4) (tf : TargetFamily) (rx : Bytes) (e : Nat) (s : State) :
    OnlyOutReport k s (receiveStep k tf rx e s) := by
  have h : OnlyOutReport k s (s.setSlot k ((s.slot k).setOut tf
      (overwrite ((s.slot k).outBuf tf) (rx.take e)))) := by
    refine ⟨rfl, rfl, rfl, rfl, rfl, rfl, rfl, rfl, fun j hj => slot_setSlot_other s hj _,
      ?_, ?_, ?_, ?_, ?_, [], by simp, by simp⟩
    all_goals rw [slot_setSlot_same]; cases tf <;> simp [CtrlSlot.setOut, CtrlSlot.outBuf]
  unfold receiveStep
  dsimp only
  split
  · exact h.trans (OnlyOutReport.raise _ _)
  · exact h

/-- A status frame's write changes nothing but the event port and the draws (R193). -/
theorem pollSend_only (k j : Fin 4) (s : State) : OnlyOutReport k s (pollSend j s).2 :=
  (OnlyOutReport.emit (by simp) s).trans (OnlyOutReport.drawErr _)

/-- A ping's write changes nothing but the event port and the draws (R197). -/
theorem pingSend_only (k : Fin 4) (j : Byte) (s : State) : OnlyOutReport k s (pingSend j s).2 :=
  (OnlyOutReport.emit (by simp) s).trans (OnlyOutReport.drawErr _)

theorem pollPeer_only (k : Fin 4) (s : State) : OnlyOutReport k s (pollPeer k s) := by
  have h := pollSend_only k k s
  unfold pollPeer
  dsimp only
  split
  · exact h.trans (OnlyOutReport.raise _ _)
  · refine h.trans ?_
    unfold pollRead
    exact (OnlyOutReport.emit (by simp) _).trans
      ((OnlyOutReport.drawRx _).trans (receiveStep_only ..))

@[simp] theorem receiveStep_errTape (k : Fin 4) (tf : TargetFamily) (rx : Bytes) (e : Nat)
    (s : State) : (receiveStep k tf rx e s).errTape = s.errTape := by
  unfold receiveStep
  dsimp only
  split <;> simp

@[simp] theorem receiveStep_rxTape (k : Fin 4) (tf : TargetFamily) (rx : Bytes) (e : Nat)
    (s : State) : (receiveStep k tf rx e s).rxTape = s.rxTape := by
  unfold receiveStep
  dsimp only
  split <;> simp

/-- A peer's poll takes one error code (R193). -/
theorem pollPeer_errTape (k : Fin 4) (s : State) :
    (pollPeer k s).errTape = s.errTape.drop 1 := by
  unfold pollPeer
  dsimp only
  split <;> simp [pollRead, pollSend, drawErr_script]

/-- A peer's poll takes one string if its send was good, and none if it failed (R193). -/
theorem pollPeer_rxTape (k : Fin 4) (s : State) :
    (pollPeer k s).rxTape = if (pollSend k s).1 = 0 then s.rxTape.drop 1 else s.rxTape := by
  unfold pollPeer
  dsimp only
  split <;> simp_all [pollRead, pollSend, drawRx_script]

/-- COORD_POLL is the three peers in order, then the empty result (R193). -/
theorem coordPollOp_eq (s : State) :
    coordPollOp s = (pollPeer 3 (pollPeer 2 (pollPeer 1 s))).ret .none := rfl

/-! ### Every operation keeps the report buffers' form -/

@[simp] theorem memory_wf_ret (s : State) (v : Result) : Memory.wf (s.ret v) = Memory.wf s := rfl

theorem memory_wf_coordPollOp {s : State} (h : Memory.wf s = true) :
    Memory.wf (coordPollOp s) = true := by
  rw [coordPollOp_eq, memory_wf_ret]
  exact (pollPeer_only 3 _).wf ((pollPeer_only 2 _).wf ((pollPeer_only 1 s).wf h))

theorem memory_wf_slotWriteOp {s : State} (h : Memory.wf s = true) {k : Fin 4} {tf : BitVec 4}
    {bytes : Bytes} (hl : inReportOk s.cfg tf bytes = true) :
    Memory.wf (slotWriteOp k tf bytes s) = true := by
  unfold slotWriteOp
  unfold inReportOk at hl
  cases hf : TargetFamily.ofCode tf with
  | none => simp [hf] at hl
  | some f =>
    rw [hf] at hl
    dsimp only
    rw [memory_wf_ret]
    refine memory_wf_setSlot h (setIn_wf (setTf_wf ((memory_wf_iff.1 h).1 k) f) ?_)
    simpa using hl

theorem memory_wf_acceptStatus {s : State} (h : Memory.wf s = true) (tf : TargetFamily)
    (rest : Bytes) : Memory.wf (acceptStatus tf rest s) = true := by
  unfold acceptStatus
  split
  · rename_i hl
    rw [memory_wf_congr (s := s.setPeer ({ s.peer with tf := tf }.setIn tf rest))
      (by dsimp only; split <;> rfl) (by dsimp only; split <;> rfl) (by dsimp only; split <;> rfl)]
    exact memory_wf_setPeer h (setIn_wf (setTf_wf (memory_wf_iff.1 h).2 tf) hl)
  · rwa [rejectFrame, memory_wf_congr (s := s) (by simp) (by simp) (by simp)]

theorem memory_wf_peerSetOutOp {s : State} (h : Memory.wf s = true) {tf : BitVec 4}
    {bytes : Bytes} (hl : outReportOk s.cfg tf bytes = true) :
    Memory.wf (peerSetOutOp tf bytes s) = true := by
  unfold peerSetOutOp
  unfold outReportOk at hl
  cases hf : TargetFamily.ofCode tf with
  | none => simp [hf] at hl
  | some f =>
    rw [hf] at hl
    dsimp only
    rw [memory_wf_ret]
    refine memory_wf_setPeer h (setOut_wf (memory_wf_iff.1 h).2 fun hd => ?_)
    cases f
    · exact absurd rfl hd
    · simpa [Config.outLen] using hl
    · simpa [Config.outLen] using hl

theorem memory_wf_peerReceiveOp {s : State} (h : Memory.wf s = true) (t : Bytes) :
    Memory.wf (peerReceiveOp t s) = true := by
  have hr : ∀ why b n, Memory.wf (rejectFrame why b n s) = true := fun why b n => by
    rwa [rejectFrame, memory_wf_congr (s := s) (by simp) (by simp) (by simp)]
  unfold peerReceiveOp
  split
  · exact h
  · split
    · exact h
    · split
      · split
        · exact memory_wf_acceptStatus h ..
        · exact hr ..
      · exact hr ..

/-! ### Operations on the pool leave the report buffers alone -/

/-- The parameters, the report buffers and the peer's slot are unchanged. -/
structure SameReports (s t : State) : Prop where
  cfg : t.cfg = s.cfg
  slots : t.slots = s.slots
  peer : t.peer = s.peer

namespace SameReports

variable {s t u : State}

theorem wf (h : SameReports s t) (hw : Memory.wf s = true) : Memory.wf t = true := by
  rwa [memory_wf_congr h.cfg h.slots h.peer]

theorem alloc (f : Family) (addr inEp outEp chan : Byte) (s : State) (v : Result) :
    SameReports s ((s.alloc f addr inEp outEp chan).2.ret v) := by
  rcases alloc_cases s f addr inEp outEp chan with ⟨-, h⟩ | ⟨i, -, h⟩ <;> rw [h] <;>
    exact ⟨rfl, rfl, rfl⟩

theorem updateLive (s : State) (i : Nat) (f : DeviceRecord → DeviceRecord) (v : Result) :
    SameReports s ((s.updateLive i f).ret v) := by
  unfold State.updateLive
  split <;> exact ⟨rfl, rfl, rfl⟩

theorem attachDevice (addr : Byte) (fam : Family) (inEp outEp chan : Byte) (s : State) :
    SameReports s (attachDevice addr fam inEp outEp chan s) := by
  unfold Machine.attachDevice
  split
  · exact ⟨rfl, rfl, rfl⟩
  split
  · exact ⟨rfl, rfl, rfl⟩
  split
  · exact ⟨rfl, rfl, rfl⟩
  split
  · exact ⟨rfl, rfl, rfl⟩
  · exact alloc ..

theorem detachAddr (addr : Byte) (s : State) : SameReports s (detachAddr addr s) := by
  unfold Machine.detachAddr
  split <;> exact ⟨rfl, rfl, rfl⟩

theorem packetPath (f : Family) (h : PacketHeader) (p : Packet) (s : State) :
    SameReports s (packetPath f h p s) := by
  unfold Machine.packetPath
  split
  · unfold presencePath
    split
    · exact alloc ..
    · exact ⟨rfl, rfl, rfl⟩
    · exact ⟨rfl, rfl, rfl⟩
  all_goals exact ⟨rfl, rfl, rfl⟩

theorem decodePacketOp (h : PacketHeader) (len : BitVec 9) (buf : Bytes) (s : State) :
    SameReports s (decodePacketOp h len buf s) := by
  unfold Machine.decodePacketOp
  dsimp only
  split
  · exact ⟨rfl, rfl, rfl⟩
  split
  · exact ⟨rfl, rfl, rfl⟩
  split
  · exact ⟨rfl, rfl, rfl⟩
  split
  · exact ⟨rfl, rfl, rfl⟩
  · exact packetPath ..

theorem packetOp (h : PacketHeader) (p : Packet) (s : State) :
    SameReports s (packetOp h p s) := by
  unfold Machine.packetOp
  dsimp only
  split
  · exact ⟨rfl, rfl, rfl⟩
  split
  · exact ⟨rfl, rfl, rfl⟩
  split
  · exact ⟨rfl, rfl, rfl⟩
  · exact packetPath ..

theorem wasPressedOp (i : Nat) (x : Byte) (s : State) : SameReports s (wasPressedOp i x s) := by
  unfold Machine.wasPressedOp
  dsimp only
  split <;> exact ⟨rfl, rfl, rfl⟩

theorem feedbackTickOp (i : Nat) (now : BitVec 32) (s : State) :
    SameReports s (feedbackTickOp i now s) := by
  have hh := holdTimer_onlySlot i now s
  rcases feedbackTickOp_cases i now s with ⟨-, h⟩ | ⟨-, ⟨-, h⟩ | ⟨b, -, h⟩⟩ <;> rw [h]
  · exact ⟨rfl, rfl, rfl⟩
  · exact ⟨hh.cfg, hh.slots, hh.peer⟩
  · have hb := hh.trans (runBranch_onlySlot i now b _)
    exact ⟨hb.cfg, hb.slots, hb.peer⟩

end SameReports

/-- Every operation keeps the report buffers' form: each buffer has exactly its length. -/
theorem exec_memory_wf {i : Instr} {s t : State} (h : Memory.wf s = true)
    (he : exec i s = .next t) : Memory.wf t = true := by
  cases i <;> dsimp only [
    exec, execAttach, execDetach, execDecode, execReadPad, execButtonEdge, execCommitEdges,
    execIsDown, execWasPressed, execSetRumble, execSetLed, execSetCpled, execFeedbackTick,
    execSlotWrite, execSlotRead, execCoordPoll, execCoordPing, execPeerReceive, execPeerRequest,
    execPeerSetOut, execPeerRead, execStatusDisc, execStatusStd, execStatusCockpit,
    execStatusReserved, execPing, execResponse, execPad, execPresence, execChatpad, execReinit] at he
  case reset id =>
    unfold execReset at he
    split at he
    · cases he
    · cases he; exact memory_wf_afterReset s id
  case attach => obtain ⟨-, -, -, -, rfl⟩ := accept_next.1 he; exact (SameReports.attachDevice ..).wf h
  case detach => obtain ⟨-, -, -, -, rfl⟩ := accept_next.1 he; exact (SameReports.detachAddr ..).wf h
  case decode => obtain ⟨-, -, -, -, rfl⟩ := accept_next.1 he; exact (SameReports.decodePacketOp ..).wf h
  case commitEdges => obtain ⟨-, -, -, -, rfl⟩ := accept_next.1 he; exact (SameReports.updateLive ..).wf h
  case wasPressed => obtain ⟨-, -, -, -, rfl⟩ := accept_next.1 he; exact (SameReports.wasPressedOp ..).wf h
  case setRumble => obtain ⟨-, -, -, -, rfl⟩ := accept_next.1 he; exact (SameReports.updateLive ..).wf h
  case setLed => obtain ⟨-, -, -, -, rfl⟩ := accept_next.1 he; exact (SameReports.updateLive ..).wf h
  case setCpled => obtain ⟨-, -, -, -, rfl⟩ := accept_next.1 he; exact (SameReports.updateLive ..).wf h
  case feedbackTick =>
    obtain ⟨-, -, -, -, rfl⟩ := accept_next.1 he; exact (SameReports.feedbackTickOp ..).wf h
  case slotWrite =>
    obtain ⟨-, -, -, hl, rfl⟩ := accept_next.1 he
    exact memory_wf_slotWriteOp h (Bool.and_eq_true_iff.1 hl).2
  case slotRead =>
    obtain ⟨-, -, -, -, rfl⟩ := accept_next.1 he
    unfold slotReadOp
    split <;> exact h
  case coordPoll => obtain ⟨-, -, -, -, rfl⟩ := accept_next.1 he; exact memory_wf_coordPollOp h
  case coordPing k =>
    obtain ⟨-, -, -, -, rfl⟩ := accept_next.1 he
    have hp := (pingSend_only 0 k s).wf h
    unfold coordPingOp
    dsimp only
    rw [memory_wf_ret]
    split
    · exact (OnlyOutReport.raise (k := 0) _ _).wf hp
    · exact hp
  case response => obtain ⟨-, -, -, -, rfl⟩ := accept_next.1 he; exact (receiveStep_only ..).wf h
  case peerReceive => obtain ⟨-, -, -, -, rfl⟩ := accept_next.1 he; exact memory_wf_peerReceiveOp h _
  case peerSetOut =>
    obtain ⟨-, -, -, hl, rfl⟩ := accept_next.1 he; exact memory_wf_peerSetOutOp h hl
  case statusDisc => obtain ⟨-, -, -, -, rfl⟩ := accept_next.1 he; exact memory_wf_acceptStatus h ..
  case statusStd => obtain ⟨-, -, -, -, rfl⟩ := accept_next.1 he; exact memory_wf_acceptStatus h ..
  case statusCockpit => obtain ⟨-, -, -, -, rfl⟩ := accept_next.1 he; exact memory_wf_acceptStatus h ..
  case pad => obtain ⟨-, -, -, -, rfl⟩ := accept_next.1 he; exact (SameReports.packetOp ..).wf h
  case presence => obtain ⟨-, -, -, -, rfl⟩ := accept_next.1 he; exact (SameReports.packetOp ..).wf h
  case chatpad => obtain ⟨-, -, -, -, rfl⟩ := accept_next.1 he; exact (SameReports.packetOp ..).wf h
  case reinit => obtain ⟨-, -, -, -, rfl⟩ := accept_next.1 he; exact (SameReports.packetOp ..).wf h
  all_goals obtain ⟨-, -, -, -, rfl⟩ := accept_next.1 he; exact h

end Sys2Proof.Machine
end

