-- ==== Sys2Proof/Laws/Exec.lean ====
section
/-!
SUPPORT. Every meaning but RESET's is an acceptance with an effect: one equation per instruction,
true by unfolding it once, and the facts that follow for all of them.
-/

namespace Sys2Proof.Machine

variable (s : State)

theorem exec_attach (addr : Byte) (fam : Family) (inEp outEp chan : Byte) :
    exec (.attach addr fam inEp outEp chan) s =
      accept .coordinator true s (attachDevice addr fam inEp outEp chan) := rfl
theorem exec_detach (addr : Byte) :
    exec (.detach addr) s = accept .coordinator true s (detachAddr addr) := rfl
theorem exec_decode (h : PacketHeader) (len : BitVec 9) (buf : Bytes) :
    exec (.decode h len buf) s =
      accept .coordinator (buf.length == len.toNat) s (decodePacketOp h len buf) := rfl
theorem exec_readPad (i : Byte) :
    exec (.readPad i) s = accept .coordinator (s.slotLegal i) s
      (fun s => s.ret (.pad (s.dev i.toNat).pad)) := rfl
theorem exec_buttonEdge (i : Byte) :
    exec (.buttonEdge i) s = accept .coordinator (s.slotLegal i) s
      (fun s => s.ret (.mask (s.dev i.toNat).edgeMask)) := rfl
theorem exec_commitEdges (i : Byte) :
    exec (.commitEdges i) s = accept .coordinator (s.slotLegal i) s
      (fun s => (s.updateLive i.toNat (fun r => { r with prevButtons := r.pad.buttons })).ret
        .none) := rfl
theorem exec_isDown (i x : Byte) :
    exec (.isDown i x) s = accept .coordinator (s.slotLegal i) s
      (fun s => s.ret (.bit ((s.dev i.toNat).isDown s.cfg x))) := rfl
theorem exec_wasPressed (i x : Byte) :
    exec (.wasPressed i x) s =
      accept .coordinator (s.slotLegal i) s (wasPressedOp i.toNat x) := rfl
theorem exec_setRumble (i l r : Byte) :
    exec (.setRumble i l r) s = accept .coordinator (s.slotLegal i) s
      (fun s => (s.updateLive i.toNat (fun d => { d with rumReq := ⟨l, r⟩ })).ret .none) := rfl
theorem exec_setLed (i q : Byte) :
    exec (.setLed i q) s = accept .coordinator (s.slotLegal i) s
      (fun s => (s.updateLive i.toNat (fun d => { d with ledReq := q })).ret .none) := rfl
theorem exec_setCpled (i b : Byte) :
    exec (.setCpled i b) s = accept .coordinator (s.slotLegal i) s
      (fun s => (s.updateLive i.toNat (fun d => { d with cpLedReq := b })).ret .none) := rfl
theorem exec_feedbackTick (i : Byte) (now : BitVec 32) :
    exec (.feedbackTick i now) s =
      accept .coordinator (s.slotLegal i) s (feedbackTickOp i.toNat now) := rfl
theorem exec_slotWrite (k : Byte) (tf : BitVec 4) (b : Bytes) :
    exec (.slotWrite k tf b) s = accept .coordinator (isPlayer k && inReportOk s.cfg tf b) s
      (slotWriteOp (playerIx k) tf b) := rfl
theorem exec_slotRead (k : Byte) (tf : BitVec 4) :
    exec (.slotRead k tf) s = accept .coordinator (isPlayer k && isReportFamily tf) s
      (slotReadOp (playerIx k) tf) := rfl
theorem exec_coordPoll : exec .coordPoll s = accept .coordinator true s coordPollOp := rfl
theorem exec_coordPing (k : Byte) :
    exec (.coordPing k) s = accept .coordinator (isPeer k) s (coordPingOp k) := rfl
theorem exec_peerReceive (t : Bytes) :
    exec (.peerReceive t) s = accept .peer true s (peerReceiveOp t) := rfl
theorem exec_peerRequest :
    exec .peerRequest s =
      accept .peer true s (fun s => s.ret (.bytes (responseFrame s.cfg s.peer))) := rfl
theorem exec_peerSetOut (tf : BitVec 4) (b : Bytes) :
    exec (.peerSetOut tf b) s =
      accept .peer (outReportOk s.cfg tf b) s (peerSetOutOp tf b) := rfl
theorem exec_peerRead :
    exec .peerRead s =
      accept .peer true s (fun s => s.ret (.report s.peer.tf (s.peer.inBuf s.peer.tf))) := rfl
theorem exec_statusDisc (b : Bytes) :
    exec (.statusDisc b) s = accept .peer true s (acceptStatus .disconnected b) := rfl
theorem exec_statusStd (b : Bytes) :
    exec (.statusStd b) s = accept .peer true s (acceptStatus .standard b) := rfl
theorem exec_statusCockpit (b : Bytes) :
    exec (.statusCockpit b) s = accept .peer true s (acceptStatus .cockpit b) := rfl
theorem exec_statusReserved (fam : BitVec 4) (b : Bytes) :
    exec (.statusReserved fam b) s = accept .peer (decide (3 ≤ fam.toNat)) s
      (rejectFrame .tag (statusByte fam) (b.length + 1)) := rfl
theorem exec_ping (b : Bytes) : exec (.ping b) s = accept .peer true s acceptPing := rfl
theorem exec_response (k : Byte) (rx : Bytes) :
    exec (.response k rx) s =
      accept .coordinator (isPeer k) s (responseOp (playerIx k) rx) := rfl
theorem exec_pad (h : PacketHeader) (p : PadState) :
    exec (.pad h p) s = accept .coordinator true s (packetOp h (.pad p)) := rfl
theorem exec_presence (h : PacketHeader) (b : Bool) :
    exec (.presence h b) s = accept .coordinator true s (packetOp h (.presence b)) := rfl
theorem exec_chatpad (h : PacketHeader) (m : Byte) (ks : Bytes) :
    exec (.chatpad h m ks) s = accept .coordinator true s (packetOp h (.chatpad m ks)) := rfl
theorem exec_reinit (h : PacketHeader) :
    exec (.reinit h) s = accept .coordinator true s (packetOp h .reinit) := rfl

/-- Every operation but RESET is accepted in the role R80 gives it (R190). -/
theorem exec_accepts {i : Instr} {r : Role} (h : roleOf i = some r) :
    ∃ legal act, exec i s = accept r legal s act := by
  cases i <;> cases h <;>
    first
    | exact ⟨_, _, rfl⟩
    | exact ⟨_, _, exec_readPad s _⟩
    | exact ⟨_, _, exec_buttonEdge s _⟩
    | exact ⟨_, _, exec_commitEdges s _⟩
    | exact ⟨_, _, exec_isDown s _ _⟩
    | exact ⟨_, _, exec_setRumble s _ _ _⟩
    | exact ⟨_, _, exec_setLed s _ _⟩
    | exact ⟨_, _, exec_setCpled s _ _⟩
    | exact ⟨_, _, exec_peerRequest s⟩
    | exact ⟨_, _, exec_peerRead s⟩

/-- RESET is accepted in any role and before any other operation (R260). -/
theorem exec_reset_next {s t : State} {id : BitVec 2} :
    exec (.reset id) s = .next t ↔ s.paramsWf = true ∧ t = s.afterReset id := by
  show execReset id s = .next t ↔ _
  unfold execReset
  by_cases hp : s.paramsWf = true
  · simp [hp, eq_comm]
  · simp [Bool.not_eq_true] at hp
    simp [hp]

/-- An operation with a role that completes ran on a ready node. -/
theorem ready_of_next {i : Instr} {s t : State} {r : Role} (h : roleOf i = some r)
    (he : exec i s = .next t) : Ready r s := by
  obtain ⟨legal, act, ha⟩ := exec_accepts s h
  obtain ⟨h1, h2, h3, -, -⟩ := accept_next.1 (ha ▸ he)
  exact ⟨h1, h2, h3⟩

/-- A slot operand below `MAX_DEV` is legal (R82). -/
theorem slotLegal_iff {i : Byte} : s.slotLegal i = true ↔ i.toNat < s.maxDev := by
  simp [State.slotLegal]

end Sys2Proof.Machine
end

