-- ==== Sys2Proof/Laws/PerInstr.lean ====
section
/-!
SUPPORT. Laws made per instruction: one statement over the syntax, one lemma per constructor.

`RowByte`: the encoding of an instruction starts with the byte its row of spec/opcode_table.json
fixes, on the channel of the row's format.
-/

namespace Sys2Proof.Laws

/-- The first byte the row fixes, as the table writes it; rows that fix none answer `none`. -/
def rowMatch : Instr → Option Byte
  | .reset _ => some 0x00
  | .attach _ _ _ _ _ => some 0x01
  | .detach _ => some 0x02
  | .decode _ _ _ => some 0x03
  | .readPad _ => some 0x04
  | .buttonEdge _ => some 0x05
  | .commitEdges _ => some 0x06
  | .isDown _ _ => some 0x07
  | .wasPressed _ _ => some 0x08
  | .setRumble _ _ _ => some 0x09
  | .setLed _ _ => some 0x0A
  | .setCpled _ _ => some 0x0B
  | .feedbackTick _ _ => some 0x0C
  | .slotWrite _ _ _ => some 0x10
  | .slotRead _ _ => some 0x11
  | .coordPoll => some 0x12
  | .coordPing _ => some 0x13
  | .peerReceive _ => some 0x20
  | .peerRequest => some 0x21
  | .peerSetOut _ _ => some 0x22
  | .peerRead => some 0x23
  | .statusDisc _ => some 0xF0
  | .statusStd _ => some 0xF1
  | .statusCockpit _ => some 0xF2
  | .ping _ => some 0xAA
  | .response _ _ => none
  | .pad _ _ => none
  | .presence _ _ => none
  | .chatpad _ _ _ => none
  | .reinit _ => none
  | .statusReserved fam _ => some (0xF0 ||| fam.setWidth 8)

/-- The channel of the row's format: the operation port, the bus (a frame to a peer or a response
from one), or the upstream host stack. -/
def rowFormat (x : Input) : Instr → Prop
  | .reset _ => x.channel = .port
  | .attach _ _ _ _ _ => x.channel = .port
  | .detach _ => x.channel = .port
  | .decode _ _ _ => x.channel = .port
  | .readPad _ => x.channel = .port
  | .buttonEdge _ => x.channel = .port
  | .commitEdges _ => x.channel = .port
  | .isDown _ _ => x.channel = .port
  | .wasPressed _ _ => x.channel = .port
  | .setRumble _ _ _ => x.channel = .port
  | .setLed _ _ => x.channel = .port
  | .setCpled _ _ => x.channel = .port
  | .feedbackTick _ _ => x.channel = .port
  | .slotWrite _ _ _ => x.channel = .port
  | .slotRead _ _ => x.channel = .port
  | .coordPoll => x.channel = .port
  | .coordPing _ => x.channel = .port
  | .peerReceive _ => x.channel = .port
  | .peerRequest => x.channel = .port
  | .peerSetOut _ _ => x.channel = .port
  | .peerRead => x.channel = .port
  | .statusDisc _ => x.channel = .busFrame
  | .statusStd _ => x.channel = .busFrame
  | .statusCockpit _ => x.channel = .busFrame
  | .statusReserved _ _ => x.channel = .busFrame
  | .ping _ => x.channel = .busFrame
  | .response k _ => x.channel = .busResponse k
  | .pad h _ => x.channel = .upstream h
  | .presence h _ => x.channel = .upstream h
  | .chatpad h _ _ => x.channel = .upstream h
  | .reinit h => x.channel = .upstream h

namespace RowByte

/-- The encoding starts with the row's byte and arrives on the row's channel. -/
def Statement (i : Instr) : Prop :=
  ∀ l, rowFormat (encode l i) i ∧ ∀ b, rowMatch i = some b → (encode l i).bytes.head? = some b

theorem reset : ∀ a, Statement (.reset a) :=
  fun a l => ⟨rfl, fun _ h => by cases h; rfl⟩
theorem attach : ∀ a b c d e, Statement (.attach a b c d e) :=
  fun a b c d e l => ⟨rfl, fun _ h => by cases h; rfl⟩
theorem detach : ∀ a, Statement (.detach a) :=
  fun a l => ⟨rfl, fun _ h => by cases h; rfl⟩
theorem decode : ∀ a b c, Statement (.decode a b c) :=
  fun a b c l => ⟨rfl, fun _ h => by cases h; rfl⟩
theorem readPad : ∀ a, Statement (.readPad a) :=
  fun a l => ⟨rfl, fun _ h => by cases h; rfl⟩
theorem buttonEdge : ∀ a, Statement (.buttonEdge a) :=
  fun a l => ⟨rfl, fun _ h => by cases h; rfl⟩
theorem commitEdges : ∀ a, Statement (.commitEdges a) :=
  fun a l => ⟨rfl, fun _ h => by cases h; rfl⟩
theorem isDown : ∀ a b, Statement (.isDown a b) :=
  fun a b l => ⟨rfl, fun _ h => by cases h; rfl⟩
theorem wasPressed : ∀ a b, Statement (.wasPressed a b) :=
  fun a b l => ⟨rfl, fun _ h => by cases h; rfl⟩
theorem setRumble : ∀ a b c, Statement (.setRumble a b c) :=
  fun a b c l => ⟨rfl, fun _ h => by cases h; rfl⟩
theorem setLed : ∀ a b, Statement (.setLed a b) :=
  fun a b l => ⟨rfl, fun _ h => by cases h; rfl⟩
theorem setCpled : ∀ a b, Statement (.setCpled a b) :=
  fun a b l => ⟨rfl, fun _ h => by cases h; rfl⟩
theorem feedbackTick : ∀ a b, Statement (.feedbackTick a b) :=
  fun a b l => ⟨rfl, fun _ h => by cases h; rfl⟩
theorem slotWrite : ∀ a b c, Statement (.slotWrite a b c) :=
  fun a b c l => ⟨rfl, fun _ h => by cases h; rfl⟩
theorem slotRead : ∀ a b, Statement (.slotRead a b) :=
  fun a b l => ⟨rfl, fun _ h => by cases h; rfl⟩
theorem coordPoll : Statement .coordPoll :=
  fun l => ⟨rfl, fun _ h => by cases h; rfl⟩
theorem coordPing : ∀ a, Statement (.coordPing a) :=
  fun a l => ⟨rfl, fun _ h => by cases h; rfl⟩
theorem peerReceive : ∀ a, Statement (.peerReceive a) :=
  fun a l => ⟨rfl, fun _ h => by cases h; rfl⟩
theorem peerRequest : Statement .peerRequest :=
  fun l => ⟨rfl, fun _ h => by cases h; rfl⟩
theorem peerSetOut : ∀ a b, Statement (.peerSetOut a b) :=
  fun a b l => ⟨rfl, fun _ h => by cases h; rfl⟩
theorem peerRead : Statement .peerRead :=
  fun l => ⟨rfl, fun _ h => by cases h; rfl⟩
theorem statusDisc : ∀ a, Statement (.statusDisc a) :=
  fun a l => ⟨rfl, fun _ h => by cases h; rfl⟩
theorem statusStd : ∀ a, Statement (.statusStd a) :=
  fun a l => ⟨rfl, fun _ h => by cases h; rfl⟩
theorem statusCockpit : ∀ a, Statement (.statusCockpit a) :=
  fun a l => ⟨rfl, fun _ h => by cases h; rfl⟩
theorem statusReserved (a : BitVec 4) (b : Bytes) : Statement (.statusReserved a b) := by
  refine fun l => ⟨rfl, fun c h => ?_⟩
  cases h
  have : statusByte a = 0xF0 ||| a.setWidth 8 := by revert a; decide
  simp [encode, this]
theorem ping : ∀ a, Statement (.ping a) :=
  fun a l => ⟨rfl, fun _ h => by cases h; rfl⟩
theorem response : ∀ a b, Statement (.response a b) :=
  fun a b l => ⟨rfl, fun _ h => by cases h⟩
theorem pad : ∀ a b, Statement (.pad a b) :=
  fun a b l => ⟨rfl, fun _ h => by cases h⟩
theorem presence : ∀ a b, Statement (.presence a b) :=
  fun a b l => ⟨rfl, fun _ h => by cases h⟩
theorem chatpad : ∀ a b c, Statement (.chatpad a b c) :=
  fun a b c l => ⟨rfl, fun _ h => by cases h⟩
theorem reinit : ∀ a, Statement (.reinit a) :=
  fun a l => ⟨rfl, fun _ h => by cases h⟩

end RowByte
end Sys2Proof.Laws
end

