-- ==== Sys2Proof/Laws/System.lean ====
section
/-!
SUPPORT. What a bus transaction can do to a coupled system (spec/42_transport.md rule R198): a write
and a read reach the live peers at their address and nobody else, of a peer they change its own
ControllerSlot and its output ports only, and so they leave every address its listener.
-/

namespace Sys2Proof.Machine

/-! ### The nodes of a system -/

section fields
variable (y : System) (j : Nat) (n : BusNode)

@[simp] theorem setNode_nodes : (y.setNode j n).nodes = y.nodes.set j n := rfl
@[simp] theorem setNode_turns : (y.setNode j n).turns = y.turns := rfl
@[simp] theorem setNode_partialTape : (y.setNode j n).partialTape = y.partialTape := rfl
@[simp] theorem setNode_partialCount : (y.setNode j n).partialCount = y.partialCount := rfl
@[simp] theorem setNode_strayTape : (y.setNode j n).strayTape = y.strayTape := rfl
@[simp] theorem setNode_strayCount : (y.setNode j n).strayCount = y.strayCount := rfl

@[simp] theorem drawPartial_nodes : y.drawPartial.2.nodes = y.nodes := by
  unfold System.drawPartial; split <;> rfl
@[simp] theorem drawPartial_turns : y.drawPartial.2.turns = y.turns := by
  unfold System.drawPartial; split <;> rfl
@[simp] theorem drawStray_nodes : y.drawStray.2.nodes = y.nodes := by
  unfold System.drawStray; split <;> rfl
@[simp] theorem drawStray_turns : y.drawStray.2.turns = y.turns := by
  unfold System.drawStray; split <;> rfl

end fields

/-! ### Who listens -/

/-- A place answers an address iff a live peer with that identity sits there (R69). -/
theorem mem_placesAt {y : System} {a j : Nat} :
    j ∈ y.placesAt a ↔ ∃ n, y.nodes[j]? = some n ∧ n.node.answersAt a = true := by
  unfold System.placesAt
  rw [List.mem_filter, List.mem_range]
  constructor
  · rintro ⟨hj, h⟩
    exact ⟨y.nodes[j], List.getElem?_eq_getElem hj, by simpa [List.getElem?_eq_getElem hj] using h⟩
  · rintro ⟨n, hn, h⟩
    exact ⟨(List.getElem?_eq_some_iff.1 hn).1, by simp [hn, h]⟩

/-- Nobody listens iff no place answers (R198(d)). -/
theorem listener_nobody {y : System} {a : Nat} : y.listener a = .nobody ↔ y.placesAt a = [] := by
  unfold System.listener
  split
  · simp [*]
  · rename_i h; rw [h]; split <;> simp
  · rename_i h0 _; simpa using h0

/-- One peer listens iff it is the only one at the address, under one coordinator (R247). -/
theorem listener_one {y : System} {a j : Nat} :
    y.listener a = .one j ↔ y.placesAt a = [j] ∧ y.coordinators ≤ 1 := by
  unfold System.listener
  split
  · simp [*]
  · rename_i i h
    rw [h]
    split <;> simp [*]
  · rename_i js h1 h2
    simp only [reduceCtorEq, false_iff, not_and]
    exact fun h => absurd h (h2 j)

/-! ### What a bus event does to a peer -/

/-- Nothing changed but the peer's ControllerSlot and the output ports. -/
structure PeerHalf (s t : State) : Prop where
  cfg : t.cfg = s.cfg
  nodeId : t.nodeId = s.nodeId
  booted : t.booted = s.booted
  pool : t.pool = s.pool
  slots : t.slots = s.slots
  inputs : t.inputs = s.inputs
  upTape : t.upTape = s.upTape
  errTape : t.errTape = s.errTape
  rxTape : t.rxTape = s.rxTape
  drawCount : t.drawCount = s.drawCount

namespace PeerHalf

variable {s t u : State}

theorem refl (s : State) : PeerHalf s s := ⟨rfl, rfl, rfl, rfl, rfl, rfl, rfl, rfl, rfl, rfl⟩

theorem trans (h : PeerHalf s t) (g : PeerHalf t u) : PeerHalf s u :=
  ⟨g.cfg.trans h.cfg, g.nodeId.trans h.nodeId, g.booted.trans h.booted, g.pool.trans h.pool,
    g.slots.trans h.slots, g.inputs.trans h.inputs, g.upTape.trans h.upTape,
    g.errTape.trans h.errTape, g.rxTape.trans h.rxTape, g.drawCount.trans h.drawCount⟩

theorem rejectFrame (why : FrameError) (b : Byte) (n : Nat) (s : State) :
    PeerHalf s (rejectFrame why b n s) := by
  unfold Machine.rejectFrame
  constructor <;> simp

theorem acceptStatus (tf : TargetFamily) (rest : Bytes) (s : State) :
    PeerHalf s (acceptStatus tf rest s) := by
  unfold Machine.acceptStatus
  split
  · dsimp only
    split <;> exact ⟨rfl, rfl, rfl, rfl, rfl, rfl, rfl, rfl, rfl, rfl⟩
  · exact rejectFrame ..

theorem peerReceiveOp (b : Bytes) (s : State) : PeerHalf s (peerReceiveOp b s) := by
  unfold Machine.peerReceiveOp
  split
  · exact ⟨rfl, rfl, rfl, rfl, rfl, rfl, rfl, rfl, rfl, rfl⟩
  · split
    · exact ⟨rfl, rfl, rfl, rfl, rfl, rfl, rfl, rfl, rfl, rfl⟩
    · split
      · split
        · exact acceptStatus ..
        · exact rejectFrame ..
      · exact rejectFrame ..

theorem paramsWf (h : PeerHalf s t) : t.paramsWf = s.paramsWf := by
  unfold State.paramsWf State.maxDev
  rw [h.cfg, h.pool]

theorem alive (h : PeerHalf s t) : t.alive = s.alive := by
  simp [State.alive, h.paramsWf, h.booted]

theorem role (h : PeerHalf s t) : t.role = s.role := by
  simp [State.role, h.nodeId]

theorem answersAt (h : PeerHalf s t) (a : Nat) : t.answersAt a = s.answersAt a := by
  simp [State.answersAt, h.alive, h.role, h.nodeId]

end PeerHalf

/-- The two operations the bus makes a peer execute (R198, R192). -/
def isBusOp (i : Instr) : Prop := (∃ b, i = .peerReceive b) ∨ i = .peerRequest

theorem exec_busOp_half {i : Instr} {s t : State} (hi : isBusOp i) (he : exec i s = .next t) :
    PeerHalf s t := by
  rcases hi with ⟨b, rfl⟩ | rfl
  · rw [exec_peerReceive] at he
    obtain ⟨-, -, -, -, rfl⟩ := accept_next.1 he
    exact PeerHalf.peerReceiveOp b s
  · rw [exec_peerRequest] at he
    obtain ⟨-, -, -, -, rfl⟩ := accept_next.1 he
    exact ⟨rfl, rfl, rfl, rfl, rfl, rfl, rfl, rfl, rfl, rfl⟩

/-! ### What a transaction does to the system -/

/-- No node but those at the places of `P` changed, and of those only the peer half of their state;
every operation in progress and the turns stay. -/
structure OnlyPlaces (P : Nat → Prop) (y z : System) : Prop where
  turns : z.turns = y.turns
  count : z.nodes.length = y.nodes.length
  others : ∀ j, ¬ P j → z.nodes[j]? = y.nodes[j]?
  half : ∀ (j : Nat) (n m : BusNode), y.nodes[j]? = some n → z.nodes[j]? = some m →
    m.todo = n.todo ∧ PeerHalf n.node m.node

namespace OnlyPlaces

variable {P Q : Nat → Prop} {x y z : System}

theorem of_nodes (h : z.nodes = y.nodes) (ht : z.turns = y.turns) : OnlyPlaces P y z :=
  ⟨ht, by rw [h], fun j _ => by rw [h], fun j n m hn hm => by
    rw [h, hn] at hm
    cases hm
    exact ⟨rfl, PeerHalf.refl _⟩⟩

theorem mono (h : OnlyPlaces P y z) (hp : ∀ j, P j → Q j) : OnlyPlaces Q y z :=
  ⟨h.turns, h.count, fun j hj => h.others j fun hpj => hj (hp j hpj), h.half⟩

/-- Every node of the first system has its successor in the second. -/
theorem exists_node (h : OnlyPlaces P y z) {j : Nat} {n : BusNode} (hn : y.nodes[j]? = some n) :
    ∃ m, z.nodes[j]? = some m ∧ m.todo = n.todo ∧ PeerHalf n.node m.node := by
  have hj : j < z.nodes.length := h.count ▸ (List.getElem?_eq_some_iff.1 hn).1
  exact ⟨z.nodes[j], List.getElem?_eq_getElem hj,
    h.half j n _ hn (List.getElem?_eq_getElem hj)⟩

theorem trans (h : OnlyPlaces P x y) (g : OnlyPlaces P y z) : OnlyPlaces P x z :=
  ⟨g.turns.trans h.turns, g.count.trans h.count,
    fun j hj => (g.others j hj).trans (h.others j hj), fun j n m hn hm => by
      obtain ⟨k, hk, ht, hp⟩ := h.exists_node hn
      obtain ⟨gt, gp⟩ := g.half j k m hk hm
      exact ⟨gt.trans ht, hp.trans gp⟩⟩

/-- Every node of the second system has its predecessor in the first. -/
theorem exists_before (h : OnlyPlaces P y z) {j : Nat} {m : BusNode} (hm : z.nodes[j]? = some m) :
    ∃ n, y.nodes[j]? = some n ∧ m.todo = n.todo ∧ PeerHalf n.node m.node := by
  have hj : j < y.nodes.length := h.count ▸ (List.getElem?_eq_some_iff.1 hm).1
  exact ⟨y.nodes[j], List.getElem?_eq_getElem hj,
    h.half j _ m (List.getElem?_eq_getElem hj) hm⟩

theorem placesAt (h : OnlyPlaces P y z) (a : Nat) : z.placesAt a = y.placesAt a := by
  unfold System.placesAt
  rw [h.count]
  refine List.filter_congr fun j hj => ?_
  obtain ⟨k, hk, -, hp⟩ := h.exists_node (List.getElem?_eq_getElem (List.mem_range.1 hj))
  rw [hk, List.getElem?_eq_getElem (List.mem_range.1 hj)]
  simp [hp.answersAt]

theorem coordinators (h : OnlyPlaces P y z) : z.coordinators = y.coordinators := by
  have hm : z.nodes.map (fun n => n.node.alive && n.node.role == .coordinator) =
      y.nodes.map (fun n => n.node.alive && n.node.role == .coordinator) := by
    refine List.ext_getElem? fun j => ?_
    rw [List.getElem?_map, List.getElem?_map]
    cases hn : y.nodes[j]? with
    | none =>
      rw [List.getElem?_eq_none_iff.2 (h.count ▸ List.getElem?_eq_none_iff.1 hn)]
    | some n =>
      obtain ⟨k, hk, -, hp⟩ := h.exists_node hn
      rw [hk]
      simp [hp.alive, hp.role]
  unfold System.coordinators
  have hc := congrArg (List.countP id) hm
  rwa [List.countP_map, List.countP_map] at hc

/-- Who listens at an address is as before. -/
theorem listener (h : OnlyPlaces P y z) (a : Nat) : z.listener a = y.listener a := by
  unfold System.listener
  rw [h.placesAt, h.coordinators]

/-- Transactions one after another, each within `P`. -/
theorem foldl {f : System → Nat → System} {js : List Nat} (hf : ∀ y, ∀ j ∈ js, OnlyPlaces P y (f y j))
    (y : System) : OnlyPlaces P y (js.foldl f y) := by
  induction js generalizing y with
  | nil => exact of_nodes rfl rfl
  | cons j js ih =>
    exact (hf y j (by simp)).trans (ih (fun y k hk => hf y k (List.mem_cons_of_mem _ hk)) _)

end OnlyPlaces

/-- A bus event at a place changes at most that place's peer half. -/
theorem nodeRuns_only {i : Instr} (hi : isBusOp i) (y : System) (j : Nat) :
    OnlyPlaces (fun k => k = j) y (y.nodeRuns j i) := by
  unfold System.nodeRuns
  split
  · exact OnlyPlaces.of_nodes rfl rfl
  · rename_i n hn
    split
    · rename_i p hp
      have hj := (List.getElem?_eq_some_iff.1 hn).1
      refine ⟨rfl, by simp, fun k hk => by simp [Ne.symm hk], fun k n' m hn' hm => ?_⟩
      by_cases hk : k = j
      · subst hk
        rw [hn] at hn'
        cases hn'
        simp only [setNode_nodes, List.getElem?_set_self hj, Option.some.injEq] at hm
        subst hm
        exact ⟨rfl, exec_busOp_half hi hp⟩
      · simp only [setNode_nodes, List.getElem?_set_ne (Ne.symm hk)] at hm
        rw [hn'] at hm
        cases hm
        exact ⟨rfl, PeerHalf.refl _⟩
    · exact OnlyPlaces.of_nodes rfl rfl

theorem strayWrite_only (y : System) (j : Nat) :
    OnlyPlaces (fun k => k = j) y (y.strayWrite j) := by
  have h0 : OnlyPlaces (fun k => k = j) y y.drawStray.2 :=
    OnlyPlaces.of_nodes (drawStray_nodes y) (drawStray_turns y)
  unfold System.strayWrite
  split
  · rename_i y' hd
    rw [hd] at h0
    exact h0
  · rename_i b y' hd
    rw [hd] at h0
    exact h0.trans (nodeRuns_only (.inl ⟨b, rfl⟩) _ _)

/-- A listener that is not nobody is among the places of its address. -/
theorem listener_contended {y : System} {a : Nat} {js : List Nat}
    (h : y.listener a = .contended js) : js = y.placesAt a := by
  unfold System.listener at h
  split at h
  · cases h
  · rename_i j hj
    split at h
    · cases h
    · cases h; exact hj.symm
  · cases h; rfl

/-- A written frame reaches the live peers at its address and nobody else (R198(a), (b)). -/
theorem deliver_only (y : System) (a : Nat) (frame : Bytes) (err : Byte) :
    OnlyPlaces (fun j => j ∈ y.placesAt a) y (y.deliver a frame err) := by
  unfold System.deliver
  split
  · exact OnlyPlaces.of_nodes rfl rfl
  · rename_i j hl
    have hj : ∀ k, k = j → k ∈ y.placesAt a := fun k hk => by
      rw [(listener_one.1 hl).1, hk]; exact List.mem_singleton_self j
    split
    · exact (nodeRuns_only (.inl ⟨frame, rfl⟩) y j).mono hj
    · have h0 : OnlyPlaces (fun j => j ∈ y.placesAt a) y y.drawPartial.2 :=
        OnlyPlaces.of_nodes (drawPartial_nodes y) (drawPartial_turns y)
      split
      · rename_i y' hd
        rw [hd] at h0
        exact h0
      · rename_i n y' hd
        rw [hd] at h0
        exact h0.trans ((nodeRuns_only (.inl ⟨frame.take n, rfl⟩) y' j).mono hj)
  · rename_i js hl
    refine OnlyPlaces.foldl (fun y' j hj => (strayWrite_only y' j).mono fun k hk => ?_) y
    rw [hk, ← listener_contended hl]
    exact hj

/-- A read reaches the live peers at its address and nobody else (R198(c), (d)). -/
theorem request_only (y : System) (a : Nat) (raw : Bytes) :
    OnlyPlaces (fun j => j ∈ y.placesAt a) y (y.request a raw).2 := by
  unfold System.request
  split
  · exact OnlyPlaces.of_nodes rfl rfl
  · rename_i j hl
    split
    · exact OnlyPlaces.of_nodes rfl rfl
    · refine (nodeRuns_only (.inr rfl) y j).mono fun k hk => ?_
      rw [(listener_one.1 hl).1, hk]
      exact List.mem_singleton_self j
  · rename_i js hl
    refine OnlyPlaces.foldl (fun y' j hj => (nodeRuns_only (.inr rfl) y' j).mono fun k hk => ?_) y
    rw [hk, ← listener_contended hl]
    exact hj

/-- A node that answers no address at all, as every coordinator does, is reached by no
transaction. -/
theorem not_mem_placesAt_of_coordinator {y : System} {j : Nat} {n : BusNode}
    (hn : y.nodes[j]? = some n) (hr : n.node.role = .coordinator) (a : Nat) :
    j ∉ y.placesAt a := by
  rw [mem_placesAt]
  rintro ⟨n', hn', h⟩
  rw [hn] at hn'
  cases hn'
  simp [State.answersAt, hr] at h

end Sys2Proof.Machine
end

