-- ==== Sys2Proof/Tests/Slice0.lean ====
section
/-!
SUPPORT. The model's own tests: well-formedness, decoding of words written out from the spec, one
step of each operation on the vectors of spec/95_test_vectors.md, and a witness for the hypotheses
of each obligation.  Expected values are the spec's (the vector is named beside each test).
-/

namespace Sys2Proof.Tests

open Sys2Proof.Machine

/-! ### Helpers -/

/-- The next state of an outcome. -/
def nextOf (o : Host.Outcome State Fault Refusal) : Option State :=
  match o with
  | .next s => some s
  | _ => none

/-- The refusal of an outcome. -/
def refusalOf (o : Host.Outcome State Fault Refusal) : Option Refusal :=
  match o with
  | .refused r => some r
  | _ => none

/-- What an operation returns and the events it emits on a node that has emitted none. -/
def answer (i : Instr) (s : State) : Option (Result × List Event) :=
  (nextOf (exec i s)).map fun t => (t.result, t.events)

/-- One field of record 0 after an operation. -/
def rec0 {α : Type} (f : DeviceRecord → α) (i : Instr) (s : State) : Option α :=
  (nextOf (exec i s)).map fun t => f (t.dev 0)

/-- The reset coordinator with record 0 set. -/
def withRec (r : DeviceRecord) : State := State.reset.setRec 0 r

/-- The record of V-A1. -/
def wiredRec : DeviceRecord :=
  { zeroRecord 2 with fam := .wiredX, addr := 1, inEp := 0x81, outEp := 0x01 }

/-- The record of V-P1, its chatpad init already sent. -/
def wirelessRec : DeviceRecord :=
  { zeroRecord 2 with fam := .wirelessX, addr := 5, inEp := 0x81, outEp := 0x01 }

/-- A coordinator with the record of V-A1 in slot 0. -/
def wired : State := withRec wiredRec

/-- A coordinator with the record of V-P1 in slot 0. -/
def wireless : State := withRec wirelessRec

/-- The envelope of the wireless packets of V-P1. -/
def h5 : PacketHeader := ⟨5, 0, .wirelessX, 0x81, 0x01⟩

/-- The envelope of the wired packets of V-D1. -/
def h1 : PacketHeader := ⟨1, 0, .wiredX, 0x81, 0x01⟩

/-- A coordinator whose four records are live (V-A7). -/
def full : State :=
  { State.reset with
    pool := [wiredRec, { wiredRec with addr := 2 }, { wiredRec with addr := 3, fam := .legacy },
             { wiredRec with addr := 4, fam := .nextGen }] }

/-- Peer 2 right after its reset (2.8). -/
def peer2 : State := State.reset.afterReset 2

/-- The 20-byte in-report `rep` of 2.7. -/
def rep : Bytes := [0x00, 0x14, 0x00, 0x10] ++ List.replicate 16 0

/-- The 28-byte CHATPAD packet `CP(m, k0, k1)` of 2.4. -/
def cp (m k0 k1 : Byte) : Bytes := [0x00, 0x02] ++ List.replicate 23 0 ++ [m, k0, k1]

/-! ### Well-formedness: an ill-formed term of each check is refused -/

/-- The check under the profiles of R100 to R105. -/
def wf (i : Instr) : Bool := i.wellFormed profileConfig 4 tWireless

theorem test_wf_slot_operand :
    wf (.readPad 3) = true ∧ wf (.readPad 4) = false ∧ wf (.buttonEdge 4) = false ∧
    wf (.commitEdges 4) = false ∧ wf (.isDown 4 1) = false ∧ wf (.wasPressed 4 1) = false ∧
    wf (.setRumble 4 0 0) = false ∧ wf (.setLed 4 0) = false ∧ wf (.setCpled 4 0) = false ∧
    wf (.feedbackTick 4 0) = false := by decide

theorem test_wf_lengths :
    wf (.decode h1 1 []) = false ∧ wf (.statusDisc [0]) = false ∧ wf (.statusStd []) = false ∧
    wf (.statusCockpit []) = false ∧ wf (.ping [0]) = false ∧ wf (.slotWrite 1 1 []) = false ∧
    wf (.peerSetOut 1 []) = false ∧ wf (.slotWrite 1 1 rep) = true := by decide

theorem test_wf_ranges :
    wf (.slotWrite 4 1 rep) = false ∧ wf (.slotWrite 1 3 []) = false ∧
    wf (.slotRead 4 1) = false ∧ wf (.slotRead 1 0) = false ∧ wf (.slotRead 1 3) = false ∧
    wf (.coordPing 0) = false ∧ wf (.coordPing 4) = false ∧ wf (.peerSetOut 0 [0]) = false ∧
    wf (.statusReserved 2 []) = false ∧ wf (.response 0 []) = false ∧
    wf (.response 4 []) = false := by decide

theorem test_wf_packets :
    wf (.pad h5 { zeroPad with buttons := 0x0800 }) = false ∧
    wf (.pad h5 { zeroPad with buttons := 0xF7FF }) = true ∧
    wf (.chatpad h5 0 [1]) = false ∧ wf (.chatpad h5 0 [1, 2]) = true ∧
    (Instr.presence h1 true).wellFormed profileConfig 4 gkWired = false ∧
    (Instr.reinit h1).wellFormed profileConfig 4 gkWired = false := by decide

theorem test_wf_long_transaction : wf (.peerReceive (List.replicate 3 0)) = true := by decide

/-! ### Decoding: words written out from the tables of R80, R81, R97 and the programs P1 to P5 -/

theorem test_decode_reset : decodePort [0x00, 0x03] = .instr (.reset 3) := by decide
theorem test_decode_attach : decodePort [0x01, 0x02, 0x01, 0x82, 0x02, 0x00] =
    .instr (.attach 2 .wiredX 0x82 0x02 0) := by decide
theorem test_decode_detach : decodePort [0x02, 0x02] = .instr (.detach 2) := by decide
theorem test_decode_decode :
    decodePort ([0x03, 0x01, 0x00, 0x01, 0x81, 0x01, 0x14, 0x00] ++ rep) =
      .instr (.decode h1 20 rep) := by decide
theorem test_decode_readPad : decodePort [0x04, 0x00] = .instr (.readPad 0) := by decide
theorem test_decode_buttonEdge : decodePort [0x05, 0x00] = .instr (.buttonEdge 0) := by decide
theorem test_decode_commitEdges : decodePort [0x06, 0x00] = .instr (.commitEdges 0) := by decide
theorem test_decode_isDown : decodePort [0x07, 0x00, 0xE0] = .instr (.isDown 0 0xE0) := by decide
theorem test_decode_wasPressed :
    decodePort [0x08, 0x00, 0x17] = .instr (.wasPressed 0 0x17) := by decide
theorem test_decode_setRumble :
    decodePort [0x09, 0x00, 0x80, 0x40] = .instr (.setRumble 0 0x80 0x40) := by decide
theorem test_decode_setLed : decodePort [0x0A, 0x00, 0x02] = .instr (.setLed 0 2) := by decide
theorem test_decode_setCpled : decodePort [0x0B, 0x00, 0x05] = .instr (.setCpled 0 5) := by decide
theorem test_decode_feedbackTick :
    decodePort [0x0C, 0x00, 0xE8, 0x03, 0x00, 0x00] = .instr (.feedbackTick 0 1000) := by decide
theorem test_decode_slotWrite :
    decodePort ([0x10, 0x01, 0x01] ++ rep) = .instr (.slotWrite 1 1 rep) := by decide
theorem test_decode_slotRead : decodePort [0x11, 0x03, 0x02] = .instr (.slotRead 3 2) := by decide
theorem test_decode_coordPoll : decodePort [0x12] = .instr .coordPoll := by decide
theorem test_decode_coordPing : decodePort [0x13, 0x02] = .instr (.coordPing 2) := by decide
theorem test_decode_peerReceive :
    decodePort ([0x20, 0x15, 0x00, 0xF1] ++ rep) = .instr (.peerReceive (0xF1 :: rep)) := by decide
theorem test_decode_peerRequest : decodePort [0x21] = .instr .peerRequest := by decide
theorem test_decode_peerSetOut :
    decodePort [0x22, 0x01, 0x00, 0x06, 0x11, 0x22, 0x33, 0x44] =
      .instr (.peerSetOut 1 [0x00, 0x06, 0x11, 0x22, 0x33, 0x44]) := by decide
theorem test_decode_peerRead : decodePort [0x23] = .instr .peerRead := by decide
theorem test_decode_statusDisc : decodeFrame [0xF0] = .instr (.statusDisc []) := by decide
theorem test_decode_statusStd : decodeFrame (0xF1 :: rep) = .instr (.statusStd rep) := by decide
theorem test_decode_statusCockpit :
    decodeFrame [0xF2, 0x07] = .instr (.statusCockpit [0x07]) := by decide
theorem test_decode_statusReserved :
    decodeFrame [0xF3] = .instr (.statusReserved 3 []) ∧
      decodeFrame [0xFF, 0x01] = .instr (.statusReserved 15 [0x01]) := by decide
theorem test_decode_ping : decodeFrame [0xAA, 0x01, 0x02] = .instr (.ping [0x01, 0x02]) := by decide
theorem test_decode_response :
    decode [] ⟨.busResponse 1, [0x00, 0x06]⟩ = .instr (.response 1 [0x00, 0x06]) := by decide
/-- V-P9. -/
theorem test_decode_pad :
    decodePacket tWireless h5
      ([0x00, 0x01, 0x00, 0xF0, 0x00, 0x00, 0x10, 0x10, 0x80] ++ List.replicate 9 0) =
      .instr (.pad h5 ⟨0x1010, 128, 0, 0, 0, 0, 0⟩) := by decide
/-- V-P2 and V-P5: only bit 0x80 of byte 1 counts. -/
theorem test_decode_presence :
    decodePacket tWireless h5 [0x08, 0xC0] = .instr (.presence h5 true) ∧
      decodePacket tWireless h5 [0x08, 0x00] = .instr (.presence h5 false) := by decide
/-- V-C1. -/
theorem test_decode_chatpad :
    decodePacket tWireless h5 (cp 0x01 0x17 0x00) = .instr (.chatpad h5 0x01 [0x17, 0x00]) := by
  decide
/-- V-P12. -/
theorem test_decode_reinit :
    decodePacket tWireless h5 ([0x00, 0x02] ++ List.replicate 22 0 ++ [0xF0, 0, 0, 0]) =
      .instr (.reinit h5) := by decide

/-- R81, R97: no OPC, unknown OPCs, short, long and oversized operands, and no frame. -/
theorem test_decode_rejects :
    decodePort [] = .reject .emptyWord ∧ decodePort [0x0D] = .reject (.unknownOpcode 0x0D) ∧
    decodePort [0x14] = .reject (.unknownOpcode 0x14) ∧
    decodePort [0xFF] = .reject (.unknownOpcode 0xFF) ∧
    decodePort [0x04] = .reject .missingOperand ∧ decodePort [0x12, 0] = .reject .trailingBytes ∧
    decodePort [0x00, 0x04] = .reject .operandWidth ∧
    decodePort [0x20, 0x02, 0x00, 0xAA] = .reject .lengthMismatch ∧
    decodeFrame [] = .reject .notAFrame ∧ decodeFrame [0xE1, 0x01] = .reject .notAFrame ∧
    decodePacket gkWired h1 [0x00] = .reject .noKind := by decide

/-- The encoder on one instruction of each layer. -/
theorem test_encode :
    encode [] (.feedbackTick 0 1000) = ⟨.port, [0x0C, 0x00, 0xE8, 0x03, 0x00, 0x00]⟩ ∧
    encode [] (.statusStd [0x07]) = ⟨.busFrame, [0xF1, 0x07]⟩ ∧
    encode tWireless (.presence h5 true) = ⟨.upstream h5, [0x08, 0x80]⟩ ∧
    encode tWireless (.chatpad h5 0x01 [0x17, 0x00]) = ⟨.upstream h5, cp 0x01 0x17 0x00⟩ := by
  decide

/-! ### One step of each operation -/

/-- V-X3 and R44: the state RESET gives. -/
theorem test_reset :
    (nextOf (exec (.reset 1) wired)).map (fun t => (t.nodeId, t.dev 0, t.peer, t.result)) =
      some (1, zeroRecord 2, resetSlot profileConfig, .none) := by decide

/-- V-A1 and V-A7: the lowest free slot, and a full pool. -/
theorem test_attach_fills_the_lowest_slot :
    (nextOf (exec (.attach 1 .wiredX 0x81 0x01 0) State.reset)).map
      (fun t => (t.result, t.dev 0, t.dev 1)) =
      some (.slot (some 0), wiredRec, zeroRecord 2) := by decide
theorem test_attach_full_pool :
    answer (.attach 6 .wiredX 0x81 0x01 0) full =
      some (.slot none, [.diag (.poolFull 6 0)]) := by decide

/-- V-A8 and V-A10. -/
theorem test_detach : rec0 id (.detach 1) wired = some (zeroRecord 2) := by decide
theorem test_detach_address_zero : rec0 id (.detach 0) wired = some wiredRec := by decide

/-- V-D4: little-endian sticks with their signs, and byte triggers. -/
theorem test_decode_sticks :
    rec0 (fun r => (r.pad.lt, r.pad.rt, r.pad.lx.toInt, r.pad.ly.toInt, r.pad.rx.toInt,
        r.pad.ry.toInt))
      (.decode h1 20 ([0x00, 0x14, 0x00, 0x00, 0xFF, 0x01, 0x00, 0x80, 0xFF, 0x7F, 0xFF, 0xFF,
        0x01, 0x00] ++ List.replicate 6 0)) wired =
      some (255, 1, -32768, 32767, -1, 1) := by decide
/-- V-D2: one byte short of the minimum. -/
theorem test_decode_short :
    (nextOf (exec (.decode h1 19 (rep.take 19)) wired)).map (fun t => (t.result, t.dev 0)) =
      some (.isPad false, wiredRec) := by decide

/-- V-D8: the analog cut. -/
theorem test_legacy_analog_buttons :
    rec0 (fun r => (r.pad.buttons, r.pad.lt, r.pad.rt))
      (.decode ⟨3, 0, .legacy, 0x81, 0x01⟩ 20 ([0x00, 0x14, 0x11, 0x00, 0x21, 0x20, 0x00, 0x00,
        0x80, 0xFF, 0x40, 0x7F] ++ List.replicate 8 0))
      (withRec { wiredRec with fam := .legacy, addr := 3 }) =
      some (0x1311, 0x40, 0x7F) := by decide
/-- V-D10 and V-D12: the wide triggers, shifted and cut to 8 bits. -/
theorem test_next_gen_triggers :
    (TrigForm.u16Shr 0 2).read [0xFF, 0x03] = 255 ∧ (TrigForm.u16Shr 0 2).read [0x00, 0x02] = 128 ∧
      (TrigForm.u16Shr 0 2).read [0x00, 0x04] = 0 := by decide

/-- V-E8. -/
theorem test_readPad :
    answer (.readPad 0) (withRec { wiredRec with pad := ⟨0, 255, 1, 0x8000, 0x7FFF, 0xFFFF, 1⟩ }) =
      some (.pad ⟨0, 255, 1, 0x8000, 0x7FFF, 0xFFFF, 1⟩, []) := by decide

/-- V-E5: the release of A is no edge. -/
theorem test_buttonEdge :
    answer (.buttonEdge 0) (withRec { wiredRec with
      pad := { zeroPad with buttons := 0x2000 }, prevButtons := 0x1000 }) =
      some (.mask 0x2000, []) := by decide

/-- V-E3 and V-E7. -/
theorem test_commitEdges :
    rec0 (fun r => r.prevButtons) (.commitEdges 0)
      (withRec { wiredRec with pad := { zeroPad with buttons := 0x1000 } }) = some 0x1000 := by
  decide
theorem test_commitEdges_free_slot :
    rec0 id (.commitEdges 0) State.reset = some (zeroRecord 2) := by decide

/-- A wireless record holding SHIFT and key 0x17 (V-C1). -/
def chatRec : DeviceRecord := { wirelessRec with cpMods := 0x01, cpKeys := [0x17, 0x00] }

/-- V-C3 and V-Q12: a modifier code is tested through the modifier byte only. -/
theorem test_isDown :
    answer (.isDown 0 0xE0) (withRec chatRec) = some (.bit true, []) ∧
    answer (.isDown 0 0x17) (withRec chatRec) = some (.bit true, []) ∧
    answer (.isDown 0 0xE1) (withRec chatRec) = some (.bit false, []) ∧
    answer (.isDown 0 0x00) (withRec chatRec) = some (.bit false, []) := by decide
theorem test_isDown_modifier_as_key :
    answer (.isDown 0 0xE0) (withRec { chatRec with cpMods := 0, cpKeys := [0xE0, 0] }) =
      some (.bit false, []) := by decide

/-- V-Q11: the released SHIFT frees its entry, which the waiting key claims. -/
theorem test_wasPressed_expires_and_claims :
    (nextOf (exec (.wasPressed 0 0x18) (withRec { chatRec with
      cpMods := 0x02, cpKeys := [0x17, 0x18], cpHist := ⟨0xE0, 0xE1, 0x17⟩ }))).map
      (fun t => (t.result, (t.dev 0).cpHist)) =
      some (.bit true, ⟨0x18, 0xE1, 0x17⟩) := by decide
/-- V-Q10: the history is full. -/
theorem test_wasPressed_full_history :
    (nextOf (exec (.wasPressed 0 0x18) (withRec { chatRec with
      cpMods := 0x03, cpKeys := [0x17, 0x18], cpHist := ⟨0xE0, 0xE1, 0x17⟩ }))).map
      (fun t => (t.result, (t.dev 0).cpHist)) =
      some (.bit false, ⟨0xE0, 0xE1, 0x17⟩) := by decide

/-- The examples of R160 to R162. -/
theorem test_setRumble :
    rec0 (fun r => r.rumReq) (.setRumble 0 0x80 0x40) wired = some ⟨0x80, 0x40⟩ := by decide
theorem test_setLed : rec0 (fun r => r.ledReq) (.setLed 0 2) wired = some 2 := by decide
theorem test_setCpled : rec0 (fun r => r.cpLedReq) (.setCpled 0 5) wireless = some 5 := by decide

/-- A coordinator with a command list in its parameters and scripted transfer answers. -/
def scripted (r : DeviceRecord) (cmds : List ((Family × Cmd) × List Bytes))
    (up : List TransferResult) : State :=
  { withRec r with cfg := { profileConfig with cmds := cmds }, upTape := up }

/-- V-F15: bits 0 to 3 differ; the second command fails, the later ones are still sent. -/
theorem test_feedbackTick_chatpad_leds :
    (nextOf (exec (.feedbackTick 0 8) (scripted
      { wirelessRec with cpLedReq := 0x0A, cpLedAct := 0x05 }
      [((.wirelessX, .cpLed 0 false), [[1]]), ((.wirelessX, .cpLed 1 true), [[2]]),
       ((.wirelessX, .cpLed 2 false), [[3]]), ((.wirelessX, .cpLed 3 true), [[4]])]
      [.transferred 1, .error, .transferred 1, .transferred 1]))).map
      (fun t => ((t.dev 0).cpLedAct, t.events)) =
      some (0x08, [.uptx 5 1 [1], .uptx 5 1 [2], .diag (.uptxFail 0 .cpLed), .uptx 5 1 [3],
        .uptx 5 1 [4]]) := by decide
/-- V-F25: at 1001 ms of hold the power-off is tested before the due keepalive. -/
theorem test_feedbackTick_power_off :
    (nextOf (exec (.feedbackTick 0 6005) (scripted
      { wirelessRec with pad := { zeroPad with buttons := 0x0400 }, tPeriodic := 4500,
                         tPowerHold := 5004 }
      [((.wirelessX, .powerOff), [[9]])] [.error]))).map
      (fun t => ((t.dev 0).tPowerHold, (t.dev 0).tPeriodic, t.events)) =
      some (6005, 4500, [.uptx 5 1 [9], .diag (.uptxFail 0 .powerOff)]) := by decide

/-- V-T2's SLOT_WRITE. -/
theorem test_slotWrite :
    (nextOf (exec (.slotWrite 1 1 rep) State.reset)).map
      (fun t => ((t.slot 1).tf, (t.slot 1).inStd, (t.slot 2).tf)) =
      some (.standard, rep, .disconnected) := by decide
/-- V-T14. -/
theorem test_slot_operands_refused :
    refusalOf (exec (.slotRead 1 0) State.reset) = some .operandRange ∧
    refusalOf (exec (.slotWrite 1 3 []) State.reset) = some .operandRange ∧
    refusalOf (exec (.slotWrite 1 1 (List.replicate 19 0)) State.reset) = some .operandRange ∧
    refusalOf (exec (.coordPing 0) State.reset) = some .operandRange ∧
    refusalOf (exec (.slotWrite 4 1 rep) State.reset) = some .operandRange := by decide

/-- A coordinator whose slot 1 is STANDARD with an old out-report. -/
def slot1 : State :=
  State.reset.setSlot 1 { resetSlot profileConfig with
    tf := .standard, inStd := rep, outStd := [1, 2, 3, 4, 5, 6] }

/-- V-T3. -/
theorem test_slotRead :
    answer (.slotRead 1 1) slot1 = some (.bytes [1, 2, 3, 4, 5, 6], []) := by decide

/-- V-T4 and V-T6: peer 1's read is short, peer 2's send fails, peer 3 is disconnected. -/
theorem test_coordPoll :
    (nextOf (exec .coordPoll { slot1 with errTape := [0, 4, 0], rxTape := [[0xA0, 0xA1], [0]] })).map
      (fun t => ((t.slot 1).outStd, t.events)) =
      some ([0xA0, 0xA1, 3, 4, 5, 6],
        [.busw 1 (0xF1 :: rep), .busr 1 6, .diag (.busShortRead 1 2 6),
         .busw 2 [0xF0], .diag (.busSendFail 2 4), .busw 3 [0xF0], .busr 3 1]) := by decide
/-- V-T8: the surplus is drained without a DIAG. -/
theorem test_response_drains :
    (nextOf (exec (.response 1 [1, 2, 3, 4, 5, 6, 7, 8]) slot1)).map
      (fun t => ((t.slot 1).outStd, t.events)) = some ([1, 2, 3, 4, 5, 6], []) := by decide

/-- V-T11. -/
theorem test_coordPing :
    answer (.coordPing 2) { State.reset with errTape := [1] } =
      some (.none, [.busw 2 [0xAA], .diag (.busSendFail 2 1)]) := by decide

/-- V-PR3 and V-PR4. -/
theorem test_peerReceive_accepts :
    (nextOf (exec (.peerReceive (0xF1 :: rep)) peer2)).map
      (fun t => (t.peer.tf, t.peer.inStd, t.events)) =
      some (.standard, rep, [.familyChanged .standard]) := by decide
theorem test_peerReceive_rejects :
    answer (.peerReceive (0xF1 :: List.replicate 19 0)) peer2 =
      some (.none, [.diag (.frameReject .len 0xF1 20)]) ∧
    answer (.peerReceive [0xE1, 0x01, 0x02]) peer2 =
      some (.none, [.diag (.frameReject .tag 0xE1 3)]) := by decide

/-- V-PR1 and V-PR10. -/
theorem test_peerRequest_disconnected :
    answer .peerRequest peer2 = some (.bytes [0x00], []) := by decide
theorem test_peerRequest :
    answer .peerRequest { peer2 with peer := { resetSlot profileConfig with
      tf := .standard, outStd := [0x00, 0x06, 0x11, 0x22, 0x33, 0x44] } } =
      some (.bytes [0x00, 0x06, 0x11, 0x22, 0x33, 0x44], []) := by decide

/-- V-PR10 and V-PR18. -/
theorem test_peerSetOut :
    (nextOf (exec (.peerSetOut 1 [0x00, 0x06, 0x11, 0x22, 0x33, 0x44]) peer2)).map
      (fun t => (t.peer.tf, t.peer.outStd)) =
      some (.disconnected, [0x00, 0x06, 0x11, 0x22, 0x33, 0x44]) := by decide
theorem test_peerSetOut_refused :
    refusalOf (exec (.peerSetOut 0 [0]) peer2) = some .operandRange ∧
    refusalOf (exec .coordPoll peer2) = some .wrongRole := by decide

/-- V-PR11. -/
theorem test_peerRead :
    answer .peerRead { peer2 with peer := { resetSlot profileConfig with
      tf := .standard, inStd := rep } } = some (.report .standard rep, []) := by decide

/-- V-PR16, V-PR15, V-PR12, V-PR6 and V-PR9: the frames as instructions. -/
theorem test_statusDisc :
    (nextOf (exec (.statusDisc []) { peer2 with peer := { resetSlot profileConfig with
      tf := .standard, inStd := rep } })).map (fun t => (t.peer.tf, t.peer.inStd, t.events)) =
      some (.disconnected, rep, [.familyChanged .disconnected]) := by decide
theorem test_statusDisc_long :
    answer (.statusDisc [0x00]) peer2 =
      some (.none, [.diag (.frameReject .len 0xF0 2)]) := by decide
theorem test_statusStd :
    (nextOf (exec (.statusStd rep) peer2)).map (fun t => t.peer.inStd) = some rep := by decide
theorem test_statusCockpit :
    (nextOf (exec (.statusCockpit (List.replicate 26 0x07)) peer2)).map
      (fun t => (t.peer.tf, t.peer.inCockpit)) =
      some (.cockpit, List.replicate 26 0x07) := by decide
theorem test_statusReserved :
    answer (.statusReserved 3 []) peer2 =
      some (.none, [.diag (.frameReject .tag 0xF3 1)]) := by decide
theorem test_ping : answer (.ping [0x01, 0x02]) peer2 = some (.none, [.ackPing]) := by decide

/-- V-P9, V-P1, V-P7, V-C1 and V-P12 as classified packets. -/
theorem test_pad :
    (nextOf (exec (.pad h5 ⟨0x1010, 128, 0, 0, 0, 0, 0⟩) wireless)).map
      (fun t => (t.result, (t.dev 0).pad)) =
      some (.isPad true, ⟨0x1010, 128, 0, 0, 0, 0, 0⟩) := by decide
theorem test_presence :
    rec0 id (.presence h5 true) State.reset =
      some { wirelessRec with cpInitPending := true } := by decide
theorem test_presence_full_pool :
    answer (.presence h5 true) full = some (.isPad false, [.diag (.poolFull 5 0)]) := by decide
theorem test_chatpad :
    rec0 (fun r => (r.cpMods, r.cpKeys)) (.chatpad h5 0x01 [0x17, 0x00]) wireless =
      some (0x01, [0x17, 0x00]) := by decide
theorem test_reinit : rec0 (fun r => r.cpInitPending) (.reinit h5) wireless = some true := by decide

/-- A step takes the oldest input, and a word from outside is the next one (P4's ping). -/
theorem test_step_from_withFetchWord :
    (nextOf (step (State.reset.withFetchWord 8 0xAA))).map (fun t => (t.events, t.inputs)) =
      some ([.ackPing], []) := by decide

/-- P3 on the coupled bus: coordinator, and peer 1 with a report to give.  Place 1 holds peer 1. -/
def peer1 : State := { State.reset.afterReset 1 with peer := { resetSlot profileConfig with
  outStd := [0x00, 0x06, 0x11, 0x22, 0x33, 0x44] } }
def busSys (todo : List BusTask) (s p : State) : System :=
  { System.reset with nodes := [⟨s, todo⟩, ⟨p, []⟩, ⟨State.reset.afterReset 2, []⟩], turns := [0, 0] }
def nextSys (o : Host.Outcome System Fault Refusal) : System :=
  match o with
  | .next y => y
  | _ => System.reset
def nodeOf (y : System) (j : Nat) : State := (y.nodes[j]?.map (fun n => n.node)).getD State.reset

/-- Steps 1 of P3: the send reaches the peer whole (R198(a)) and its read is due. -/
theorem test_coupled_send :
    let y := nextSys ((busSys [.send 1] { slot1 with errTape := [0] } peer1).nodeStep 0)
    (nodeOf y 1).peer.tf = .standard ∧ (nodeOf y 1).peer.inStd = rep ∧
      (y.nodes[0]?).map (fun n => n.todo) = some [.read 1 .standard] := by decide

/-- Between the send and the read the peer replaces its own report: the read gets the new one (R73,
R268 "at any point between them"). -/
theorem test_coupled_read_after_peer_operation :
    let p := { peer1 with
      peer := { peer1.peer with tf := .standard }
      inputs := [⟨.port, [0x22, 0x01, 1, 2, 3, 4, 5, 6]⟩] }
    let y := busSys [.read 1 .standard] { slot1 with rxTape := [List.replicate 6 0] } p
    let y1 := nextSys (y.nodeStep 1)
    ((nodeOf (nextSys (y1.nodeStep 0)) 0).slot 1).outStd = [1, 2, 3, 4, 5, 6] := by decide

/-- The address is the identity's (R69): a node reset to 3 answers at 3 and no more at 1; two nodes of
one identity, or two coordinators, contend (R247, I7). -/
theorem test_listener :
    let y := busSys [] slot1
    (y peer1).listener 1 = .one 1 ∧ (y peer1).listener 3 = .nobody ∧
    (y (peer1.afterReset 3)).listener 1 = .nobody ∧ (y (peer1.afterReset 3)).listener 3 = .one 1 ∧
    (y (peer1.afterReset 2)).listener 2 = .contended [1, 2] ∧
    (y (peer1.afterReset 0)).listener 2 = .contended [2] := by decide

/-- A tick writes the four slots in order after the requests (R268). -/
theorem test_tick_order :
    ({ packets := [], hostEvents := [.detach 3], queries := [.readPad 0], requests := [.led 0 2],
       slot0 := ⟨0, []⟩, slot1 := ⟨1, rep⟩, slot2 := ⟨0, []⟩, slot3 := ⟨0, []⟩,
       slotReads := [] } : TickPlan).before =
      [.detach 3, .readPad 0, .setLed 0 2, .slotWrite 0 0 [], .slotWrite 1 1 rep, .slotWrite 2 0 [],
       .slotWrite 3 0 []] := by decide

/-! ### Witnesses: for each obligation with hypotheses, a state and operands that meet them all -/

theorem ready_reset : Ready .coordinator State.reset := ⟨by decide, by decide, by decide⟩
theorem ready_wired : Ready .coordinator wired := ⟨by decide, by decide, by decide⟩
theorem ready_wireless : Ready .coordinator wireless := ⟨by decide, by decide, by decide⟩
theorem ready_full : Ready .coordinator full := ⟨by decide, by decide, by decide⟩
theorem ready_slot1 : Ready .coordinator slot1 := ⟨by decide, by decide, by decide⟩
theorem ready_peer2 : Ready .peer peer2 := ⟨by decide, by decide, by decide⟩

theorem keys_reset : KeysUnique State.reset := keysUnique_of_distinct (by decide)
theorem keys_wired : KeysUnique wired := keysUnique_of_distinct (by decide)
theorem keys_wireless : KeysUnique wireless := keysUnique_of_distinct (by decide)
theorem keys_full : KeysUnique full := keysUnique_of_distinct (by decide)

/-- A node with one input delivered. -/
def deliver (x : Input) (s : State) : State := { s with inputs := [x] }

theorem witness_step_empty : State.reset.inputs = [] := rfl
theorem witness_step_port :
    (deliver ⟨.port, [0x12]⟩ wired).inputs = ⟨.port, [0x12]⟩ :: [] ∧
    decodePort [0x12] = .instr .coordPoll ∧
    (deliver ⟨.port, [0x0D]⟩ wired).inputs = ⟨.port, [0x0D]⟩ :: [] ∧
    decodePort [0x0D] = .reject (.unknownOpcode 0x0D) := by decide
theorem witness_step_bus :
    (deliver ⟨.busFrame, [0xAA]⟩ peer2).inputs = ⟨.busFrame, [0xAA]⟩ :: [] ∧
    decodeFrame [0xAA] = .instr (.ping []) ∧
    (deliver ⟨.busFrame, []⟩ peer2).inputs = ⟨.busFrame, []⟩ :: [] ∧
    decodeFrame [] = .reject .notAFrame ∧
    (deliver ⟨.busResponse 1, [0]⟩ slot1).inputs = ⟨.busResponse 1, [0]⟩ :: [] := by decide
theorem witness_step_upstream :
    let buf := rep
    buf.length ≤ 256 ∧ h1.addr ≠ 0 ∧ wired.cfg.isSupported (wired.familyFor h1) = true ∧
    decodePacket (wired.cfg.layout (wired.familyFor h1)) h1 buf =
      .instr (.pad h1 ⟨0x1000, 0, 0, 0, 0, 0, 0⟩) := by decide
theorem witness_step_upstream_unrecognised :
    256 < (List.replicate 257 (0 : Byte)).length ∧
    (List.replicate 256 (0 : Byte)).length ≤ 256 ∧ (⟨0, 0, .wiredX, 1, 1⟩ : PacketHeader).addr = 0 ∧
    wired.cfg.isSupported (wired.familyFor ⟨7, 0, .keyboard, 1, 1⟩) = false ∧
    classify (wired.cfg.layout (wired.familyFor h1)) (rep.take 19) = none := by
  rw [List.length_replicate, List.length_replicate]
  decide

theorem witness_DecodeOfEncodeIsIdentity :
    (Instr.decode h1 20 rep).wellFormed profileConfig 4 [] = true ∧
    (encode [] (.decode h1 20 rep)).channel = .port ∧
    (Instr.statusReserved 3 []).wellFormed profileConfig 4 [] = true ∧
    (Instr.response 3 []).wellFormed profileConfig 4 [] = true := by decide

theorem witness_AcceptedWordsHaveOneReading :
    decodePort [0x00, 0x03] = .instr (.reset 3) ∧
    decodeFrame [0xF3] = .instr (.statusReserved 3 []) := by decide

/-- A PAD kind with one entry of each form on the canonical bits A and B. -/
def smallPad : PadFields :=
  { buttons := [.bit 1 0x80 btnA, .ana 2 btnB], lt := .byte 3, rt := .u16Shr 4 8,
    lx := 0, ly := 0, rx := 0, ry := 4 }

theorem witness_SyntheticPadReadsBack :
    let ms : List MatchTriple := [⟨0, 0xFF, 0x20⟩]
    let src : Bytes := [0, 0x80, 0x21, 0, 0, 0]
    Kind.wf 2 ⟨6, ms, .pad smallPad⟩ = true ∧ (∀ m ∈ ms, m.val &&& m.mask = m.val) ∧
    (ms.map (fun m => m.off)).Nodup ∧
    (∀ m ∈ ms, ∀ e ∈ smallPad.buttons,
      match e with | .bit off _ _ => m.off ≠ off | .ana off _ => m.off ≠ off) ∧
    (∀ e ∈ smallPad.buttons, ∀ e' ∈ smallPad.buttons,
      (match e with | .bit _ _ m => m | .ana _ m => m) =
        (match e' with | .bit _ _ m => m | .ana _ m => m) → e = e') ∧
    (∀ off m, ButtonEntry.ana off m ∈ smallPad.buttons → ∀ e ∈ smallPad.buttons,
      (match e with | .bit o _ _ => o | .ana o _ => o) = off → e = .ana off m) ∧
    6 ≤ src.length ∧ assembleButtons smallPad.buttons src = btnA ||| btnB := by
  refine ⟨by decide, by decide, by decide, ?_, by decide, ?_, by decide, by decide⟩
  · simp [smallPad]
  · intro off m h
    simp [smallPad] at h ⊢
    simp [h]

theorem witness_ResetGivesResetValues : State.reset.paramsWf = true := by decide

theorem witness_UserViewAfterReset :
    exec (.reset 0) wired = .next (wired.afterReset 0) ∧ (3 : Byte).toNat < (wired.afterReset 0).maxDev ∧
    (3 : Byte).toNat < 4 ∧ (3 : BitVec 2) ≠ 0 ∧
    exec (.reset 3) wired = .next (wired.afterReset 3) := ⟨rfl, by decide, by decide, by decide, rfl⟩

theorem witness_NothingRunsBeforeReset :
    ({ State.reset with booted := false } : State).paramsWf = true ∧
    ({ State.reset with booted := false } : State).booted = false ∧
    (∀ id, Instr.coordPoll ≠ .reset id) := by decide

theorem witness_OtherRoleIsRefused :
    (roleOf .coordPoll = some .coordinator ∧ peer2.paramsWf = true ∧ peer2.booted = true ∧
      peer2.role ≠ .coordinator) ∧
    (roleOf .peerRead = some .peer ∧ wired.paramsWf = true ∧ wired.booted = true ∧
      wired.role ≠ .peer) := by decide

theorem witness_OutOfRangeOperandsAreRefused :
    Ready .coordinator State.reset ∧ State.reset.maxDev = (4 : Byte).toNat ∧
    4 ≤ (4 : Byte).toNat ∧ (0 : Byte).toNat = 0 ∧ 3 < (4 : Byte).toNat ∧ 2 < (3 : BitVec 4).toNat ∧
    ([] : Bytes).length ≠ State.reset.cfg.inLen .standard ∧
    ([0] : Bytes).length ≠ (0 : BitVec 9).toNat ∧
    (List.replicate 257 (0 : Byte)).length = (257 : BitVec 9).toNat ∧ 256 < (257 : BitVec 9).toNat ∧
    Ready .peer peer2 ∧ ([] : Bytes).length ≠ peer2.cfg.outLen .disconnected ∧
    ([] : Bytes).length ≠ (1 : Byte).toNat + 256 * (0 : Byte).toNat := by
  rw [List.length_replicate]
  exact ⟨ready_reset, by decide, by decide, by decide, by decide, by decide, by decide, by decide,
    by decide, by decide, ready_peer2, by decide, by decide⟩

/-- Each clause of R131: address 0, unsupported, presence-driven; a live key; the pool full; a free
slot, the lowest. -/
theorem witness_AttachFollowsItsRule :
    (Ready .coordinator wired ∧ KeysUnique wired) ∧ wired.cfg.isSupported .keyboard = false ∧
    wired.cfg.isPresenceDriven .wirelessX = true ∧ wired.cfg.isSupported .wiredX = true ∧
    wired.cfg.isPresenceDriven .wiredX = false ∧ (wired.dev 0).hasKey 1 0 = true ∧
    (∀ i, i < wired.maxDev → (wired.dev i).hasKey 6 0 = false) ∧ (wired.dev 1).live = false ∧
    (∀ j, j < 1 → (wired.dev j).live = true) := by
  refine ⟨⟨ready_wired, keys_wired⟩, ?_⟩
  decide
theorem witness_AttachFollowsItsRule_full :
    (Ready .coordinator full ∧ KeysUnique full) ∧ full.cfg.isSupported .wiredX = true ∧
    (∀ i, i < full.maxDev → (full.dev i).hasKey 6 0 = false) ∧
    (∀ i, i < full.maxDev → (full.dev i).live = true) := by
  refine ⟨⟨ready_full, keys_full⟩, ?_⟩
  decide

theorem witness_DetachFreesEveryRecordOfItsAddress :
    Ready .coordinator full ∧ (4 : Byte) ≠ 0 ∧ 3 < full.maxDev ∧ (full.dev 3).live = true ∧
    (full.dev 3).addr = 4 := by
  refine ⟨ready_full, ?_⟩
  decide

/-- Each way a packet is no new data (V-D6, V-D14, V-D15, V-D5, V-D13). -/
theorem witness_UnrecognisedPacketsChangeNothing :
    Ready .coordinator wired ∧
    ((List.replicate 257 (0 : Byte)).length = (257 : BitVec 9).toNat ∧ 256 < (257 : BitVec 9).toNat) ∧
    rep.length = (20 : BitVec 9).toNat ∧ (⟨0, 0, .wiredX, 1, 1⟩ : PacketHeader).addr = 0 ∧
    wired.cfg.isSupported (wired.familyFor ⟨7, 0, .keyboard, 1, 1⟩) = false ∧
    classify (wired.cfg.layout (wired.familyFor h1)) (0x00 :: 0x13 :: rep.drop 2) = none ∧
    (∃ k, classify (wired.cfg.layout (wired.familyFor ⟨9, 0, .wiredX, 1, 1⟩)) rep = some k ∧
      k.body.isPresence = false ∧ ∀ i, i < wired.maxDev → (wired.dev i).hasKey 9 0 = false) := by
  rw [List.length_replicate]
  refine ⟨ready_wired, by decide, by decide, by decide, by decide, by decide, gkWired.head!, ?_⟩
  decide

theorem witness_PadPacketOverwritesThePadState :
    Ready .coordinator wired ∧ KeysUnique wired ∧
    (∃ n ms f, rep.length = (20 : BitVec 9).toNat ∧ (20 : BitVec 9).toNat ≤ 256 ∧
      (256 : BitVec 9).toNat ≤ 256 ∧ 0 < wired.maxDev ∧ (wired.dev 0).hasKey h1.addr h1.chan = true ∧
      h1.addr ≠ 0 ∧ wired.cfg.isSupported (wired.dev 0).fam = true ∧
      classify (wired.cfg.layout (wired.dev 0).fam) rep =
        some ⟨n, ms, .pad f⟩) := by
  refine ⟨ready_wired, keys_wired, 20, [⟨0, 0xFF, 0x00⟩, ⟨1, 0xFF, 0x14⟩],
    { buttons := gkByte2 2 ++ gkByte3 3, lt := .byte 4, rt := .byte 5, lx := 6, ly := 8, rx := 10,
      ry := 12 }, ?_⟩
  decide

theorem witness_SixteenBitFieldsAreLittleEndian :
    ([0x00, 0x80] : Bytes)[0]? = some 0x00 ∧ ([0x00, 0x80] : Bytes)[0 + 1]? = some 0x80 := by decide

/-- The PAD of V-P9 and the REINIT of V-P12. -/
def pad9 : Bytes := [0x00, 0x01, 0x00, 0xF0, 0x00, 0x00, 0x10, 0x10, 0x80] ++ List.replicate 9 0
def reinit12 : Bytes := [0x00, 0x02] ++ List.replicate 22 0 ++ [0xF0, 0x00, 0x00, 0x00]

/-- A buffer of each of the four kinds of the wireless layout (V-P1, V-C1, V-P9, V-P12). -/
theorem witness_DecodeIsItsPacketKind :
    Ready .coordinator wireless ∧ h5.addr ≠ 0 ∧
    wireless.cfg.isSupported (wireless.familyFor h5) = true ∧
    (∀ x ∈ [(([0x08, 0x80] : Bytes), (2 : BitVec 9)), (cp 0x01 0x17 0x00, 28), (pad9, 18),
        (reinit12, 28)], x.1.length = x.2.toNat ∧ x.2.toNat ≤ 256) ∧
    (∃ n ms, classify (wireless.cfg.layout (wireless.familyFor h5)) [0x08, 0x80] =
      some ⟨n, ms, .presence 1 0x80⟩) ∧
    (∃ n ms, classify (wireless.cfg.layout (wireless.familyFor h5)) (cp 0x01 0x17 0x00) =
      some ⟨n, ms, .chatpad 25 [26, 27]⟩) ∧
    (∃ n ms f, classify (wireless.cfg.layout (wireless.familyFor h5)) pad9 =
      some ⟨n, ms, .pad f⟩) ∧
    ∃ n ms, classify (wireless.cfg.layout (wireless.familyFor h5)) reinit12 =
      some ⟨n, ms, .reinit⟩ :=
  ⟨ready_wireless, by decide, by decide, by decide, ⟨_, _, rfl⟩, ⟨_, _, rfl⟩, ⟨_, _, _, rfl⟩, _, _,
    rfl⟩

/-- Present and absent, with a record and without one. -/
theorem witness_PresenceAllocatesAndFrees :
    (Ready .coordinator wireless ∧ KeysUnique wireless ∧ h5.addr ≠ 0 ∧
      wireless.cfg.isSupported (wireless.familyFor h5) = true ∧
      hasKind (wireless.cfg.layout (wireless.familyFor h5)) (.presence false) = true ∧
      0 < wireless.maxDev ∧ (wireless.dev 0).hasKey h5.addr h5.chan = true) ∧
    (Ready .coordinator State.reset ∧ KeysUnique State.reset ∧
      State.reset.cfg.isSupported (State.reset.familyFor h5) = true ∧
      hasKind (State.reset.cfg.layout (State.reset.familyFor h5)) (.presence true) = true ∧
      (∀ i, i < State.reset.maxDev → (State.reset.dev i).hasKey h5.addr h5.chan = false) ∧
      (State.reset.dev 0).live = false) ∧
    (Ready .coordinator full ∧ KeysUnique full ∧
      full.cfg.isSupported (full.familyFor h5) = true ∧
      hasKind (full.cfg.layout (full.familyFor h5)) (.presence true) = true ∧
      (∀ i, i < full.maxDev → (full.dev i).hasKey h5.addr h5.chan = false) ∧
      (∀ i, i < full.maxDev → (full.dev i).live = true)) := by
  refine ⟨⟨ready_wireless, keys_wireless, ?_⟩, ⟨ready_reset, keys_reset, ?_⟩,
    ready_full, keys_full, ?_⟩ <;> decide

theorem witness_PacketKindsWriteTheirFields :
    Ready .coordinator wireless ∧ KeysUnique wireless ∧ h5.addr ≠ 0 ∧ 0 < wireless.maxDev ∧
    (wireless.dev 0).hasKey h5.addr h5.chan = true ∧
    wireless.cfg.isSupported (wireless.dev 0).fam = true ∧
    hasKind (wireless.cfg.layout (wireless.dev 0).fam) (.pad zeroPad) = true ∧
    hasKind (wireless.cfg.layout (wireless.dev 0).fam) (.chatpad 0 [0, 0]) = true ∧
    hasKind (wireless.cfg.layout (wireless.dev 0).fam) .reinit = true := by
  refine ⟨ready_wireless, keys_wireless, ?_⟩
  decide

theorem witness_PacketsOfFreedKeysAreDropped :
    Ready .coordinator State.reset ∧
    ∀ i, i < State.reset.maxDev → (State.reset.dev i).hasKey h5.addr h5.chan = false :=
  ⟨ready_reset, by decide⟩

/-- The last slot of the pool: the hypotheses of READ_PAD, BUTTON_EDGE, COMMIT_EDGES, IS_DOWN,
WAS_PRESSED, the SET operations and FEEDBACK_TICK. -/
theorem witness_slot_operand :
    Ready .coordinator full ∧ (3 : Byte).toNat < full.maxDev ∧ (full.dev 3).fam ≠ .unknown ∧
    Ready .coordinator wired ∧ (3 : Byte).toNat < wired.maxDev ∧ (wired.dev 3).fam = .unknown := by
  refine ⟨ready_full, by decide, by decide, ready_wired, ?_⟩
  decide

/-- A modifier code, an ordinary code and code 0 on a live record. -/
theorem witness_IsDownTestsModifiersAndKeys :
    Ready .coordinator (withRec chatRec) ∧ (0 : Byte).toNat < (withRec chatRec).maxDev ∧
    ((withRec chatRec).dev 0).fam ≠ .unknown ∧
    (0xE4 : Byte) = ((withRec chatRec).cfg.mods.entry .capslock).code ∧
    (∀ m ∈ [Modifier.shift, .green, .orange, .messenger, .capslock],
      (0x17 : Byte) ≠ ((withRec chatRec).cfg.mods.entry m).code) := by
  refine ⟨⟨by decide, by decide, by decide⟩, ?_⟩
  decide

/-- Each claim of R153: the first, the second and the third free entry, and none. -/
theorem witness_WasPressedExpiresThenClaims :
    let r := fun h : Hist => { chatRec with cpMods := 0x0F, cpHist := h }
    (∀ h ∈ [(⟨0, 0, 0⟩ : Hist), ⟨0xE0, 0, 0⟩, ⟨0xE0, 0xE1, 0⟩, ⟨0xE0, 0xE1, 0xE2⟩],
      ((r h).isDown profileConfig 0x17 = true ∧ (r h).cpHist.holds 0x17 = false ∧
        (r h).cpHist.expire ((r h).isDown profileConfig) = h)) ∧
    (r ⟨0x18, 0, 0⟩).isDown profileConfig 0x18 = false := by decide

/-- V-Q6: 0x17 is reported, a packet keeps it down, and it, another code and another slot are queried. -/
theorem witness_HeldKeyIsReportedOnce :
    ∃ t u, Ready .coordinator (withRec chatRec) ∧ KeysUnique (withRec chatRec) ∧
      (0 : Byte).toNat < (withRec chatRec).maxDev ∧
      exec (.wasPressed 0 0x17) (withRec chatRec) = .next t ∧ t.result = .bit true ∧
      ((withRec chatRec).dev 0).hasKey h5.addr h5.chan = true ∧
      ({ (withRec chatRec).dev 0 with cpMods := 0, cpKeys := [0, 0x17] } : DeviceRecord).isDown
        (withRec chatRec).cfg 0x17 = true ∧
      runInstrs [.chatpad h5 0 [0, 0x17], .wasPressed 0 0xE0, .wasPressed 3 0x17,
        .wasPressed 0 0x17] t = .next u :=
  ⟨_, _, ⟨by decide, by decide, by decide⟩, keysUnique_of_distinct (by decide), by decide, rfl, rfl,
    by decide, by decide, rfl⟩

/-- V-Q7 and V-Q8. -/
theorem witness_RepressedKeyIsReportedAgain :
    let s := withRec { chatRec with cpHist := ⟨0x17, 0, 0⟩ }
    Ready .coordinator s ∧ KeysUnique s ∧ (0 : Byte).toNat < s.maxDev ∧ h5.addr ≠ 0 ∧
    (s.dev 0).hasKey h5.addr h5.chan = true ∧ s.cfg.isSupported (s.dev 0).fam = true ∧
    hasKind (s.cfg.layout (s.dev 0).fam) (.chatpad 0 [0, 0]) = true ∧
    (s.dev 0).cpHist.holds 0x17 = true ∧ (0x17 : Byte) ≠ 0 ∧
    ({ s.dev 0 with cpMods := 0, cpKeys := [0, 0] } : DeviceRecord).isDown s.cfg 0x17 = false ∧
    ({ s.dev 0 with cpMods := 0, cpKeys := [0x17, 0] } : DeviceRecord).isDown s.cfg 0x17 = true := by
  refine ⟨⟨by decide, by decide, by decide⟩, keysUnique_of_distinct (by decide), ?_⟩
  decide

/-- Both clauses of R170: every transfer succeeds, and the second of two fails. -/
theorem witness_SendStopsAtTheFirstFailure :
    let cmds : List ((Family × Cmd) × List Bytes) := [((.wirelessX, .keepalive), [[1], [2]])]
    let s := fun up => scripted wirelessRec cmds up
    ((s [.transferred 1, .transferred 0]).upTape = [.transferred 1, .transferred 0] ++ [] ∧
      ([.transferred 1, .transferred 0] : List TransferResult).length =
        ((s []).cfg.cmd .wirelessX .keepalive).length ∧
      ∀ o ∈ [TransferResult.transferred 1, .transferred 0], o ≠ .error) ∧
    ((s [.transferred 1, .error]).upTape = [.transferred 1] ++ .error :: [] ∧
      ([.transferred 1] : List TransferResult).length <
        ((s []).cfg.cmd .wirelessX .keepalive).length) := by decide

/-- A free slot; a live one in sync one millisecond before each limit, held and not held. -/
theorem witness_IdleTickMovesOnlyTheHoldTimer :
    let held := { wirelessRec with pad := { zeroPad with buttons := 0x0400 }, tPowerHold := 4000,
                                   tPeriodic := 4001 }
    let caps := profileConfig.capsOf .wirelessX
    (wired.dev 3).fam = .unknown ∧ held.fam ≠ .unknown ∧ ¬ held.rumReq ≠ held.rumAct ∧
    ¬ held.ledReq ≠ held.ledAct ∧ ¬ held.cpInitPending = true ∧ ¬ held.cpLedReq ≠ held.cpLedAct ∧
    (caps.powerOff = true ∧ held.pad.buttons &&& profileConfig.powerMask ≠ 0) ∧
    ¬ 1000 < ((5000 : BitVec 32) - held.tPowerHold).toNat ∧
    ¬ 1000 ≤ ((5000 : BitVec 32) - held.tPeriodic).toNat ∧
    ¬ wirelessRec.pad.buttons &&& profileConfig.powerMask ≠ 0 ∧
    ¬ 1000 ≤ ((999 : BitVec 32) - wirelessRec.tPeriodic).toNat := by decide

/-- Each success-gated branch is due in some record of a family with all six capabilities. -/
theorem witness_SuccessGatedBranches :
    let caps := profileConfig.capsOf .wirelessX
    caps.rumble = true ∧ caps.led = true ∧ caps.cpInit = true ∧
    (⟨0x80, 0x40⟩ : Rumble) ≠ wirelessRec.rumAct ∧ ¬ wirelessRec.rumReq ≠ wirelessRec.rumAct ∧
    (2 : Byte) ≠ wirelessRec.ledAct ∧ ¬ wirelessRec.ledReq ≠ wirelessRec.ledAct ∧
    ({ wirelessRec with cpInitPending := true } : DeviceRecord).cpInitPending = true ∧
    Ready .coordinator (withRec { wirelessRec with rumReq := ⟨0x80, 0x40⟩ }) ∧
    Ready .coordinator (withRec { wirelessRec with ledReq := 2 }) ∧
    Ready .coordinator (withRec { wirelessRec with cpInitPending := true }) := by
  refine ⟨by decide, by decide, by decide, by decide, by decide, by decide, by decide, rfl,
    ⟨by decide, by decide, by decide⟩, ⟨by decide, by decide, by decide⟩,
    by decide, by decide, by decide⟩

/-- Each timed branch at its limit: power-off at 1001 and not at 1000, keepalive at 1000, and at a
wrapped elapsed time of 1000 (V-F17). -/
theorem witness_TimedBranches :
    let caps := profileConfig.capsOf .wirelessX
    let held := { wirelessRec with pad := { zeroPad with buttons := 0x0400 }, tPowerHold := 4000 }
    Ready .coordinator (withRec held) ∧ caps.powerOff = true ∧ caps.keepalive = true ∧
    held.pad.buttons &&& profileConfig.powerMask ≠ 0 ∧
    1000 < ((5001 : BitVec 32) - held.tPowerHold).toNat ∧
    ((5000 : BitVec 32) - held.tPowerHold).toNat ≤ 1000 ∧
    1000 ≤ ((5000 : BitVec 32) - held.tPeriodic).toNat ∧
    ¬ wirelessRec.pad.buttons &&& profileConfig.powerMask ≠ 0 ∧
    1000 ≤ ((0 : BitVec 32) - 0xFFFFFC18).toNat := by
  refine ⟨⟨by decide, by decide, by decide⟩, ?_⟩
  decide

/-- V-F14 with a scripted answer for each of the two commands. -/
theorem witness_ChatpadLedBranchSyncsEveryBit :
    let s := scripted { wirelessRec with cpLedReq := 0x05 }
      [((.wirelessX, .cpLed 0 true), [[1]]), ((.wirelessX, .cpLed 2 true), [[2]])]
      [.transferred 1, .transferred 1]
    let r := s.dev 0
    let sent := (((List.range 8).filter
      (fun b => r.cpLedReq.getLsbD b != r.cpLedAct.getLsbD b)).map
        (fun b => s.cfg.cmd r.fam (.cpLed b (r.cpLedReq.getLsbD b)))).flatten
    Ready .coordinator s ∧ (0 : Byte).toNat < s.maxDev ∧ r.fam ≠ .unknown ∧
    (s.cfg.capsOf r.fam).cpLed = true ∧ r.cpLedReq ≠ r.cpLedAct ∧
    s.upTape = [.transferred 1, .transferred 1] ++ [] ∧
    ([.transferred 1, .transferred 1] : List TransferResult).length = sent.length := by
  refine ⟨⟨by decide, by decide, by decide⟩, ?_⟩
  decide

/-- Two differing bits, the lower one's send scripted to fail and the higher one's to succeed: the
higher one is sent all the same, and it alone follows (the shape of V-F15). -/
theorem witness_ChatpadLedBitsChangeOneByOne :
    let s := scripted { wirelessRec with cpLedReq := 0x05 }
      [((.wirelessX, .cpLed 0 true), [[1]]), ((.wirelessX, .cpLed 2 true), [[2]])]
      [.error, .transferred 1]
    let r := s.dev 0
    (0 : Byte).toNat < s.maxDev ∧ r.fam ≠ .unknown ∧ ¬ r.rumReq ≠ r.rumAct ∧
    ¬ r.ledReq ≠ r.ledAct ∧ ¬ r.cpInitPending = true ∧ (s.cfg.capsOf r.fam).cpLed = true ∧
    r.cpLedReq ≠ r.cpLedAct ∧
    (nextOf (exec (.feedbackTick 0 4) s)).map (fun t => ((t.dev 0).cpLedAct, t.events)) =
      some (0x04, [.uptx 5 1 [1], .diag (.uptxFail 0 .cpLed), .uptx 5 1 [2]]) := by decide

/-- A tick that answers a next state. -/
theorem witness_tick_completes :
    ∃ t, (0 : Byte).toNat < wired.maxDev ∧ exec (.feedbackTick 0 4) wired = .next t :=
  ⟨_, by decide, rfl⟩

/-- Four ticks on a record with a rumble and an LED request, every send scripted to succeed. -/
theorem witness_FeedbackConvergesInFourTicks :
    let s := scripted { wiredRec with rumReq := ⟨1, 2⟩, ledReq := 2 }
      [((.wiredX, .rumble 1 2), [[1]]), ((.wiredX, .led 2), [[2]])]
      [.transferred 1, .transferred 1]
    (s.dev 0).fam ≠ .unknown ∧
    ∃ t, runInstrs [.feedbackTick 0 0, .feedbackTick 0 4, .feedbackTick 0 8, .feedbackTick 0 12] s
      = .next t ∧ t.events.drop s.events.length = [.uptx 1 1 [1], .uptx 1 1 [2]] :=
  ⟨by decide, _, rfl, rfl⟩

/-- A poll whose first send fails: peers 2 and 3 get the first and the second scripted string, and the
third string is left (the shape of V-T6). -/
theorem witness_PollServesEveryPeer :
    let s := { slot1 with
      slots := { slot1.slots with p2 := slot1.slot 1, p3 := slot1.slot 1 }
      errTape := [4, 0, 0], rxTape := [[0xA0], [0xB0, 0xB1], [0xC0]] }
    Ready .coordinator s ∧ Memory.wf s = true ∧
    (nextOf (exec .coordPoll s)).map (fun t => ([(t.slot 1).outStd, (t.slot 2).outStd,
      (t.slot 3).outStd], t.errTape, t.rxTape)) =
      some ([[1, 2, 3, 4, 5, 6], [0xA0, 2, 3, 4, 5, 6], [0xB0, 0xB1, 3, 4, 5, 6]], [], [[0xC0]]) :=
  ⟨⟨by decide, by decide, by decide⟩, by decide, by decide⟩

theorem witness_PollIsBounded :
    (∃ t, exec .coordPoll slot1 = .next t) ∧ Memory.wf peer2 = true ∧
    ∃ t, exec .peerRequest peer2 = .next t := by
  exact ⟨⟨_, accept_ready ready_slot1 coordPollOp⟩, by decide, _, rfl⟩

/-- The first and the last peer index (COORD_PING and RESPONSE). -/
theorem witness_peer_operand :
    Ready .coordinator slot1 ∧ Memory.wf slot1 = true ∧ 1 ≤ (1 : Byte).toNat ∧
    (3 : Byte).toNat ≤ 3 ∧ (slot1.slot 1).tf ≠ .disconnected ∧ (slot1.slot 3).tf = .disconnected :=
  ⟨ready_slot1, by decide, by decide, by decide, by decide, by decide⟩

/-- The last player, each family, with a report of its length. -/
theorem witness_SlotWriteSetsFamilyAndReport :
    Ready .coordinator State.reset ∧ (3 : Byte).toNat < 4 ∧
    ([] : Bytes).length = State.reset.cfg.inLen .disconnected ∧
    rep.length = State.reset.cfg.inLen .standard ∧
    (List.replicate 26 (0 : Byte)).length = State.reset.cfg.inLen .cockpit :=
  ⟨ready_reset, by decide, by decide, by decide, by decide⟩

/-- Each kind of transaction at its boundary: an exact and a short report, and first bytes just
outside the status range. -/
theorem witness_PeerReceiveFollowsItsRule :
    Ready .peer peer2 ∧ rep.length = peer2.cfg.inLen .standard ∧
    ([0] : Bytes).length ≠ peer2.cfg.inLen .disconnected ∧
    ((0xEF : Byte) ≠ 0xAA ∧ ¬ (0xF0 ≤ (0xEF : Byte).toNat ∧ (0xEF : Byte).toNat ≤ 0xF2)) ∧
    ((0xF3 : Byte) ≠ 0xAA ∧ ¬ (0xF0 ≤ (0xF3 : Byte).toNat ∧ (0xF3 : Byte).toNat ≤ 0xF2)) := by
  refine ⟨ready_peer2, ?_⟩
  decide

theorem witness_BusFramesComplete :
    Ready .peer peer2 ∧ ([] : Bytes).length = peer2.cfg.inLen .disconnected ∧
    rep.length = peer2.cfg.inLen .standard ∧ rep.length ≠ peer2.cfg.inLen .cockpit ∧
    3 ≤ (3 : BitVec 4).toNat := by
  refine ⟨ready_peer2, ?_⟩
  decide

theorem witness_PeerRequest_PeerRead :
    let s := { peer2 with peer := { resetSlot profileConfig with tf := .cockpit } }
    (Ready .peer peer2 ∧ Memory.wf peer2 = true ∧ peer2.peer.tf = .disconnected) ∧
    Ready .peer s ∧ Memory.wf s = true ∧ s.peer.tf = .cockpit :=
  ⟨⟨ready_peer2, by decide, by decide⟩, ⟨by decide, by decide, by decide⟩, by decide, by decide⟩

theorem witness_PeerSetOutReplacesOneReport :
    Ready .peer peer2 ∧ (List.replicate 6 (0 : Byte)).length = peer2.cfg.outLen .standard ∧
    (List.replicate 22 (0 : Byte)).length = peer2.cfg.outLen .cockpit :=
  ⟨ready_peer2, by decide, by decide⟩

theorem witness_FamilyChangedIffTheFamilyChanged :
    (∀ id, Instr.statusStd rep ≠ .reset id) ∧
    exec (.statusStd rep) peer2 = .next (acceptStatus .standard rep peer2) :=
  ⟨by decide, accept_ready ready_peer2 _⟩

theorem witness_DiscardedFramesLeaveNoTrace :
    ∃ t u v, exec (.peerReceive [0xF2, 0x00]) peer2 = .next t ∧
      t.events = peer2.events ++ [.diag (.frameReject .len 0xF2 2)] ∧
      exec (.peerReceive (0xF1 :: rep)) peer2 = .next u ∧
      exec (.peerReceive (0xF1 :: rep)) t = .next v :=
  ⟨_, _, _, rfl, rfl, rfl, rfl⟩

/-- The coordinator of P3 about to poll, and with each of the two transactions due. -/
def poller : State := { slot1 with inputs := [⟨.port, [0x12]⟩], errTape := [0, 1, 1],
                                   rxTape := [List.replicate 6 0] }

theorem ready_poller : Ready .coordinator poller := ⟨by decide, by decide, by decide⟩

theorem witness_CoupledPollExchangesReports :
    (∀ todo, (busSys todo poller peer1).nodes[0]? = some ⟨poller, todo⟩) ∧
    Ready .coordinator poller ∧ Memory.wf poller = true ∧
    (busSys [] poller peer1).nodes[1]? = some ⟨peer1, []⟩ ∧ Memory.wf peer1 = true ∧
    (busSys [] poller peer1).listener 1 = .one 1 ∧
    (busSys [.send 1] poller peer1).listener 1 = .one 1 ∧
    (busSys [.read 1 .standard] poller { peer1 with peer := { peer1.peer with tf := .standard } }
      ).listener 1 = .one 1 ∧
    peer1.cfg = poller.cfg ∧ (poller.slot 1).tf = .standard ∧ poller.errTape = 0 :: [1, 1] ∧
    poller.rxTape = List.replicate 6 0 :: [] ∧
    poller.cfg.outLenStd ≤ (List.replicate 6 (0 : Byte)).length ∧
    poller.inputs = ⟨.port, [0x12]⟩ :: [] :=
  ⟨fun _ => rfl, ready_poller, by decide, rfl, by decide, by decide, by decide, by decide,
    by decide, by decide, by decide, by decide, by decide, by decide⟩

/-- Peer 1 was STANDARD and its slot is DISCONNECTED: at the first and in the whole poll. -/
theorem witness_DisconnectReachesThePeer :
    let p := { peer1 with peer := { peer1.peer with tf := .standard } }
    let c := { State.reset with inputs := [⟨.port, [0x12]⟩], errTape := [0, 1, 1] }
    Ready .coordinator c ∧ (1 : Fin 4) ≠ 0 ∧ (busSys [] c p).nodes[1]? = some ⟨p, []⟩ ∧
    (busSys [] c p).listener (1 : Fin 4).val = .one 1 ∧
    (busSys [.send 1] c p).listener (1 : Fin 4).val = .one 1 ∧
    (c.slot 1).tf = .disconnected ∧ c.errTape = 0 :: 1 :: 1 :: [] ∧
    (![0, 0, 1, 1] : Fin 4 → Byte) 1 = 0 :=
  ⟨⟨by decide, by decide, by decide⟩, by decide, rfl, by decide, by decide, by decide, by decide,
    by decide⟩

/-- A poll all of whose sends fail is over after four steps. -/
theorem witness_CoupledPollRefinesFreePoll :
    let c := { poller with errTape := [1, 1, 1] }
    let y := { busSys [] c peer1 with turns := [0, 0, 0, 0], partialTape := [none, none, none] }
    ∃ y' n', y.nodes[0]? = some ⟨c, []⟩ ∧ c.inputs = ⟨.port, [0x12]⟩ :: [] ∧
      y.steps 4 = .next y' ∧ y'.nodes[0]? = some n' ∧ n'.todo = [] ∧ n'.node.inputs = [] :=
  ⟨_, _, rfl, rfl, rfl, rfl, rfl, rfl⟩

/-- Each kind of listener. -/
theorem witness_listeners :
    (busSys [] slot1 peer1).listener 1 = .one 1 ∧ (busSys [] slot1 peer1).listener 3 = .nobody ∧
    (busSys [] slot1 (peer1.afterReset 2)).listener 2 = .contended [1, 2] := by decide

/-- A read shorter and a read longer than the response. -/
theorem witness_CoupledReadAgreesWithResponse :
    0 < ([7] : Bytes).length ∧ 0 < ([1, 2] : Bytes).length ∧ 1 < ([7, 8] : Bytes).length ∧
    ([1] : Bytes).length ≤ 1 := by decide

/-- A state with a live record meets the invariant, and its step answers a next state. -/
theorem witness_EveryStepKeepsTheInvariant :
    Inv (deliver ⟨.port, [0x09, 0x00, 0x80, 0x40]⟩ wired) ∧
    ∃ t, step (deliver ⟨.port, [0x09, 0x00, 0x80, 0x40]⟩ wired) = .next t := by
  have hr : ∀ i, i < wired.maxDev → RecordOk wired.cfg (wired.dev i) := by
    intro i hi
    have : i = 0 ∨ i = 1 ∨ i = 2 ∨ i = 3 := by
      have : wired.maxDev = 4 := by decide
      omega
    rcases this with rfl | rfl | rfl | rfl <;>
      exact ⟨by decide, by decide, by decide, by decide, by decide, by decide, by decide⟩
  exact ⟨⟨by decide, hr, keysUnique_of_distinct (by decide), by decide⟩, _, rfl⟩

/-- A system of two nodes that meets the invariant, the coordinator with a send due, and a step of it
that answers a next system. -/
theorem witness_EveryStepKeepsTheInvariant_system :
    let y : System := { System.reset with
      nodes := [⟨State.reset, [.send 1]⟩, ⟨State.reset.afterReset 1, []⟩], turns := [0] }
    y.Inv ∧ ∃ y', y.step = .next y' := by
  have hr : ∀ i, i < State.reset.maxDev → RecordOk profileConfig (State.reset.dev i) := by
    intro i hi
    have : i = 0 ∨ i = 1 ∨ i = 2 ∨ i = 3 := by
      have : State.reset.maxDev = 4 := by decide
      omega
    rcases this with rfl | rfl | rfl | rfl <;>
      exact ⟨by decide, by decide, by decide, by decide, by decide, by decide, by decide⟩
  refine ⟨⟨by decide, fun n hn => ?_⟩, _, rfl⟩
  simp only [List.mem_cons, List.not_mem_nil, or_false] at hn
  rcases hn with rfl | rfl
  · exact ⟨by decide, hr, keysUnique_of_distinct (by decide), by decide⟩
  · exact ⟨by decide, hr, keysUnique_of_distinct (by decide), by decide⟩

/-- One operation of each role, and of RESET, that completes: the hypotheses of the rules over every
instruction. -/
theorem witness_exec_completes :
    (∃ t, exec (.setLed 0 2) wired = .next t ∧ roleOf (.setLed 0 2) = some .coordinator ∧
      0 < wired.maxDev ∧ (wired.dev 0).live = true ∧ (t.dev 0).live = true) ∧
    (∃ t, exec (.statusStd rep) peer2 = .next t ∧ roleOf (.statusStd rep) = some .peer) ∧
    ∃ t, exec (.reset 1) wired = .next t :=
  ⟨⟨_, rfl, rfl, by decide, by decide, by decide⟩, ⟨_, rfl, rfl⟩, _, rfl⟩

theorem witness_CommitAllCommitsEveryLiveSlot : Ready .coordinator full := ready_full

end Sys2Proof.Tests
end

section
/-!
SUPPORT. The packets an input can carry (spec/30_encoding.md rules R85, R86, R90): an instruction that
is read from an input carries a packet the layout assembles, whose buttons leave the reserved bit 11
clear (R29) and whose key codes are `CP_KEYS` in number.
-/

namespace Sys2Proof

/-! ### The reserved button bit (R29, R86) -/

/-- A single bit is a power of two. -/
theorem singleBit_toNat {w : Nat} {b : BitVec w} (h : singleBit b = true) :
    ∃ k, b.toNat = 2 ^ k := by
  simp only [singleBit, Bool.and_eq_true, bne_iff_ne, beq_iff_eq] at h
  obtain ⟨hne, hand⟩ := h
  have hpos : b.toNat ≠ 0 := fun h0 => hne (BitVec.eq_of_toNat_eq h0)
  have hle : (1 : BitVec w) ≤ b := by
    rw [BitVec.le_def]
    exact (Nat.mod_le _ _).trans (Nat.one_le_iff_ne_zero.2 hpos)
  have hone : (1 : BitVec w).toNat = 1 := by
    cases w with
    | zero => exact absurd (Subsingleton.elim b 0) hne
    | succ n => simp
  have hsub : b.toNat &&& (b.toNat - 1) = 0 := by
    have := congrArg BitVec.toNat hand
    rwa [BitVec.toNat_and, BitVec.toNat_sub_of_le hle, hone] at this
  exact (Nat.and_sub_one_eq_zero_iff_isPowerOfTwo hpos).1 hsub

/-- A canonical bit is never the reserved one. -/
theorem getLsbD_of_canonicalBit {m : BitVec 16} (h : canonicalBit m = true) :
    m.getLsbD 11 = false := by
  simp only [canonicalBit, Bool.and_eq_true, bne_iff_ne] at h
  obtain ⟨k, hk⟩ := singleBit_toNat h.1
  have hne : k ≠ 11 := fun h11 => h.2 (BitVec.eq_of_toNat_eq (by rw [hk, h11]; rfl))
  rw [BitVec.getLsbD, hk, Nat.testBit_two_pow, decide_eq_false hne]

theorem getLsbD_ite_canonicalBit {m : BitVec 16} (h : canonicalBit m = true) (p : Prop)
    [Decidable p] : (if p then m else 0).getLsbD 11 = false := by
  split
  · exact getLsbD_of_canonicalBit h
  · exact BitVec.getLsbD_zero

/-- A well-formed button entry leaves the reserved bit clear. -/
theorem ButtonEntry.getLsbD_bits {n : Nat} {e : ButtonEntry} (h : e.wf n = true) (buf : Bytes) :
    (e.bits buf).getLsbD 11 = false := by
  cases e with
  | bit off b m => exact getLsbD_ite_canonicalBit (Bool.and_eq_true_iff.1 h).2 _
  | ana off m => exact getLsbD_ite_canonicalBit (Bool.and_eq_true_iff.1 h).2 _

/-- The union of well-formed entries leaves the reserved bit clear. -/
theorem getLsbD_assembleButtons {n : Nat} {es : List ButtonEntry}
    (h : es.all (ButtonEntry.wf n) = true) (buf : Bytes) :
    (assembleButtons es buf).getLsbD 11 = false := by
  have hfold : ∀ (es : List ButtonEntry) (acc : BitVec 16), (∀ e ∈ es, e.wf n = true) →
      acc.getLsbD 11 = false →
      (es.foldl (fun acc e => acc ||| e.bits buf) acc).getLsbD 11 = false := by
    intro es
    induction es with
    | nil => exact fun _ _ hacc => hacc
    | cons e es ih =>
      intro acc hes hacc
      refine ih _ (fun e' he' => hes e' (List.mem_cons_of_mem _ he')) ?_
      rw [BitVec.getLsbD_or, hacc, ButtonEntry.getLsbD_bits (hes e (by simp)) buf]
      rfl
  exact hfold es 0 (List.all_eq_true.1 h) rfl

/-! ### Packets the layout can assemble -/

/-- What the invariant asks of a packet's fields: bit 11 clear (R29), `CP_KEYS` key codes (R33). -/
def Packet.Fits (c : Config) : Packet → Prop
  | .pad p => p.buttons.getLsbD 11 = false
  | .chatpad _ ks => ks.length = c.cpKeys
  | .presence _ | .reinit => True

/-- A well-formed kind assembles packets that fit (R86, R90). -/
theorem Kind.read_fits {c : Config} {k : Kind} (h : k.wf c.cpKeys = true) (buf : Bytes) :
    (k.body.read buf).Fits c := by
  obtain ⟨n, ms, body⟩ := k
  replace h : body.wf n c.cpKeys = true := (Bool.and_eq_true_iff.1 h).2
  cases body with
  | pad f =>
    simp only [KindBody.wf, Bool.and_eq_true, and_assoc] at h
    obtain ⟨hbuttons, -⟩ := h
    exact getLsbD_assembleButtons hbuttons buf
  | presence off b => trivial
  | chatpad m ks =>
    simp only [KindBody.wf, Bool.and_eq_true, beq_iff_eq] at h
    obtain ⟨-, hcount⟩ := h
    simpa [Packet.Fits, KindBody.read] using hcount
  | reinit => trivial

/-! ### The instructions that carry a packet -/

/-- The instruction carries packet `p`: it is `p`'s own instruction, or a DECODE of a buffer from which
a kind of some layout assembles `p` (R140). -/
def Instr.Carries (c : Config) (i : Instr) (p : Packet) : Prop :=
  (∃ h len buf, i = .decode h len buf ∧ ∃ f, ∃ k ∈ c.layout f, p = k.body.read buf) ∨
  ∃ h, i = p.instr h

theorem Instr.carries_instr (c : Config) (h : PacketHeader) (p : Packet) :
    (p.instr h).Carries c p := .inr ⟨h, rfl⟩

theorem Instr.carries_decode {c : Config} {f : Family} {k : Kind} (hk : k ∈ c.layout f)
    (h : PacketHeader) (len : BitVec 9) (buf : Bytes) :
    (Instr.decode h len buf).Carries c (k.body.read buf) :=
  .inl ⟨h, len, buf, rfl, f, k, hk, rfl⟩

theorem Instr.Carries.decode_or_instr {c : Config} {i : Instr} {p : Packet} (hp : i.Carries c p) :
    (∃ h len buf, i = .decode h len buf) ∨ ∃ h, i = p.instr h :=
  hp.imp_left fun ⟨h, len, buf, hi, _⟩ => ⟨h, len, buf, hi⟩

/-- The four upstream packet kinds. -/
def Instr.isPacket : Instr → Bool
  | .pad _ _ | .presence _ _ | .chatpad _ _ _ | .reinit _ => true
  | _ => false

@[simp] theorem isPacket_instr (h : PacketHeader) (p : Packet) : (p.instr h).isPacket = true := by
  cases p <;> rfl

theorem Packet.instr_inj {h h' : PacketHeader} {p p' : Packet} (e : p.instr h = p'.instr h') :
    p = p' := by
  cases p <;> cases p' <;> cases e <;> rfl

/-- Every packet the instruction carries fits. -/
def Instr.PacketsFit (c : Config) (i : Instr) : Prop := ∀ p, i.Carries c p → p.Fits c

/-- An instruction that is no packet kind carries only what the layouts assemble. -/
theorem Instr.packetsFit_of_not_isPacket {c : Config} (hc : c.wf = true) {i : Instr}
    (hi : i.isPacket = false) : i.PacketsFit c := by
  rintro p (⟨h, len, buf, -, f, k, hk, rfl⟩ | ⟨h, rfl⟩)
  · exact Kind.read_fits (kindWf_of_wf hc hk) buf
  · simp at hi

/-- The instruction of a packet that fits carries that packet only. -/
theorem Packet.instr_packetsFit {c : Config} {p : Packet} (hp : p.Fits c) (h : PacketHeader) :
    (p.instr h).PacketsFit c := by
  rintro q (⟨h', len, buf, e, -⟩ | ⟨h', e⟩)
  · cases p <;> cases e
  · exact Packet.instr_inj e ▸ hp

/-! ### No packet kind comes from the port or the bus -/

/-- A decoder's answer is no packet kind. -/
def Decoded.NoPacket : Decoded → Prop
  | .instr i => i.isPacket = false
  | .reject _ => True

@[simp] theorem noPacket_instr {i : Instr} :
    (Decoded.instr i).NoPacket ↔ i.isPacket = false := .rfl

@[simp] theorem noPacket_reject (r : Reject) : (Decoded.reject r).NoPacket := trivial

theorem arityReject_noPacket (n : Nat) (ops : Bytes) : (arityReject n ops).NoPacket := trivial

theorem arity0_noPacket {i : Instr} (hi : (Decoded.instr i).NoPacket) (ops : Bytes) :
    (arity0 i ops).NoPacket := by
  unfold arity0
  split
  · exact hi
  · exact arityReject_noPacket ..

theorem arity1_noPacket {k : Byte → Decoded} (hk : ∀ a, (k a).NoPacket) (ops : Bytes) :
    (arity1 k ops).NoPacket := by
  unfold arity1
  split
  · exact hk _
  · exact arityReject_noPacket ..

theorem arity2_noPacket {k : Byte → Byte → Decoded} (hk : ∀ a b, (k a b).NoPacket) (ops : Bytes) :
    (arity2 k ops).NoPacket := by
  unfold arity2
  split
  · exact hk _ _
  · exact arityReject_noPacket ..

theorem arity3_noPacket {k : Byte → Byte → Byte → Decoded} (hk : ∀ a b c, (k a b c).NoPacket)
    (ops : Bytes) : (arity3 k ops).NoPacket := by
  unfold arity3
  split
  · exact hk _ _ _
  · exact arityReject_noPacket ..

theorem arity5_noPacket {k : Byte → Byte → Byte → Byte → Byte → Decoded}
    (hk : ∀ a b c d e, (k a b c d e).NoPacket) (ops : Bytes) : (arity5 k ops).NoPacket := by
  unfold arity5
  split
  · exact hk _ _ _ _ _
  · exact arityReject_noPacket ..

theorem narrow_noPacket {w : Nat} {b : Byte} {k : BitVec w → Decoded}
    (hk : ∀ v, (k v).NoPacket) : (narrow w b k).NoPacket := by
  unfold narrow
  split
  · exact hk _
  · trivial

theorem narrowLen_noPacket {lo hi : Byte} {k : BitVec 9 → Decoded}
    (hk : ∀ v, (k v).NoPacket) : (narrowLen lo hi k).NoPacket := by
  unfold narrowLen
  split
  · exact hk _
  · trivial

/-- No operation of the port is a packet kind (R80). -/
theorem decodeOperands_noPacket (o : Opc) (ops : Bytes) : (decodeOperands o ops).NoPacket := by
  fun_cases decodeOperands o ops <;>
    simp [Instr.isPacket, arity0_noPacket, arity1_noPacket, arity2_noPacket, arity3_noPacket,
      arity5_noPacket, narrow_noPacket, narrowLen_noPacket]

theorem decodePort_noPacket (bs : Bytes) : (decodePort bs).NoPacket := by
  unfold decodePort
  split
  · trivial
  · split
    · trivial
    · exact decodeOperands_noPacket ..

/-- No bus transaction is a packet kind (R97, R192). -/
theorem decodeFrame_noPacket (t : Bytes) : (decodeFrame t).NoPacket := by
  fun_cases decodeFrame t <;> simp [Instr.isPacket]

theorem fetchFrame_noPacket (t : Bytes) : (Machine.fetchFrame t).NoPacket := by
  unfold Machine.fetchFrame
  split
  · rename_i i hi
    exact hi ▸ decodeFrame_noPacket t
  · rfl

/-- What a node fetches carries packets that fit, in a well-formed parameter set. -/
theorem fetch_packetsFit {s : Machine.State} (hc : s.cfg.wf = true) {x : Input} {i : Instr}
    (h : Machine.fetch s x = .instr i) : i.PacketsFit s.cfg := by
  have hno : ∀ {d : Decoded}, d = .instr i → d.NoPacket → i.PacketsFit s.cfg := by
    rintro d rfl hd
    exact Instr.packetsFit_of_not_isPacket hc hd
  unfold Machine.fetch at h
  split at h
  · exact hno h (decodePort_noPacket _)
  · exact hno h (fetchFrame_noPacket _)
  · exact hno h rfl
  · rename_i hd _
    revert h
    fun_cases Machine.fetchPacket s hd x.bytes with
    | case1 hcond j hj =>
      intro h
      cases h
      unfold decodePacket at hj
      split at hj
      · cases hj
      · rename_i k hk
        cases hj
        exact Packet.instr_packetsFit (Kind.read_fits (kindWf_of_wf hc (classify_some hk).1) _) hd
    | case2 => exact fun h => hno h rfl
    | case3 => exact fun h => hno h rfl

end Sys2Proof
end

section
/-!
SUPPORT. What an operation can do to the DeviceRecord pool (spec/10_state.md rules R27 to R38), said
once for every instruction but RESET: it keeps each record or writes it as `RecordWrite` says, or it
allocates a free one.
-/

namespace Sys2Proof.Machine

/-! ### Control and pool -/

/-- The control and the pool are unchanged. -/
structure KeepsPool (s t : State) : Prop where
  control : SameControl s t
  pool : t.pool = s.pool

namespace KeepsPool

variable {s t u : State}

theorem trans (h : KeepsPool s t) (g : KeepsPool t u) : KeepsPool s u :=
  ⟨⟨g.control.cfg.trans h.control.cfg, g.control.nodeId.trans h.control.nodeId,
    g.control.booted.trans h.control.booted, g.control.inputs.trans h.control.inputs⟩,
    g.pool.trans h.pool⟩

theorem raise (s : State) (e : ErrorInfo) : KeepsPool s (s.raise e) :=
  ⟨⟨raise_cfg s e, raise_nodeId s e, raise_booted s e, raise_inputs s e⟩, raise_pool s e⟩

theorem ret (s : State) (v : Result) : KeepsPool s (s.ret v) := ⟨⟨rfl, rfl, rfl, rfl⟩, rfl⟩

theorem raise_ret (s : State) (e : ErrorInfo) (v : Result) : KeepsPool s ((s.raise e).ret v) :=
  (raise s e).trans (ret _ v)

theorem of_outReport {k : Fin 4} (h : OnlyOutReport k s t) : KeepsPool s t :=
  ⟨⟨h.cfg, h.nodeId, h.booted, h.inputs⟩, h.pool⟩

theorem of_peerHalf (h : PeerHalf s t) : KeepsPool s t :=
  ⟨⟨h.cfg, h.nodeId, h.booted, h.inputs⟩, h.pool⟩

theorem dev (h : KeepsPool s t) (j : Nat) : t.dev j = s.dev j := dev_congr h.pool h.control.cfg j

theorem paramsWf (h : KeepsPool s t) : t.paramsWf = s.paramsWf := by
  simp [State.paramsWf, h.control.cfg, maxDev_congr h.pool]

theorem alive (h : KeepsPool s t) : t.alive = s.alive := by
  simp [State.alive, h.paramsWf, h.control.booted]

theorem role (h : KeepsPool s t) : t.role = s.role := by
  simp [State.role, h.control.nodeId]

/-! The operations of the transport and the queries keep the pool. -/

theorem coordPollOp (s : State) : KeepsPool s (coordPollOp s) := by
  rw [coordPollOp_eq]
  exact (((of_outReport (pollPeer_only 1 s)).trans (of_outReport (pollPeer_only 2 _))).trans
    (of_outReport (pollPeer_only 3 _))).trans (ret _ _)

theorem coordPingOp (k : Byte) (s : State) : KeepsPool s (coordPingOp k s) := by
  have h := of_outReport (pingSend_only 0 k s)
  unfold Machine.coordPingOp
  dsimp only
  split
  · exact h.trans (raise_ret ..)
  · exact h.trans (ret ..)

theorem slotWriteOp (k : Fin 4) (tf : BitVec 4) (b : Bytes) (s : State) :
    KeepsPool s (slotWriteOp k tf b s) := by
  unfold Machine.slotWriteOp
  split <;> exact ⟨⟨rfl, rfl, rfl, rfl⟩, rfl⟩

theorem slotReadOp (k : Fin 4) (tf : BitVec 4) (s : State) : KeepsPool s (slotReadOp k tf s) := by
  unfold Machine.slotReadOp
  split <;> exact ⟨⟨rfl, rfl, rfl, rfl⟩, rfl⟩

theorem responseOp (k : Fin 4) (rx : Bytes) (s : State) : KeepsPool s (responseOp k rx s) :=
  (of_outReport (receiveStep_only ..)).trans (ret ..)

theorem peerSetOutOp (tf : BitVec 4) (b : Bytes) (s : State) :
    KeepsPool s (peerSetOutOp tf b s) := by
  unfold Machine.peerSetOutOp
  split <;> exact ⟨⟨rfl, rfl, rfl, rfl⟩, rfl⟩

end KeepsPool

/-! ### One record -/

/-- What FEEDBACK_TICK can do to its record: the actual fields and the timers take any value, and the
init flag is kept or cleared (R171 to R177). -/
inductive Ticked (r : DeviceRecord) : DeviceRecord → Prop
  | mk (ra : Rumble) (la ca : Byte) (ip : Bool) (tp th : BitVec 32)
      (init : ip = r.cpInitPending ∨ ip = false) :
      Ticked r { r with rumAct := ra, ledAct := la, cpLedAct := ca, cpInitPending := ip,
                        tPeriodic := tp, tPowerHold := th }

namespace Ticked

theorem refl (r : DeviceRecord) : Ticked r r := .mk _ _ _ _ _ _ (.inl rfl)

theorem trans {r r' r'' : DeviceRecord} (h : Ticked r r') (g : Ticked r' r'') : Ticked r r'' := by
  obtain ⟨_, _, _, _, _, _, hi⟩ := h
  obtain ⟨_, _, _, _, _, _, gi⟩ := g
  refine .mk _ _ _ _ _ _ ?_
  rcases gi with rfl | rfl
  · exact hi
  · exact .inr rfl

theorem sendThen {i : Nat} {s : State} (hi : i < s.maxDev) (k : Cmd)
    {f : DeviceRecord → DeviceRecord} (hf : Ticked (s.dev i) (f (s.dev i))) :
    Ticked (s.dev i) ((sendThen i k f s).dev i) := by
  rw [sendThen_dev hi]
  split
  · exact hf
  · exact refl _

theorem cpledBit {i : Nat} {s : State} (hi : i < s.maxDev) (b : Nat) :
    Ticked (s.dev i) ((cpledBit i b s).dev i) := by
  unfold Machine.cpledBit
  dsimp only
  split
  · exact sendThen hi _ (.mk _ _ _ _ _ _ (.inl rfl))
  · exact refl _

theorem cpled {i : Nat} {s : State} (hi : i < s.maxDev) :
    Ticked (s.dev i) ((cpled i s).dev i) := by
  have hbits : ∀ (bs : List Nat) (s : State), i < s.maxDev →
      Ticked (s.dev i) ((bs.foldl (fun s b => Machine.cpledBit i b s) s).dev i) := by
    intro bs
    induction bs with
    | nil => exact fun s _ => refl _
    | cons b bs ih =>
      intro s hi
      exact (cpledBit hi b).trans (ih _ (by rwa [(cpledBit_onlySlot i b s).maxDev]))
  exact hbits _ s hi

theorem runBranch {i : Nat} {s : State} (hi : i < s.maxDev) (now : BitVec 32) (b : Branch) :
    Ticked (s.dev i) ((runBranch i now b s).dev i) := by
  cases b <;> unfold Machine.runBranch <;> dsimp only
  case rumble => exact sendThen hi _ (.mk _ _ _ _ _ _ (.inl rfl))
  case led => exact sendThen hi _ (.mk _ _ _ _ _ _ (.inl rfl))
  case cpInit => exact sendThen hi _ (.mk _ _ _ _ _ _ (.inr rfl))
  case cpLed => exact cpled hi
  case powerOff => rw [sendAnyway_dev hi]; exact .mk _ _ _ _ _ _ (.inl rfl)
  case keepalive => rw [sendAnyway_dev hi]; exact .mk _ _ _ _ _ _ (.inl rfl)

theorem holdTimer {i : Nat} {s : State} (hi : i < s.maxDev) (now : BitVec 32) :
    Ticked (s.dev i) ((holdTimer i now s).dev i) := by
  unfold Machine.holdTimer
  split
  · exact refl _
  · rw [dev_setRec_same hi]
    exact .mk _ _ _ _ _ _ (.inl rfl)

end Ticked

/-- Every write of one live record `r` by the instruction: each constructor after `freed` is the one
writer its fields' rule names (R28 to R37). -/
inductive RecordWrite (c : Config) (r : DeviceRecord) : Instr → DeviceRecord → Prop
  | freed (i) : RecordWrite c r i (zeroRecord c.cpKeys)
  | padded {i p} (hp : i.Carries c (.pad p)) : RecordWrite c r i { r with pad := p }
  | chatpad {i m ks} (hp : i.Carries c (.chatpad m ks)) :
      RecordWrite c r i { r with cpMods := m, cpKeys := ks }
  | reinit {i} (hp : i.Carries c .reinit) : RecordWrite c r i { r with cpInitPending := true }
  | committed (x) : RecordWrite c r (.commitEdges x) { r with prevButtons := r.pad.buttons }
  | pressed (x code) :
      RecordWrite c r (.wasPressed x code) { r with cpHist := (r.press c code).2 }
  | rumble (x a b) : RecordWrite c r (.setRumble x a b) { r with rumReq := ⟨a, b⟩ }
  | led (x q) : RecordWrite c r (.setLed x q) { r with ledReq := q }
  | cpled (x b) : RecordWrite c r (.setCpled x b) { r with cpLedReq := b }
  | ticked (x now) {r'} (h : Ticked r r') : RecordWrite c r (.feedbackTick x now) r'

/-- A write leaves a record free or keeps its family, its handles and its key (R27). -/
theorem RecordWrite.handles {c : Config} {r r' : DeviceRecord} {i : Instr}
    (h : RecordWrite c r i r') (hl : r'.live = true) :
    r'.fam = r.fam ∧ r'.addr = r.addr ∧ r'.inEp = r.inEp ∧ r'.outEp = r.outEp ∧
      r'.chan = r.chan := by
  cases h with
  | freed => simp at hl
  | ticked x now h => obtain ⟨⟩ := h; exact ⟨rfl, rfl, rfl, rfl, rfl⟩
  | _ => exact ⟨rfl, rfl, rfl, rfl, rfl⟩

/-! ### The pool -/

/-- What an operation can do to the pool: write its live records, or allocate for a supported family
and a nonzero address whose key no record holds (R131). -/
inductive PoolEffect (i : Instr) (s t : State) : Prop
  | written (h : ∀ j, j < s.maxDev → t.dev j = s.dev j ∨
      ((s.dev j).live = true ∧ RecordWrite s.cfg (s.dev j) i (t.dev j)))
  | allocated (k : Nat) (f : Family) (addr inEp outEp chan : Byte)
      (free : (s.dev k).live = false) (supported : s.cfg.isSupported f = true) (addr_ne : addr ≠ 0)
      (absent : s.lookup addr chan = none)
      (pool : t.pool = s.pool.set k (freshRecord s.cfg f addr inEp outEp chan))

/-- What an operation with a role can do to its node's control and pool. -/
structure Effect (i : Instr) (s t : State) : Prop where
  control : SameControl s t
  count : t.maxDev = s.maxDev
  pool : PoolEffect i s t

/-- A slot that holds a key is live. -/
theorem live_of_lookup {s : State} {addr chan : Byte} {k : Nat}
    (h : s.lookup addr chan = some k) : (s.dev k).live = true := by
  have hk := (lookup_some h).2
  simp only [DeviceRecord.hasKey, Bool.and_eq_true] at hk
  obtain ⟨⟨hl, -⟩, -⟩ := hk
  exact hl

namespace Effect

variable {i : Instr} {s t : State}

theorem of_keepsPool (h : KeepsPool s t) : Effect i s t :=
  ⟨h.control, maxDev_congr h.pool, .written fun j _ => .inl (h.dev j)⟩

theorem ret (v : Result) : Effect i s (s.ret v) := of_keepsPool (KeepsPool.ret s v)

theorem raise_ret (e : ErrorInfo) (v : Result) : Effect i s ((s.raise e).ret v) :=
  of_keepsPool (KeepsPool.raise_ret s e v)

/-- A write of one live record, and a result. -/
theorem setRec_ret {k : Nat} {r : DeviceRecord} (hl : (s.dev k).live = true)
    (hw : RecordWrite s.cfg (s.dev k) i r) (v : Result) : Effect i s ((s.setRec k r).ret v) := by
  refine ⟨⟨rfl, rfl, rfl, rfl⟩, by simp, .written fun j hj => ?_⟩
  rw [dev_ret]
  by_cases hjk : j = k
  · subst hjk
    exact .inr ⟨hl, by rwa [dev_setRec_same hj]⟩
  · exact .inl (dev_setRec_other hjk r)

theorem updateLive_ret {k : Nat} {f : DeviceRecord → DeviceRecord}
    (hw : RecordWrite s.cfg (s.dev k) i (f (s.dev k))) (v : Result) :
    Effect i s ((s.updateLive k f).ret v) := by
  unfold State.updateLive
  split
  · exact setRec_ret ‹_› hw v
  · exact ret v

theorem alloc_ret {f : Family} {addr chan : Byte} (hf : s.cfg.isSupported f = true)
    (ha : addr ≠ 0) (hk : s.lookup addr chan = none) (inEp outEp : Byte) (v : Result) :
    Effect i s ((s.alloc f addr inEp outEp chan).2.ret v) := by
  rcases alloc_cases s f addr inEp outEp chan with ⟨-, h⟩ | ⟨k, hfree, h⟩ <;> rw [h]
  · exact of_keepsPool ⟨⟨rfl, rfl, rfl, rfl⟩, rfl⟩
  · exact ⟨⟨rfl, rfl, rfl, rfl⟩, by simp,
      .allocated k f addr inEp outEp chan (freeIndex_some hfree).2.1 hf ha hk rfl⟩

/-! Each operation on the pool has such an effect. -/

theorem attachDevice (addr : Byte) (fam : Family) (inEp outEp chan : Byte) (s : State) :
    Effect i s (attachDevice addr fam inEp outEp chan s) := by
  unfold Machine.attachDevice
  split
  · exact raise_ret ..
  · rename_i ha
    split
    · exact raise_ret ..
    · rename_i hf
      split
      · exact ret _
      · split
        · exact ret _
        · rename_i hk
          exact alloc_ret (by simpa using hf) ha hk ..

theorem detachAddr (addr : Byte) (s : State) : Effect i s (detachAddr addr s) := by
  unfold Machine.detachAddr
  split
  · exact ret _
  · refine ⟨⟨rfl, rfl, rfl, rfl⟩, by simp [State.maxDev], .written fun j hj => ?_⟩
    have hj' : j < s.pool.length := hj
    simp only [State.dev, List.getD_eq_getElem?_getD, List.getElem?_map,
      List.getElem?_eq_getElem hj', Option.map_some, Option.getD_some]
    split
    · rename_i h
      exact .inr ⟨(Bool.and_eq_true_iff.1 h).1, .freed _⟩
    · exact .inl rfl

theorem packetPath {f : Family} {h : PacketHeader} {p : Packet} (hp : i.Carries s.cfg p)
    (ha : h.addr ≠ 0) (hf : s.cfg.isSupported f = true) : Effect i s (packetPath f h p s) := by
  unfold Machine.packetPath
  split
  · unfold presencePath
    split
    · exact alloc_ret hf ha ‹_› ..
    · exact setRec_ret (live_of_lookup ‹_›) (.freed _) _
    · exact ret _
  · exact setRec_ret (live_of_lookup ‹_›) (.padded hp) _
  · exact setRec_ret (live_of_lookup ‹_›) (.chatpad hp) _
  · exact setRec_ret (live_of_lookup ‹_›) (.reinit hp) _
  · exact raise_ret ..

theorem packetOp (h : PacketHeader) (p : Packet) (s : State) :
    Effect (p.instr h) s (packetOp h p s) := by
  unfold Machine.packetOp
  dsimp only
  split
  · exact raise_ret ..
  · rename_i ha
    split
    · exact raise_ret ..
    · rename_i hf
      split
      · exact ret _
      · exact packetPath (Instr.carries_instr _ h p) ha (by simpa using hf)

theorem decodePacketOp (h : PacketHeader) (len : BitVec 9) (buf : Bytes) (s : State) :
    Effect (.decode h len buf) s (decodePacketOp h len buf s) := by
  unfold Machine.decodePacketOp
  dsimp only
  split
  · exact raise_ret ..
  · split
    · exact raise_ret ..
    · rename_i ha
      split
      · exact raise_ret ..
      · rename_i hf
        split
        · exact raise_ret ..
        · rename_i k hk
          exact packetPath (Instr.carries_decode (classify_some hk).1 h len buf) ha
            (by simpa using hf)

theorem wasPressedOp (x code : Byte) (s : State) :
    Effect (.wasPressed x code) s (wasPressedOp x.toNat code s) := by
  unfold Machine.wasPressedOp
  dsimp only
  split
  · exact ret _
  · rename_i hl
    exact setRec_ret (Bool.not_eq_false _ ▸ hl) (.pressed x code) _

theorem feedbackTickOp {x : Byte} (hx : x.toNat < s.maxDev) (now : BitVec 32) :
    Effect (.feedbackTick x now) s (feedbackTickOp x.toNat now s) := by
  have hslot : ∀ {t : State}, (s.dev x.toNat).live = true → OnlySlot x.toNat s t →
      Ticked (s.dev x.toNat) (t.dev x.toNat) → Effect (.feedbackTick x now) s (t.ret .none) := by
    intro t hl ho ht
    refine ⟨⟨ho.cfg, ho.nodeId, ho.booted, ho.inputs⟩, ho.maxDev, .written fun j _ => ?_⟩
    by_cases hj : j = x.toNat
    · subst hj
      exact .inr ⟨hl, .ticked x now ht⟩
    · exact .inl (ho.others j hj)
  have hhold := holdTimer_onlySlot x.toNat now s
  have hticked := Ticked.holdTimer hx now
  rcases feedbackTickOp_cases x.toNat now s with ⟨-, h⟩ | ⟨hl, ⟨-, h⟩ | ⟨b, -, h⟩⟩ <;> rw [h]
  · exact ret _
  · exact hslot hl hhold hticked
  · have hx' : x.toNat < (holdTimer x.toNat now s).maxDev := by rwa [hhold.maxDev]
    exact hslot hl (hhold.trans (runBranch_onlySlot ..)) (hticked.trans (Ticked.runBranch hx' now b))

end Effect

/-- What an accepted operation does is what its action does, with its operands in range. -/
theorem accept_effect {i : Instr} {role : Role} {legal : Bool} {s t : State} {act : State → State}
    (he : accept role legal s act = .next t) (h : legal = true → Effect i s (act s)) :
    Effect i s t := by
  obtain ⟨-, -, -, hl, rfl⟩ := accept_next.1 he
  exact h hl

/-- Every operation but RESET that completes keeps the control and has one of these effects on the
pool. -/
theorem exec_effect {i : Instr} {s t : State} (hi : ∀ id, i ≠ .reset id)
    (he : exec i s = .next t) : Effect i s t := by
  cases i with
  | reset id => exact absurd rfl (hi id)
  | attach => exact accept_effect he fun _ => .attachDevice ..
  | detach => exact accept_effect he fun _ => .detachAddr ..
  | decode => exact accept_effect he fun _ => .decodePacketOp ..
  | readPad x => exact accept_effect (exec_readPad s x ▸ he) fun _ => .ret _
  | buttonEdge x => exact accept_effect (exec_buttonEdge s x ▸ he) fun _ => .ret _
  | isDown x code => exact accept_effect (exec_isDown s x code ▸ he) fun _ => .ret _
  | commitEdges x =>
    exact accept_effect (exec_commitEdges s x ▸ he) fun _ => .updateLive_ret (.committed x) _
  | wasPressed => exact accept_effect he fun _ => .wasPressedOp ..
  | setRumble x l r =>
    exact accept_effect (exec_setRumble s x l r ▸ he) fun _ => .updateLive_ret (.rumble x l r) _
  | setLed x q =>
    exact accept_effect (exec_setLed s x q ▸ he) fun _ => .updateLive_ret (.led x q) _
  | setCpled x b =>
    exact accept_effect (exec_setCpled s x b ▸ he) fun _ => .updateLive_ret (.cpled x b) _
  | feedbackTick x now =>
    exact accept_effect he fun hx => .feedbackTickOp ((slotLegal_iff s).1 hx) now
  | slotWrite => exact accept_effect he fun _ => .of_keepsPool (.slotWriteOp ..)
  | slotRead => exact accept_effect he fun _ => .of_keepsPool (.slotReadOp ..)
  | coordPoll => exact accept_effect he fun _ => .of_keepsPool (.coordPollOp s)
  | coordPing k => exact accept_effect he fun _ => .of_keepsPool (.coordPingOp k s)
  | response => exact accept_effect he fun _ => .of_keepsPool (.responseOp ..)
  | peerReceive b =>
    exact accept_effect he fun _ => .of_keepsPool (.of_peerHalf (.peerReceiveOp b s))
  | peerRequest => exact accept_effect (exec_peerRequest s ▸ he) fun _ => .ret _
  | peerRead => exact accept_effect (exec_peerRead s ▸ he) fun _ => .ret _
  | peerSetOut => exact accept_effect he fun _ => .of_keepsPool (.peerSetOutOp ..)
  | statusDisc b | statusStd b | statusCockpit b =>
    exact accept_effect he fun _ => .of_keepsPool (.of_peerHalf (.acceptStatus _ b s))
  | statusReserved => exact accept_effect he fun _ => .raise_ret ..
  | ping => exact accept_effect he fun _ => .of_keepsPool ⟨⟨rfl, rfl, rfl, rfl⟩, rfl⟩
  | pad h p => exact accept_effect he fun _ => .packetOp h (.pad p) s
  | presence h b => exact accept_effect he fun _ => .packetOp h (.presence b) s
  | chatpad h m ks => exact accept_effect he fun _ => .packetOp h (.chatpad m ks) s
  | reinit h => exact accept_effect he fun _ => .packetOp h .reinit s

/-- Every operation but RESET has a role (R80). -/
theorem exists_roleOf {i : Instr} (hi : ∀ id, i ≠ .reset id) : ∃ r, roleOf i = some r := by
  cases i with
  | reset id => exact absurd rfl (hi id)
  | _ => exact ⟨_, rfl⟩

/-- What a completed operation is: RESET, or one on a node that has been reset, with its effect. -/
theorem exec_cases {i : Instr} {s t : State} (he : exec i s = .next t) :
    (∃ id, i = .reset id ∧ s.paramsWf = true ∧ t = s.afterReset id) ∨
    ((∀ id, i ≠ .reset id) ∧ s.booted = true ∧ Effect i s t) := by
  by_cases hi : ∃ id, i = .reset id
  · obtain ⟨id, rfl⟩ := hi
    exact .inl ⟨id, rfl, exec_reset_next.1 he⟩
  · have hi' : ∀ id, i ≠ .reset id := fun id h => hi ⟨id, h⟩
    obtain ⟨r, hr⟩ := exists_roleOf hi'
    exact .inr ⟨hi', (ready_of_next hr he).booted, exec_effect hi' he⟩

@[simp] theorem maxDev_afterReset (s : State) (id : BitVec 2) :
    (s.afterReset id).maxDev = s.maxDev := by
  simp [State.maxDev]

/-- After RESET every record is all zero (R260). -/
@[simp] theorem dev_afterReset (s : State) (id : BitVec 2) (j : Nat) :
    (s.afterReset id).dev j = zeroRecord s.cfg.cpKeys := by
  simp only [State.dev, afterReset_pool, afterReset_cfg, List.getD_eq_getElem?_getD,
    List.getElem?_replicate]
  split <;> rfl

/-- A record live before and after an operation was kept, or written as `RecordWrite` says. -/
theorem exec_record {i : Instr} {s t : State} {j : Nat} (he : exec i s = .next t)
    (hj : j < s.maxDev) (hl : (s.dev j).live = true) (hl' : (t.dev j).live = true) :
    t.dev j = s.dev j ∨ RecordWrite s.cfg (s.dev j) i (t.dev j) := by
  rcases exec_cases he with ⟨id, -, -, rfl⟩ | ⟨-, -, heff⟩
  · simp at hl'
  · cases heff.pool with
    | written h => exact (h j hj).imp_right And.right
    | allocated k f addr inEp outEp chan free _ _ _ pool =>
      have hjk : j ≠ k := by rintro rfl; simp [hl] at free
      have hdev := dev_congr (s := s.setRec k (freshRecord s.cfg f addr inEp outEp chan))
        pool heff.control.cfg j
      exact .inl (hdev.trans (dev_setRec_other hjk _))

end Sys2Proof.Machine
end

section
/-!
SUPPORT. The invariant of a node (spec/10_state.md rules R38, R25, R29, R40): it holds after RESET, and
every operation whose packets fit keeps it.
-/

namespace Sys2Proof.Machine

/-! ### The chatpad history (R34, R38(c), R153) -/

theorem Hist.distinct_expire {h : Hist} (hd : h.distinct = true) (down : Byte → Bool) :
    (h.expire down).distinct = true := by
  simp only [Hist.distinct, Hist.expire, Bool.and_eq_true, Bool.or_eq_true, beq_iff_eq,
    bne_iff_ne] at *
  grind

/-- Claiming a free entry for a code the history does not hold keeps its entries distinct. -/
theorem Hist.distinct_claim {h h' : Hist} {x : Byte} (hd : h.distinct = true)
    (hx : h.holds x = false) (hc : h.claim x = some h') : h'.distinct = true := by
  simp only [Hist.holds, Bool.or_eq_false_iff, beq_eq_false_iff_ne] at hx
  simp only [Hist.distinct, Bool.and_eq_true, Bool.or_eq_true, beq_iff_eq, bne_iff_ne] at *
  unfold Hist.claim at hc
  split at hc
  · cases hc; grind
  split at hc
  · cases hc; grind
  split at hc
  · cases hc; grind
  · cases hc

theorem DeviceRecord.distinct_press {r : DeviceRecord} (hd : r.cpHist.distinct = true) (c : Config)
    (x : Byte) : (r.press c x).2.distinct = true := by
  have he := Hist.distinct_expire hd (r.isDown c)
  unfold DeviceRecord.press
  dsimp only
  split
  · exact he
  · split
    · exact he
    · rename_i hx
      split
      · exact he
      · rename_i h' hc
        exact Hist.distinct_claim he (by simpa using hx) hc

/-! ### Records -/

theorem recordOk_zero (c : Config) : RecordOk c (zeroRecord c.cpKeys) where
  freeIsZero _ := rfl
  liveSupported h := by simp at h
  liveAddr h := by simp at h
  histDistinct := rfl
  keyCount := List.length_replicate
  reservedButton := BitVec.getLsbD_zero
  reservedPrev := BitVec.getLsbD_zero

/-- An allocated record (R131). -/
theorem recordOk_fresh {c : Config} {f : Family} {addr : Byte} (hf : c.isSupported f = true)
    (ha : addr ≠ 0) (inEp outEp chan : Byte) :
    RecordOk c (freshRecord c f addr inEp outEp chan) where
  freeIsZero h := by
    have hu : f = .unknown := by simpa [DeviceRecord.live, freshRecord] using h
    simp [Config.isSupported, hu] at hf
  liveSupported _ := hf
  liveAddr _ := ha
  histDistinct := rfl
  keyCount := List.length_replicate
  reservedButton := BitVec.getLsbD_zero
  reservedPrev := BitVec.getLsbD_zero

/-- Changing a live record's fields other than its handles keeps it well formed where the history, the
key codes and the two button masks are. -/
theorem RecordOk.change {c : Config} {r r' : DeviceRecord} (h : RecordOk c r)
    (hl : r.live = true) (hfam : r'.fam = r.fam) (haddr : r'.addr = r.addr)
    (hhist : r'.cpHist.distinct = true) (hkeys : r'.cpKeys.length = c.cpKeys)
    (hpad : r'.pad.buttons.getLsbD 11 = false) (hprev : r'.prevButtons.getLsbD 11 = false) :
    RecordOk c r' where
  freeIsZero hf := by simp [DeviceRecord.live, hfam] at hf hl; exact absurd hf hl
  liveSupported _ := hfam ▸ h.liveSupported hl
  liveAddr _ := haddr ▸ h.liveAddr hl
  histDistinct := hhist
  keyCount := hkeys
  reservedButton := hpad
  reservedPrev := hprev

/-- Every write of a live record by an instruction whose packets fit keeps it well formed. -/
theorem RecordWrite.recordOk {c : Config} {r r' : DeviceRecord} {i : Instr}
    (hw : RecordWrite c r i r') (hi : i.PacketsFit c) (h : RecordOk c r) (hl : r.live = true) :
    RecordOk c r' := by
  have hhist := h.histDistinct
  have hkeys := h.keyCount
  have hpad := h.reservedButton
  have hprev := h.reservedPrev
  cases hw with
  | freed => exact recordOk_zero c
  | padded hp => exact h.change hl rfl rfl hhist hkeys (hi _ hp) hprev
  | chatpad hp => exact h.change hl rfl rfl hhist (hi _ hp) hpad hprev
  | committed => exact h.change hl rfl rfl hhist hkeys hpad hpad
  | pressed x code =>
    exact h.change hl rfl rfl (DeviceRecord.distinct_press hhist c code) hkeys hpad hprev
  | ticked x now ht => obtain ⟨⟩ := ht; exact h.change hl rfl rfl hhist hkeys hpad hprev
  | reinit | rumble | led | cpled => exact h.change hl rfl rfl hhist hkeys hpad hprev

/-! ### The pool -/

/-- A written record holds no key that it did not hold before (R27). -/
theorem RecordWrite.hasKey {c : Config} {r r' : DeviceRecord} {i : Instr}
    (hw : RecordWrite c r i r') (hl : r.live = true) {addr chan : Byte}
    (hk : r'.hasKey addr chan = true) : r.hasKey addr chan = true := by
  simp only [DeviceRecord.hasKey, Bool.and_eq_true, beq_iff_eq] at *
  obtain ⟨⟨hl', ha⟩, hc⟩ := hk
  obtain ⟨-, haddr, -, -, hchan⟩ := hw.handles hl'
  exact ⟨⟨hl, haddr ▸ ha⟩, hchan ▸ hc⟩

theorem Effect.records {i : Instr} {s t : State} (h : Effect i s t) (hi : i.PacketsFit s.cfg)
    (hr : ∀ j, j < s.maxDev → RecordOk s.cfg (s.dev j)) {j : Nat} (hj : j < s.maxDev) :
    RecordOk s.cfg (t.dev j) := by
  cases h.pool with
  | written hw =>
    rcases hw j hj with hsame | ⟨hl, hw⟩
    · exact hsame ▸ hr j hj
    · exact hw.recordOk hi (hr j hj) hl
  | allocated k f addr inEp outEp chan free supported addr_ne absent pool =>
    rw [dev_congr (s := s.setRec k (freshRecord s.cfg f addr inEp outEp chan)) pool
      h.control.cfg j, dev_setRec]
    split
    · exact recordOk_fresh supported addr_ne ..
    · exact hr j hj

/-- At most one live record per key: a write brings no new key, and an allocation only one that no
record held (R38(a), R131). -/
theorem Effect.keysUnique {i : Instr} {s t : State} (h : Effect i s t) (hu : KeysUnique s) :
    KeysUnique t := by
  intro a b addr chan ha hb hka hkb
  rw [h.count] at ha hb
  cases h.pool with
  | written hw =>
    have hold : ∀ j, j < s.maxDev → (t.dev j).hasKey addr chan = true →
        (s.dev j).hasKey addr chan = true := by
      intro j hj hk
      rcases hw j hj with hsame | ⟨hl, hw⟩
      · exact hsame ▸ hk
      · exact hw.hasKey hl hk
    exact hu a b addr chan ha hb (hold a ha hka) (hold b hb hkb)
  | allocated k f addr' inEp outEp chan' free supported addr_ne absent pool =>
    have hcase : ∀ j, j < s.maxDev → (t.dev j).hasKey addr chan = true →
        (j = k ∧ s.lookup addr chan = none) ∨ (s.dev j).hasKey addr chan = true := by
      intro j hj hk
      rw [dev_congr (s := s.setRec k (freshRecord s.cfg f addr' inEp outEp chan')) pool
        h.control.cfg j, dev_setRec] at hk
      split at hk
      · rename_i hjk
        simp only [DeviceRecord.hasKey, Bool.and_eq_true, beq_iff_eq] at hk
        obtain ⟨⟨-, rfl⟩, rfl⟩ := hk
        exact .inl ⟨hjk.1.symm, absent⟩
      · exact .inr hk
    rcases hcase a ha hka with ⟨rfl, hnone⟩ | hka'
    · rcases hcase b hb hkb with ⟨rfl, -⟩ | hkb'
      · rfl
      · simp [lookup_none.1 hnone b hb] at hkb'
    · rcases hcase b hb hkb with ⟨rfl, hnone⟩ | hkb'
      · simp [lookup_none.1 hnone a ha] at hka'
      · exact hu a b addr chan ha hb hka' hkb'

/-! ### The node -/

/-- The invariant speaks of the parameters, the pool and the report buffers alone. -/
theorem Inv.congr {s t : State} (h : Inv s) (hc : t.cfg = s.cfg) (hp : t.pool = s.pool)
    (hm : Memory.wf t = true) : Inv t where
  params := by
    have := h.params
    rwa [State.paramsWf, ← hc, ← maxDev_congr hp] at this
  records i hi := by
    rw [hc, dev_congr hp hc]
    exact h.records i (maxDev_congr hp ▸ hi)
  keys i j addr chan hi hj hki hkj := by
    rw [maxDev_congr hp] at hi hj
    rw [dev_congr hp hc] at hki hkj
    exact h.keys i j addr chan hi hj hki hkj
  memory := hm

/-- RESET gives a state that meets the invariant (R44, R260). -/
theorem inv_afterReset {s : State} (hp : s.paramsWf = true) (id : BitVec 2) :
    Inv (s.afterReset id) where
  params := by
    rw [State.paramsWf, maxDev_afterReset]
    exact hp
  records i _ := by
    rw [dev_afterReset]
    exact recordOk_zero _
  keys i j addr chan _ _ hk _ := by
    rw [dev_afterReset] at hk
    simp [DeviceRecord.hasKey] at hk
  memory := memory_wf_afterReset s id

/-- Every operation whose packets fit keeps the invariant. -/
theorem exec_inv {i : Instr} {s t : State} (h : Inv s) (hi : i.PacketsFit s.cfg)
    (he : exec i s = .next t) : Inv t := by
  rcases exec_cases he with ⟨id, -, hp, rfl⟩ | ⟨-, -, heff⟩
  · exact inv_afterReset hp id
  · have hcfg := heff.control.cfg
    exact
      { params := by
          have := h.params
          rwa [State.paramsWf, ← hcfg, ← heff.count] at this
        records := fun j hj => hcfg ▸ heff.records hi h.records (heff.count ▸ hj)
        keys := heff.keysUnique h.keys
        memory := exec_memory_wf h.memory he }

theorem cfg_wf_of_inv {s : State} (h : Inv s) : s.cfg.wf = true := by
  have hp := h.params
  simp only [State.paramsWf, Bool.and_eq_true] at hp
  obtain ⟨⟨hwf, -⟩, -⟩ := hp
  exact hwf

/-- The input taken is the head of the inputs, and the rest of the state stays. -/
theorem takeInput_some {s c : State} {x : Input} (h : takeInput s = some (x, c)) :
    ∃ rest, s.inputs = x :: rest ∧ c = { s with inputs := rest } := by
  unfold takeInput at h
  split at h
  · cases h
  · cases h; exact ⟨_, ‹_›, rfl⟩

theorem Inv.takeInput {s c : State} {x : Input} (h : Inv s) (hx : takeInput s = some (x, c)) :
    Inv c := by
  obtain ⟨rest, -, rfl⟩ := takeInput_some hx
  exact h.congr rfl rfl h.memory

/-- A fetched operation keeps the invariant: its packets were assembled by the layout. -/
theorem fetched_inv {s t : State} {x : Input} {i : Instr} (h : Inv s)
    (hf : fetch s x = .instr i) (he : exec i s = .next t) : Inv t :=
  exec_inv h (fetch_packetsFit (cfg_wf_of_inv h) hf) he

theorem step_inv {s t : State} (h : Inv s) (hs : step s = .next t) : Inv t := by
  unfold step at hs
  split at hs
  · cases hs; exact h
  · rename_i x c hx
    split at hs
    · rename_i i hf
      exact fetched_inv (h.takeInput hx) hf hs
    · cases hs

end Sys2Proof.Machine
end

section
/-!
SUPPORT. The invariant of a coupled system (spec/42_transport.md rules R190, R192, R198): every bus
transaction and every operation of a node keeps it.
-/

namespace Sys2Proof.Machine

/-- What the system's invariant asks of one node: its invariant, no bus event among its inputs (R192),
and an operation in progress only at a live coordinator (R190). -/
structure NodeOk (n : BusNode) : Prop where
  inv : Inv n.node
  inputs : n.node.inputs.all (fun x => !isBusEvent x) = true
  todo : n.todo = [] ∨ (n.node.alive = true ∧ n.node.role = .coordinator)

theorem system_inv_iff {y : System} :
    y.Inv ↔ y.nodes.length ≤ 4 ∧ ∀ n ∈ y.nodes, NodeOk n := by
  have hwf : y.wf = true ↔ y.nodes.length ≤ 4 ∧ ∀ n ∈ y.nodes,
      n.node.inputs.all (fun x => !isBusEvent x) = true ∧
        (n.todo = [] ∨ (n.node.alive = true ∧ n.node.role = .coordinator)) := by
    simp only [System.wf, Bool.and_eq_true, decide_eq_true_eq, List.all_eq_true (l := y.nodes),
      Bool.or_eq_true, List.isEmpty_iff, beq_iff_eq]
  constructor
  · intro h
    obtain ⟨hlen, hn⟩ := hwf.1 h.wf
    exact ⟨hlen, fun n hm => ⟨h.nodes n hm, (hn n hm).1, (hn n hm).2⟩⟩
  · rintro ⟨hlen, hn⟩
    exact ⟨hwf.2 ⟨hlen, fun n hm => ⟨(hn n hm).inputs, (hn n hm).todo⟩⟩, fun n hm => (hn n hm).inv⟩

/-- A node keeps its form where its control and pool stay, its report buffers have their lengths, and
no operation comes to be in progress. -/
theorem NodeOk.keeps {n : BusNode} {p : State} {todo : List BusTask} (h : NodeOk n)
    (hk : KeepsPool n.node p) (hm : Memory.wf p = true) (ht : n.todo = [] → todo = []) :
    NodeOk ⟨p, todo⟩ where
  inv := h.inv.congr hk.control.cfg hk.pool hm
  inputs := by
    dsimp only
    rw [hk.control.inputs]
    exact h.inputs
  todo := by
    rcases h.todo with h0 | ⟨ha, hr⟩
    · exact .inl (ht h0)
    · exact .inr ⟨hk.alive.trans ha, hk.role.trans hr⟩

theorem NodeOk.outReport {n : BusNode} {k : Fin 4} {p : State} {todo : List BusTask} (h : NodeOk n)
    (hk : OnlyOutReport k n.node p) (ht : n.todo = [] → todo = []) : NodeOk ⟨p, todo⟩ :=
  h.keeps (.of_outReport hk) (hk.wf h.inv.memory) ht

namespace System.Inv

variable {y z : System}

theorem of_nodes (h : y.Inv) (hz : z.nodes = y.nodes) : z.Inv := by
  rw [system_inv_iff] at *
  rwa [hz]

theorem nodeOk (h : y.Inv) {j : Nat} {n : BusNode} (hn : y.nodes[j]? = some n) : NodeOk n :=
  (system_inv_iff.1 h).2 n (List.mem_of_getElem? hn)

theorem setNode (h : y.Inv) (j : Nat) {n : BusNode} (hn : NodeOk n) : (y.setNode j n).Inv := by
  obtain ⟨hlen, hall⟩ := system_inv_iff.1 h
  refine system_inv_iff.2 ⟨by simpa using hlen, fun m hm => ?_⟩
  rcases List.mem_or_eq_of_mem_set hm with hm | rfl
  · exact hall m hm
  · exact hn

theorem foldl {f : System → Nat → System} (hf : ∀ y j, y.Inv → (f y j).Inv) (js : List Nat)
    (h : y.Inv) : (js.foldl f y).Inv := by
  induction js generalizing y with
  | nil => exact h
  | cons j js ih => exact ih (hf y j h)

/-- What the bus makes a peer execute keeps the system's invariant (R198, R192). -/
theorem nodeRuns {i : Instr} (hi : isBusOp i) (h : y.Inv) (j : Nat) : (y.nodeRuns j i).Inv := by
  unfold System.nodeRuns
  split
  · exact h
  · rename_i n hn
    have hok := h.nodeOk hn
    split
    · rename_i p hp
      exact h.setNode j (hok.keeps (.of_peerHalf (exec_busOp_half hi hp))
        (exec_memory_wf hok.inv.memory hp) id)
    · exact h

theorem strayWrite (y : System) (j : Nat) (h : y.Inv) : (y.strayWrite j).Inv := by
  have hd : y.drawStray.2.Inv := h.of_nodes (drawStray_nodes y)
  unfold System.strayWrite
  split <;> rename_i hy <;> rw [hy] at hd
  · exact hd
  · exact hd.nodeRuns (.inl ⟨_, rfl⟩) j

theorem deliver (h : y.Inv) (a : Nat) (frame : Bytes) (err : Byte) :
    (y.deliver a frame err).Inv := by
  have hd : y.drawPartial.2.Inv := h.of_nodes (drawPartial_nodes y)
  unfold System.deliver
  split
  · exact h
  · split
    · exact h.nodeRuns (.inl ⟨_, rfl⟩) _
    · split <;> rename_i hy <;> rw [hy] at hd
      · exact hd
      · exact hd.nodeRuns (.inl ⟨_, rfl⟩) _
  · exact h.foldl strayWrite _

theorem request (h : y.Inv) (a : Nat) (raw : Bytes) : (y.request a raw).2.Inv := by
  unfold System.request
  split
  · exact h
  · split
    · exact h
    · exact h.nodeRuns (.inr rfl) _
  · exact h.foldl (fun y j hy => hy.nodeRuns (.inr rfl) j) _

/-- A bus transaction of an operation in progress keeps the system's invariant (R193, R197). -/
theorem runTask (h : y.Inv) {i : Nat} {n : BusNode} {t : BusTask} {rest : List BusTask}
    (hn : NodeOk n) (ht : n.todo = t :: rest) : (y.runTask i n t rest).Inv := by
  have hbusy : ∀ todo : List BusTask, n.todo = [] → todo = [] := by simp [ht]
  cases t with
  | send k =>
    have hs := pollSend_only k k n.node
    refine deliver (h.setNode i ?_) ..
    split
    · exact hn.outReport (hs.trans (.raise ..)) (hbusy _)
    · exact hn.outReport hs (hbusy _)
  | read k tf =>
    refine (h.request ..).setNode i (hn.outReport (k := k) ?_ (hbusy _))
    exact (OnlyOutReport.emit (by simp) _).trans ((OnlyOutReport.drawRx _).trans
      (receiveStep_only ..))
  | ping k =>
    have hs := pingSend_only 0 k n.node
    refine deliver (h.setNode i (hn.outReport (k := 0) ?_ (hbusy _))) ..
    split
    · exact hs.trans (.raise ..)
    · exact hs

end System.Inv

/-- Only the coordinator's operations use the bus (R193, R197). -/
theorem roleOf_of_busTasks {i : Instr} (h : busTasks i ≠ []) : roleOf i = some .coordinator := by
  unfold busTasks at h
  split at h
  · rfl
  · rfl
  · exact absurd rfl h

/-- A node that takes an input keeps its form. -/
theorem NodeOk.takeInput {n : BusNode} {x : Input} {c : State} (h : NodeOk n)
    (hx : takeInput n.node = some (x, c)) : NodeOk ⟨c, []⟩ := by
  refine ⟨h.inv.takeInput hx, ?_, .inl rfl⟩
  obtain ⟨rest, hin, rfl⟩ := takeInput_some hx
  have hall := h.inputs
  rw [hin, List.all_cons, Bool.and_eq_true] at hall
  exact hall.2

/-- What a node is after it accepted a fetched operation keeps its form (R190). -/
theorem NodeOk.startOp {c s : State} {x : Input} {i : Instr} (hc : NodeOk ⟨c, []⟩)
    (hf : fetch c x = .instr i) (he : exec i c = .next s) : NodeOk (startOp i c s) := by
  unfold Machine.startOp
  split
  · refine ⟨fetched_inv hc.inv hf he, ?_, .inl rfl⟩
    rcases exec_cases he with ⟨id, -, -, rfl⟩ | ⟨-, -, heff⟩
    · exact hc.inputs
    · dsimp only
      rw [heff.control.inputs]
      exact hc.inputs
  · rename_i ts hts
    have hready := ready_of_next (roleOf_of_busTasks hts) he
    have halive : c.alive = true := by simp [State.alive, hready.params, hready.booted]
    exact ⟨hc.inv.congr rfl rfl hc.inv.memory, hc.inputs, .inr ⟨halive, hready.role⟩⟩

theorem nodeStep_inv {y y' : System} {i : Nat} (h : y.Inv) (hs : y.nodeStep i = .next y') :
    y'.Inv := by
  unfold System.nodeStep at hs
  split at hs
  · cases hs; exact h
  · rename_i n hn
    have hok := h.nodeOk hn
    split at hs
    · rename_i t rest ht
      cases hs
      exact h.runTask hok ht
    · split at hs
      · cases hs; exact h
      · rename_i x c hx
        split at hs
        · rename_i op hf
          unfold System.accept System.lift at hs
          split at hs
          · rename_i s he
            cases hs
            exact h.setNode i ((hok.takeInput hx).startOp hf he)
          all_goals cases hs
        · cases hs

end Sys2Proof.Machine
end

section
/-!
The obligations about the whole-machine state, settled by the lemmas above.
-/

namespace Sys2Proof.Machine

/-- Settles O55: the reset state is a state after RESET, with the well-formed profile parameters. -/
theorem resetStateIsInvariant : Obligations.ResetStateIsInvariant := by
  unfold Obligations.ResetStateIsInvariant
  have hreset : State.reset = State.reset.afterReset 0 := rfl
  rw [hreset]
  exact inv_afterReset (by decide) 0

/-- Settles O56: a node by its fetched operation, a system by the node that moves. -/
theorem everyStepKeepsTheInvariant : Obligations.EveryStepKeepsTheInvariant := by
  unfold Obligations.EveryStepKeepsTheInvariant
  refine ⟨fun s t => step_inv, fun y y' h hs => ?_⟩
  unfold System.step at hs
  split at hs
  · cases hs; exact h
  · rename_i i rest _
    have hrest : System.Inv { y with turns := rest } := h.of_nodes rfl
    exact nodeStep_inv hrest hs

/-- Settles O57: RESET keeps the parameters and the pool's length, and any other operation's effect
keeps the whole control. -/
theorem parametersAndIdentityAreFixed : Obligations.ParametersAndIdentityAreFixed := by
  unfold Obligations.ParametersAndIdentityAreFixed
  intro i s t he
  rcases exec_cases he with ⟨id, rfl, -, rfl⟩ | ⟨-, hb, heff⟩
  · exact ⟨rfl, maxDev_afterReset s id, fun h => absurd rfl (h id), rfl, rfl⟩
  · obtain ⟨hcfg, hid, hboot, hin⟩ := heff.control
    exact ⟨hcfg, heff.count, fun _ => hid, hboot.trans hb, hin⟩

/-- Settles O59, by the writers of one record: each case of `RecordWrite` leaves every field but its
own as it was. -/
theorem recordFieldsHaveTheirWriters : Obligations.RecordFieldsHaveTheirWriters := by
  unfold Obligations.RecordFieldsHaveTheirWriters
  intro i s t j he hj hl hl'
  have hw := exec_record he hj hl hl'
  generalize s.dev j = r at *
  generalize t.dev j = r' at *
  rcases hw with rfl | hw
  · simp
  · cases hw with
    | freed => simp at hl'
    | padded hp =>
      rcases hp.decode_or_instr with ⟨h, len, buf, rfl⟩ | ⟨h, rfl⟩ <;> simp [Packet.instr]
    | chatpad hp =>
      rcases hp.decode_or_instr with ⟨h, len, buf, rfl⟩ | ⟨h, rfl⟩ <;> simp [Packet.instr]
    | reinit hp =>
      rcases hp.decode_or_instr with ⟨h, len, buf, rfl⟩ | ⟨h, rfl⟩ <;> simp [Packet.instr]
    | committed x => simp
    | pressed x code => simp
    | rumble x a b => simp
    | led x q => simp
    | cpled x b => simp
    | ticked x now h =>
      obtain ⟨ra, la, ca, ip, tp, th, init⟩ := h
      have hinit : ip ≠ r.cpInitPending → ip = false := init.resolve_left
      simpa using hinit

end Sys2Proof.Machine
end

section
/-!
SUPPORT. Buffer reads as numbers (spec/20_memory.md rules R62, R64, R65; spec/30_encoding.md rule R87):
a little-endian 16-bit field and a trigger in terms of the bytes they are read from.
-/

namespace Sys2Proof

/-- A read of a byte the buffer holds is that byte (R12). -/
theorem rd8_of_getElem? {buf : Bytes} {off : Nat} {b : Byte} (h : buf[off]? = some b) :
    rd8 buf off = b := by
  simp [rd8, List.getD_eq_getElem?_getD, h]

/-- The value of two concatenated bytes: their bits do not overlap, so the union is a sum. -/
theorem toNat_append_byte (hi lo : Byte) : (hi ++ lo).toNat = lo.toNat + 256 * hi.toNat := by
  rw [BitVec.toNat_append, ← Nat.shiftLeft_add_eq_or_of_lt lo.isLt, Nat.shiftLeft_eq]
  omega

theorem rd16le_toNat (buf : Bytes) (off : Nat) :
    (rd16le buf off).toNat = (rd8 buf off).toNat + 256 * (rd8 buf (off + 1)).toNat :=
  toNat_append_byte ..

/-- The sign of a little-endian field is the top bit of its second byte (R62, R64). -/
theorem rd16le_toInt (buf : Bytes) (off : Nat) :
    (rd16le buf off).toInt =
      if (rd8 buf (off + 1)).toNat < 128 then
        ((rd8 buf off).toNat + 256 * (rd8 buf (off + 1)).toNat : Int)
      else ((rd8 buf off).toNat + 256 * (rd8 buf (off + 1)).toNat : Int) - 65536 := by
  have hlo : (rd8 buf off).toNat < 256 := (rd8 buf off).isLt
  rw [BitVec.toInt_eq_toNat_cond, rd16le_toNat]
  split <;> split <;> omega

theorem TrigForm.read_byte (buf : Bytes) (off : Nat) :
    (TrigForm.byte off).read buf = rd8 buf off := rfl

/-- Shifting a field right divides its value, and the cut to 8 bits is its remainder (R87). -/
theorem TrigForm.read_u16Shr_toNat (buf : Bytes) (off sh : Nat) :
    ((TrigForm.u16Shr off sh).read buf).toNat = (rd16le buf off).toNat / 2 ^ sh % 256 := by
  rw [TrigForm.read, BitVec.toNat_setWidth, BitVec.toNat_ushiftRight, Nat.shiftRight_eq_div_pow]

end Sys2Proof
end

section
/-!
The obligation about buffer reads, settled by the lemmas above.
-/

namespace Sys2Proof

/-- Settles O16: a field's unsigned and signed values by its two bytes, a trigger by its form, and
a stick axis by the offset its kind names. -/
theorem sixteenBitFieldsAreLittleEndian : Obligations.SixteenBitFieldsAreLittleEndian := by
  unfold Obligations.SixteenBitFieldsAreLittleEndian
  intro buf off lo hi hlo hhi
  have hval := rd16le_toNat buf off
  have hint := rd16le_toInt buf off
  rw [rd8_of_getElem? hlo, rd8_of_getElem? hhi] at hval hint
  refine ⟨hval, ?_, hint, fun sh => ?_, fun f => ?_⟩
  · rw [TrigForm.read_byte, rd8_of_getElem? hlo]
  · rw [TrigForm.read_u16Shr_toNat, hval]
  · refine ⟨?_, ?_, ?_, ?_⟩ <;> rintro rfl <;> rfl

end Sys2Proof
end

section
/-!
SUPPORT. The operation port read both ways (spec/30_encoding.md rules R80, R81): each operand form
answers an instruction exactly on the bytes that encode its operands.
-/

namespace Sys2Proof

/-! ### Operand strings -/

theorem arity0_eq_instr {i j : Instr} {ops : Bytes} :
    arity0 i ops = .instr j ↔ ops = [] ∧ i = j := by
  unfold arity0
  split <;> simp_all [arityReject]

theorem arity1_eq_instr {k : Byte → Decoded} {ops : Bytes} {j : Instr} :
    arity1 k ops = .instr j ↔ ∃ a, ops = [a] ∧ k a = .instr j := by
  unfold arity1
  split <;> simp_all [arityReject]

theorem arity2_eq_instr {k : Byte → Byte → Decoded} {ops : Bytes} {j : Instr} :
    arity2 k ops = .instr j ↔ ∃ a b, ops = [a, b] ∧ k a b = .instr j := by
  unfold arity2
  split <;> simp_all [arityReject]

theorem arity3_eq_instr {k : Byte → Byte → Byte → Decoded} {ops : Bytes} {j : Instr} :
    arity3 k ops = .instr j ↔ ∃ a b c, ops = [a, b, c] ∧ k a b c = .instr j := by
  unfold arity3
  split <;> simp_all [arityReject]

theorem arity5_eq_instr {k : Byte → Byte → Byte → Byte → Byte → Decoded} {ops : Bytes}
    {j : Instr} :
    arity5 k ops = .instr j ↔ ∃ a b c d e, ops = [a, b, c, d, e] ∧ k a b c d e = .instr j := by
  unfold arity5
  split <;> simp_all [arityReject]

/-! ### Operands with a width of their own -/

/-- A narrow operand is accepted exactly in the byte that encodes it: no spare bit is set (R81). -/
theorem narrow_eq_instr {w : Nat} (hw : w ≤ 8) {b : Byte} {k : BitVec w → Decoded} {j : Instr} :
    narrow w b k = .instr j ↔ ∃ v : BitVec w, b = v.setWidth 8 ∧ k v = .instr j := by
  constructor
  · intro h
    unfold narrow at h
    split at h
    · exact ⟨_, (setWidth_of_narrow ‹_›).symm, h⟩
    · cases h
  · rintro ⟨v, rfl, h⟩
    rwa [narrow_setWidth hw]

theorem u16bytes_append_bytes (hi lo : Byte) : u16bytes (hi ++ lo) = [lo, hi] := by
  have hlo : (hi ++ lo).extractLsb' 0 8 = lo := BitVec.extractLsb'_append_eq_right
  have hhi : (hi ++ lo).extractLsb' 8 8 = hi := BitVec.extractLsb'_append_eq_left
  rw [u16bytes, hlo, hhi]

theorem u32bytes_u32le (b0 b1 b2 b3 : Byte) :
    u32bytes (u32le b0 b1 b2 b3) = [b0, b1, b2, b3] := by
  have h1 : (u32le b0 b1 b2 b3).extractLsb' 8 8 = b1 :=
    (BitVec.extractLsb'_append_eq_of_le (le_refl 8)).trans BitVec.extractLsb'_append_eq_right
  have h2 : (u32le b0 b1 b2 b3).extractLsb' 16 8 = b2 :=
    (BitVec.extractLsb'_append_eq_of_le (by decide)).trans
      ((BitVec.extractLsb'_append_eq_of_le (by decide)).trans BitVec.extractLsb'_append_eq_right)
  have h3 : (u32le b0 b1 b2 b3).extractLsb' 24 8 = b3 :=
    (BitVec.extractLsb'_append_eq_of_le (by decide)).trans
      ((BitVec.extractLsb'_append_eq_of_le (by decide)).trans BitVec.extractLsb'_append_eq_left)
  rw [u32bytes, h1, h2, h3, u32le, BitVec.extractLsb'_append_eq_right]

/-- The u9 `len` operand written in two bytes reads back (R81). -/
theorem narrowLen_u16bytes (v : BitVec 9) (k : BitVec 9 → Decoded) :
    narrowLen ((v.setWidth 16).extractLsb' 0 8) ((v.setWidth 16).extractLsb' 8 8) k = k v := by
  have hv : (v.setWidth 16).toNat = v.toNat := BitVec.toNat_setWidth_of_le (by decide)
  have hhi : ((v.setWidth 16).extractLsb' 8 8).toNat < 2 := by
    rw [BitVec.extractLsb'_toNat, hv]
    omega
  rw [narrowLen, if_pos hhi, u16bytes_append, BitVec.setWidth_setWidth_of_le _ (by decide),
    BitVec.setWidth_eq]

/-- A `len` that decodes is the one its two bytes encode (R81). -/
theorem u16bytes_of_narrowLen {lo hi : Byte} {k : BitVec 9 → Decoded} {j : Instr}
    (h : narrowLen lo hi k = .instr j) :
    ∃ v : BitVec 9, u16bytes (v.setWidth 16) = [lo, hi] ∧ k v = .instr j := by
  unfold narrowLen at h
  split at h
  · rename_i hhi
    have hlt : (hi ++ lo).toNat < 2 ^ 9 := by
      rw [toNat_append_byte]
      omega
    refine ⟨_, ?_, h⟩
    rw [BitVec.setWidth_setWidth_eq_self (BitVec.lt_def.2 (by simpa [BitVec.toNat_twoPow])),
      u16bytes_append_bytes]
  · cases h

/-! ### Whole words -/

/-- A word that starts with the OPC of an operation is read by its operands (R80). -/
@[simp] theorem decodePort_cons (o : Opc) (ops : Bytes) :
    decodePort (o.byte :: ops) = decodeOperands o ops := by
  simp [decodePort]

@[simp] theorem decode_port_cons (l : List Kind) (o : Opc) (ops : Bytes) :
    decode l ⟨.port, o.byte :: ops⟩ = decodeOperands o ops := decodePort_cons o ops

/-- Only a word that starts with an OPC of R80 decodes. -/
theorem decodePort_eq_instr {b : Bytes} {i : Instr} (h : decodePort b = .instr i) :
    ∃ o ops, b = o.byte :: ops ∧ decodeOperands o ops = .instr i := by
  unfold decodePort at h
  split at h
  · cases h
  · rename_i opc ops
    split at h
    · cases h
    · rename_i o ho
      exact ⟨o, ops, by rw [opc_byte_of_ofByte ho], h⟩

/-- Operands that decode are those the instruction encodes (R80, R81; log entry 8). -/
theorem encode_of_decodeOperands (l : List Kind) {o : Opc} {ops : Bytes} {i : Instr}
    (h : decodeOperands o ops = .instr i) : encode l i = ⟨.port, o.byte :: ops⟩ := by
  cases o with
  | reset =>
    obtain ⟨b, rfl, hb⟩ := arity1_eq_instr.1 h
    obtain ⟨id, rfl, ⟨⟩⟩ := (narrow_eq_instr (by decide)).1 hb
    rfl
  | attach =>
    obtain ⟨addr, b, inEp, outEp, chan, rfl, hb⟩ := arity5_eq_instr.1 h
    obtain ⟨f, rfl, ⟨⟩⟩ := (narrow_eq_instr (by decide)).1 hb
    rw [encode, family_code_ofCode]
  | detach => obtain ⟨addr, rfl, ⟨⟩⟩ := arity1_eq_instr.1 h; rfl
  | decode =>
    match ops, h with
    | addr :: chan :: b :: inEp :: outEp :: lo :: hi :: buf, h =>
      simp only [decodeOperands] at h
      obtain ⟨f, rfl, hl⟩ := (narrow_eq_instr (by decide)).1 h
      obtain ⟨len, hlen, ⟨⟩⟩ := u16bytes_of_narrowLen hl
      rw [encode, family_code_ofCode, hlen]
      rfl
  | readPad => obtain ⟨ix, rfl, ⟨⟩⟩ := arity1_eq_instr.1 h; rfl
  | buttonEdge => obtain ⟨ix, rfl, ⟨⟩⟩ := arity1_eq_instr.1 h; rfl
  | commitEdges => obtain ⟨ix, rfl, ⟨⟩⟩ := arity1_eq_instr.1 h; rfl
  | isDown => obtain ⟨ix, code, rfl, ⟨⟩⟩ := arity2_eq_instr.1 h; rfl
  | wasPressed => obtain ⟨ix, code, rfl, ⟨⟩⟩ := arity2_eq_instr.1 h; rfl
  | setRumble => obtain ⟨ix, left, right, rfl, ⟨⟩⟩ := arity3_eq_instr.1 h; rfl
  | setLed => obtain ⟨ix, q, rfl, ⟨⟩⟩ := arity2_eq_instr.1 h; rfl
  | setCpled => obtain ⟨ix, bits, rfl, ⟨⟩⟩ := arity2_eq_instr.1 h; rfl
  | feedbackTick =>
    obtain ⟨ix, b0, b1, b2, b3, rfl, ⟨⟩⟩ := arity5_eq_instr.1 h
    rw [encode, u32bytes_u32le]
  | slotWrite =>
    match ops, h with
    | k :: b :: bytes, h =>
      simp only [decodeOperands] at h
      obtain ⟨tf, rfl, ⟨⟩⟩ := (narrow_eq_instr (by decide)).1 h
      rfl
  | slotRead =>
    obtain ⟨k, b, rfl, hb⟩ := arity2_eq_instr.1 h
    obtain ⟨tf, rfl, ⟨⟩⟩ := (narrow_eq_instr (by decide)).1 hb
    rfl
  | coordPoll => obtain ⟨rfl, ⟨⟩⟩ := arity0_eq_instr.1 h; rfl
  | coordPing => obtain ⟨k, rfl, ⟨⟩⟩ := arity1_eq_instr.1 h; rfl
  | peerReceive =>
    match ops, h with
    | lo :: hi :: t, h =>
      simp only [decodeOperands] at h
      split at h
      · rename_i ht
        cases h
        rw [encode, ht, BitVec.ofNat_toNat, BitVec.setWidth_eq, u16bytes_append_bytes]
        rfl
      · cases h
  | peerRequest => obtain ⟨rfl, ⟨⟩⟩ := arity0_eq_instr.1 h; rfl
  | peerSetOut =>
    match ops, h with
    | b :: bytes, h =>
      simp only [decodeOperands] at h
      obtain ⟨tf, rfl, ⟨⟩⟩ := (narrow_eq_instr (by decide)).1 h
      rfl
  | peerRead => obtain ⟨rfl, ⟨⟩⟩ := arity0_eq_instr.1 h; rfl

end Sys2Proof
end

section
/-!
SUPPORT. The bus frames of spec/30_encoding.md rule R97 as a table read both ways, and with the
port's words the round trip of every instruction that is no upstream packet.
-/

namespace Sys2Proof

/-! ### The table of R97 -/

/-- The status frame of a target family as an instruction. -/
def TargetFamily.frameInstr : TargetFamily → Bytes → Instr
  | .disconnected => .statusDisc
  | .standard => .statusStd
  | .cockpit => .statusCockpit

/-- The rows of R97's table: a transaction and the frame it is. -/
inductive IsFrame : Bytes → Instr → Prop
  | ping (rest : Bytes) : IsFrame (pingByte :: rest) (.ping rest)
  | status (tf : TargetFamily) (rest : Bytes) :
      IsFrame (statusByte tf.code :: rest) (tf.frameInstr rest)
  | reserved (fam : BitVec 4) (rest : Bytes) (hfam : 3 ≤ fam.toNat) :
      IsFrame (statusByte fam :: rest) (.statusReserved fam rest)

theorem decodeFrame_status (tf : TargetFamily) (rest : Bytes) :
    decodeFrame (statusByte tf.code :: rest) = .instr (tf.frameInstr rest) := by
  cases tf <;> rfl

theorem decodeFrame_reserved {fam : BitVec 4} (hfam : 3 ≤ fam.toNat) (rest : Bytes) :
    decodeFrame (statusByte fam :: rest) = .instr (.statusReserved fam rest) := by
  simp [decodeFrame, statusByte_ne_ping, targetFamily_ofCode_none.2 hfam]

/-- A first byte that is neither the ping nor a status byte starts no frame. -/
theorem decodeFrame_other {b : Byte} (hp : b ≠ pingByte) (ht : tagOf b ≠ statusTag)
    (rest : Bytes) : decodeFrame (b :: rest) = .reject .notAFrame := by
  rw [decodeFrame, if_neg hp, if_neg ht]

/-- The frame decoder answers exactly the rows of R97's table. -/
theorem decodeFrame_eq_instr {t : Bytes} {i : Instr} : decodeFrame t = .instr i ↔ IsFrame t i := by
  constructor
  · intro h
    match t, h with
    | b :: rest, h =>
      by_cases hp : b = pingByte
      · subst hp
        cases h
        exact .ping rest
      by_cases ht : tagOf b = statusTag
      · obtain ⟨fam, rfl⟩ : ∃ fam, statusByte fam = b := ⟨_, statusByte_of_tag ht⟩
        cases hf : TargetFamily.ofCode fam with
        | none =>
          have hfam := targetFamily_ofCode_none.1 hf
          rw [decodeFrame_reserved hfam] at h
          cases h
          exact .reserved fam rest hfam
        | some tf =>
          obtain rfl := targetFamily_code_of_ofCode hf
          rw [decodeFrame_status] at h
          cases h
          exact .status tf rest
      · rw [decodeFrame_other hp ht] at h
        cases h
  · rintro (rest | ⟨tf, rest⟩ | ⟨fam, rest, hfam⟩)
    · rfl
    · exact decodeFrame_status tf rest
    · exact decodeFrame_reserved hfam rest

/-- The encoding of a frame is its transaction. -/
theorem IsFrame.encode_eq {t : Bytes} {i : Instr} (h : IsFrame t i) (l : List Kind) :
    encode l i = ⟨.busFrame, t⟩ := by
  cases h with
  | ping rest => rfl
  | status tf rest => cases tf <;> rfl
  | reserved fam rest hfam => rfl

/-! ### Decoding an encoding -/

/-- Only the upstream packet kinds are encoded on the host stack's channel. -/
theorem isPacket_eq_false {l : List Kind} {i : Instr}
    (h : ∀ hd, (encode l i).channel ≠ .upstream hd) : i.isPacket = false := by
  cases i with
  | pad hd | presence hd | chatpad hd | reinit hd => exact absurd rfl (h hd)
  | _ => rfl

/-- An operation, a frame or a response reads back from its encoding.  Two rows carry a premise: a
PEER_RECEIVE's length fits its u16 (R81), and a reserved nibble names no family of R17 (R97). -/
theorem decode_encode {l : List Kind} {i : Instr} (hi : i.isPacket = false)
    (hlen : ∀ t, i = .peerReceive t → t.length < 65536)
    (hfam : ∀ fam rest, i = .statusReserved fam rest → 3 ≤ fam.toNat) :
    decode l (encode l i) = .instr i := by
  cases i with
  | detach | readPad | buttonEdge | commitEdges | isDown | wasPressed | setRumble | setLed
  | setCpled | coordPoll | coordPing | peerRequest | peerRead => exact decode_port_cons ..
  | reset | attach | slotWrite | slotRead | peerSetOut =>
    simp [encode, decodeOperands, arity1, arity2, arity5, narrow_setWidth]
  | decode =>
    simp [encode, decodeOperands, u16bytes, narrow_setWidth, narrowLen_u16bytes]
  | feedbackTick =>
    simp [encode, decodeOperands, arity5, u32bytes, u32le_u32bytes]
  | peerReceive t =>
    have ht : t.length % 65536 = t.length := Nat.mod_eq_of_lt (hlen t rfl)
    simp [encode, decodeOperands, u16bytes, u16bytes_append, ht]
  | statusDisc rest => exact decodeFrame_eq_instr.2 (.status .disconnected rest)
  | statusStd report => exact decodeFrame_eq_instr.2 (.status .standard report)
  | statusCockpit report => exact decodeFrame_eq_instr.2 (.status .cockpit report)
  | statusReserved fam rest =>
    exact decodeFrame_eq_instr.2 (.reserved fam rest (hfam fam rest rfl))
  | ping rest => exact decodeFrame_eq_instr.2 (.ping rest)
  | response k rx => rfl
  | pad | presence | chatpad | reinit => cases hi

end Sys2Proof
end

section
/-!
SUPPORT. The canonical bits a button list assembles (spec/30_encoding.md rule R86), entry by entry.
-/

namespace Sys2Proof

/-- The entry names canonical bit `b` and its condition holds in the buffer (R86). -/
def ButtonEntry.Presses (buf : Bytes) (b : Nat) : ButtonEntry → Prop
  | .bit off v m => m.getLsbD b = true ∧ rd8 buf off &&& v ≠ 0
  | .ana off m => m.getLsbD b = true ∧ 0x20 < (rd8 buf off).toNat

theorem getLsbD_ite_iff {m : BitVec 16} {p : Prop} [Decidable p] {b : Nat} :
    (if p then m else 0).getLsbD b = true ↔ m.getLsbD b = true ∧ p := by
  split <;> simp [*]

/-- An entry contributes exactly the bits it presses (R86). -/
theorem ButtonEntry.getLsbD_bits_iff {e : ButtonEntry} {buf : Bytes} {b : Nat} :
    (e.bits buf).getLsbD b = true ↔ e.Presses buf b := by
  cases e with
  | bit off v m => exact getLsbD_ite_iff
  | ana off m => exact getLsbD_ite_iff

/-- A canonical bit is set by the entries before it or by one of the list. -/
theorem getLsbD_foldl_bits (es : List ButtonEntry) (buf : Bytes) (acc : BitVec 16) (b : Nat) :
    (es.foldl (fun acc e => acc ||| e.bits buf) acc).getLsbD b = true ↔
      acc.getLsbD b = true ∨ ∃ e ∈ es, e.Presses buf b := by
  induction es generalizing acc with
  | nil => simp
  | cons e es ih =>
    rw [List.foldl_cons, ih, BitVec.getLsbD_or, Bool.or_eq_true, ButtonEntry.getLsbD_bits_iff,
      or_assoc, List.exists_mem_cons_iff]

theorem getLsbD_assembleButtons_iff {es : List ButtonEntry} {buf : Bytes} {b : Nat} :
    (assembleButtons es buf).getLsbD b = true ↔ ∃ e ∈ es, e.Presses buf b := by
  simp [assembleButtons, getLsbD_foldl_bits]

end Sys2Proof
end

section
/-!
SUPPORT. What a peer does with a transaction (spec/42_transport.md rules R210, R211, R215), the same
for a frame as an instruction of its own (R97, R192).
-/

namespace Sys2Proof.Machine

/-! ### The peer's transactions (R97, R210, R211) -/

theorem exec_frameInstr (tf : TargetFamily) (rest : Bytes) (s : State) :
    exec (tf.frameInstr rest) s = accept .peer true s (acceptStatus tf rest) := by
  cases tf <;> rfl

/-- A status byte of a family of R17 is accepted or discarded by its family's length (R210). -/
theorem peerReceiveOp_status (tf : TargetFamily) (rest : Bytes) :
    peerReceiveOp (statusByte tf.code :: rest) = acceptStatus tf rest := by
  cases tf <;> rfl

/-- A reserved status byte discards the transaction (R210). -/
theorem peerReceiveOp_reserved {fam : BitVec 4} (hfam : 3 ≤ fam.toNat) (rest : Bytes) :
    peerReceiveOp (statusByte fam :: rest) =
      rejectFrame .tag (statusByte fam) (rest.length + 1) := by
  funext s
  simp [peerReceiveOp, statusByte_ne_ping, targetFamily_ofCode_none.2 hfam]

/-- A frame as an instruction is PEER_RECEIVE of its transaction (R97, R192). -/
theorem exec_isFrame {t : Bytes} {i : Instr} (h : IsFrame t i) (s : State) :
    exec i s = exec (.peerReceive t) s := by
  rw [exec_peerReceive]
  cases h with
  | ping rest => rfl
  | status tf rest => rw [exec_frameInstr, peerReceiveOp_status]
  | reserved fam rest hfam =>
    rw [exec_statusReserved, decide_eq_true hfam, peerReceiveOp_reserved hfam]

theorem statusByte_eq_or (fam : BitVec 4) : statusByte fam = 0xF0#8 ||| fam.setWidth 8 := by
  revert fam; decide

/-! ### Only the peer's half -/

namespace PeerHalf

variable {s t : State}

theorem noDraw (h : PeerHalf s t) : NoDraw s t := ⟨h.upTape, h.errTape, h.rxTape, h.drawCount⟩

theorem sameControl (h : PeerHalf s t) : SameControl s t := ⟨h.cfg, h.nodeId, h.booted, h.inputs⟩

theorem sameRecords (h : PeerHalf s t) : SameRecords s t :=
  ⟨maxDev_congr h.pool, fun j _ => dev_congr h.pool h.cfg j⟩

theorem slot_eq (h : PeerHalf s t) (k : Fin 4) : t.slot k = s.slot k := slot_congr h.slots k

theorem sameFamiliesButPeer (h : PeerHalf s t) : SameFamiliesBut (fun _ => False) True s t :=
  ⟨fun k _ => by rw [h.slot_eq], fun hn => absurd trivial hn⟩

/-- With the peer's slot unchanged too, only the output ports may differ. -/
theorem onlyOutputs (h : PeerHalf s t) (hp : t.peer = s.peer) : OnlyOutputs s t where
  control := h.sameControl
  draws := h.noDraw
  records := h.sameRecords
  families := ⟨fun k _ => by rw [h.slot_eq], fun _ => by rw [hp]⟩
  bytes := fun b off _ => by
    have hbuf : t.buffer b = s.buffer b := by
      cases b with
      | coordIn k cp | coordOut k cp => cases cp <;> simp only [State.buffer, h.slot_eq]
      | peerIn cp | peerOut cp => cases cp <;> simp only [State.buffer, hp]
    rw [State.readByte, State.readByte, hbuf]

/-- An in-report written into the peer's slot changes no other buffer. -/
theorem sameBytesBut_setIn (h : PeerHalf s t) {tf : TargetFamily} {rest : Bytes}
    (hp : t.peer = { s.peer with tf := tf }.setIn tf rest) :
    SameBytesBut (fun b _ => tf ≠ .disconnected ∧ b = .peerIn (isCockpit tf)) s t := by
  intro b off hb
  have hbuf : t.buffer b = s.buffer b := by
    cases b with
    | coordIn k cp | coordOut k cp => cases cp <;> simp only [State.buffer, h.slot_eq]
    | peerOut cp => cases cp <;> cases tf <;> simp only [State.buffer, hp, CtrlSlot.setIn]
    | peerIn cp =>
      cases tf with
      | disconnected => cases cp <;> simp only [State.buffer, hp, CtrlSlot.setIn]
      | standard =>
        cases cp with
        | false => exact absurd ⟨by decide, rfl⟩ hb
        | true => simp only [State.buffer, hp, CtrlSlot.setIn]
      | cockpit =>
        cases cp with
        | false => simp only [State.buffer, hp, CtrlSlot.setIn]
        | true => exact absurd ⟨by decide, rfl⟩ hb
  rw [State.readByte, State.readByte, hbuf]

end PeerHalf

/-- The peer's in-report of a connected family reads the bytes written into it. -/
theorem readByte_peerIn_setIn {t : State} {p : CtrlSlot} {tf : TargetFamily} {rest : Bytes}
    (hp : t.peer = p.setIn tf rest) (htf : tf ≠ .disconnected) (off : Nat) :
    t.readByte (.peerIn (isCockpit tf)) off = rest[off]? := by
  have hbuf : t.buffer (.peerIn (isCockpit tf)) = rest := by
    cases tf with
    | disconnected => exact absurd rfl htf
    | standard => exact congrArg CtrlSlot.inStd hp
    | cockpit => exact congrArg CtrlSlot.inCockpit hp
  rw [State.readByte, hbuf]

/-! ### What the peer does with a frame (R210, R211, R215) -/

/-- A discarded transaction leaves no trace but E8. -/
theorem rejectFrame_answers (why : FrameError) (b : Byte) (n : Nat) (s : State) :
    OnlyOutputs s (rejectFrame why b n s) ∧
      Answers .none [.diag (.frameReject why b n)] s (rejectFrame why b n s) :=
  ⟨(PeerHalf.rejectFrame why b n s).onlyOutputs rfl, rfl, rfl⟩

/-- A ping is acknowledged and changes no state. -/
theorem acceptPing_answers (s : State) :
    OnlyOutputs s (acceptPing s) ∧ Answers .none [.ackPing] s (acceptPing s) :=
  ⟨PeerHalf.onlyOutputs ⟨rfl, rfl, rfl, rfl, rfl, rfl, rfl, rfl, rfl, rfl⟩ rfl, rfl, rfl⟩

/-- An accepted status frame: the family and its in-report, and FAMILY_CHANGED iff it changed. -/
theorem acceptStatus_of_length {tf : TargetFamily} {rest : Bytes} {s : State}
    (hlen : rest.length = s.cfg.inLen tf) :
    (acceptStatus tf rest s).peer = { s.peer with tf := tf }.setIn tf rest ∧
      Answers .none (if s.peer.tf ≠ tf then [.familyChanged tf] else []) s
        (acceptStatus tf rest s) := by
  unfold acceptStatus
  rw [if_pos hlen]
  dsimp only
  split
  · exact ⟨rfl, rfl, rfl⟩
  · exact ⟨rfl, rfl, (List.append_nil _).symm⟩

/-- A status frame of another length is discarded whole. -/
theorem acceptStatus_of_length_ne {tf : TargetFamily} {rest : Bytes} {s : State}
    (hlen : rest.length ≠ s.cfg.inLen tf) :
    acceptStatus tf rest s = rejectFrame .len (statusByte tf.code) (rest.length + 1) s :=
  if_neg hlen

end Sys2Proof.Machine
end

section
/-!
SUPPORT. The operands R82 refuses, check by check.
-/

namespace Sys2Proof.Machine

/-- A ready node refuses an operation whose operands are out of range (R82). -/
theorem accept_operandRange {role : Role} {s : State} (h : Ready role s) {legal : Bool}
    (hl : legal = false) (act : State → State) :
    accept role legal s act = .refused .operandRange := by
  rw [accept_of_ready h, hl]
  rfl

theorem slotLegal_eq_false {s : State} {i : Byte} (h : s.maxDev ≤ i.toNat) :
    s.slotLegal i = false := decide_eq_false (Nat.not_lt.2 h)

theorem isPlayer_eq_false {k : Byte} (h : 4 ≤ k.toNat) : isPlayer k = false :=
  decide_eq_false (Nat.not_lt.2 h)

theorem isPeer_eq_false {k : Byte} (h : k.toNat = 0 ∨ 3 < k.toNat) : isPeer k = false := by
  rw [isPeer, Bool.and_eq_false_iff, decide_eq_false_iff_not, decide_eq_false_iff_not]
  unfold numPeers
  omega

theorem isReportFamily_eq_false {tf : BitVec 4} (h : tf.toNat = 0 ∨ 2 < tf.toNat) :
    isReportFamily tf = false := by
  revert tf; decide

theorem inReportOk_eq_false_of_family {tf : BitVec 4} (h : 2 < tf.toNat) (c : Config)
    (bytes : Bytes) : inReportOk c tf bytes = false := by
  rw [inReportOk, targetFamily_ofCode_none.2 h]

theorem inReportOk_eq_false_of_length {c : Config} {f : TargetFamily} {bytes : Bytes}
    (h : bytes.length ≠ c.inLen f) : inReportOk c f.code bytes = false := by
  rw [inReportOk, targetFamily_ofCode_code]
  exact beq_false_of_ne h

theorem outReportOk_eq_false_of_family {tf : BitVec 4} (h : tf.toNat = 0 ∨ 2 < tf.toNat)
    (c : Config) (bytes : Bytes) : outReportOk c tf bytes = false := by
  have hf : TargetFamily.ofCode tf = some .disconnected ∨ TargetFamily.ofCode tf = none := by
    revert tf; decide
  unfold outReportOk
  rcases hf with hf | hf <;> rw [hf]

theorem outReportOk_eq_false_of_length {c : Config} {f : TargetFamily} {bytes : Bytes}
    (h : bytes.length ≠ c.outLen f) : outReportOk c f.code bytes = false := by
  rw [outReportOk, targetFamily_ofCode_code]
  cases f with
  | disconnected => rfl
  | standard => exact beq_false_of_ne h
  | cockpit => exact beq_false_of_ne h

/-- A PEER_RECEIVE word whose length operand is not its byte string's length is rejected (R82). -/
theorem decodePort_peerReceive_mismatch {lo hi : Byte} {t : Bytes}
    (h : t.length ≠ lo.toNat + 256 * hi.toNat) :
    decodePort (0x20 :: lo :: hi :: t) = .reject .lengthMismatch := by
  refine (decodePort_cons .peerReceive _).trans ?_
  rw [decodeOperands, toNat_append_byte, if_neg h]

end Sys2Proof.Machine
end

section
/-!
SUPPORT. A step by the input it takes (spec/60_exceptions.md rule R239): what each channel's fetch
answers.
-/

namespace Sys2Proof.Machine

theorem step_of_fetch_instr {s : State} {x : Input} {rest : List Input} {i : Instr}
    (hs : s.inputs = x :: rest) (hf : fetch { s with inputs := rest } x = .instr i) :
    step s = exec i { s with inputs := rest } := by
  simp only [step, takeInput, hs, hf]

theorem step_of_fetch_reject {s : State} {x : Input} {rest : List Input} {r : Reject}
    (hs : s.inputs = x :: rest) (hf : fetch { s with inputs := rest } x = .reject r) :
    step s = .refused (.badWord r) := by
  simp only [step, takeInput, hs, hf]

theorem fetchFrame_of_instr {t : Bytes} {i : Instr} (h : decodeFrame t = .instr i) :
    fetchFrame t = .instr i := by
  simp only [fetchFrame, h]

theorem fetchFrame_of_reject {t : Bytes} {r : Reject} (h : decodeFrame t = .reject r) :
    fetchFrame t = .instr (.peerReceive t) := by
  simp only [fetchFrame, h]

/-- A packet the layout of its family recognises is the instruction of its kind (R140, R239). -/
theorem fetchPacket_of_instr {s : State} {h : PacketHeader} {buf : Bytes} {i : Instr}
    (hlen : buf.length ≤ 256) (ha : h.addr ≠ 0)
    (hsup : s.cfg.isSupported (s.familyFor h) = true)
    (hd : decodePacket (s.cfg.layout (s.familyFor h)) h buf = .instr i) :
    fetchPacket s h buf = .instr i := by
  rw [fetchPacket, if_pos ⟨hlen, ha, hsup⟩, hd]

/-- Any other packet is a DECODE of its buffer. -/
theorem fetchPacket_of_unrecognised {s : State} {h : PacketHeader} {buf : Bytes}
    (hun : 256 < buf.length ∨ h.addr = 0 ∨ s.cfg.isSupported (s.familyFor h) = false ∨
      classify (s.cfg.layout (s.familyFor h)) buf = none) :
    fetchPacket s h buf = .instr (decodeOfPacket h buf) := by
  by_cases hc : buf.length ≤ maxLen ∧ h.addr ≠ 0 ∧ s.cfg.isSupported (s.familyFor h) = true
  · obtain ⟨hlen, ha, hsup⟩ := hc
    have hclass : classify (s.cfg.layout (s.familyFor h)) buf = none := by
      rcases hun with hun | hun | hun | hun
      · exact absurd hlen (Nat.not_le.2 hun)
      · exact absurd hun ha
      · simp [hsup] at hun
      · exact hun
    rw [fetchPacket, if_pos ⟨hlen, ha, hsup⟩, decodePacket, hclass]
  · rw [fetchPacket, if_neg hc]

end Sys2Proof.Machine
end

section
/-!
SUPPORT. COMMIT_EDGES on one slot and on a list of slots (spec/40_decoder.md rule R151,
spec/30_encoding.md rule R83).
-/

namespace Sys2Proof.Machine

/-- A ready node stays ready under any operation but RESET (R20, R22, R75). -/
theorem Ready.of_exec {r : Role} {i : Instr} {s t : State} (h : Ready r s)
    (hi : ∀ id, i ≠ .reset id) (he : exec i s = .next t) : Ready r t := by
  have heff := exec_effect hi he
  obtain ⟨hcfg, hid, hboot, -⟩ := heff.control
  exact
    { params := by rw [State.paramsWf, hcfg, heff.count]; exact h.params
      booted := hboot.trans h.booted
      role := by rw [State.role, hid]; exact h.role }

/-- A record after COMMIT_EDGES of its slot (R151). -/
def DeviceRecord.committed (r : DeviceRecord) : DeviceRecord :=
  if r.live then { r with prevButtons := r.pad.buttons } else r

@[simp] theorem committed_committed (r : DeviceRecord) : r.committed.committed = r.committed := by
  unfold DeviceRecord.committed
  split <;> simp_all [DeviceRecord.live]

/-- The record an update of slot `i` writes, and the others it leaves. -/
theorem dev_updateLive {s : State} {i : Nat} (f : DeviceRecord → DeviceRecord) (hi : i < s.maxDev)
    (j : Nat) : (s.updateLive i f).dev j =
      if j = i then (if (s.dev i).live then f (s.dev i) else s.dev i) else s.dev j := by
  unfold State.updateLive
  by_cases hj : j = i
  · subst hj
    split <;> simp [hi]
  · rw [if_neg hj]
    split
    · exact dev_setRec_other hj _
    · rfl

/-- COMMIT_EDGES of a slot commits its record and leaves the others (R151). -/
theorem exec_commitEdges_next {s : State} (hs : Ready .coordinator s) {i : Nat}
    (hi : i < s.maxDev) :
    ∃ t, exec (.commitEdges (BitVec.ofNat 8 i)) s = .next t ∧
      ∀ j, t.dev j = if j = i then (s.dev j).committed else s.dev j := by
  have hi8 : (BitVec.ofNat 8 i).toNat = i := by
    have hmax := hs.params
    simp only [State.paramsWf, Bool.and_eq_true, decide_eq_true_eq] at hmax
    exact Nat.mod_eq_of_lt (by omega)
  have hlegal : s.slotLegal (BitVec.ofNat 8 i) = true := (slotLegal_iff s).2 (hi8.symm ▸ hi)
  refine ⟨_, by rw [exec_commitEdges, hlegal, accept_ready hs], fun j => ?_⟩
  rw [dev_ret, hi8, dev_updateLive _ hi]
  split
  · subst j
    rfl
  · rfl

/-- Committing slots one after another commits exactly their records. -/
theorem runInstrs_commitEdges (is : List Nat) {s : State} (hs : Ready .coordinator s)
    (his : ∀ i ∈ is, i < s.maxDev) :
    ∃ t, runInstrs (is.map fun i => .commitEdges (BitVec.ofNat 8 i)) s = .next t ∧
      t.maxDev = s.maxDev ∧ ∀ j, t.dev j = if j ∈ is then (s.dev j).committed else s.dev j := by
  induction is generalizing s with
  | nil => exact ⟨s, rfl, rfl, fun j => by simp⟩
  | cons i is ih =>
    obtain ⟨u, hu, hdev⟩ := exec_commitEdges_next hs (his i (by simp))
    have hcount : u.maxDev = s.maxDev := (exec_effect (by simp) hu).count
    obtain ⟨t, ht, htcount, htdev⟩ := ih (hs.of_exec (by simp) hu)
      (fun k hk => hcount ▸ his k (List.mem_cons_of_mem _ hk))
    refine ⟨t, ?_, htcount.trans hcount, fun j => ?_⟩
    · rw [List.map_cons, runInstrs, hu]
      exact ht
    · rw [htdev, hdev]
      by_cases hj : j = i <;> simp [hj]

end Sys2Proof.Machine
end

section
/-!
The obligations about the encodings and the operations they are decoded to, settled by the lemmas
above.
-/

namespace Sys2Proof.Machine

/-- Settles O3: the round trip of every instruction that is no packet, whose two premises are what
well-formedness says of PEER_RECEIVE and of a reserved frame. -/
theorem decodeOfEncodeIsIdentity : Obligations.DecodeOfEncodeIsIdentity := by
  unfold Obligations.DecodeOfEncodeIsIdentity
  intro c maxDev l i hwf hport
  refine decode_encode (isPacket_eq_false hport) ?_ ?_
  · rintro t rfl
    simpa [Instr.wellFormed] using hwf
  · rintro fam rest rfl
    simpa [Instr.wellFormed] using hwf

/-- Settles O4: a port word by its OPC and its operands, a frame by its row of R97. -/
theorem acceptedWordsHaveOneReading : Obligations.AcceptedWordsHaveOneReading := by
  unfold Obligations.AcceptedWordsHaveOneReading
  refine ⟨fun l b i h => ?_, fun l t i h => (decodeFrame_eq_instr.1 h).encode_eq l⟩
  obtain ⟨o, ops, rfl, hops⟩ := decodePort_eq_instr h
  exact encode_of_decodeOperands l hops

/-- Settles O15: the two disjuncts are the two forms of an entry that presses the bit. -/
theorem buttonReadsItsEntries : Obligations.ButtonReadsItsEntries := by
  unfold Obligations.ButtonReadsItsEntries
  intro es buf b
  rw [getLsbD_assembleButtons_iff]
  constructor
  · rintro ⟨e, he, hp⟩
    cases e with
    | bit off bit m => exact .inl ⟨off, bit, m, he, hp⟩
    | ana off m => exact .inr ⟨off, m, he, hp⟩
  · rintro (⟨off, bit, m, he, hp⟩ | ⟨off, m, he, hp⟩)
    · exact ⟨_, he, hp⟩
    · exact ⟨_, he, hp⟩

/-- Settles O44: the frame's row of R97 gives both its meaning and its encoding. -/
theorem frameIsItsTransaction : Obligations.FrameIsItsTransaction := by
  unfold Obligations.FrameIsItsTransaction
  intro s l t i h
  have hframe := decodeFrame_eq_instr.1 h
  exact ⟨exec_isFrame hframe s, hframe.encode_eq l⟩

/-- Settles O60: the live slots are committed one after another, each below `MAX_DEV`. -/
theorem commitAllCommitsEveryLiveSlot : Obligations.CommitAllCommitsEveryLiveSlot := by
  unfold Obligations.CommitAllCommitsEveryLiveSlot
  intro s hs
  have hlive : ∀ j, j ∈ s.liveSlots ↔ j < s.maxDev ∧ (s.dev j).live = true := fun j => by
    rw [State.liveSlots, List.mem_filter, List.mem_range]
  obtain ⟨t, hrun, hcount, hdev⟩ :=
    runInstrs_commitEdges s.liveSlots hs fun i hi => ((hlive i).1 hi).1
  refine ⟨t, hrun, hcount, fun j hj => ?_⟩
  rw [hdev]
  by_cases hl : (s.dev j).live = true
  · rw [if_pos ((hlive j).2 ⟨hj, hl⟩), if_pos (live_iff.1 hl), DeviceRecord.committed, if_pos hl]
  · rw [if_neg (fun h => hl ((hlive j).1 h).2), if_neg (fun h => hl (live_iff.2 h))]

/-- Settles O1: each channel's fetch, on the state without the input. -/
theorem stepRunsTheDecodedInstruction : Obligations.StepRunsTheDecodedInstruction := by
  unfold Obligations.StepRunsTheDecodedInstruction
  refine fun s => ⟨fun hs => by simp only [step, takeInput, hs], fun x rest hs => ?_⟩
  refine ⟨?_, ?_, ?_, ?_, ?_, ?_, ?_⟩
  · rintro b i rfl hd
    exact step_of_fetch_instr hs hd
  · rintro b r rfl hd
    exact step_of_fetch_reject hs hd
  · rintro t i rfl hd
    exact step_of_fetch_instr hs (fetchFrame_of_instr hd)
  · rintro t r rfl hd
    exact step_of_fetch_instr hs (fetchFrame_of_reject hd)
  · rintro k rx rfl
    exact step_of_fetch_instr hs rfl
  · rintro h buf i rfl hlen ha hsup hd
    exact step_of_fetch_instr hs (fetchPacket_of_instr hlen ha hsup hd)
  · rintro h buf rfl hun
    exact step_of_fetch_instr hs (fetchPacket_of_unrecognised hun)

/-- Settles O2: the words are closed, so the decoders are run on them. -/
theorem specWordsDecode : Obligations.SpecWordsDecode := by
  unfold Obligations.SpecWordsDecode
  decide

/-- Settles O10: each operation's legality check fails on its out-of-range operands. -/
theorem outOfRangeOperandsAreRefused : Obligations.OutOfRangeOperandsAreRefused := by
  unfold Obligations.OutOfRangeOperandsAreRefused
  refine ⟨fun s hs => ⟨fun i hi => ?_, fun k tf bytes hk => ?_, fun k hk => ?_,
    fun k tf bytes htf => ?_, fun k tf htf => ?_, fun k f bytes hlen => ?_,
    fun h len buf hlen => ?_, fun h len buf hlen _ => ?_⟩,
    fun s hs => ⟨fun tf bytes htf => ?_, fun f bytes hlen => ?_⟩,
    fun lo hi t => decodePort_peerReceive_mismatch⟩
  · have hslot := accept_operandRange hs (slotLegal_eq_false hi)
    exact ⟨(exec_readPad s i).trans (hslot _), (exec_buttonEdge s i).trans (hslot _),
      (exec_commitEdges s i).trans (hslot _), fun x => (exec_isDown s i x).trans (hslot _),
      fun x => (exec_wasPressed s i x).trans (hslot _),
      fun l r => (exec_setRumble s i l r).trans (hslot _),
      fun q => (exec_setLed s i q).trans (hslot _), fun b => (exec_setCpled s i b).trans (hslot _),
      fun now => (exec_feedbackTick s i now).trans (hslot _)⟩
  · have hl := isPlayer_eq_false hk
    exact ⟨accept_operandRange hs (by rw [hl, Bool.false_and]) _,
      accept_operandRange hs (by rw [hl, Bool.false_and]) _⟩
  · exact accept_operandRange hs (isPeer_eq_false hk) _
  · exact accept_operandRange hs (by rw [inReportOk_eq_false_of_family htf, Bool.and_false]) _
  · exact accept_operandRange hs (by rw [isReportFamily_eq_false htf, Bool.and_false]) _
  · exact accept_operandRange hs (by rw [inReportOk_eq_false_of_length hlen, Bool.and_false]) _
  · exact accept_operandRange hs (beq_false_of_ne hlen) _
  · exact ⟨_, by rw [exec_decode, beq_iff_eq.2 hlen, accept_ready hs]⟩
  · exact accept_operandRange hs (outReportOk_eq_false_of_family htf _ _) _
  · exact accept_operandRange hs (outReportOk_eq_false_of_length hlen) _

/-- Settles O45: a status frame is accepted or discarded by its length, in the peer's half of the
state only. -/
theorem busFramesComplete : Obligations.BusFramesComplete := by
  unfold Obligations.BusFramesComplete
  intro s rest hs
  refine ⟨fun f i hi => ?_, fun fam hfam => ?_, ?_⟩
  · have hi' : i = f.frameInstr rest := by
      rcases hi with ⟨rfl, rfl⟩ | ⟨rfl, rfl⟩ | ⟨rfl, rfl⟩ <;> rfl
    have hhalf := PeerHalf.acceptStatus f rest s
    refine ⟨_, by rw [hi', exec_frameInstr, accept_ready hs], hhalf.noDraw, hhalf.sameControl,
      hhalf.sameRecords, fun hlen => ?_, fun hlen => ?_⟩
    · obtain ⟨hpeer, hans⟩ := acceptStatus_of_length hlen
      refine ⟨by rw [hpeer, setIn_tf], hhalf.sameFamiliesButPeer, hhalf.sameBytesBut_setIn hpeer,
        readByte_peerIn_setIn hpeer, hans⟩
    · rw [acceptStatus_of_length_ne hlen, ← statusByte_eq_or, Nat.add_comm]
      exact rejectFrame_answers ..
  · refine ⟨_, by rw [exec_statusReserved, decide_eq_true hfam, accept_ready hs], ?_⟩
    rw [← statusByte_eq_or, Nat.add_comm]
    exact rejectFrame_answers ..
  · exact ⟨_, by rw [exec_ping, accept_ready hs], acceptPing_answers s⟩

end Sys2Proof.Machine
end

section
/-!
SUPPORT. The synthetic PAD packet (spec/30_encoding.md rules R85, R86, R143): what the match bytes
and the pressed entries put in each byte, and when an entry reads pressed from it.
-/

namespace Sys2Proof

/-! ### One button entry -/

/-- The byte an entry reads (R86). -/
def ButtonEntry.offset : ButtonEntry → Nat
  | .bit off _ _ => off
  | .ana off _ => off

/-- The canonical bit an entry stands for (R86). -/
def ButtonEntry.cmask : ButtonEntry → BitVec 16
  | .bit _ _ m => m
  | .ana _ m => m

/-- The bits pressing the entry sets in its byte (R143). -/
def ButtonEntry.fill : ButtonEntry → Byte
  | .bit _ v _ => v
  | .ana _ _ => 0xFF

/-- The entry's condition: its bit is set, or its byte is above the analog cut (R86). -/
def ButtonEntry.Holds (buf : Bytes) : ButtonEntry → Prop
  | .bit off v _ => rd8 buf off &&& v ≠ 0
  | .ana off _ => 0x20 < (rd8 buf off).toNat

theorem ButtonEntry.presses_iff {e : ButtonEntry} {buf : Bytes} {b : Nat} :
    e.Presses buf b ↔ e.cmask.getLsbD b = true ∧ e.Holds buf := by
  cases e <;> rfl

theorem ButtonEntry.offset_lt {n : Nat} {e : ButtonEntry} (h : e.wf n = true) : e.offset < n := by
  cases e <;> simp_all [ButtonEntry.wf, ButtonEntry.offset]

theorem ButtonEntry.singleBit_cmask {n : Nat} {e : ButtonEntry} (h : e.wf n = true) :
    singleBit e.cmask = true := by
  cases e <;> simp_all [ButtonEntry.wf, ButtonEntry.cmask, canonicalBit]

theorem ButtonEntry.singleBit_of_wf_bit {n off : Nat} {v : Byte} {m : BitVec 16}
    (h : (ButtonEntry.bit off v m).wf n = true) : singleBit v = true := by
  simp_all [ButtonEntry.wf]

/-- A value with exactly one bit set has one position. -/
theorem exists_position_of_singleBit {w : Nat} {v : BitVec w} (h : singleBit v = true) :
    ∃ k, ∀ b, v.getLsbD b = true ↔ b = k := by
  obtain ⟨k, hk⟩ := singleBit_toNat h
  exact ⟨k, fun b => by simp [BitVec.getLsbD, hk, Nat.testBit_two_pow, eq_comm]⟩

/-- Single bits that share a position are equal. -/
theorem singleBit_ext {w : Nat} {u v : BitVec w} (hu : singleBit u = true)
    (hv : singleBit v = true) {b : Nat} (hub : u.getLsbD b = true) (hvb : v.getLsbD b = true) :
    u = v := by
  obtain ⟨k, hk⟩ := exists_position_of_singleBit hu
  obtain ⟨l, hl⟩ := exists_position_of_singleBit hv
  have hkl : k = l := ((hk b).1 hub).symm.trans ((hl b).1 hvb)
  refine BitVec.eq_of_getLsbD_eq fun i _ => Bool.eq_iff_iff.2 ?_
  rw [hk, hl, hkl]

/-- Two values overlap iff they share a set bit. -/
theorem and_ne_zero_iff {w : Nat} {u v : BitVec w} :
    u &&& v ≠ 0 ↔ ∃ b, u.getLsbD b = true ∧ v.getLsbD b = true := by
  constructor
  · intro h
    by_contra hno
    refine h (BitVec.eq_of_getLsbD_eq fun i _ => ?_)
    rw [BitVec.getLsbD_and, Bool.eq_false_iff.2 fun hi => hno ⟨i, Bool.and_eq_true_iff.1 hi⟩]
    exact BitVec.getLsbD_zero.symm
  · rintro ⟨b, hu, hv⟩ h
    have := congrArg (fun x => x.getLsbD b) h
    simp [hu, hv] at this

/-! ### What pressing writes -/

@[simp] theorem orByte_length (off : Nat) (v : Byte) (buf : Bytes) :
    (orByte off v buf).length = buf.length := List.length_set ..

theorem getLsbD_rd8_orByte {buf : Bytes} {off : Nat} (h : off < buf.length) (v : Byte)
    (o b : Nat) : (rd8 (orByte off v buf) o).getLsbD b = true ↔
      (rd8 buf o).getLsbD b = true ∨ (off = o ∧ v.getLsbD b = true) := by
  unfold orByte
  by_cases ho : o = off
  · subst ho
    simp [rd8_set_same h]
  · simp [rd8_set_other ho, Ne.symm ho]

/-- Pressing an entry sets its bits in its byte if the set names its canonical bit; an analog byte
of 0xFF has every bit set. -/
theorem ButtonEntry.press_eq (buttons : BitVec 16) (e : ButtonEntry) (buf : Bytes) :
    e.press buttons buf =
      if buttons &&& e.cmask ≠ 0 then orByte e.offset e.fill buf else buf := by
  cases e with
  | bit off v m => rfl
  | ana off m =>
    have hfull : rd8 buf off ||| 0xFF = 0xFF := BitVec.or_allOnes
    simp only [ButtonEntry.press, ButtonEntry.cmask, ButtonEntry.offset, ButtonEntry.fill, orByte,
      hfull]

/-- The entries of a list pressed one after another (R143). -/
def pressAll (es : List ButtonEntry) (buttons : BitVec 16) (buf : Bytes) : Bytes :=
  es.foldl (fun b e => e.press buttons b) buf

@[simp] theorem press_length (buttons : BitVec 16) (e : ButtonEntry) (buf : Bytes) :
    (e.press buttons buf).length = buf.length := by
  rw [ButtonEntry.press_eq]
  split
  · exact orByte_length ..
  · rfl

@[simp] theorem pressAll_length (es : List ButtonEntry) (buttons : BitVec 16) (buf : Bytes) :
    (pressAll es buttons buf).length = buf.length := by
  induction es generalizing buf with
  | nil => rfl
  | cons e es ih => exact (ih _).trans (press_length ..)

/-- A byte of the pressed buffer holds its old bits and those of the pressed entries on it. -/
theorem getLsbD_rd8_pressAll {es : List ButtonEntry} {buf : Bytes}
    (h : ∀ e ∈ es, e.offset < buf.length) (buttons : BitVec 16) (o b : Nat) :
    (rd8 (pressAll es buttons buf) o).getLsbD b = true ↔
      (rd8 buf o).getLsbD b = true ∨
        ∃ e ∈ es, buttons &&& e.cmask ≠ 0 ∧ e.offset = o ∧ e.fill.getLsbD b = true := by
  induction es generalizing buf with
  | nil => simp [pressAll]
  | cons e es ih =>
    have hstep : (rd8 (e.press buttons buf) o).getLsbD b = true ↔
        (rd8 buf o).getLsbD b = true ∨
          (buttons &&& e.cmask ≠ 0 ∧ e.offset = o ∧ e.fill.getLsbD b = true) := by
      rw [ButtonEntry.press_eq]
      split
      · rw [getLsbD_rd8_orByte (h e (by simp))]
        tauto
      · tauto
    rw [pressAll, List.foldl_cons, ← pressAll,
      ih (fun e' he' => by simpa using h e' (List.mem_cons_of_mem _ he')), hstep, or_assoc,
      List.exists_mem_cons_iff]

/-- A byte no entry reads keeps its value. -/
theorem rd8_pressAll_of_offset_ne {es : List ButtonEntry} {buf : Bytes} {o : Nat}
    (hlt : ∀ e ∈ es, e.offset < buf.length) (hne : ∀ e ∈ es, e.offset ≠ o)
    (buttons : BitVec 16) : rd8 (pressAll es buttons buf) o = rd8 buf o := by
  refine BitVec.eq_of_getLsbD_eq fun b _ => Bool.eq_iff_iff.2 ?_
  rw [getLsbD_rd8_pressAll hlt]
  exact or_iff_left fun ⟨e, he, _, ho, _⟩ => hne e he ho

/-! ### The match bytes -/

/-- The match bytes of a kind written into a buffer (R143). -/
def putMatches (ms : List MatchTriple) (buf : Bytes) : Bytes :=
  ms.foldl (fun buf m => buf.set m.off m.val) buf

theorem blank_eq (k : Kind) :
    k.blank = putMatches k.matchOn (List.replicate k.minLen 0) := rfl

@[simp] theorem putMatches_length (ms : List MatchTriple) (buf : Bytes) :
    (putMatches ms buf).length = buf.length := by
  induction ms generalizing buf with
  | nil => rfl
  | cons m ms ih => exact (ih _).trans List.length_set

theorem rd8_putMatches_of_off_ne {ms : List MatchTriple} {o : Nat} (h : ∀ m ∈ ms, m.off ≠ o)
    (buf : Bytes) : rd8 (putMatches ms buf) o = rd8 buf o := by
  induction ms generalizing buf with
  | nil => rfl
  | cons m ms ih =>
    exact (ih (fun m' hm' => h m' (List.mem_cons_of_mem _ hm')) _).trans
      (rd8_set_other (h m (by simp)).symm _)

/-- Where each match byte is named once, it reads its value. -/
theorem rd8_putMatches {ms : List MatchTriple} {buf : Bytes}
    (hlt : ∀ m ∈ ms, m.off < buf.length) (hnd : (ms.map (fun m => m.off)).Nodup) {m : MatchTriple}
    (hm : m ∈ ms) : rd8 (putMatches ms buf) m.off = m.val := by
  induction ms generalizing buf with
  | nil => cases hm
  | cons m' ms ih =>
    obtain ⟨hnew, hnd⟩ := List.nodup_cons.1 hnd
    rcases List.mem_cons.1 hm with rfl | hm
    · have hne : ∀ m' ∈ ms, m'.off ≠ m.off := fun m' hm' h =>
        hnew (List.mem_map.2 ⟨m', hm', h⟩)
      exact (rd8_putMatches_of_off_ne hne _).trans (rd8_set_same (hlt m (by simp)) _)
    · exact ih (fun m' hm' => by simpa using hlt m' (List.mem_cons_of_mem _ hm')) hnd hm

theorem rd8_replicate_zero (n o : Nat) : rd8 (List.replicate n 0) o = 0 := by
  simp only [rd8, List.getD_eq_getElem?_getD, List.getElem?_replicate]
  split <;> rfl

/-! ### Reading a button list back -/

/-- What R143 asks of a button list within a kind of `n` bytes: its entries are well formed, those
on one canonical bit are one entry, and an analog byte carries that entry alone (log entry 10). -/
structure ReadableButtons (n : Nat) (es : List ButtonEntry) : Prop where
  wf : ∀ e ∈ es, e.wf n = true
  oneEntry : ∀ e ∈ es, ∀ e' ∈ es, e.cmask = e'.cmask → e = e'
  anaAlone : ∀ off m, .ana off m ∈ es → ∀ e ∈ es, e.offset = off → e = .ana off m

namespace ReadableButtons

variable {n : Nat} {es : List ButtonEntry} {e : ButtonEntry}

/-- In a set assembled from a buffer, an entry's canonical bit is set iff its condition holds. -/
theorem assembled_iff (h : ReadableButtons n es) (he : e ∈ es) (src : Bytes) :
    assembleButtons es src &&& e.cmask ≠ 0 ↔ e.Holds src := by
  have hsingle : ∀ e ∈ es, singleBit e.cmask = true := fun e he =>
    ButtonEntry.singleBit_cmask (h.wf e he)
  rw [and_ne_zero_iff]
  constructor
  · rintro ⟨b, hb, hmask⟩
    obtain ⟨e', he', hp⟩ := getLsbD_assembleButtons_iff.1 hb
    obtain ⟨hmask', hholds⟩ := ButtonEntry.presses_iff.1 hp
    rwa [h.oneEntry e he e' he' (singleBit_ext (hsingle e he) (hsingle e' he') hmask hmask')]
  · intro hholds
    obtain ⟨b, hb⟩ := exists_position_of_singleBit (hsingle e he)
    have hmask := (hb b).2 rfl
    exact ⟨b, getLsbD_assembleButtons_iff.2 ⟨e, he, ButtonEntry.presses_iff.2 ⟨hmask, hholds⟩⟩,
      hmask⟩

section
variable (h : ReadableButtons n es) {buf : Bytes} (hlen : buf.length = n)
  (hzero : ∀ e ∈ es, rd8 buf e.offset = 0) (src : Bytes)
include h hlen hzero

/-- Where its byte is 0 before pressing, an entry's byte holds the bits of the entries on it whose
canonical bit is in the set. -/
theorem getLsbD_rd8_pressed (he : e ∈ es) (b : Nat) :
    (rd8 (pressAll es (assembleButtons es src) buf) e.offset).getLsbD b = true ↔
      ∃ e' ∈ es, assembleButtons es src &&& e'.cmask ≠ 0 ∧ e'.offset = e.offset ∧
        e'.fill.getLsbD b = true := by
  rw [getLsbD_rd8_pressAll fun e he => hlen ▸ ButtonEntry.offset_lt (h.wf e he), hzero e he]
  simp

/-- A `Bit` entry shares its bit with entries of the same byte and bit only, which the buffer the
set comes from presses together. -/
theorem holds_pressAll_bit {off : Nat} {v : Byte} {m : BitVec 16} (he : .bit off v m ∈ es) :
    (ButtonEntry.bit off v m).Holds (pressAll es (assembleButtons es src) buf) ↔
      assembleButtons es src &&& m ≠ 0 := by
  have hbyte := h.getLsbD_rd8_pressed hlen hzero src he
  have hv := ButtonEntry.singleBit_of_wf_bit (h.wf _ he)
  refine and_ne_zero_iff.trans ⟨?_, fun hset => ?_⟩
  · rintro ⟨b, hb, hvb⟩
    obtain ⟨e', he', hset, hoff, hfill⟩ := (hbyte b).1 hb
    cases e' with
    | ana off' m' => cases h.anaAlone off' m' he' _ he hoff.symm
    | bit off' v' m' =>
      obtain rfl : off' = off := hoff
      obtain rfl : v' = v :=
        singleBit_ext (ButtonEntry.singleBit_of_wf_bit (h.wf _ he')) hv hfill hvb
      exact (h.assembled_iff he src).2 ((h.assembled_iff he' src).1 hset)
  · obtain ⟨b, hb⟩ := exists_position_of_singleBit hv
    have hvb := (hb b).2 rfl
    exact ⟨b, (hbyte b).2 ⟨_, he, hset, rfl, hvb⟩, hvb⟩

/-- An `Ana` entry is alone on its byte, which is 0xFF or 0. -/
theorem holds_pressAll_ana {off : Nat} {m : BitVec 16} (he : .ana off m ∈ es) :
    (ButtonEntry.ana off m).Holds (pressAll es (assembleButtons es src) buf) ↔
      assembleButtons es src &&& m ≠ 0 := by
  have hbyte := h.getLsbD_rd8_pressed hlen hzero src he
  constructor
  · intro (hcut : 0x20 < (rd8 _ off).toNat)
    have hne : rd8 (pressAll es (assembleButtons es src) buf) off ≠ 0 := by
      intro h0
      rw [h0] at hcut
      exact absurd hcut (by decide)
    obtain ⟨b, hb, -⟩ := and_ne_zero_iff.1 ((BitVec.and_self (x := rd8 _ off)).symm ▸ hne)
    obtain ⟨e', he', hset, hoff, -⟩ := (hbyte b).1 hb
    rwa [h.anaAlone off m he e' he' hoff] at hset
  · intro hset
    have hfull : rd8 (pressAll es (assembleButtons es src) buf) off = 0xFF :=
      BitVec.eq_of_getLsbD_eq fun b hb => by
        have hbit : (0xFF : Byte).getLsbD b = true :=
          (BitVec.getLsbD_allOnes (v := 8)).trans (decide_eq_true hb)
        exact ((hbyte b).2 ⟨_, he, hset, rfl, hbit⟩).trans hbit.symm
    show 0x20 < (rd8 _ off).toNat
    rw [hfull]
    decide

/-- An entry reads pressed from the synthetic packet iff the set names its canonical bit. -/
theorem holds_pressAll_iff (he : e ∈ es) :
    e.Holds (pressAll es (assembleButtons es src) buf) ↔
      assembleButtons es src &&& e.cmask ≠ 0 := by
  cases e with
  | bit off v m => exact h.holds_pressAll_bit hlen hzero src he
  | ana off m => exact h.holds_pressAll_ana hlen hzero src he

/-- The synthetic packet of an assembled set assembles to that set (R143). -/
theorem assembleButtons_pressAll :
    assembleButtons es (pressAll es (assembleButtons es src) buf) = assembleButtons es src := by
  refine BitVec.eq_of_getLsbD_eq fun b _ => Bool.eq_iff_iff.2 ?_
  rw [getLsbD_assembleButtons_iff, getLsbD_assembleButtons_iff]
  refine exists_congr fun e => and_congr_right fun he => ?_
  rw [ButtonEntry.presses_iff, ButtonEntry.presses_iff, h.holds_pressAll_iff hlen hzero src he,
    h.assembled_iff he]

end

end ReadableButtons

/-- A buffer that holds every match byte of a kind is accepted (R85). -/
theorem accepts_of_matchBytes {k : Kind} {buf : Bytes} (hlen : buf.length = k.minLen)
    (hm : ∀ m ∈ k.matchOn, m.val &&& m.mask = m.val)
    (hread : ∀ m ∈ k.matchOn, rd8 buf m.off = m.val) : k.accepts buf = true := by
  rw [Kind.accepts, Bool.and_eq_true, decide_eq_true_eq, List.all_eq_true]
  refine ⟨hlen.ge, fun m hmem => ?_⟩
  rw [MatchTriple.holds, hread m hmem, hm m hmem, beq_self_eq_true]

end Sys2Proof
end

section
/-!
SUPPORT. What an operation on the pool leaves as it was (spec/10_state.md rule R44): beside its
output ports it changes nothing, or the one record it writes.
-/

namespace Sys2Proof.Machine

/-- Nothing changed but the pool and the output ports. -/
structure OnlyPool (s t : State) : Prop where
  control : SameControl s t
  draws : NoDraw s t
  slots : t.slots = s.slots
  peer : t.peer = s.peer

namespace OnlyPool

variable {s t : State}

theorem ret (s : State) (v : Result) : OnlyPool s (s.ret v) :=
  ⟨⟨rfl, rfl, rfl, rfl⟩, ⟨rfl, rfl, rfl, rfl⟩, rfl, rfl⟩

theorem emit_ret (s : State) (e : Event) (v : Result) : OnlyPool s ((s.emit e).ret v) :=
  ⟨⟨rfl, rfl, rfl, rfl⟩, ⟨rfl, rfl, rfl, rfl⟩, rfl, rfl⟩

theorem setRec_ret (s : State) (i : Nat) (r : DeviceRecord) (v : Result) :
    OnlyPool s ((s.setRec i r).ret v) :=
  ⟨⟨rfl, rfl, rfl, rfl⟩, ⟨rfl, rfl, rfl, rfl⟩, rfl, rfl⟩

theorem slot_eq (h : OnlyPool s t) (k : Fin 4) : t.slot k = s.slot k := slot_congr h.slots k

theorem sameFamilies (h : OnlyPool s t) : SameFamilies s t :=
  ⟨fun k _ => by rw [h.slot_eq], fun _ => by rw [h.peer]⟩

theorem sameBytes (h : OnlyPool s t) : SameBytes s t := fun b off _ => by
  have hbuf : t.buffer b = s.buffer b := by
    cases b with
    | coordIn k cp | coordOut k cp => cases cp <;> simp only [State.buffer, h.slot_eq]
    | peerIn cp | peerOut cp => cases cp <;> simp only [State.buffer, h.peer]
  rw [State.readByte, State.readByte, hbuf]

theorem onlyRecords (h : OnlyPool s t) {touched : Nat → Prop}
    (hr : SameRecordsBut touched s t) : OnlyRecords touched s t :=
  ⟨h.control, hr, h.sameFamilies, h.sameBytes⟩

theorem onlyOutputs (h : OnlyPool s t) (hp : t.pool = s.pool) : OnlyOutputs s t :=
  ⟨h.control, h.draws, ⟨maxDev_congr hp, fun j _ => dev_congr hp h.control.cfg j⟩, h.sameFamilies,
    h.sameBytes⟩

end OnlyPool

/-- Where no state element changed, no record of any set did. -/
theorem OnlyOutputs.onlyRecords {s t : State} (h : OnlyOutputs s t) (touched : Nat → Prop) :
    OnlyRecords touched s t :=
  ⟨h.control, ⟨h.records.count, fun j _ => h.records.records j not_false⟩, h.families, h.bytes⟩

/-- An operation that only returns. -/
theorem ret_answers (s : State) (v : Result) :
    OnlyOutputs s (s.ret v) ∧ Answers v [] s (s.ret v) :=
  ⟨(OnlyPool.ret s v).onlyOutputs rfl, rfl, (List.append_nil _).symm⟩

/-- An operation that reports an event and returns. -/
theorem emit_ret_answers (s : State) (e : Event) (v : Result) :
    OnlyOutputs s ((s.emit e).ret v) ∧ Answers v [e] s ((s.emit e).ret v) :=
  ⟨(OnlyPool.emit_ret s e v).onlyOutputs rfl, rfl, rfl⟩

/-- An operation that writes one record and returns. -/
theorem setRec_ret_answers {s : State} {i : Nat} (hi : i < s.maxDev) (r : DeviceRecord)
    (v : Result) :
    ((s.setRec i r).ret v).dev i = r ∧ OnlyRecords (fun j => j = i) s ((s.setRec i r).ret v) ∧
      NoDraw s ((s.setRec i r).ret v) ∧ Answers v [] s ((s.setRec i r).ret v) :=
  have hpool := OnlyPool.setRec_ret s i r v
  ⟨dev_setRec_same hi r,
    hpool.onlyRecords ⟨maxDev_setRec s i r, fun _ hj => dev_setRec_other hj r⟩,
    hpool.draws, rfl, (List.append_nil _).symm⟩

/-! ### Queries and requests of one slot -/

/-- On a ready node an operation of a slot below `MAX_DEV` runs (R82). -/
theorem accept_slot {s : State} (hs : Ready .coordinator s) {i : Byte} (hi : i.toNat < s.maxDev)
    (act : State → State) : accept .coordinator (s.slotLegal i) s act = .next (act s) := by
  rw [(slotLegal_iff s).2 hi, accept_ready hs]

/-- An update of a slot's record writes it if it is live and leaves a free one (R151, R160). -/
theorem updateLive_ret_answers {s : State} {i : Nat} (hi : i < s.maxDev)
    (f : DeviceRecord → DeviceRecord) (v : Result) :
    NoDraw s ((s.updateLive i f).ret v) ∧ Answers v [] s ((s.updateLive i f).ret v) ∧
      OnlyRecords (fun j => j = i) s ((s.updateLive i f).ret v) ∧
      ((s.updateLive i f).ret v).dev i =
        if (s.dev i).fam ≠ .unknown then f (s.dev i) else s.dev i := by
  unfold State.updateLive
  by_cases hl : (s.dev i).live = true
  · rw [if_pos hl, if_pos (live_iff.1 hl)]
    obtain ⟨hdev, honly, hdraw, hans⟩ := setRec_ret_answers hi (f (s.dev i)) v
    exact ⟨hdraw, hans, honly, hdev⟩
  · rw [if_neg hl, if_neg fun h => hl (live_iff.2 h)]
    obtain ⟨honly, hans⟩ := ret_answers s v
    exact ⟨honly.draws, hans, honly.onlyRecords _, rfl⟩

/-- A bit of the edge mask is a button down now and not at the last commit (R150). -/
theorem getLsbD_edgeMask_iff {r : DeviceRecord} {b : Nat} :
    r.edgeMask.getLsbD b = true ↔
      r.pad.buttons.getLsbD b = true ∧ r.prevButtons.getLsbD b = false := by
  rw [DeviceRecord.edgeMask, BitVec.getLsbD_and, BitVec.getLsbD_not]
  constructor
  · simp +contextual
  · rintro ⟨hb, hp⟩
    rw [hb, hp, decide_eq_true (BitVec.lt_of_getLsbD hb)]
    rfl

end Sys2Proof.Machine
end

section
/-!
SUPPORT. The pool's operations (spec/40_decoder.md rules R131, R132): ATTACH case by case, and the
records DETACH frees.
-/

namespace Sys2Proof.Machine

/-- The lowest free slot is the one the allocation finds (R131). -/
theorem freeIndex_of_lowest {s : State} {i : Nat} (hi : i < s.maxDev)
    (hfree : (s.dev i).live = false) (hlow : ∀ j, j < i → (s.dev j).live = true) :
    s.freeIndex = some i := by
  cases h : s.freeIndex with
  | none => simp [freeIndex_none.1 h i hi] at hfree
  | some k =>
    obtain ⟨-, hk, hklow⟩ := freeIndex_some h
    rcases Nat.lt_trichotomy k i with hlt | rfl | hlt
    · simp [hlow k hlt] at hk
    · rfl
    · simp [hklow i hlt] at hfree

section
variable {s : State} (f : Family) (addr inEp outEp chan : Byte)

theorem alloc_of_full (h : ∀ i, i < s.maxDev → (s.dev i).live = true) :
    s.alloc f addr inEp outEp chan = (none, s.emit (.diag (.poolFull addr chan))) := by
  rw [State.alloc, freeIndex_none.2 h, raise_poolFull]

theorem alloc_of_lowest {i : Nat} (hi : i < s.maxDev) (hfree : (s.dev i).live = false)
    (hlow : ∀ j, j < i → (s.dev j).live = true) :
    s.alloc f addr inEp outEp chan =
      (some i, s.setRec i (freshRecord s.cfg f addr inEp outEp chan)) := by
  rw [State.alloc, freeIndex_of_lowest hi hfree hlow]

theorem OnlyPool.alloc_ret (s : State) (v : Result) :
    OnlyPool s ((s.alloc f addr inEp outEp chan).2.ret v) := by
  rcases alloc_cases s f addr inEp outEp chan with ⟨-, h⟩ | ⟨i, -, h⟩ <;> rw [h]
  · exact .emit_ret ..
  · exact .setRec_ret ..

end

/-! ### ATTACH (R131) -/

section
variable {s : State} {addr chan : Byte} {fam : Family} (inEp outEp : Byte)

theorem attachDevice_of_refused (h : addr = 0 ∨ s.cfg.isSupported fam = false ∨
    s.cfg.isPresenceDriven fam = true) :
    attachDevice addr fam inEp outEp chan s = s.ret (.slot none) := by
  unfold attachDevice
  split
  · rfl
  rename_i ha
  split
  · rfl
  rename_i hf
  rw [if_pos ((h.resolve_left ha).resolve_left hf)]

variable (ha : addr ≠ 0) (hf : s.cfg.isSupported fam = true)
  (hp : s.cfg.isPresenceDriven fam = false)
include ha hf hp

theorem attachDevice_of_known {i : Nat} (hk : s.lookup addr chan = some i) :
    attachDevice addr fam inEp outEp chan s = s.ret (.slot (some i)) := by
  rw [attachDevice, if_neg ha, if_neg (by simp [hf]), if_neg (by simp [hp]), hk]

theorem attachDevice_of_new (hk : s.lookup addr chan = none) :
    attachDevice addr fam inEp outEp chan s =
      (s.alloc fam addr inEp outEp chan).2.ret (.slot (s.alloc fam addr inEp outEp chan).1) := by
  rw [attachDevice, if_neg ha, if_neg (by simp [hf]), if_neg (by simp [hp]), hk]

end

theorem OnlyPool.attachDevice (addr : Byte) (fam : Family) (inEp outEp chan : Byte) (s : State) :
    OnlyPool s (attachDevice addr fam inEp outEp chan s) := by
  by_cases h : addr = 0 ∨ s.cfg.isSupported fam = false ∨ s.cfg.isPresenceDriven fam = true
  · rw [attachDevice_of_refused inEp outEp h]
    exact .ret ..
  · simp only [not_or, Bool.not_eq_false, Bool.not_eq_true] at h
    obtain ⟨ha, hf, hp⟩ := h
    cases hk : s.lookup addr chan with
    | some i => rw [attachDevice_of_known inEp outEp ha hf hp hk]; exact .ret ..
    | none => rw [attachDevice_of_new inEp outEp ha hf hp hk]; exact .alloc_ret ..

/-! ### DETACH (R132) -/

theorem OnlyPool.detachAddr (addr : Byte) (s : State) : OnlyPool s (detachAddr addr s) := by
  unfold Machine.detachAddr
  split <;> exact ⟨⟨rfl, rfl, rfl, rfl⟩, ⟨rfl, rfl, rfl, rfl⟩, rfl, rfl⟩

theorem detachAddr_answers (addr : Byte) (s : State) :
    Answers .none [] s (detachAddr addr s) := by
  unfold Machine.detachAddr
  split <;> exact ⟨rfl, (List.append_nil _).symm⟩

/-- A record after DETACH: zero if it was live at the address, else as it was. -/
theorem dev_detachAddr {addr : Byte} (ha : addr ≠ 0) (s : State) (j : Nat) :
    (detachAddr addr s).dev j = if (s.dev j).live && (s.dev j).addr == addr then
      zeroRecord s.cfg.cpKeys else s.dev j := by
  rw [detachAddr, if_neg ha]
  exact List.getD_map s.pool (zeroRecord s.cfg.cpKeys)
    (fun r => if r.live && r.addr == addr then zeroRecord s.cfg.cpKeys else r)

theorem maxDev_detachAddr (addr : Byte) (s : State) : (detachAddr addr s).maxDev = s.maxDev := by
  unfold detachAddr
  split
  · rfl
  · exact List.length_map _

/-- A slot beyond the pool holds no live record. -/
theorem lt_maxDev_of_live {s : State} {j : Nat} (h : (s.dev j).live = true) : j < s.maxDev := by
  by_contra hj
  rw [State.dev, List.getD_eq_default _ _ (Nat.not_lt.1 hj)] at h
  simp at h

theorem detachAddr_onlyRecords (addr : Byte) (s : State) :
    OnlyRecords (fun j => j < s.maxDev ∧ addr ≠ 0 ∧ (s.dev j).live = true ∧
      (s.dev j).addr = addr) s (detachAddr addr s) := by
  refine (OnlyPool.detachAddr addr s).onlyRecords ⟨maxDev_detachAddr addr s, fun j hj => ?_⟩
  by_cases ha : addr = 0
  · rw [detachAddr, if_pos ha, dev_ret]
  · rw [dev_detachAddr ha, if_neg fun h => ?_]
    rw [Bool.and_eq_true, beq_iff_eq] at h
    exact hj ⟨lt_maxDev_of_live h.1, ha, h.1, h.2⟩

end Sys2Proof.Machine
end

section
/-!
SUPPORT. DECODE and the packet kinds (spec/40_decoder.md rules R140 to R145): one equation per
outcome, and with it what a packet does to a record.
-/

namespace Sys2Proof

/-- A presence announcement, the one packet that needs no record (R140 step 9). -/
def Packet.isPresence : Packet → Bool
  | .presence _ => true
  | _ => false

/-- A kind assembles a packet of its own type (R84). -/
theorem KindBody.hasTypeOf_read (b : KindBody) (buf : Bytes) : b.hasTypeOf (b.read buf) = true := by
  cases b <;> rfl

@[simp] theorem KindBody.isPresence_read (b : KindBody) (buf : Bytes) :
    (b.read buf).isPresence = b.isPresence := by
  cases b <;> rfl

/-- A layout that classifies a buffer has a kind of the packet's type. -/
theorem hasKind_of_classify {l : List Kind} {buf : Bytes} {k : Kind}
    (h : classify l buf = some k) : hasKind l (k.body.read buf) = true :=
  List.any_eq_true.2 ⟨k, (classify_some h).1, k.body.hasTypeOf_read buf⟩

/-- Whether a layout has a CHATPAD kind does not depend on a packet's fields. -/
theorem hasKind_chatpad (l : List Kind) (m m' : Byte) (ks ks' : Bytes) :
    hasKind l (.chatpad m ks) = hasKind l (.chatpad m' ks') := by
  unfold hasKind
  congr 1
  funext k
  cases k.body <;> rfl

namespace Machine

/-- A live record with the fields of a packet that is no presence announcement (R142 to R145). -/
def DeviceRecord.take (r : DeviceRecord) : Packet → DeviceRecord
  | .pad p => { r with pad := p }
  | .chatpad m ks => { r with cpMods := m, cpKeys := ks }
  | .reinit => { r with cpInitPending := true }
  | .presence _ => r

/-- Only a PAD packet is a new pad report (R142). -/
def isPadReport : Packet → Bool
  | .pad _ => true
  | _ => false

section
variable {s : State} {h : PacketHeader}

/-! ### The family and the path (R140) -/

theorem familyFor_of_lookup {i : Nat} (hk : s.lookup h.addr h.chan = some i) :
    s.familyFor h = (s.dev i).fam := by
  rw [State.familyFor, hk]

theorem familyFor_of_absent (hk : s.lookup h.addr h.chan = none) : s.familyFor h = h.hostFam := by
  rw [State.familyFor, hk]

theorem packetPath_of_lookup {i : Nat} {p : Packet} (hp : p.isPresence = false)
    (hk : s.lookup h.addr h.chan = some i) (f : Family) :
    packetPath f h p s = (s.setRec i ((s.dev i).take p)).ret (.isPad (isPadReport p)) := by
  unfold packetPath
  rw [hk]
  cases p with
  | presence b => cases hp
  | pad _ | chatpad _ _ | reinit => rfl

theorem packetPath_of_absent {p : Packet} (hp : p.isPresence = false)
    (hk : s.lookup h.addr h.chan = none) (f : Family) :
    packetPath f h p s = s.ret (.isPad false) := by
  unfold packetPath
  rw [hk]
  cases p with
  | presence b => cases hp
  | pad _ | chatpad _ _ | reinit => rfl

/-! ### A classified packet -/

theorem packetOp_of_kind {p : Packet} (ha : h.addr ≠ 0)
    (hf : s.cfg.isSupported (s.familyFor h) = true)
    (hk : hasKind (s.cfg.layout (s.familyFor h)) p = true) :
    packetOp h p s = packetPath (s.familyFor h) h p s := by
  rw [packetOp, if_neg ha]
  simp [hf, hk]

/-- All a classified packet that is no presence announcement can do: it is dropped, or it writes the
record of its key. -/
theorem packetOp_cases {p : Packet} (hp : p.isPresence = false) (h : PacketHeader) (s : State) :
    packetOp h p s = s.ret (.isPad false) ∨ ∃ i, s.lookup h.addr h.chan = some i ∧
      packetOp h p s = (s.setRec i ((s.dev i).take p)).ret (.isPad (isPadReport p)) := by
  unfold packetOp
  dsimp only
  split
  · exact .inl rfl
  split
  · exact .inl rfl
  split
  · exact .inl rfl
  cases hk : s.lookup h.addr h.chan with
  | none => exact .inl (packetPath_of_absent hp hk _)
  | some i => exact .inr ⟨i, rfl, packetPath_of_lookup hp hk _⟩

/-- A packet without a record is dropped (R140 step 9, R231). -/
theorem packetOp_of_absent {p : Packet} (hp : p.isPresence = false)
    (hk : s.lookup h.addr h.chan = none) : packetOp h p s = s.ret (.isPad false) := by
  rcases packetOp_cases hp h s with hdrop | ⟨i, hi, -⟩
  · exact hdrop
  · rw [hk] at hi
    cases hi

theorem exec_packet (h : PacketHeader) (p : Packet) (s : State) :
    exec (p.instr h) s = accept .coordinator true s (packetOp h p) := by
  cases p <;> rfl

/-- A packet of a live record writes its own fields into it and nothing else (R142, R144, R145). -/
theorem exec_packet_of_key {i : Nat} {p : Packet} (hs : Ready .coordinator s) (ha : h.addr ≠ 0)
    (hk : s.lookup h.addr h.chan = some i) (hf : s.cfg.isSupported (s.dev i).fam = true)
    (hkind : hasKind (s.cfg.layout (s.dev i).fam) p = true) (hp : p.isPresence = false) :
    ∃ t, exec (p.instr h) s = .next t ∧ t.dev i = (s.dev i).take p ∧
      OnlyRecords (fun j => j = i) s t ∧ NoDraw s t ∧ Answers (.isPad (isPadReport p)) [] s t := by
  refine ⟨_, by rw [exec_packet, accept_ready hs], ?_⟩
  have hfam := familyFor_of_lookup hk
  rw [packetOp_of_kind ha (hfam ▸ hf) (hfam ▸ hkind), packetPath_of_lookup hp hk]
  exact setRec_ret_answers (lookup_some hk).1 ..

theorem exec_packet_of_absent {p : Packet} (hs : Ready .coordinator s)
    (hk : s.lookup h.addr h.chan = none) (hp : p.isPresence = false) :
    ∃ t, exec (p.instr h) s = .next t ∧ OnlyOutputs s t ∧ Answers (.isPad false) [] s t :=
  ⟨_, by rw [exec_packet, accept_ready hs, packetOp_of_absent hp hk], ret_answers ..⟩

/-! ### DECODE -/

section
variable {len : BitVec 9} {buf : Bytes}

theorem decodePacketOp_of_classify {k : Kind} (hlen : len.toNat ≤ 256) (ha : h.addr ≠ 0)
    (hf : s.cfg.isSupported (s.familyFor h) = true)
    (hc : classify (s.cfg.layout (s.familyFor h)) buf = some k) :
    decodePacketOp h len buf s = packetOp h (k.body.read buf) s := by
  rw [decodePacketOp, if_neg (show ¬ maxLen < len.toNat from Nat.not_lt.2 hlen), if_neg ha,
    packetOp_of_kind ha hf (hasKind_of_classify hc)]
  simp [hf, hc]

/-- DECODE of a buffer its family's layout classifies is the instruction of the packet (R140). -/
theorem exec_decode_of_classify {k : Kind} (hs : Ready .coordinator s)
    (hbuf : buf.length = len.toNat) (hlen : len.toNat ≤ 256) (ha : h.addr ≠ 0)
    (hf : s.cfg.isSupported (s.familyFor h) = true)
    (hc : classify (s.cfg.layout (s.familyFor h)) buf = some k) :
    exec (.decode h len buf) s = exec ((k.body.read buf).instr h) s := by
  rw [exec_decode, exec_packet, beq_iff_eq.2 hbuf, accept_ready hs, accept_ready hs,
    decodePacketOp_of_classify hlen ha hf hc]

/-- A packet that is no new data only returns 0: each of its errors is silent (R140, R231). -/
theorem decodePacketOp_of_unrecognised
    (hun : 256 < len.toNat ∨ h.addr = 0 ∨ s.cfg.isSupported (s.familyFor h) = false ∨
      classify (s.cfg.layout (s.familyFor h)) buf = none ∨
      ∃ k, classify (s.cfg.layout (s.familyFor h)) buf = some k ∧ k.body.isPresence = false ∧
        s.lookup h.addr h.chan = none) :
    decodePacketOp h len buf s = s.ret (.isPad false) := by
  unfold decodePacketOp
  dsimp only
  split
  · rfl
  rename_i hlen
  split
  · rfl
  rename_i ha
  split
  · rfl
  rename_i hf
  split
  · rfl
  rename_i k hc
  have hlast := ((hun.resolve_left hlen).resolve_left ha).resolve_left hf
  simp only [hc, reduceCtorEq, Option.some.injEq, exists_eq_left', false_or] at hlast
  obtain ⟨hp, hk⟩ := hlast
  exact packetPath_of_absent ((k.body.isPresence_read buf).trans hp) hk _

end

/-! ### The PRESENCE kind (R141) -/

theorem packetPath_presence (f : Family) (h : PacketHeader) (b : Bool) (s : State) :
    packetPath f h (.presence b) s = presencePath f h b s := by
  unfold packetPath
  cases s.lookup h.addr h.chan <;> rfl

theorem presencePath_present_of_lookup {i : Nat} (hk : s.lookup h.addr h.chan = some i)
    (f : Family) : presencePath f h true s = s.ret (.isPad false) := by
  unfold presencePath
  rw [hk]

theorem presencePath_absent_of_lookup {i : Nat} (hk : s.lookup h.addr h.chan = some i)
    (f : Family) : presencePath f h false s =
      (s.setRec i (zeroRecord s.cfg.cpKeys)).ret (.isPad false) := by
  unfold presencePath
  rw [hk]
  rfl

theorem presencePath_absent_of_absent (hk : s.lookup h.addr h.chan = none) (f : Family) :
    presencePath f h false s = s.ret (.isPad false) := by
  unfold presencePath
  rw [hk]

theorem presencePath_present_of_absent (hk : s.lookup h.addr h.chan = none) (f : Family) :
    presencePath f h true s = (s.alloc f h.addr h.inEp h.outEp h.chan).2.ret (.isPad false) := by
  unfold presencePath
  rw [hk]

theorem OnlyPool.presencePath (f : Family) (h : PacketHeader) (b : Bool) (s : State) :
    OnlyPool s (presencePath f h b s) := by
  unfold Machine.presencePath
  split
  · exact .alloc_ret ..
  · exact .setRec_ret ..
  · exact .ret ..

end

end Machine
end Sys2Proof
end

section
/-!
SUPPORT. The chatpad queries (spec/40_decoder.md rules R152 to R154): what IS_DOWN tests, what
WAS_PRESSED does to a history, and what both keep from one packet to the next.
-/

namespace Sys2Proof.Machine

/-! ### IS_DOWN (R152) -/

theorem modsWf_of_ready {r : Role} {s : State} (h : Ready r s) : s.cfg.mods.wf = true := by
  have hp := h.params
  simp only [State.paramsWf, Config.wf, Bool.and_eq_true, and_assoc] at hp
  obtain ⟨-, hmods, -⟩ := hp
  exact hmods

theorem entry_mem_entries (t : ModTable) (m : Modifier) : t.entry m ∈ t.entries := by
  cases m <;> simp [ModTable.entry, ModTable.entries]

theorem exists_entry_of_mem {t : ModTable} {e : ModEntry} (h : e ∈ t.entries) :
    ∃ m, e = t.entry m := by
  simp only [ModTable.entries, List.mem_cons, List.not_mem_nil, or_false] at h
  rcases h with rfl | rfl | rfl | rfl | rfl
  · exact ⟨.shift, rfl⟩
  · exact ⟨.green, rfl⟩
  · exact ⟨.orange, rfl⟩
  · exact ⟨.messenger, rfl⟩
  · exact ⟨.capslock, rfl⟩

/-- Distinct codes: the row a modifier's code finds is the modifier's (R9). -/
theorem find_modifier {t : ModTable} (h : t.wf = true) (m : Modifier) :
    t.entries.find? (fun e => e.code == (t.entry m).code) = some (t.entry m) := by
  have hnd : (t.entries.map (fun e => e.code)).Nodup := by
    simpa using (Bool.and_eq_true_iff.1 h).2
  cases hfind : t.entries.find? (fun e => e.code == (t.entry m).code) with
  | none =>
    exact absurd (beq_self_eq_true _) (List.find?_eq_none.1 hfind _ (entry_mem_entries t m))
  | some e =>
    have hcode : e.code = (t.entry m).code := by simpa using List.find?_some hfind
    have hmem := List.mem_of_find?_eq_some hfind
    rw [List.inj_on_of_nodup_map hnd hmem (entry_mem_entries t m) hcode]

section
variable {c : Config} {r : DeviceRecord} {x : Byte}

theorem isDown_eq_false (h : r.fam = .unknown ∨ x = 0) : r.isDown c x = false := if_pos h

theorem live_and_ne_zero_of_isDown (h : r.isDown c x = true) : r.fam ≠ .unknown ∧ x ≠ 0 := by
  constructor <;> intro h0
  · simp [isDown_eq_false (.inl h0)] at h
  · simp [isDown_eq_false (.inr h0)] at h

theorem isDown_modifier_iff (hc : c.mods.wf = true) (hfam : r.fam ≠ .unknown) {m : Modifier}
    (hx : (c.mods.entry m).code ≠ 0) :
    r.isDown c (c.mods.entry m).code = true ↔ r.cpMods &&& (c.mods.entry m).bit ≠ 0 := by
  rw [DeviceRecord.isDown, if_neg (not_or.2 ⟨hfam, hx⟩), find_modifier hc]
  exact bne_iff_ne

theorem isDown_key_iff (hfam : r.fam ≠ .unknown) (hx : x ≠ 0)
    (hm : ∀ m : Modifier, x ≠ (c.mods.entry m).code) :
    r.isDown c x = true ↔ x ∈ r.cpKeys := by
  have hnone : c.mods.entries.find? (fun e => e.code == x) = none :=
    List.find?_eq_none.2 fun e he => by
      obtain ⟨m, rfl⟩ := exists_entry_of_mem he
      simpa using (hm m).symm
  rw [DeviceRecord.isDown, if_neg (not_or.2 ⟨hfam, hx⟩), hnone]
  exact List.contains_iff_mem

/-! ### The history (R153) -/

/-- Step 1 of WAS_PRESSED on a record: the history without the codes that are up. -/
def DeviceRecord.expired (c : Config) (r : DeviceRecord) : Hist := r.cpHist.expire (r.isDown c)

theorem press_of_up (h : r.isDown c x = false) : r.press c x = (false, r.expired c) := if_pos h

theorem press_of_held (h : (r.expired c).holds x = true) : r.press c x = (false, r.expired c) := by
  by_cases hd : r.isDown c x = false
  · exact press_of_up hd
  · exact (if_neg hd).trans (if_pos h)

theorem press_of_full (h : (r.expired c).claim x = none) : r.press c x = (false, r.expired c) := by
  by_cases hd : r.isDown c x = false
  · exact press_of_up hd
  by_cases hh : (r.expired c).holds x = true
  · exact press_of_held hh
  · unfold DeviceRecord.expired at *
    simp [DeviceRecord.press, h]

theorem press_of_claim {h' : Hist} (hd : r.isDown c x = true) (hh : (r.expired c).holds x = false)
    (hc : (r.expired c).claim x = some h') : r.press c x = (true, h') := by
  unfold DeviceRecord.expired at hh hc
  simp [DeviceRecord.press, hd, hh, hc]

theorem Hist.holds_iff {h : Hist} : h.holds x = true ↔ x = h.h0 ∨ x = h.h1 ∨ x = h.h2 := by
  simp only [Hist.holds, Bool.or_eq_true, beq_iff_eq, or_assoc, eq_comm (a := x)]

theorem Hist.holds_eq_false {h : Hist} (h0 : x ≠ h.h0) (h1 : x ≠ h.h1) (h2 : x ≠ h.h2) :
    h.holds x = false := by
  rw [← Bool.not_eq_true, holds_iff]
  exact not_or.2 ⟨h0, not_or.2 ⟨h1, h2⟩⟩

theorem Hist.claim_h0 {h : Hist} (h0 : h.h0 = 0) (x : Byte) :
    h.claim x = some ⟨x, h.h1, h.h2⟩ := if_pos h0

theorem Hist.claim_h1 {h : Hist} (h0 : h.h0 ≠ 0) (h1 : h.h1 = 0) (x : Byte) :
    h.claim x = some ⟨h.h0, x, h.h2⟩ := (if_neg h0).trans (if_pos h1)

theorem Hist.claim_h2 {h : Hist} (h0 : h.h0 ≠ 0) (h1 : h.h1 ≠ 0) (h2 : h.h2 = 0) (x : Byte) :
    h.claim x = some ⟨h.h0, h.h1, x⟩ := (if_neg h0).trans ((if_neg h1).trans (if_pos h2))

theorem Hist.claim_full {h : Hist} (h0 : h.h0 ≠ 0) (h1 : h.h1 ≠ 0) (h2 : h.h2 ≠ 0) (x : Byte) :
    h.claim x = none := (if_neg h0).trans ((if_neg h1).trans (if_neg h2))

/-- A code that is up, is held or finds no free entry is not reported. -/
theorem press_of_not_new (h : r.isDown c x = false ∨ x = (r.expired c).h0 ∨ x = (r.expired c).h1 ∨
    x = (r.expired c).h2 ∨
    ((r.expired c).h0 ≠ 0 ∧ (r.expired c).h1 ≠ 0 ∧ (r.expired c).h2 ≠ 0)) :
    r.press c x = (false, r.expired c) := by
  rcases h with hup | h0 | h1 | h2 | ⟨h0, h1, h2⟩
  · exact press_of_up hup
  · exact press_of_held (Hist.holds_iff.2 (.inl h0))
  · exact press_of_held (Hist.holds_iff.2 (.inr (.inl h1)))
  · exact press_of_held (Hist.holds_iff.2 (.inr (.inr h2)))
  · exact press_of_full (Hist.claim_full h0 h1 h2 x)

/-- All WAS_PRESSED can answer: 0 with the expired history, or 1 for a code that is down, was not
held and claimed an entry. -/
theorem press_cases (c : Config) (r : DeviceRecord) (x : Byte) :
    r.press c x = (false, r.expired c) ∨ ∃ h', r.isDown c x = true ∧
      (r.expired c).claim x = some h' ∧ r.press c x = (true, h') := by
  cases hd : r.isDown c x with
  | false => exact .inl (press_of_up hd)
  | true =>
    cases hh : (r.expired c).holds x with
    | true => exact .inl (press_of_held hh)
    | false =>
      cases hc : (r.expired c).claim x with
      | none => exact .inl (press_of_full hc)
      | some h' => exact .inr ⟨h', rfl, rfl, press_of_claim hd hh hc⟩

/-- WAS_PRESSED of any code keeps a held code that is down in the history. -/
theorem holds_press (hd : r.isDown c x = true) (hh : r.cpHist.holds x = true) (y : Byte) :
    (r.press c y).2.holds x = true := by
  have he : (r.expired c).holds x = true := Hist.holds_expire hd hh
  rcases press_cases c r y with h | ⟨h', -, hc, h⟩ <;> rw [h]
  · exact he
  · exact Hist.holds_claim hc (.inr ⟨(live_and_ne_zero_of_isDown hd).2, he⟩)

/-- A held code that is down is not reported again. -/
theorem press_held_down (hd : r.isDown c x = true) (hh : r.cpHist.holds x = true) :
    (r.press c x).1 = false := by
  rw [press_of_held (Hist.holds_expire hd hh)]

/-! ### Release and re-press (R154) -/

/-- Expiring adds no code. -/
theorem Hist.holds_of_holds_expire {h : Hist} {down : Byte → Bool} (hx : x ≠ 0)
    (he : (h.expire down).holds x = true) : h.holds x = true := by
  have hkeep : ∀ {y : Byte}, x = (if y ≠ 0 ∧ down y = false then 0 else y) → x = y := by
    intro y hy
    split at hy
    · exact absurd hy hx
    · exact hy
  exact holds_iff.2 ((holds_iff.1 he).imp hkeep (.imp hkeep hkeep))

/-- A code that is up is expired. -/
theorem Hist.holds_expire_of_up {h : Hist} {down : Byte → Bool} (hx : x ≠ 0)
    (hup : down x = false) : (h.expire down).holds x = false := by
  have hclear : ∀ y : Byte, x ≠ (if y ≠ 0 ∧ down y = false then 0 else y) := by
    intro y hy
    split at hy
    · exact hx hy
    · rename_i hkeep
      exact hkeep (hy ▸ ⟨hx, hup⟩)
  exact holds_eq_false (hclear _) (hclear _) (hclear _)

/-- An entry of a code that is up becomes free, and a free entry stays free. -/
theorem Hist.holds_zero_expire {h : Hist} {down : Byte → Bool} (hup : x = 0 ∨ down x = false)
    (hh : h.holds x = true) : (h.expire down).holds 0 = true := by
  have hclear : ∀ {y : Byte}, x = y → 0 = (if y ≠ 0 ∧ down y = false then 0 else y) := by
    rintro y rfl
    split
    · rfl
    · rename_i hkeep
      by_contra h0
      exact hkeep ⟨Ne.symm h0, hup.resolve_left (Ne.symm h0)⟩
  exact holds_iff.2 ((holds_iff.1 hh).imp hclear (.imp hclear hclear))

/-- A claim finds an entry where one is free. -/
theorem Hist.exists_claim {h : Hist} (hfree : h.holds 0 = true) (x : Byte) :
    ∃ h', h.claim x = some h' := by
  by_cases h0 : h.h0 = 0
  · exact ⟨_, claim_h0 h0 x⟩
  by_cases h1 : h.h1 = 0
  · exact ⟨_, claim_h1 h0 h1 x⟩
  by_cases h2 : h.h2 = 0
  · exact ⟨_, claim_h2 h0 h1 h2 x⟩
  · rcases holds_iff.1 hfree with hz | hz | hz
    · exact absurd hz.symm h0
    · exact absurd hz.symm h1
    · exact absurd hz.symm h2

/-- A code that is down, not held, where an entry is free, is reported. -/
theorem press_of_free (hd : r.isDown c x = true) (hnot : r.cpHist.holds x = false)
    (hfree : r.cpHist.holds 0 = true) : (r.press c x).1 = true := by
  have hx := (live_and_ne_zero_of_isDown hd).2
  have hheld : (r.expired c).holds x = false := by
    rw [← Bool.not_eq_true] at hnot ⊢
    exact fun he => hnot (Hist.holds_of_holds_expire hx he)
  obtain ⟨h', hc⟩ := Hist.exists_claim (Hist.holds_zero_expire (.inl rfl) hfree) x
  rw [press_of_claim hd hheld hc]

end
end Sys2Proof.Machine
end

section
/-!
SUPPORT. WAS_PRESSED and CHATPAD one after another (spec/40_decoder.md rules R144, R153, R154): a
slot followed through a run by the record it holds.
-/

namespace Sys2Proof.Machine

theorem wasPressedOp_of_free {s : State} {i : Nat} (hl : (s.dev i).live = false) (x : Byte) :
    wasPressedOp i x s = s.ret (.bit false) := if_pos hl

theorem wasPressedOp_of_live {s : State} {i : Nat} (hl : (s.dev i).live = true) (x : Byte) :
    wasPressedOp i x s =
      (s.setRec i { s.dev i with cpHist := ((s.dev i).press s.cfg x).2 }).ret
        (.bit ((s.dev i).press s.cfg x).1) := if_neg (by simp [hl])

theorem exec_wasPressed_of_ready {s : State} (hs : Ready .coordinator s) {i : Byte}
    (hi : i.toNat < s.maxDev) (x : Byte) :
    exec (.wasPressed i x) s = .next (wasPressedOp i.toNat x s) := accept_slot hs hi _

/-- WAS_PRESSED of another slot leaves the record. -/
theorem dev_wasPressedOp_other {s : State} {i j : Nat} (h : j ≠ i) (x : Byte) :
    (wasPressedOp i x s).dev j = s.dev j := by
  cases hl : (s.dev i).live with
  | false => rw [wasPressedOp_of_free hl, dev_ret]
  | true => rw [wasPressedOp_of_live hl, dev_ret, dev_setRec_other h]

/-- On a ready coordinator with parameters `c` and unique keys, slot `i` holds record `r`. -/
structure SlotHolds (c : Config) (i : Nat) (r : DeviceRecord) (s : State) : Prop where
  ready : Ready .coordinator s
  keys : KeysUnique s
  cfg : s.cfg = c
  lt : i < s.maxDev
  dev : s.dev i = r

namespace SlotHolds

variable {c : Config} {i : Nat} {r : DeviceRecord} {s t : State}

/-- Any operation but RESET leaves a ready coordinator with a record in the slot. -/
theorem of_exec {op : Instr} (h : SlotHolds c i r s) (hop : ∀ id, op ≠ .reset id)
    (he : exec op s = .next t) : SlotHolds c i (t.dev i) t :=
  have heff := exec_effect hop he
  { ready := h.ready.of_exec hop he
    keys := heff.keysUnique h.keys
    cfg := heff.control.cfg.trans h.cfg
    lt := heff.count ▸ h.lt
    dev := rfl }

/-- WAS_PRESSED of the slot answers for its record and writes its history. -/
theorem wasPressed {i : Byte} (h : SlotHolds c i.toNat r s) (hl : r.live = true) (x : Byte) :
    ∃ t, exec (.wasPressed i x) s = .next t ∧
      SlotHolds c i.toNat { r with cpHist := (r.press c x).2 } t ∧
      t.result = .bit (r.press c x).1 := by
  have he := exec_wasPressed_of_ready h.ready h.lt x
  have ht := h.of_exec (by simp) he
  rw [wasPressedOp_of_live (h.dev ▸ hl), dev_ret, dev_setRec_same h.lt, h.dev, h.cfg] at ht
  rw [wasPressedOp_of_live (h.dev ▸ hl), h.dev, h.cfg] at he
  exact ⟨_, he, ht, rfl⟩

/-- CHATPAD of the slot's key writes its modifier byte and key codes. -/
theorem chatpad {h : PacketHeader} (hr : SlotHolds c i r s) (ha : h.addr ≠ 0)
    (hk : r.hasKey h.addr h.chan = true) (hf : c.isSupported r.fam = true) {m : Byte} {ks : Bytes}
    (hkind : hasKind (c.layout r.fam) (.chatpad m ks) = true) :
    ∃ t, exec (.chatpad h m ks) s = .next t ∧
      SlotHolds c i { r with cpMods := m, cpKeys := ks } t := by
  have hlookup := lookup_of_key hr.keys hr.lt (hr.dev.symm ▸ hk)
  obtain ⟨t, he, hdev, -⟩ := exec_packet_of_key (p := .chatpad m ks) hr.ready ha hlookup
    (by rwa [hr.cfg, hr.dev]) (by rwa [hr.cfg, hr.dev]) rfl
  have ht := hr.of_exec (op := .chatpad h m ks) (by simp) he
  rw [hdev, hr.dev] at ht
  exact ⟨t, he, ht⟩

/-- All a completed CHATPAD can do to the slot: nothing, or the write of a packet of its key. -/
theorem chatpad_cases {h : PacketHeader} (hr : SlotHolds c i r s) {m : Byte} {ks : Bytes}
    (he : exec (.chatpad h m ks) s = .next t) :
    SlotHolds c i r t ∨ (r.hasKey h.addr h.chan = true ∧
      SlotHolds c i { r with cpMods := m, cpKeys := ks } t) := by
  have ht := hr.of_exec (by simp) he
  obtain ⟨hready, -, -, hi, rfl⟩ := hr
  rw [exec_chatpad, accept_ready hready] at he
  cases he
  rcases packetOp_cases (p := .chatpad m ks) rfl h s with hdrop | ⟨k, hk, hwrite⟩
  · rw [hdrop] at ht ⊢
    exact .inl ht
  · rw [hwrite] at ht ⊢
    by_cases hik : i = k
    · subst hik
      rw [dev_ret, dev_setRec_same hi] at ht
      exact .inr ⟨(lookup_some hk).2, ht⟩
    · rw [dev_ret, dev_setRec_other hik] at ht
      exact .inl ht

end SlotHolds

/-! ### A reported code stays reported (R154) -/

/-- The slot still holds record `r` but for its chatpad state, in which code `x` is down and in the
history. -/
def Reported (c : Config) (r : DeviceRecord) (i : Nat) (x : Byte) (s : State) : Prop :=
  ∃ m ks hist, SlotHolds c i { r with cpMods := m, cpKeys := ks, cpHist := hist } s ∧
    ({ r with cpMods := m, cpKeys := ks } : DeviceRecord).isDown c x = true ∧
    hist.holds x = true

/-- A query of any code and slot, or a CHATPAD packet that keeps `x` down if it is the record's. -/
def KeepsDown (c : Config) (r : DeviceRecord) (x : Byte) (op : Instr) : Prop :=
  (∃ j y, op = .wasPressed j y) ∨ ∃ h m ks, op = .chatpad h m ks ∧
    (r.hasKey h.addr h.chan = true →
      ({ r with cpMods := m, cpKeys := ks } : DeviceRecord).isDown c x = true)

namespace Reported

variable {c : Config} {r : DeviceRecord} {i : Nat} {x : Byte} {s t : State}

theorem wasPressed (h : Reported c r i x s) {j y : Byte}
    (he : exec (.wasPressed j y) s = .next t) : Reported c r i x t := by
  obtain ⟨m, ks, hist, hr, hd, hh⟩ := h
  by_cases hj : i = j.toNat
  · subst hj
    have hl := live_iff.2 (live_and_ne_zero_of_isDown hd).1
    obtain ⟨t', he', ht, -⟩ := hr.wasPressed hl y
    cases he.symm.trans he'
    exact ⟨m, ks, _, ht, hd,
      holds_press (r := { r with cpMods := m, cpKeys := ks, cpHist := hist }) hd hh y⟩
  · have ht := hr.of_exec (by simp) he
    obtain ⟨-, -, -, -, rfl⟩ := accept_next.1 he
    rw [dev_wasPressedOp_other hj, hr.dev] at ht
    exact ⟨m, ks, hist, ht, hd, hh⟩

theorem keepsDown (h : Reported c r i x s) {op : Instr} (hop : KeepsDown c r x op)
    (he : exec op s = .next t) : Reported c r i x t := by
  rcases hop with ⟨j, y, rfl⟩ | ⟨hd, m', ks', rfl, hdown⟩
  · exact h.wasPressed he
  · obtain ⟨m, ks, hist, hr, hd, hh⟩ := h
    rcases hr.chatpad_cases he with ht | ⟨hk, ht⟩
    · exact ⟨m, ks, hist, ht, hd, hh⟩
    · exact ⟨m', ks', hist, ht, hdown hk, hh⟩

theorem runInstrs {ops : List Instr} (hops : ∀ op ∈ ops, KeepsDown c r x op)
    (h : Reported c r i x s) (hrun : runInstrs ops s = .next t) : Reported c r i x t := by
  induction ops generalizing s with
  | nil => cases hrun; exact h
  | cons op ops ih =>
    rw [Machine.runInstrs] at hrun
    split at hrun
    · rename_i u hu
      exact ih (fun op' h' => hops op' (List.mem_cons_of_mem _ h'))
        (h.keepsDown (hops op (by simp)) hu) hrun
    · cases hrun
    · cases hrun

/-- WAS_PRESSED that answers 1 leaves its code reported. -/
theorem of_answer {i : Byte} (h : SlotHolds c i.toNat r s)
    (he : exec (.wasPressed i x) s = .next t) (hans : t.result = .bit true) :
    Reported c r i.toNat x t := by
  cases hl : r.live with
  | false =>
    rw [exec_wasPressed_of_ready h.ready h.lt, wasPressedOp_of_free (h.dev.symm ▸ hl)] at he
    cases he
    cases hans
  | true =>
    obtain ⟨t', he', ht, hres⟩ := h.wasPressed hl x
    cases he.symm.trans he'
    rcases press_cases c r x with hp | ⟨h', hd, hc, hp⟩ <;> rw [hp] at ht hres
    · cases hans.symm.trans hres
    · exact ⟨_, _, h', ht, hd, Hist.holds_claim hc (.inl rfl)⟩

/-- The next WAS_PRESSED of a reported code answers 0. -/
theorem answers_false {i : Byte} (h : Reported c r i.toNat x s) :
    ∃ t, exec (.wasPressed i x) s = .next t ∧ t.result = .bit false := by
  obtain ⟨m, ks, hist, hr, hd, hh⟩ := h
  obtain ⟨t, he, -, hres⟩ :=
    hr.wasPressed (live_iff.2 (live_and_ne_zero_of_isDown hd).1) x
  exact ⟨t, he, hres.trans (congrArg Result.bit (press_held_down hd hh))⟩

end Reported

end Sys2Proof.Machine
end

section
/-!
The obligations about the decoder, the pool and the queries, settled by the lemmas above.
-/

namespace Sys2Proof.Machine

/-! ### The synthetic packet -/

/-- Settles O5: each entry's byte holds exactly what the pressed entries on it set, so it reads back
as pressed iff its canonical bit is in the set; the match bytes are the entries' neighbours. -/
theorem syntheticPadReadsBack : Obligations.SyntheticPadReadsBack := by
  unfold Obligations.SyntheticPadReadsBack
  rintro cpKeys n ms f buttons src hwf hval hnd hapart hone hana - rfl
  simp only [Kind.wf, KindBody.wf, Bool.and_eq_true, List.all_eq_true, decide_eq_true_eq,
    and_assoc] at hwf
  obtain ⟨-, -, hoff, hentries, -⟩ := hwf
  have hes : ReadableButtons n f.buttons :=
    { wf := hentries
      oneEntry := fun e he e' he' h => hone e he e' he' (by cases e <;> cases e' <;> exact h)
      anaAlone := fun off m hm e he h => hana off m hm e he (by cases e <;> exact h) }
  have hne : ∀ m ∈ ms, ∀ e ∈ f.buttons, e.offset ≠ m.off := fun m hm e he => by
    have := hapart m hm e he
    cases e <;> exact Ne.symm this
  have hblank : (Kind.blank ⟨n, ms, .pad f⟩).length = n := by simp [blank_eq]
  have hlt : ∀ e ∈ f.buttons, e.offset < (Kind.blank ⟨n, ms, .pad f⟩).length := fun e he =>
    hblank.symm ▸ ButtonEntry.offset_lt (hentries e he)
  have hzero : ∀ e ∈ f.buttons, rd8 (Kind.blank ⟨n, ms, .pad f⟩) e.offset = 0 := fun e he =>
    (rd8_putMatches_of_off_ne (fun m hm => (hne m hm e he).symm) _).trans (rd8_replicate_zero ..)
  have hsyn := (pressAll_length f.buttons (assembleButtons f.buttons src) _).trans hblank
  refine ⟨hsyn, accepts_of_matchBytes hsyn hval fun m hm => ?_,
    hes.assembleButtons_pressAll hblank hzero src⟩
  exact (rd8_pressAll_of_offset_ne hlt (hne m hm) _).trans
    (rd8_putMatches (by simpa using hoff) hnd hm)

/-! ### The pool -/

/-- Settles O11: each case of ATTACH by its equation; the allocation is E3 or the lowest
free slot. -/
theorem attachFollowsItsRule : Obligations.AttachFollowsItsRule := by
  unfold Obligations.AttachFollowsItsRule
  intro s addr fam inEp outEp chan hs hu
  refine ⟨decode_encode (l := []) (i := .attach addr fam inEp outEp chan) rfl nofun nofun, rfl, _,
    accept_ready hs _, (OnlyPool.attachDevice addr fam inEp outEp chan s).draws, fun h => ?_,
    fun ha hf hp => ⟨fun i hi hk => ?_, fun hk => ⟨fun hfull => ?_, fun i hi hfree hlow => ?_⟩⟩⟩
  · rw [attachDevice_of_refused inEp outEp h]
    exact ret_answers ..
  · rw [attachDevice_of_known inEp outEp ha hf hp (lookup_of_key hu hi hk)]
    exact ret_answers ..
  · rw [attachDevice_of_new inEp outEp ha hf hp (lookup_none.2 hk),
      alloc_of_full fam addr inEp outEp chan hfull]
    exact emit_ret_answers ..
  · rw [attachDevice_of_new inEp outEp ha hf hp (lookup_none.2 hk),
      alloc_of_lowest fam addr inEp outEp chan hi hfree hlow]
    obtain ⟨hdev, honly, -, hans⟩ := setRec_ret_answers hi
      (freshRecord s.cfg fam addr inEp outEp chan) (.slot (some i))
    exact ⟨hdev, honly, hans⟩

/-- Settles O12: DETACH maps each record by itself. -/
theorem detachFreesEveryRecordOfItsAddress : Obligations.DetachFreesEveryRecordOfItsAddress := by
  unfold Obligations.DetachFreesEveryRecordOfItsAddress
  intro s addr hs
  refine ⟨decodePort_cons .detach [addr], _, accept_ready hs _, (OnlyPool.detachAddr addr s).draws,
    detachAddr_answers addr s, detachAddr_onlyRecords addr s, fun ha j _ hl hj => ?_⟩
  rw [dev_detachAddr ha, if_pos (by rw [hl, hj]; simp)]

/-! ### Packets -/

/-- Settles O13: every such packet ends in a silent error. -/
theorem unrecognisedPacketsChangeNothing : Obligations.UnrecognisedPacketsChangeNothing := by
  unfold Obligations.UnrecognisedPacketsChangeNothing
  intro s h len buf hs hbuf hun
  simp only [← lookup_none] at hun
  refine ⟨_, ?_, ret_answers s (.isPad false)⟩
  rw [exec_decode, beq_iff_eq.2 hbuf, accept_ready hs, decodePacketOp_of_unrecognised hun]

/-- Settles O17: each clause is the packet instruction of the kind's own fields. -/
theorem decodeIsItsPacketKind : Obligations.DecodeIsItsPacketKind := by
  unfold Obligations.DecodeIsItsPacketKind
  intro s h len buf n ms body hs hbuf hlen ha hf hc
  rw [exec_decode_of_classify hs hbuf hlen ha hf hc]
  refine ⟨?_, ?_, ?_, ?_⟩
  · rintro f rfl
    rfl
  · rintro off bit rfl
    have hbit : (rd8 buf off &&& bit != 0) = decide (rd8 buf off &&& bit ≠ 0) :=
      Bool.eq_iff_iff.2 (by rw [bne_iff_ne, decide_eq_true_iff])
    exact congrArg (fun b => exec (.presence h b) s) hbit
  · rintro m ks rfl
    rfl
  · rintro rfl
    rfl

/-- Settles O14: DECODE is the PAD instruction, whose record's family the layout is taken from. -/
theorem padPacketOverwritesThePadState : Obligations.PadPacketOverwritesThePadState := by
  unfold Obligations.PadPacketOverwritesThePadState
  intro s h len buf i n ms f hs hu hbuf hlen hi hk ha hf hc
  have hlookup := lookup_of_key hu hi hk
  have hfam := familyFor_of_lookup hlookup
  rw [exec_decode_of_classify hs hbuf hlen ha (hfam ▸ hf) (hfam ▸ hc)]
  exact exec_packet_of_key (p := .pad (f.read buf)) hs ha hlookup hf (hasKind_of_classify hc) rfl

/-- Settles O18: the four cases of R141's path, the allocation split by the free slots. -/
theorem presenceAllocatesAndFrees : Obligations.PresenceAllocatesAndFrees := by
  unfold Obligations.PresenceAllocatesAndFrees
  intro s h present hs hu ha hf hkind
  refine ⟨presencePath (s.familyFor h) h present s, ?_, (OnlyPool.presencePath ..).draws,
    fun i hi hk => ?_, fun hk => ?_⟩
  · rw [exec_presence, accept_ready hs, packetOp_of_kind ha hf hkind, packetPath_presence]
  · have hlookup := lookup_of_key hu hi hk
    refine ⟨?_, ?_⟩ <;> rintro rfl
    · rw [presencePath_present_of_lookup hlookup]
      exact ret_answers ..
    · rw [presencePath_absent_of_lookup hlookup]
      obtain ⟨hdev, honly, -, hans⟩ :=
        setRec_ret_answers hi (zeroRecord s.cfg.cpKeys) (.isPad false)
      exact ⟨hdev, honly, hans⟩
  · have hlookup := lookup_none.2 hk
    rw [familyFor_of_absent hlookup]
    refine ⟨?_, ?_, ?_⟩ <;> rintro rfl
    · rw [presencePath_absent_of_absent hlookup]
      exact ret_answers ..
    · intro hfull
      rw [presencePath_present_of_absent hlookup, alloc_of_full _ _ _ _ _ hfull]
      exact emit_ret_answers ..
    · intro i hi hfree hlow
      rw [presencePath_present_of_absent hlookup, alloc_of_lowest _ _ _ _ _ hi hfree hlow]
      obtain ⟨hdev, honly, -, hans⟩ := setRec_ret_answers hi
        (freshRecord s.cfg h.hostFam h.addr h.inEp h.outEp h.chan) (.isPad false)
      exact ⟨hdev, honly, hans⟩

/-- Settles O19: the three packets that write a live record. -/
theorem packetKindsWriteTheirFields : Obligations.PacketKindsWriteTheirFields := by
  unfold Obligations.PacketKindsWriteTheirFields
  intro s h i hs hu ha hi hk hf
  have hlookup := lookup_of_key hu hi hk
  exact ⟨fun p hkind => exec_packet_of_key (p := .pad p) hs ha hlookup hf hkind rfl,
    fun m ks hkind => exec_packet_of_key (p := .chatpad m ks) hs ha hlookup hf hkind rfl,
    fun hkind => exec_packet_of_key (p := .reinit) hs ha hlookup hf hkind rfl⟩

/-- Settles O20: without a record each of the three packets is dropped. -/
theorem packetsOfFreedKeysAreDropped : Obligations.PacketsOfFreedKeysAreDropped := by
  unfold Obligations.PacketsOfFreedKeysAreDropped
  intro s h hs hk
  have hlookup := lookup_none.2 hk
  exact ⟨fun p => exec_packet_of_absent (p := .pad p) hs hlookup rfl,
    fun m ks => exec_packet_of_absent (p := .chatpad m ks) hs hlookup rfl,
    exec_packet_of_absent (p := .reinit) hs hlookup rfl⟩

/-! ### Queries and requests -/

/-- Settles O21: READ_PAD only returns. -/
theorem readPadReturnsThePadState : Obligations.ReadPadReturnsThePadState := by
  unfold Obligations.ReadPadReturnsThePadState
  intro s i hs hi
  obtain ⟨honly, hans⟩ := ret_answers s (.pad (s.dev i.toNat).pad)
  refine ⟨decodePort_cons .readPad [i], _, (exec_readPad s i).trans (accept_slot hs hi _), honly,
    hans, fun hz => ?_⟩
  rw [hz] at hans
  exact hz ▸ hans

/-- Settles O22: the mask bit by bit. -/
theorem buttonEdgeIsRisingEdges : Obligations.ButtonEdgeIsRisingEdges := by
  unfold Obligations.ButtonEdgeIsRisingEdges
  intro s i hs hi
  obtain ⟨honly, hans⟩ := ret_answers s (.mask (s.dev i.toNat).edgeMask)
  refine ⟨decodePort_cons .buttonEdge [i], _, _,
    (exec_buttonEdge s i).trans (accept_slot hs hi _), honly, hans, fun b => getLsbD_edgeMask_iff,
    fun hz => ?_⟩
  rw [hz]
  exact BitVec.zero_and

/-- Settles O23: COMMIT_EDGES is an update of a live record. -/
theorem commitEdgesClosesTheWindow : Obligations.CommitEdgesClosesTheWindow := by
  unfold Obligations.CommitEdgesClosesTheWindow
  intro s i hs hi
  exact ⟨decodePort_cons .commitEdges [i], _, (exec_commitEdges s i).trans (accept_slot hs hi _),
    updateLive_ret_answers hi _ _⟩

/-- Settles O28: each SET operation is an update of a live record. -/
theorem requestsWriteOnlyTheirField : Obligations.RequestsWriteOnlyTheirField := by
  unfold Obligations.RequestsWriteOnlyTheirField
  intro s i hs hi
  refine ⟨fun l r => ?_, fun q => ?_, fun b => ?_⟩
  · exact ⟨decodePort_cons .setRumble [i, l, r], _,
      (exec_setRumble s i l r).trans (accept_slot hs hi _), updateLive_ret_answers hi _ _⟩
  · exact ⟨decodePort_cons .setLed [i, q], _,
      (exec_setLed s i q).trans (accept_slot hs hi _), updateLive_ret_answers hi _ _⟩
  · exact ⟨decodePort_cons .setCpled [i, b], _,
      (exec_setCpled s i b).trans (accept_slot hs hi _), updateLive_ret_answers hi _ _⟩

/-- Settles O24: a modifier's code finds its row, any other code finds none. -/
theorem isDownTestsModifiersAndKeys : Obligations.IsDownTestsModifiersAndKeys := by
  unfold Obligations.IsDownTestsModifiersAndKeys
  intro s i x hs hi
  obtain ⟨honly, hans⟩ := ret_answers s (.bit ((s.dev i.toNat).isDown s.cfg x))
  refine ⟨decodePort_cons .isDown [i, x], _, _,
    (exec_isDown s i x).trans (accept_slot hs hi _), honly, hans, isDown_eq_false,
    fun hfam hx => ⟨?_, isDown_key_iff hfam hx⟩⟩
  rintro m rfl
  exact isDown_modifier_iff (modsWf_of_ready hs) hfam hx

/-- Settles O25: the answer and the history by the case of the press, the claim by the lowest free
entry of the expired history. -/
theorem wasPressedExpiresThenClaims : Obligations.WasPressedExpiresThenClaims := by
  unfold Obligations.WasPressedExpiresThenClaims
  intro s i x hs hi
  refine ⟨decodePort_cons .wasPressed [i, x], ?_⟩
  rw [exec_wasPressed_of_ready hs hi]
  by_cases hfam : (s.dev i.toNat).fam = .unknown
  · rw [wasPressedOp_of_free (Bool.eq_false_iff.2 fun h => live_iff.1 h hfam)]
    obtain ⟨honly, hans⟩ := ret_answers s (.bit false)
    exact ⟨_, _, rfl, honly.draws, hans, honly.onlyRecords _, fun _ => ⟨rfl, honly⟩,
      fun h => absurd hfam h⟩
  rw [wasPressedOp_of_live (live_iff.2 hfam)]
  obtain ⟨hdev, honly, hdraw, hans⟩ := setRec_ret_answers hi
    { s.dev i.toNat with cpHist := ((s.dev i.toNat).press s.cfg x).2 }
    (.bit ((s.dev i.toNat).press s.cfg x).1)
  refine ⟨_, _, rfl, hdraw, hans, honly, fun h => absurd h hfam, fun _ => ⟨_, hdev, ?_, ?_⟩⟩
  · intro h
    rw [press_of_not_new h]
    exact ⟨rfl, rfl⟩
  · intro hdown hne0 hne1 hne2
    have hnot : ((s.dev i.toNat).expired s.cfg).holds x = false :=
      Hist.holds_eq_false hne0 hne1 hne2
    refine ⟨fun h0 => ?_, fun h0 h1 => ?_, fun h0 h1 h2 => ?_⟩
    · rw [press_of_claim hdown hnot (Hist.claim_h0 h0 x)]
      exact ⟨rfl, rfl⟩
    · rw [press_of_claim hdown hnot (Hist.claim_h1 h0 h1 x)]
      exact ⟨rfl, rfl⟩
    · rw [press_of_claim hdown hnot (Hist.claim_h2 h0 h1 h2 x)]
      exact ⟨rfl, rfl⟩

/-- Settles O26: what a reported code is, kept by every operation of the run. -/
theorem heldKeyIsReportedOnce : Obligations.HeldKeyIsReportedOnce := by
  unfold Obligations.HeldKeyIsReportedOnce
  intro s t u i x ops hs hu hi he hans hops hrun
  have hslot : SlotHolds s.cfg i.toNat (s.dev i.toNat) s := ⟨hs, hu, rfl, hi, rfl⟩
  exact ((Reported.of_answer hslot he hans).runInstrs hops hrun).answers_false

/-- Settles O27: the query after the release frees the code's entry, which stays free until the last
query claims one. -/
theorem repressedKeyIsReportedAgain : Obligations.RepressedKeyIsReportedAgain := by
  unfold Obligations.RepressedKeyIsReportedAgain
  intro s i x h m m' ks ks' hs hu hi ha hk hf hkind hheld hx hup hdown
  have hl : (s.dev i.toNat).live = true := live_of_lookup (lookup_of_key hu hi hk)
  have h0 : SlotHolds s.cfg i.toNat (s.dev i.toNat) s := ⟨hs, hu, rfl, hi, rfl⟩
  obtain ⟨s1, he1, h1⟩ := h0.chatpad ha hk hf hkind
  obtain ⟨s2, he2, h2, -⟩ := h1.wasPressed hl x
  obtain ⟨s3, he3, h3⟩ := h2.chatpad (m := m') (ks := ks') ha hk hf (hasKind_chatpad .. ▸ hkind)
  obtain ⟨s4, he4, -, hans⟩ := h3.wasPressed hl x
  refine ⟨s4, by simp only [runInstrs, he1, he2, he3, he4],
    hans.trans (congrArg Result.bit (press_of_free hdown ?_ ?_))⟩
  · rw [press_of_up hup]
    exact Hist.holds_expire_of_up hx hup
  · rw [press_of_up hup]
    exact Hist.holds_zero_expire (.inr hup) hheld

end Sys2Proof.Machine
end

section
/-!
SUPPORT. The emission primitive (spec/41_feedback.md rule R170): what one transfer's answer does,
what a script of answers does, the events of one command, and what a send reads.
-/

namespace Sys2Proof.Machine

section
variable {i : Nat} {kind : CmdKind} {addr ep : Byte} {p : Bytes} {ps : List Bytes} {s : State}

/-! ### One transfer -/

theorem sendStrings_cons_of_error (h : (s.emit (.uptx addr ep p)).drawTransfer.1 = .error) :
    sendStrings i kind addr ep (p :: ps) s =
      (false, (s.emit (.uptx addr ep p)).drawTransfer.2.emit (.diag (.uptxFail i kind))) := by
  rw [sendStrings, ← Prod.mk.eta (p := State.drawTransfer _), h]
  rfl

theorem sendStrings_cons_of_ne_error (h : (s.emit (.uptx addr ep p)).drawTransfer.1 ≠ .error) :
    sendStrings i kind addr ep (p :: ps) s =
      sendStrings i kind addr ep ps (s.emit (.uptx addr ep p)).drawTransfer.2 := by
  rw [sendStrings]
  split <;> rename_i t hd <;> rw [hd] at h ⊢
  exact absurd rfl h

/-! ### Scripted answers -/

/-- The state after the transfers `ps` were emitted and the script was cut to `rest`. -/
def State.transmitted (s : State) (addr ep : Byte) (ps : List Bytes) (rest : List TransferResult) :
    State :=
  { s with upTape := rest, events := s.events ++ ps.map (fun p => .uptx addr ep p) }

theorem transmitted_nil (s : State) (addr ep : Byte) : s.transmitted addr ep [] s.upTape = s := by
  simp [State.transmitted]

theorem transmitted_transmitted (s : State) (addr ep : Byte) (ps qs : List Bytes)
    (rest rest' : List TransferResult) :
    (s.transmitted addr ep ps rest).transmitted addr ep qs rest' =
      s.transmitted addr ep (ps ++ qs) rest' := by
  simp [State.transmitted]

theorem drawTransfer_emit_uptx {o : TransferResult} {rest : List TransferResult}
    (h : s.upTape = o :: rest) :
    (s.emit (.uptx addr ep p)).drawTransfer = (o, s.transmitted addr ep [p] rest) :=
  drawTransfer_cons h

/-- While the scripted answers are good the strings go out one by one. -/
theorem sendStrings_of_good {oks rest : List TransferResult} (hok : ∀ o ∈ oks, o ≠ .error)
    (hlen : oks.length ≤ ps.length) (h : s.upTape = oks ++ rest) :
    sendStrings i kind addr ep ps s = sendStrings i kind addr ep (ps.drop oks.length)
      (s.transmitted addr ep (ps.take oks.length) rest) := by
  induction oks generalizing ps s with
  | nil =>
    obtain rfl : s.upTape = rest := h
    rw [List.length_nil, List.take_zero, transmitted_nil]
    rfl
  | cons o oks ih =>
    obtain ⟨p, ps, rfl⟩ := List.exists_cons_of_length_pos (Nat.lt_of_lt_of_le (by simp) hlen)
    have hdraw := drawTransfer_emit_uptx (addr := addr) (ep := ep) (p := p) h
    rw [sendStrings_cons_of_ne_error (by rw [hdraw]; exact hok o (by simp)), hdraw,
      ih (fun o ho => hok o (by simp [ho])) (by simpa using hlen) rfl, transmitted_transmitted]
    rfl

theorem send_of_good {k : Cmd} {oks rest : List TransferResult}
    (hok : ∀ o ∈ oks, o ≠ .error) (hlen : oks.length = (s.cfg.cmd (s.dev i).fam k).length)
    (h : s.upTape = oks ++ rest) :
    send i k s = (true, s.transmitted (s.dev i).addr (s.dev i).outEp
      (s.cfg.cmd (s.dev i).fam k) rest) := by
  rw [send, sendStrings_of_good hok hlen.le h, hlen, List.drop_length, List.take_length]
  rfl

theorem send_of_failure {k : Cmd} {oks rest : List TransferResult}
    (hok : ∀ o ∈ oks, o ≠ .error) (hlen : oks.length < (s.cfg.cmd (s.dev i).fam k).length)
    (h : s.upTape = oks ++ .error :: rest) :
    send i k s = (false, (s.transmitted (s.dev i).addr (s.dev i).outEp
      ((s.cfg.cmd (s.dev i).fam k).take (oks.length + 1)) rest).emit
        (.diag (.uptxFail i k.kind))) := by
  have hdraw := fun p => drawTransfer_emit_uptx (addr := (s.dev i).addr) (ep := (s.dev i).outEp)
    (p := p) (s := s.transmitted (s.dev i).addr (s.dev i).outEp
      ((s.cfg.cmd (s.dev i).fam k).take oks.length) (.error :: rest)) rfl
  rw [send, sendStrings_of_good hok hlen.le h, List.drop_eq_getElem_cons hlen,
    sendStrings_cons_of_error (by rw [hdraw]), hdraw, transmitted_transmitted,
    List.take_append_getElem]

/-! ### Any answers -/

theorem CommandEvents.nil : CommandEvents i kind addr ep [] true [] :=
  ⟨0, rfl, fun _ => rfl, by simp⟩

theorem CommandEvents.failed : CommandEvents i kind addr ep (p :: ps) false
    [.uptx addr ep p, .diag (.uptxFail i kind)] :=
  ⟨1, rfl, by simp, by simp⟩

theorem CommandEvents.cons {ok : Bool} {evs : List Event}
    (h : CommandEvents i kind addr ep ps ok evs) :
    CommandEvents i kind addr ep (p :: ps) ok (.uptx addr ep p :: evs) := by
  obtain ⟨n, rfl, hall, hsome⟩ := h
  refine ⟨n + 1, by simp, fun ho => by simp [hall ho], fun ho => ?_⟩
  obtain ⟨-, hle⟩ := hsome ho
  exact ⟨by simp, by simpa using hle⟩

/-- The events of a send, whatever the transfers answer. -/
theorem sendStrings_commandEvents (i : Nat) (kind : CmdKind) (addr ep : Byte) (ps : List Bytes)
    (s : State) :
    ∃ evs, (sendStrings i kind addr ep ps s).2.events = s.events ++ evs ∧
      CommandEvents i kind addr ep ps (sendStrings i kind addr ep ps s).1 evs := by
  induction ps generalizing s with
  | nil => exact ⟨[], (List.append_nil _).symm, .nil⟩
  | cons p ps ih =>
    by_cases h : (s.emit (.uptx addr ep p)).drawTransfer.1 = .error
    · rw [sendStrings_cons_of_error h]
      exact ⟨_, by simp, .failed⟩
    · rw [sendStrings_cons_of_ne_error h]
      obtain ⟨evs, he, hc⟩ := ih (s.emit (.uptx addr ep p)).drawTransfer.2
      exact ⟨_, by simp [he], hc.cons⟩

theorem send_commandEvents (i : Nat) (k : Cmd) (s : State) :
    ∃ evs, (send i k s).2.events = s.events ++ evs ∧
      CommandEvents i k.kind (s.dev i).addr (s.dev i).outEp (s.cfg.cmd (s.dev i).fam k)
        (send i k s).1 evs :=
  sendStrings_commandEvents ..

/-! ### What a send reads -/

theorem drawTransfer_setRec (s : State) (j : Nat) (r : DeviceRecord) :
    (s.setRec j r).drawTransfer = (s.drawTransfer.1, s.drawTransfer.2.setRec j r) := by
  unfold State.drawTransfer
  rw [setRec_upTape]
  split <;> rfl

/-- The strings of a command go out alike whatever the records hold. -/
theorem sendStrings_setRec (j : Nat) (r : DeviceRecord) (ps : List Bytes) (s : State) :
    sendStrings i kind addr ep ps (s.setRec j r) =
      ((sendStrings i kind addr ep ps s).1, (sendStrings i kind addr ep ps s).2.setRec j r) := by
  induction ps generalizing s with
  | nil => rfl
  | cons p ps ih =>
    have hdraw : ((s.setRec j r).emit (.uptx addr ep p)).drawTransfer = _ :=
      drawTransfer_setRec (s.emit (.uptx addr ep p)) j r
    by_cases h : (s.emit (.uptx addr ep p)).drawTransfer.1 = .error
    · rw [sendStrings_cons_of_error h, sendStrings_cons_of_error (by rw [hdraw]; exact h), hdraw]
      rfl
    · rw [sendStrings_cons_of_ne_error h, sendStrings_cons_of_ne_error (by rw [hdraw]; exact h),
        hdraw, ih]

/-- Of its own record a send reads the family and the handles alone. -/
theorem send_setRec (hi : i < s.maxDev) (k : Cmd) {r : DeviceRecord} (hfam : r.fam = (s.dev i).fam)
    (haddr : r.addr = (s.dev i).addr) (hep : r.outEp = (s.dev i).outEp) :
    send i k (s.setRec i r) = ((send i k s).1, (send i k s).2.setRec i r) := by
  rw [send, dev_setRec_same hi, hfam, haddr, hep, setRec_cfg, sendStrings_setRec]
  rfl

end

end Sys2Proof.Machine
end

section
/-!
SUPPORT. The hold-timer update and the selected branch (spec/41_feedback.md rules R171 and R178):
the record and the state after the update, the guards in the statements' words, and the branch they
select.
-/

namespace Sys2Proof.Machine

/-! ### The hold timer (R171, R176) -/

/-- The record after the hold-timer update. -/
def DeviceRecord.afterHold (c : Config) (now : BitVec 32) (r : DeviceRecord) : DeviceRecord :=
  if r.held c then r else { r with tPowerHold := now }

section
variable {c : Config} {r r1 : DeviceRecord} {now : BitVec 32}

theorem held_iff : r.held c = true ↔
    (c.capsOf r.fam).powerOff = true ∧ r.pad.buttons &&& c.powerMask ≠ 0 := by
  simp [DeviceRecord.held]

theorem afterHold_of_held
    (h : (c.capsOf r.fam).powerOff = true ∧ r.pad.buttons &&& c.powerMask ≠ 0) :
    r.afterHold c now = r := if_pos (held_iff.2 h)

theorem afterHold_of_not_held
    (h : ¬ ((c.capsOf r.fam).powerOff = true ∧ r.pad.buttons &&& c.powerMask ≠ 0)) :
    r.afterHold c now = { r with tPowerHold := now } := if_neg fun hh => h (held_iff.1 hh)

theorem eq_afterHold
    (hheld : (c.capsOf r.fam).powerOff = true ∧ r.pad.buttons &&& c.powerMask ≠ 0 → r1 = r)
    (hup : ¬ ((c.capsOf r.fam).powerOff = true ∧ r.pad.buttons &&& c.powerMask ≠ 0) →
      r1 = { r with tPowerHold := now }) : r1 = r.afterHold c now := by
  by_cases h : (c.capsOf r.fam).powerOff = true ∧ r.pad.buttons &&& c.powerMask ≠ 0
  · rw [hheld h, afterHold_of_held h]
  · rw [hup h, afterHold_of_not_held h]

/-- The update touches the hold timer alone. -/
theorem afterHold_eq (c : Config) (now : BitVec 32) (r : DeviceRecord) :
    ∃ th, r.afterHold c now = { r with tPowerHold := th } := by
  unfold DeviceRecord.afterHold
  split
  · exact ⟨r.tPowerHold, rfl⟩
  · exact ⟨now, rfl⟩

@[simp] theorem afterHold_fam : (r.afterHold c now).fam = r.fam := by
  obtain ⟨th, h⟩ := afterHold_eq c now r; rw [h]
@[simp] theorem afterHold_addr : (r.afterHold c now).addr = r.addr := by
  obtain ⟨th, h⟩ := afterHold_eq c now r; rw [h]
@[simp] theorem afterHold_outEp : (r.afterHold c now).outEp = r.outEp := by
  obtain ⟨th, h⟩ := afterHold_eq c now r; rw [h]
@[simp] theorem afterHold_rumReq : (r.afterHold c now).rumReq = r.rumReq := by
  obtain ⟨th, h⟩ := afterHold_eq c now r; rw [h]
@[simp] theorem afterHold_ledReq : (r.afterHold c now).ledReq = r.ledReq := by
  obtain ⟨th, h⟩ := afterHold_eq c now r; rw [h]
@[simp] theorem afterHold_cpLedReq : (r.afterHold c now).cpLedReq = r.cpLedReq := by
  obtain ⟨th, h⟩ := afterHold_eq c now r; rw [h]
@[simp] theorem afterHold_cpLedAct : (r.afterHold c now).cpLedAct = r.cpLedAct := by
  obtain ⟨th, h⟩ := afterHold_eq c now r; rw [h]

/-- The update decides no guard: where it moves the timer, the power-off branch is not due. -/
theorem guard_afterHold (b : Branch) :
    (r.afterHold c now).guard c now b = r.guard c now b := by
  unfold DeviceRecord.afterHold
  split
  · rfl
  · rename_i h
    cases b
    case powerOff =>
      have h' : ({ r with tPowerHold := now } : DeviceRecord).held c = r.held c := rfl
      simp [DeviceRecord.guard, h', h]
    all_goals rfl

@[simp] theorem selectBranch_afterHold :
    (r.afterHold c now).selectBranch c now = r.selectBranch c now := by
  simp only [DeviceRecord.selectBranch, guard_afterHold]

/-! ### The guards (R172 to R177) -/

theorem guard_rumble_iff : r.guard c now .rumble = true ↔
    (c.capsOf r.fam).rumble = true ∧ r.rumReq ≠ r.rumAct := by simp [DeviceRecord.guard]
theorem guard_led_iff : r.guard c now .led = true ↔
    (c.capsOf r.fam).led = true ∧ r.ledReq ≠ r.ledAct := by simp [DeviceRecord.guard]
theorem guard_cpInit_iff : r.guard c now .cpInit = true ↔
    (c.capsOf r.fam).cpInit = true ∧ r.cpInitPending = true := by simp [DeviceRecord.guard]
theorem guard_cpLed_iff : r.guard c now .cpLed = true ↔
    (c.capsOf r.fam).cpLed = true ∧ r.cpLedReq ≠ r.cpLedAct := by simp [DeviceRecord.guard]
theorem guard_powerOff_iff : r.guard c now .powerOff = true ↔
    ((c.capsOf r.fam).powerOff = true ∧ r.pad.buttons &&& c.powerMask ≠ 0) ∧
      1000 < (now - r.tPowerHold).toNat := by
  rw [← held_iff]
  simp [DeviceRecord.guard, DeviceRecord.holdElapsed, powerMs, BitVec.lt_def]
theorem guard_keepalive_iff : r.guard c now .keepalive = true ↔
    (c.capsOf r.fam).keepalive = true ∧ 1000 ≤ (now - r.tPeriodic).toNat := by
  simp [DeviceRecord.guard, DeviceRecord.periodElapsed, keepaliveMs, BitVec.le_def]

/-- The selected branch is the first whose guard holds (R171). -/
theorem selectBranch_eq_some_iff {pre post : List Branch} {b : Branch}
    (h : branches = pre ++ b :: post) :
    r.selectBranch c now = some b ↔
      r.guard c now b = true ∧ ∀ b' ∈ pre, r.guard c now b' = false := by
  have hnd : (pre ++ b :: post).Nodup := h ▸ (by decide : branches.Nodup)
  obtain ⟨hb, -⟩ := List.nodup_cons.1 (List.nodup_middle.1 hnd)
  obtain ⟨hbpre, hbpost⟩ := not_or.1 (mt List.mem_append.2 hb)
  rw [DeviceRecord.selectBranch, List.find?_eq_some_iff_append]
  simp only [Bool.not_eq_true']
  refine and_congr_right fun _ => ⟨?_, fun hpre => ⟨pre, post, h, hpre⟩⟩
  rintro ⟨pre', post', h', hpre⟩
  obtain ⟨rfl, -, -⟩ := (List.append_cons_inj_of_notMem hbpre hbpost).1 (h.symm.trans h')
  exact hpre

/-! ### The selected branch in the statements' words -/

theorem selectBranch_rumble (hcap : (c.capsOf r.fam).rumble = true) (hne : r.rumReq ≠ r.rumAct) :
    r.selectBranch c now = some .rumble :=
  (selectBranch_eq_some_iff (pre := []) rfl).2 ⟨guard_rumble_iff.2 ⟨hcap, hne⟩, by simp⟩

variable (hrum : ¬ ((c.capsOf r.fam).rumble = true ∧ r.rumReq ≠ r.rumAct))
include hrum

theorem selectBranch_led (hcap : (c.capsOf r.fam).led = true) (hne : r.ledReq ≠ r.ledAct) :
    r.selectBranch c now = some .led := by
  rw [← guard_rumble_iff (now := now)] at hrum
  exact (selectBranch_eq_some_iff (pre := [.rumble]) rfl).2
    ⟨guard_led_iff.2 ⟨hcap, hne⟩, by simp [hrum]⟩

variable (hled : ¬ ((c.capsOf r.fam).led = true ∧ r.ledReq ≠ r.ledAct))
include hled

theorem selectBranch_cpInit (hcap : (c.capsOf r.fam).cpInit = true)
    (hpend : r.cpInitPending = true) : r.selectBranch c now = some .cpInit := by
  rw [← guard_rumble_iff (now := now)] at hrum
  rw [← guard_led_iff (now := now)] at hled
  exact (selectBranch_eq_some_iff (pre := [.rumble, .led]) rfl).2
    ⟨guard_cpInit_iff.2 ⟨hcap, hpend⟩, by simp [hrum, hled]⟩

variable (hinit : ¬ ((c.capsOf r.fam).cpInit = true ∧ r.cpInitPending = true))
include hinit

theorem selectBranch_cpLed (hcap : (c.capsOf r.fam).cpLed = true)
    (hne : r.cpLedReq ≠ r.cpLedAct) : r.selectBranch c now = some .cpLed := by
  rw [← guard_rumble_iff (now := now)] at hrum
  rw [← guard_led_iff (now := now)] at hled
  rw [← guard_cpInit_iff (now := now)] at hinit
  exact (selectBranch_eq_some_iff (pre := [.rumble, .led, .cpInit]) rfl).2
    ⟨guard_cpLed_iff.2 ⟨hcap, hne⟩, by simp [hrum, hled, hinit]⟩

end

/-! ### The branches of the actual fields -/

/-- The branches that bring an actual field to its request, in priority order (R172 to R175). -/
def syncBranches : List Branch := [.rumble, .led, .cpInit, .cpLed]

/-- The branches of `syncBranches` that are due on a record; their guards read no time. -/
def DeviceRecord.pending (c : Config) (r : DeviceRecord) : List Branch :=
  syncBranches.filter (r.guard c 0#32)

section
variable {c : Config} {r : DeviceRecord} {now : BitVec 32}

theorem guard_eq_of_sync {b : Branch} (hb : b ∈ syncBranches) :
    r.guard c now b = r.guard c 0#32 b := by
  simp only [syncBranches, List.mem_cons, List.not_mem_nil, or_false] at hb
  rcases hb with rfl | rfl | rfl | rfl <;> rfl

theorem pending_eq_nil_iff : r.pending c = [] ↔
    ¬ ((c.capsOf r.fam).rumble = true ∧ r.rumReq ≠ r.rumAct) ∧
    ¬ ((c.capsOf r.fam).led = true ∧ r.ledReq ≠ r.ledAct) ∧
    ¬ ((c.capsOf r.fam).cpInit = true ∧ r.cpInitPending = true) ∧
    ¬ ((c.capsOf r.fam).cpLed = true ∧ r.cpLedReq ≠ r.cpLedAct) := by
  rw [← guard_rumble_iff (now := 0#32), ← guard_led_iff (now := 0#32),
    ← guard_cpInit_iff (now := 0#32), ← guard_cpLed_iff (now := 0#32)]
  simp [DeviceRecord.pending, syncBranches]

/-- The hold timer is in no guard of `syncBranches`. -/
theorem pending_afterHold : (r.afterHold c now).pending c = r.pending c := by
  obtain ⟨th, h⟩ := afterHold_eq c now r
  rw [h]
  rfl

/-- The first pending branch is selected, and a timed one only with none pending. -/
theorem selectBranch_eq : r.selectBranch c now =
    (r.pending c).head?.or ([Branch.powerOff, .keepalive].find? (r.guard c now)) := by
  have hsync : syncBranches.find? (r.guard c now) = (r.pending c).head? := by
    rw [DeviceRecord.pending, List.head?_filter]
    exact List.find?_congr fun b hb => guard_eq_of_sync hb
  show (syncBranches ++ [Branch.powerOff, .keepalive]).find? (r.guard c now) = _
  rw [List.find?_append, hsync]

theorem selectBranch_of_pending_nil (h : r.pending c = []) :
    r.selectBranch c now = [Branch.powerOff, .keepalive].find? (r.guard c now) := by
  rw [selectBranch_eq, h]
  rfl

theorem selectBranch_of_pending_cons {b : Branch} {bs : List Branch} (h : r.pending c = b :: bs) :
    r.selectBranch c now = some b := by
  rw [selectBranch_eq, h]
  rfl

theorem exists_pending_cons {b : Branch} (hb : b ∈ syncBranches)
    (h : r.selectBranch c now = some b) : ∃ bs, r.pending c = b :: bs := by
  cases hp : r.pending c with
  | nil =>
    rw [selectBranch_of_pending_nil hp] at h
    have htimed : ∀ b ∈ [Branch.powerOff, .keepalive], b ∉ syncBranches := by decide
    exact absurd hb (htimed b (List.mem_of_find?_eq_some h))
  | cons b' bs =>
    rw [selectBranch_of_pending_cons hp] at h
    exact ⟨bs, by rw [Option.some.inj h]⟩

theorem pending_eq_nil (h : ∀ b ∈ syncBranches, r.selectBranch c now ≠ some b) :
    r.pending c = [] := by
  cases hp : r.pending c with
  | nil => rfl
  | cons b bs =>
    have hb : b ∈ r.pending c := hp ▸ List.mem_cons_self
    exact absurd (selectBranch_of_pending_cons hp) (h b (List.mem_of_mem_filter hb))

theorem selectBranch_powerOff (hp : r.pending c = [])
    (hheld : (c.capsOf r.fam).powerOff = true ∧ r.pad.buttons &&& c.powerMask ≠ 0)
    (hlate : 1000 < (now - r.tPowerHold).toNat) : r.selectBranch c now = some .powerOff := by
  have hpower : r.guard c now .powerOff = true := guard_powerOff_iff.2 ⟨hheld, hlate⟩
  rw [selectBranch_of_pending_nil hp, List.find?_cons_of_pos hpower]

section
variable (hp : r.pending c = [])
  (hpower : ¬ (((c.capsOf r.fam).powerOff = true ∧ r.pad.buttons &&& c.powerMask ≠ 0) ∧
    1000 < (now - r.tPowerHold).toNat))
include hp hpower

theorem selectBranch_keepalive (hcap : (c.capsOf r.fam).keepalive = true)
    (hlate : 1000 ≤ (now - r.tPeriodic).toNat) : r.selectBranch c now = some .keepalive := by
  have hkeep : r.guard c now .keepalive = true := guard_keepalive_iff.2 ⟨hcap, hlate⟩
  rw [← guard_powerOff_iff] at hpower
  rw [selectBranch_of_pending_nil hp, List.find?_cons_of_neg hpower, List.find?_cons_of_pos hkeep]

theorem selectBranch_none
    (hkeep : ¬ ((c.capsOf r.fam).keepalive = true ∧ 1000 ≤ (now - r.tPeriodic).toNat)) :
    r.selectBranch c now = none := by
  rw [← guard_powerOff_iff] at hpower
  rw [← guard_keepalive_iff] at hkeep
  rw [selectBranch_of_pending_nil hp, List.find?_cons_of_neg hpower, List.find?_cons_of_neg hkeep]
  rfl

end

end

/-! ### The state after the update -/

section
variable {s : State} {i : Nat} {now : BitVec 32}

theorem setRec_dev (hi : i < s.maxDev) : s.setRec i (s.dev i) = s := by
  have hpool : s.pool.set i (s.dev i) = s.pool := by
    rw [dev_eq_getElem hi]
    exact List.set_getElem_self hi
  rw [State.setRec, hpool]

theorem holdTimer_eq (hi : i < s.maxDev) (now : BitVec 32) :
    holdTimer i now s = s.setRec i ((s.dev i).afterHold s.cfg now) := by
  unfold holdTimer DeviceRecord.afterHold
  split
  · exact (setRec_dev hi).symm
  · rfl

theorem holdTimer_dev (hi : i < s.maxDev) :
    (holdTimer i now s).dev i = (s.dev i).afterHold s.cfg now := by
  rw [holdTimer_eq hi, dev_setRec_same hi]

theorem holdTimer_events (hi : i < s.maxDev) : (holdTimer i now s).events = s.events := by
  rw [holdTimer_eq hi, setRec_events]

theorem holdTimer_upTape (hi : i < s.maxDev) : (holdTimer i now s).upTape = s.upTape := by
  rw [holdTimer_eq hi, setRec_upTape]

/-- A send does not read the timer. -/
theorem send_holdTimer (hi : i < s.maxDev) (k : Cmd) :
    send i k (holdTimer i now s) =
      ((send i k s).1, (send i k s).2.setRec i ((s.dev i).afterHold s.cfg now)) := by
  rw [holdTimer_eq hi, send_setRec hi k afterHold_fam afterHold_addr afterHold_outEp]

end

end Sys2Proof.Machine
end

section
/-!
SUPPORT. The chatpad LED branch (spec/41_feedback.md rule R175): what one bit does in the state
before it, and what the bits do together.
-/

namespace Sys2Proof.Machine

/-! ### One bit -/

/-- The requested and the actual LED differ at bit `b`. -/
def DeviceRecord.ledDiffers (r : DeviceRecord) (b : Nat) : Bool :=
  r.cpLedReq.getLsbD b != r.cpLedAct.getLsbD b

/-- The command of bit `b`. -/
def DeviceRecord.ledCommand (r : DeviceRecord) (b : Nat) : Cmd := .cpLed b (r.cpLedReq.getLsbD b)

@[simp] theorem afterHold_ledDiffers (c : Config) (now : BitVec 32) (r : DeviceRecord) :
    (r.afterHold c now).ledDiffers = r.ledDiffers := by
  funext b
  simp [DeviceRecord.ledDiffers]

@[simp] theorem afterHold_ledCommand (c : Config) (now : BitVec 32) (r : DeviceRecord) :
    (r.afterHold c now).ledCommand = r.ledCommand := by
  funext b
  simp [DeviceRecord.ledCommand]

/-- The record with other actual chatpad LEDs. -/
def DeviceRecord.withLeds (r : DeviceRecord) (act : Byte) : DeviceRecord :=
  { r with cpLedAct := act }

@[simp] theorem withLeds_fam (r : DeviceRecord) (act : Byte) : (r.withLeds act).fam = r.fam := rfl
@[simp] theorem withLeds_cpLedReq (r : DeviceRecord) (act : Byte) :
    (r.withLeds act).cpLedReq = r.cpLedReq := rfl
@[simp] theorem withLeds_cpLedAct (r : DeviceRecord) (act : Byte) :
    (r.withLeds act).cpLedAct = act := rfl

theorem getLsbD_one_shiftLeft {b n : Nat} (hb : b < 8) :
    (1#8 <<< n).getLsbD b = decide (b = n) := by
  rw [BitVec.getLsbD_shiftLeft, BitVec.getLsbD_one, Bool.eq_iff_iff]
  simp only [Bool.and_eq_true, Bool.not_eq_true', decide_eq_true_eq, decide_eq_false_iff_not]
  omega

theorem getLsbD_setBit {n b : Nat} (hb : b < 8) (v : Byte) (on : Bool) :
    (setBit v n on).getLsbD b = if b = n then on else v.getLsbD b := by
  unfold setBit
  cases on
  · rw [if_neg Bool.false_ne_true, BitVec.getLsbD_and, BitVec.getLsbD_not,
      getLsbD_one_shiftLeft hb]
    by_cases h : b = n <;> simp [h, hb]
  · rw [if_pos rfl, BitVec.getLsbD_or, getLsbD_one_shiftLeft hb]
    by_cases h : b = n <;> simp [h]

section
variable {i n : Nat} {s t : State} {r : DeviceRecord} {act : Byte}

/-- Where the bits below `n` alone may have changed, bit `n` is sent iff it differed at first. -/
theorem cpledBit_of_differs (ht : t.dev i = r.withLeds act)
    (hact : act.getLsbD n = r.cpLedAct.getLsbD n) (h : r.ledDiffers n = true) :
    cpledBit i n t = sendThen i (r.ledCommand n)
      (fun d => { d with cpLedAct := setBit d.cpLedAct n (r.cpLedReq.getLsbD n) }) t := by
  unfold DeviceRecord.ledDiffers at h
  simp only [cpledBit, ht, withLeds_cpLedReq, withLeds_cpLedAct, hact, h, if_true]
  rfl

theorem cpledBit_of_agrees (ht : t.dev i = r.withLeds act)
    (hact : act.getLsbD n = r.cpLedAct.getLsbD n) (h : r.ledDiffers n = false) :
    cpledBit i n t = t := by
  unfold DeviceRecord.ledDiffers at h
  simp [cpledBit, ht, hact, h]

/-- A bit that differs and is sent OK takes the requested value, every other bit stays. -/
theorem cpledBit_dev (hi : i < t.maxDev) (ht : t.dev i = r.withLeds act)
    (hact : act.getLsbD n = r.cpLedAct.getLsbD n) :
    ∃ act' : Byte, (cpledBit i n t).dev i = r.withLeds act' ∧
      ∀ b, b < 8 → act'.getLsbD b =
        if b = n ∧ r.ledDiffers n = true ∧ (send i (r.ledCommand n) t).1 = true then
          r.cpLedReq.getLsbD b else act.getLsbD b := by
  cases hd : r.ledDiffers n with
  | false => exact ⟨act, by rw [cpledBit_of_agrees ht hact hd, ht], by simp⟩
  | true =>
    rw [cpledBit_of_differs ht hact hd, sendThen_dev hi, ht]
    split
    · refine ⟨_, rfl, fun b hb => ?_⟩
      rw [withLeds_cpLedAct, getLsbD_setBit hb]
      by_cases h : b = n
      · simp [*]
      · simp [h]
    · exact ⟨act, rfl, by simp [*]⟩

/-! ### The bits below `n` -/

/-- The state after the bits below `n`. -/
def cpledUpTo (i n : Nat) (s : State) : State :=
  (List.range n).foldl (fun s b => cpledBit i b s) s

theorem cpled_eq (i : Nat) (s : State) : cpled i s = cpledUpTo i 8 s := rfl

theorem cpledUpTo_succ (i n : Nat) (s : State) :
    cpledUpTo i (n + 1) s = cpledBit i n (cpledUpTo i n s) := by
  rw [cpledUpTo, List.range_succ, List.foldl_append]
  rfl

theorem cpledUpTo_onlySlot (i n : Nat) (s : State) : OnlySlot i s (cpledUpTo i n s) := by
  induction n with
  | zero => exact OnlySlot.refl i s
  | succ n ih => rw [cpledUpTo_succ]; exact ih.trans (cpledBit_onlySlot ..)

/-- The send of bit `b`, in the state the bits below it leave. -/
def ledSend (i : Nat) (s : State) (b : Nat) : Bool × State :=
  send i ((s.dev i).ledCommand b) (cpledUpTo i b s)

/-- The events of bit `b`. -/
def ledEvents (i : Nat) (s : State) (b : Nat) : List Event :=
  (ledSend i s b).2.events.drop (cpledUpTo i b s).events.length

/-- Each bit that differed and was sent OK is the requested one, any other bit is as before. -/
theorem cpledUpTo_dev (hi : i < s.maxDev) (hn : n ≤ 8) :
    ∃ act : Byte, (cpledUpTo i n s).dev i = (s.dev i).withLeds act ∧
      ∀ b, b < 8 → act.getLsbD b =
        if b < n ∧ (s.dev i).ledDiffers b = true ∧ (ledSend i s b).1 = true then
          (s.dev i).cpLedReq.getLsbD b else (s.dev i).cpLedAct.getLsbD b := by
  induction n with
  | zero => exact ⟨(s.dev i).cpLedAct, rfl, by simp⟩
  | succ n ih =>
    obtain ⟨act, hdev, hbits⟩ := ih (by omega)
    obtain ⟨act', hdev', hbits'⟩ := cpledBit_dev
      (by rwa [(cpledUpTo_onlySlot i n s).maxDev]) hdev ((hbits n hn).trans (if_neg (by simp)))
    refine ⟨act', by rw [cpledUpTo_succ, hdev'], fun b hb => ?_⟩
    rw [hbits' b hb, hbits b hb]
    by_cases h : b = n
    · subst h
      simp [ledSend]
    · simp [h, Nat.le_iff_lt_or_eq]

/-- No bit from `n` on has changed. -/
theorem cpledUpTo_dev_above (hi : i < s.maxDev) (hn : n < 8) :
    ∃ act : Byte, (cpledUpTo i n s).dev i = (s.dev i).withLeds act ∧
      act.getLsbD n = (s.dev i).cpLedAct.getLsbD n := by
  obtain ⟨act, hdev, hbits⟩ := cpledUpTo_dev hi hn.le
  exact ⟨act, hdev, (hbits n hn).trans (if_neg (by simp))⟩

/-- What a bit emits is one command to the record's own handles. -/
theorem ledEvents_spec (hi : i < s.maxDev) (hn : n < 8) :
    (ledSend i s n).2.events = (cpledUpTo i n s).events ++ ledEvents i s n ∧
      CommandEvents i .cpLed (s.dev i).addr (s.dev i).outEp
        (s.cfg.cmd (s.dev i).fam ((s.dev i).ledCommand n)) (ledSend i s n).1 (ledEvents i s n) := by
  obtain ⟨act, hdev, -⟩ := cpledUpTo_dev_above hi hn
  obtain ⟨evs, hev, hc⟩ := send_commandEvents i ((s.dev i).ledCommand n) (cpledUpTo i n s)
  have hevs : ledEvents i s n = evs := by rw [ledEvents, ledSend, hev, List.drop_left]
  rw [hdev, (cpledUpTo_onlySlot i n s).cfg] at hc
  exact ⟨by rw [hevs]; exact hev, by rw [hevs]; exact hc⟩

/-- The bits that differed emit their commands one after another. -/
theorem cpledUpTo_events (hi : i < s.maxDev) (hn : n ≤ 8) :
    (cpledUpTo i n s).events =
      s.events ++ (((List.range n).filter (s.dev i).ledDiffers).map (ledEvents i s)).flatten := by
  induction n with
  | zero => exact (List.append_nil _).symm
  | succ n ih =>
    obtain ⟨act, hdev, hact⟩ := cpledUpTo_dev_above hi hn
    rw [cpledUpTo_succ, List.range_succ, List.filter_append]
    cases hd : (s.dev i).ledDiffers n with
    | false => simp [cpledBit_of_agrees hdev hact hd, ih (by omega), hd]
    | true =>
      rw [cpledBit_of_differs hdev hact hd, sendThen_events]
      obtain ⟨hsend, -⟩ := ledEvents_spec hi hn
      rw [ledSend] at hsend
      simp [hsend, ih (by omega), hd]

/-! ### All eight bits -/

/-- Of the bits that differ in `r`, bit `b` was sent with answer `ok b` and events `evs b`; those sent
OK have their requested value in `act`, every other bit its own (R175). -/
structure LedsFollow (c : Config) (i : Nat) (r : DeviceRecord) (ok : Nat → Bool)
    (evs : Nat → List Event) (act : Byte) : Prop where
  sent : ∀ b, b < 8 → r.ledDiffers b = true → CommandEvents i .cpLed r.addr r.outEp
    (c.cmd r.fam (r.ledCommand b)) (ok b) (evs b)
  bits : ∀ b, b < 8 → act.getLsbD b =
    if r.ledDiffers b = true ∧ ok b = true then r.cpLedReq.getLsbD b else r.cpLedAct.getLsbD b

/-- With every send OK the actual chatpad LEDs are the requested ones. -/
theorem LedsFollow.act_eq {c : Config} {i : Nat} {r : DeviceRecord} {ok : Nat → Bool}
    {evs : Nat → List Event} {act : Byte} (h : LedsFollow c i r ok evs act)
    (hok : ∀ b, b < 8 → r.ledDiffers b = true → ok b = true) : act = r.cpLedReq := by
  refine BitVec.eq_of_getLsbD_eq fun b hb => ?_
  rw [h.bits b hb]
  cases hd : r.ledDiffers b with
  | true => simp [hok b hb hd]
  | false =>
    rw [if_neg (by simp)]
    exact (bne_eq_false_iff_eq.1 hd).symm

theorem LedsFollow.of_afterHold {c : Config} {now : BitVec 32} {ok : Nat → Bool}
    {evs : Nat → List Event} (h : LedsFollow c i (r.afterHold c now) ok evs act) :
    LedsFollow c i r ok evs act :=
  ⟨by simpa using h.sent, by simpa using h.bits⟩

theorem cpled_ledsFollow (hi : i < s.maxDev) :
    ∃ act, (cpled i s).dev i = (s.dev i).withLeds act ∧
      LedsFollow s.cfg i (s.dev i) (fun b => (ledSend i s b).1) (ledEvents i s) act := by
  obtain ⟨act, hdev, hbits⟩ := cpledUpTo_dev hi le_rfl
  rw [cpled_eq]
  refine ⟨act, hdev, fun b hb _ => ?_, fun b hb => ?_⟩
  · obtain ⟨-, hc⟩ := ledEvents_spec hi hb
    exact hc
  · simpa [hb] using hbits b hb

/-! ### Good transfers -/

/-- The strings bit `b` sends. -/
def ledBitStrings (c : Config) (r : DeviceRecord) (b : Nat) : List Bytes :=
  if r.ledDiffers b then c.cmd r.fam (r.ledCommand b) else []

/-- With good scripted answers for its strings a bit that differs is sent OK. -/
theorem cpledBit_of_good (ht : t.dev i = r.withLeds act)
    (hact : act.getLsbD n = r.cpLedAct.getLsbD n) {oks rest : List TransferResult}
    (hok : ∀ o ∈ oks, o ≠ .error) (hlen : oks.length = (ledBitStrings t.cfg r n).length)
    (htape : t.upTape = oks ++ rest) :
    (cpledBit i n t).upTape = rest ∧
      (cpledBit i n t).events =
        t.events ++ (ledBitStrings t.cfg r n).map (fun p => .uptx r.addr r.outEp p) ∧
      (r.ledDiffers n = true → (send i (r.ledCommand n) t).1 = true) := by
  unfold ledBitStrings at hlen ⊢
  cases hd : r.ledDiffers n with
  | false =>
    rw [hd] at hlen
    obtain rfl := List.length_eq_zero_iff.1 hlen
    rw [cpledBit_of_agrees ht hact hd]
    exact ⟨htape, (List.append_nil _).symm, fun h => absurd h Bool.false_ne_true⟩
  | true =>
    have hsend : send i (r.ledCommand n) t = _ :=
      send_of_good hok (by rw [ht]; simpa [hd] using hlen) htape
    rw [cpledBit_of_differs ht hact hd, sendThen, hsend, ht]
    exact ⟨rfl, rfl, fun _ => rfl⟩

/-- The strings of the commands of the bits below `n`. -/
def ledStrings (c : Config) (r : DeviceRecord) (n : Nat) : List Bytes :=
  (((List.range n).filter r.ledDiffers).map (fun b => c.cmd r.fam (r.ledCommand b))).flatten

theorem ledStrings_succ (c : Config) (r : DeviceRecord) (n : Nat) :
    ledStrings c r (n + 1) = ledStrings c r n ++ ledBitStrings c r n := by
  rw [ledStrings, List.range_succ, List.filter_append]
  cases hd : r.ledDiffers n <;> simp [ledStrings, ledBitStrings, hd]

/-- With good scripted answers every string goes out and every send is OK. -/
theorem cpledUpTo_of_good (hi : i < s.maxDev) (hn : n ≤ 8) {oks rest : List TransferResult}
    (hok : ∀ o ∈ oks, o ≠ .error) (hlen : oks.length = (ledStrings s.cfg (s.dev i) n).length)
    (htape : s.upTape = oks ++ rest) :
    (cpledUpTo i n s).upTape = rest ∧
      (cpledUpTo i n s).events = s.events ++
        (ledStrings s.cfg (s.dev i) n).map (fun p => .uptx (s.dev i).addr (s.dev i).outEp p) ∧
      ∀ b, b < n → (s.dev i).ledDiffers b = true → (ledSend i s b).1 = true := by
  induction n generalizing oks rest with
  | zero =>
    obtain rfl := List.length_eq_zero_iff.1 hlen
    exact ⟨htape, (List.append_nil _).symm, by simp⟩
  | succ n ih =>
    rw [ledStrings_succ, List.length_append] at hlen
    obtain ⟨oks, oks', rfl, hl⟩ : ∃ l l', oks = l ++ l' ∧
        l.length = (ledStrings s.cfg (s.dev i) n).length :=
      ⟨oks.take _, oks.drop _, (List.take_append_drop ..).symm, List.length_take_of_le (by omega)⟩
    have hl' : oks'.length = (ledBitStrings s.cfg (s.dev i) n).length := by
      rw [List.length_append] at hlen
      omega
    obtain ⟨htape1, hev1, hsent1⟩ := ih (by omega)
      (fun o ho => hok o (List.mem_append_left _ ho)) hl (htape.trans (List.append_assoc ..))
    obtain ⟨act, hdev, hact⟩ := cpledUpTo_dev_above hi hn
    have hcfg := (cpledUpTo_onlySlot i n s).cfg
    obtain ⟨htape2, hev2, hsent2⟩ := cpledBit_of_good hdev hact
      (fun o ho => hok o (List.mem_append_right _ ho)) (hcfg.symm ▸ hl') htape1
    refine ⟨by rw [cpledUpTo_succ, htape2], ?_, fun b hb hdb => ?_⟩
    · rw [cpledUpTo_succ, hev2, hev1, hcfg, ledStrings_succ, List.map_append, List.append_assoc]
    · rcases Nat.lt_succ_iff_lt_or_eq.1 hb with hb | rfl
      · exact hsent1 b hb hdb
      · exact hsent2 hdb

theorem ledStrings_afterHold (c c' : Config) (now : BitVec 32) (r : DeviceRecord) (n : Nat) :
    ledStrings c (r.afterHold c' now) n = ledStrings c r n := by
  simp [ledStrings]

end

end Sys2Proof.Machine
end

section
/-!
SUPPORT. One FEEDBACK_TICK (spec/41_feedback.md rules R171 and R178): the form of the tick for each
selected branch, and everything a completed tick can have done.
-/

namespace Sys2Proof.Machine

/-- Nothing of the node changed but record `i`, the output ports and the draws. -/
theorem OnlySlot.onlyRecords {i : Nat} {s t : State} (h : OnlySlot i s t) (v : Result) :
    OnlyRecords (fun j => j = i) s (t.ret v) :=
  have hreports : OnlyPool s { s with slots := t.slots, peer := t.peer } :=
    ⟨⟨rfl, rfl, rfl, rfl⟩, ⟨rfl, rfl, rfl, rfl⟩, h.slots, h.peer⟩
  ⟨⟨h.cfg, h.nodeId, h.booted, h.inputs⟩, ⟨h.maxDev, h.others⟩,
    ⟨hreports.sameFamilies.slots, hreports.sameFamilies.peer⟩, hreports.sameBytes⟩

section
variable {s t : State} {i : Byte} {now : BitVec 32}

/-- The command and the effect of the rumble branch are those of the record before the update. -/
theorem runBranch_rumble (hi : i.toNat < s.maxDev) :
    runBranch i.toNat now .rumble (holdTimer i.toNat now s) =
      sendThen i.toNat (.rumble (s.dev i.toNat).rumReq.l (s.dev i.toNat).rumReq.r)
        (fun d => { d with rumAct := (s.dev i.toNat).rumReq }) (holdTimer i.toNat now s) := by
  simp [runBranch, holdTimer_dev hi]

theorem runBranch_led (hi : i.toNat < s.maxDev) :
    runBranch i.toNat now .led (holdTimer i.toNat now s) =
      sendThen i.toNat (.led (s.dev i.toNat).ledReq)
        (fun d => { d with ledAct := (s.dev i.toNat).ledReq }) (holdTimer i.toNat now s) := by
  simp [runBranch, holdTimer_dev hi]

theorem runBranch_cpInit (i : Nat) (now : BitVec 32) (s : State) :
    runBranch i now .cpInit s = sendThen i .cpInit (fun d => { d with cpInitPending := false }) s :=
  rfl

theorem runBranch_powerOff (i : Nat) (now : BitVec 32) (s : State) :
    runBranch i now .powerOff s =
      sendAnyway i .powerOff (fun d => { d with tPowerHold := now }) s := rfl

theorem runBranch_keepalive (i : Nat) (now : BitVec 32) (s : State) :
    runBranch i now .keepalive s =
      sendAnyway i .keepalive (fun d => { d with tPeriodic := now }) s := rfl

/-! ### The tick on a ready node -/

theorem exec_feedbackTick_of_ready (hs : Ready .coordinator s) (hi : i.toNat < s.maxDev)
    (now : BitVec 32) :
    exec (.feedbackTick i now) s = .next (feedbackTickOp i.toNat now s) :=
  (exec_feedbackTick s i now).trans (accept_slot hs hi _)

theorem exec_feedbackTick_of_free (hs : Ready .coordinator s) (hi : i.toNat < s.maxDev)
    (hfam : (s.dev i.toNat).fam = .unknown) (now : BitVec 32) :
    exec (.feedbackTick i now) s = .next (s.ret .none) := by
  rw [exec_feedbackTick_of_ready hs hi]
  simp [feedbackTickOp, DeviceRecord.live, hfam]

section
variable (hs : Ready .coordinator s) (hi : i.toNat < s.maxDev)
  (hfam : (s.dev i.toNat).fam ≠ .unknown)
include hs hi hfam

theorem exec_feedbackTick_of_none (h : (s.dev i.toNat).selectBranch s.cfg now = none) :
    exec (.feedbackTick i now) s = .next ((holdTimer i.toNat now s).ret .none) := by
  rw [exec_feedbackTick_of_ready hs hi]
  simp [feedbackTickOp, live_iff.2 hfam, holdTimer_dev hi, (holdTimer_onlySlot ..).cfg, h]

theorem exec_feedbackTick_of_some {b : Branch}
    (h : (s.dev i.toNat).selectBranch s.cfg now = some b) :
    exec (.feedbackTick i now) s =
      .next ((runBranch i.toNat now b (holdTimer i.toNat now s)).ret .none) := by
  rw [exec_feedbackTick_of_ready hs hi]
  simp [feedbackTickOp, live_iff.2 hfam, holdTimer_dev hi, (holdTimer_onlySlot ..).cfg, h]

/-- A tick of a branch that changes its record on success only (R172 to R174). -/
theorem tick_sendThen {b : Branch} (hb : (s.dev i.toNat).selectBranch s.cfg now = some b) {k : Cmd}
    {f : DeviceRecord → DeviceRecord}
    (hrun : runBranch i.toNat now b (holdTimer i.toNat now s) =
      sendThen i.toNat k f (holdTimer i.toNat now s)) :
    ∃ t, exec (.feedbackTick i now) s = .next t ∧ t.result = .none ∧
      t.events = (send i.toNat k s).2.events ∧ OnlyRecords (fun j => j = i.toNat) s t ∧
      t.dev i.toNat = if (send i.toNat k s).1 = true then f ((s.dev i.toNat).afterHold s.cfg now)
        else (s.dev i.toNat).afterHold s.cfg now := by
  have honly := holdTimer_onlySlot i.toNat now s
  refine ⟨_, exec_feedbackTick_of_some hs hi hfam hb, rfl, ?_,
    (honly.trans (runBranch_onlySlot ..)).onlyRecords _, ?_⟩
  · rw [ret_events, hrun, sendThen_events, send_holdTimer hi, setRec_events]
  · rw [dev_ret, hrun, sendThen_dev (honly.maxDev.symm ▸ hi), send_holdTimer hi, holdTimer_dev hi]

/-- A tick of a branch that changes its record whatever the send answers (R176, R177). -/
theorem tick_sendAnyway {b : Branch} (hb : (s.dev i.toNat).selectBranch s.cfg now = some b)
    {k : Cmd} {f : DeviceRecord → DeviceRecord}
    (hrun : runBranch i.toNat now b (holdTimer i.toNat now s) =
      sendAnyway i.toNat k f (holdTimer i.toNat now s)) :
    ∃ t, exec (.feedbackTick i now) s = .next t ∧ t.result = .none ∧
      t.events = (send i.toNat k s).2.events ∧ OnlyRecords (fun j => j = i.toNat) s t ∧
      t.dev i.toNat = f ((s.dev i.toNat).afterHold s.cfg now) := by
  have honly := holdTimer_onlySlot i.toNat now s
  refine ⟨_, exec_feedbackTick_of_some hs hi hfam hb, rfl, ?_,
    (honly.trans (runBranch_onlySlot ..)).onlyRecords _, ?_⟩
  · rw [ret_events, hrun, sendAnyway_events, send_holdTimer hi, setRec_events]
  · rw [dev_ret, hrun, sendAnyway_dev (honly.maxDev.symm ▸ hi), holdTimer_dev hi]

/-- A tick of the chatpad LED branch: each bit that differs is sent and follows its own send
(R175). -/
theorem tick_cpLed (hb : (s.dev i.toNat).selectBranch s.cfg now = some .cpLed) :
    ∃ t, exec (.feedbackTick i now) s = .next t ∧ ∃ ok evs act,
      t.events = s.events ++
        (((List.range 8).filter (s.dev i.toNat).ledDiffers).map evs).flatten ∧
      t.dev i.toNat = ((s.dev i.toNat).afterHold s.cfg now).withLeds act ∧
      LedsFollow s.cfg i.toNat (s.dev i.toNat) ok evs act := by
  have honly := holdTimer_onlySlot i.toNat now s
  have hi' : i.toNat < (holdTimer i.toNat now s).maxDev := honly.maxDev.symm ▸ hi
  obtain ⟨act, hdev, hfollow⟩ := cpled_ledsFollow hi'
  have hev := cpledUpTo_events hi' le_rfl
  rw [holdTimer_dev hi] at hdev hfollow
  rw [holdTimer_dev hi, holdTimer_events hi, afterHold_ledDiffers] at hev
  rw [honly.cfg] at hfollow
  exact ⟨_, exec_feedbackTick_of_some hs hi hfam hb, _, _, act, hev, hdev, hfollow.of_afterHold⟩

end

/-! ### Every completed tick -/

/-- What a tick of a live record `r` has emitted and made of it, by its selected branch. -/
inductive TickOutcome (c : Config) (i : Nat) (now : BitVec 32) (r : DeviceRecord) :
    Option Branch → List Event → DeviceRecord → Prop
  | idle : TickOutcome c i now r none [] (r.afterHold c now)
  | rumble {ok : Bool} {evs : List Event} (h : CommandEvents i .rumble r.addr r.outEp
      (c.cmd r.fam (.rumble r.rumReq.l r.rumReq.r)) ok evs) :
      TickOutcome c i now r (some .rumble) evs
        (if ok = true then { r.afterHold c now with rumAct := r.rumReq } else r.afterHold c now)
  | led {ok : Bool} {evs : List Event}
      (h : CommandEvents i .led r.addr r.outEp (c.cmd r.fam (.led r.ledReq)) ok evs) :
      TickOutcome c i now r (some .led) evs
        (if ok = true then { r.afterHold c now with ledAct := r.ledReq } else r.afterHold c now)
  | cpInit {ok : Bool} {evs : List Event}
      (h : CommandEvents i .cpInit r.addr r.outEp (c.cmd r.fam .cpInit) ok evs) :
      TickOutcome c i now r (some .cpInit) evs
        (if ok = true then { r.afterHold c now with cpInitPending := false } else r.afterHold c now)
  | cpLed {ok : Nat → Bool} {evs : Nat → List Event} {act : Byte}
      (h : LedsFollow c i r ok evs act) :
      TickOutcome c i now r (some .cpLed)
        (((List.range 8).filter r.ledDiffers).map evs).flatten ((r.afterHold c now).withLeds act)
  | powerOff {ok : Bool} {evs : List Event}
      (h : CommandEvents i .powerOff r.addr r.outEp (c.cmd r.fam .powerOff) ok evs) :
      TickOutcome c i now r (some .powerOff) evs { r.afterHold c now with tPowerHold := now }
  | keepalive {ok : Bool} {evs : List Event}
      (h : CommandEvents i .keepalive r.addr r.outEp (c.cmd r.fam .keepalive) ok evs) :
      TickOutcome c i now r (some .keepalive) evs { r.afterHold c now with tPeriodic := now }

/-- Each actual chatpad LED is the one from before or the requested one. -/
theorem TickOutcome.getLsbD_cpLedAct {c : Config} {i : Nat} {now : BitVec 32}
    {r r' : DeviceRecord} {sel : Option Branch} {evs : List Event}
    (h : TickOutcome c i now r sel evs r') (b : Nat) :
    r'.cpLedAct.getLsbD b = r.cpLedAct.getLsbD b ∨
      r'.cpLedAct.getLsbD b = r.cpLedReq.getLsbD b := by
  cases h with
  | cpLed hl =>
    by_cases hb : b < 8
    · rw [withLeds_cpLedAct, hl.bits b hb]
      split
      · exact .inr rfl
      · exact .inl rfl
    · exact .inl ((BitVec.getLsbD_of_ge _ _ (Nat.not_lt.1 hb)).trans
        (BitVec.getLsbD_of_ge _ _ (Nat.not_lt.1 hb)).symm)
  | rumble | led | cpInit => left; split <;> simp
  | idle | powerOff | keepalive => left; simp

section
variable (he : exec (.feedbackTick i now) s = .next t) (hi : i.toNat < s.maxDev)
  (hfam : (s.dev i.toNat).fam ≠ .unknown)
include he hi hfam

theorem sendThen_of_next {b : Branch} (hb : (s.dev i.toNat).selectBranch s.cfg now = some b)
    {k : Cmd} {f : DeviceRecord → DeviceRecord}
    (hrun : runBranch i.toNat now b (holdTimer i.toNat now s) =
      sendThen i.toNat k f (holdTimer i.toNat now s)) :
    ∃ ok evs, t.events = s.events ++ evs ∧
      CommandEvents i.toNat k.kind (s.dev i.toNat).addr (s.dev i.toNat).outEp
        (s.cfg.cmd (s.dev i.toNat).fam k) ok evs ∧
      t.dev i.toNat = if ok = true then f ((s.dev i.toNat).afterHold s.cfg now)
        else (s.dev i.toNat).afterHold s.cfg now := by
  obtain ⟨u, hu, -, hev, -, hdev⟩ := tick_sendThen (ready_of_next rfl he) hi hfam hb hrun
  obtain rfl := Host.Outcome.next.inj (hu.symm.trans he)
  obtain ⟨evs, hevs, hc⟩ := send_commandEvents i.toNat k s
  exact ⟨_, evs, hev.trans hevs, hc, hdev⟩

theorem sendAnyway_of_next {b : Branch} (hb : (s.dev i.toNat).selectBranch s.cfg now = some b)
    {k : Cmd} {f : DeviceRecord → DeviceRecord}
    (hrun : runBranch i.toNat now b (holdTimer i.toNat now s) =
      sendAnyway i.toNat k f (holdTimer i.toNat now s)) :
    ∃ ok evs, t.events = s.events ++ evs ∧
      CommandEvents i.toNat k.kind (s.dev i.toNat).addr (s.dev i.toNat).outEp
        (s.cfg.cmd (s.dev i.toNat).fam k) ok evs ∧
      t.dev i.toNat = f ((s.dev i.toNat).afterHold s.cfg now) := by
  obtain ⟨u, hu, -, hev, -, hdev⟩ := tick_sendAnyway (ready_of_next rfl he) hi hfam hb hrun
  obtain rfl := Host.Outcome.next.inj (hu.symm.trans he)
  obtain ⟨evs, hevs, hc⟩ := send_commandEvents i.toNat k s
  exact ⟨_, evs, hev.trans hevs, hc, hdev⟩

/-- Everything a completed tick of a live slot can have done (R171). -/
theorem tick_outcome :
    ∃ evs, t.events = s.events ++ evs ∧ TickOutcome s.cfg i.toNat now (s.dev i.toNat)
      ((s.dev i.toNat).selectBranch s.cfg now) evs (t.dev i.toNat) := by
  have hs : Ready .coordinator s := ready_of_next rfl he
  cases hb : (s.dev i.toNat).selectBranch s.cfg now with
  | none =>
    obtain rfl := Host.Outcome.next.inj ((exec_feedbackTick_of_none hs hi hfam hb).symm.trans he)
    rw [dev_ret, ret_events, holdTimer_dev hi, holdTimer_events hi]
    exact ⟨[], (List.append_nil _).symm, .idle⟩
  | some b =>
    cases b with
    | rumble =>
      obtain ⟨ok, evs, hev, hc, hdev⟩ := sendThen_of_next he hi hfam hb (runBranch_rumble hi)
      exact ⟨evs, hev, hdev ▸ .rumble hc⟩
    | led =>
      obtain ⟨ok, evs, hev, hc, hdev⟩ := sendThen_of_next he hi hfam hb (runBranch_led hi)
      exact ⟨evs, hev, hdev ▸ .led hc⟩
    | cpInit =>
      obtain ⟨ok, evs, hev, hc, hdev⟩ := sendThen_of_next he hi hfam hb (runBranch_cpInit ..)
      exact ⟨evs, hev, hdev ▸ .cpInit hc⟩
    | cpLed =>
      obtain ⟨u, hu, ok, evs, act, hev, hdev, h⟩ := tick_cpLed hs hi hfam hb
      obtain rfl := Host.Outcome.next.inj (hu.symm.trans he)
      exact ⟨_, hev, hdev ▸ .cpLed h⟩
    | powerOff =>
      obtain ⟨ok, evs, hev, hc, hdev⟩ := sendAnyway_of_next he hi hfam hb (runBranch_powerOff ..)
      exact ⟨evs, hev, hdev ▸ .powerOff hc⟩
    | keepalive =>
      obtain ⟨ok, evs, hev, hc, hdev⟩ := sendAnyway_of_next he hi hfam hb (runBranch_keepalive ..)
      exact ⟨evs, hev, hdev ▸ .keepalive hc⟩

end

end

end Sys2Proof.Machine
end

section
/-!
SUPPORT. Convergence of the feedback branches (spec/41_feedback.md rule R179): a tick with no failed
send does the first pending branch and leaves the others pending.
-/

namespace Sys2Proof.Machine

/-! ### A branch that is done -/

section
variable {c : Config} {r : DeviceRecord} {now : BitVec 32}

/-- The record with the actual field of a branch of `syncBranches` at its request. -/
def DeviceRecord.synced (r : DeviceRecord) : Branch → DeviceRecord
  | .rumble => { r with rumAct := r.rumReq }
  | .led => { r with ledAct := r.ledReq }
  | .cpInit => { r with cpInitPending := false }
  | .cpLed => r.withLeds r.cpLedReq
  | _ => r

theorem guard_synced_self {b : Branch} (hb : b ∈ syncBranches) :
    (r.synced b).guard c now b = false := by
  simp only [syncBranches, List.mem_cons, List.not_mem_nil, or_false] at hb
  rcases hb with rfl | rfl | rfl | rfl <;> simp [DeviceRecord.guard, DeviceRecord.synced]

theorem guard_synced_of_ne {a b : Branch} (h : a ≠ b) :
    (r.synced b).guard c now a = r.guard c now a := by
  cases b with
  | rumble => cases a with | rumble => exact absurd rfl h | _ => rfl
  | led => cases a with | led => exact absurd rfl h | _ => rfl
  | cpInit => cases a with | cpInit => exact absurd rfl h | _ => rfl
  | cpLed => cases a with | cpLed => exact absurd rfl h | _ => rfl
  | powerOff | keepalive => rfl

/-- Doing the first pending branch leaves the others pending. -/
theorem pending_synced {b : Branch} {bs : List Branch} (h : r.pending c = b :: bs) :
    (r.synced b).pending c = bs := by
  have hsync : b ∈ syncBranches := List.mem_of_mem_filter (h ▸ List.mem_cons_self : b ∈ r.pending c)
  have hb : b ∉ bs := by
    have hnd : (r.pending c).Nodup := (by decide : syncBranches.Nodup).filter _
    rw [h] at hnd
    exact (List.nodup_cons.1 hnd).1
  calc (r.synced b).pending c
      = (r.pending c).filter (· ≠ b) := by
        rw [DeviceRecord.pending, DeviceRecord.pending, List.filter_filter]
        refine List.filter_congr fun a _ => ?_
        by_cases hab : a = b
        · simp [hab, guard_synced_self hsync]
        · simp [hab, guard_synced_of_ne hab]
    _ = bs.filter (· ≠ b) := by simp [h]
    _ = bs := List.filter_eq_self.2 fun a ha => by
        simpa using ne_of_mem_of_not_mem ha hb

end

/-! ### One tick with no failed send -/

/-- No event of the list reports a failed transfer (E5). -/
def NoSendFailure (evs : List Event) : Prop := ∀ e ∈ evs, ∀ j k, e ≠ .diag (.uptxFail j k)

theorem CommandEvents.ok_of_noSendFailure {i : Nat} {kind : CmdKind} {addr ep : Byte}
    {ps : List Bytes} {ok : Bool} {evs : List Event} (h : CommandEvents i kind addr ep ps ok evs)
    (hq : NoSendFailure evs) : ok = true := by
  cases ok with
  | true => rfl
  | false =>
    obtain ⟨n, rfl, -⟩ := h
    exact absurd rfl (hq _ (by simp) i kind)

theorem LedsFollow.ok_of_noSendFailure {c : Config} {i : Nat} {r : DeviceRecord} {ok : Nat → Bool}
    {evs : Nat → List Event} {act : Byte} (h : LedsFollow c i r ok evs act)
    (hq : NoSendFailure (((List.range 8).filter r.ledDiffers).map evs).flatten) (b : Nat)
    (hb : b < 8) (hd : r.ledDiffers b = true) : ok b = true :=
  (h.sent b hb hd).ok_of_noSendFailure fun e he => hq e <| List.mem_flatten_of_mem
    (List.mem_map_of_mem (List.mem_filter.2 ⟨List.mem_range.2 hb, hd⟩)) he

/-- A tick with no failed send does the first pending branch and leaves the others pending. -/
theorem TickOutcome.pending {c : Config} {i : Nat} {now : BitVec 32} {r r' : DeviceRecord}
    {sel : Option Branch} {evs : List Event} (h : TickOutcome c i now r sel evs r')
    (hsel : r.selectBranch c now = sel) (hq : NoSendFailure evs) :
    r'.pending c = (r.pending c).tail := by
  have hidle : (∀ b ∈ syncBranches, sel ≠ some b) →
      (r.afterHold c now).pending c = (r.pending c).tail := fun hn => by
    rw [pending_afterHold, pending_eq_nil fun b hb => hsel ▸ hn b hb]
    rfl
  have hsync : ∀ b ∈ syncBranches, sel = some b →
      ((r.afterHold c now).synced b).pending c = (r.pending c).tail := fun b hb hs => by
    obtain ⟨bs, hp⟩ := exists_pending_cons hb (hsel.trans hs)
    rw [pending_synced (pending_afterHold.trans hp), hp]
    rfl
  cases h with
  | idle => exact hidle (by simp)
  | rumble hc =>
    rw [if_pos (hc.ok_of_noSendFailure hq)]
    simpa [DeviceRecord.synced] using hsync .rumble (by decide) rfl
  | led hc =>
    rw [if_pos (hc.ok_of_noSendFailure hq)]
    simpa [DeviceRecord.synced] using hsync .led (by decide) rfl
  | cpInit hc =>
    rw [if_pos (hc.ok_of_noSendFailure hq)]
    exact hsync .cpInit (by decide) rfl
  | cpLed hl =>
    rw [hl.act_eq (hl.ok_of_noSendFailure hq)]
    simpa [DeviceRecord.synced] using hsync .cpLed (by decide) rfl
  | powerOff => exact hidle (by decide)
  | keepalive => exact hidle (by decide)

/-! ### Any number of ticks -/

section
variable {s t : State} {i : Byte} {now : BitVec 32}

theorem ticked_of_next (he : exec (.feedbackTick i now) s = .next t) (hi : i.toNat < s.maxDev) :
    Ticked (s.dev i.toNat) (t.dev i.toNat) := by
  obtain ⟨-, -, -, -, rfl⟩ := accept_next.1 ((exec_feedbackTick s i now).symm.trans he)
  have hi' : i.toNat < (holdTimer i.toNat now s).maxDev := (holdTimer_onlySlot ..).maxDev.symm ▸ hi
  rcases feedbackTickOp_cases i.toNat now s with ⟨-, h⟩ | ⟨-, ⟨-, h⟩ | ⟨b, -, h⟩⟩ <;>
    rw [h, dev_ret]
  · exact Ticked.refl _
  · exact Ticked.holdTimer hi now
  · exact (Ticked.holdTimer hi now).trans (Ticked.runBranch hi' now b)

/-- A tick keeps the family and every request (R31, R32, R36). -/
theorem Ticked.requests {r r' : DeviceRecord} (h : Ticked r r') :
    r'.fam = r.fam ∧ r'.rumReq = r.rumReq ∧ r'.ledReq = r.ledReq ∧ r'.cpLedReq = r.cpLedReq := by
  obtain ⟨⟩ := h
  exact ⟨rfl, rfl, rfl, rfl⟩

theorem exists_next_of_runInstrs_cons {op : Instr} {ops : List Instr}
    (h : runInstrs (op :: ops) s = .next t) :
    ∃ u, exec op s = .next u ∧ runInstrs ops u = .next t := by
  rw [runInstrs] at h
  cases he : exec op s with
  | next u => exact ⟨u, rfl, by rwa [he] at h⟩
  | fault r => cases r
  | refused r => rw [he] at h; cases h

/-- Ticks of one live slot with no failed send do its first pending branches. -/
theorem runInstrs_ticks (ns : List (BitVec 32)) (hi : i.toNat < s.maxDev)
    (hfam : (s.dev i.toNat).fam ≠ .unknown)
    (hrun : runInstrs (ns.map fun n => .feedbackTick i n) s = .next t) :
    t.cfg = s.cfg ∧ Ticked (s.dev i.toNat) (t.dev i.toNat) ∧
      ∃ evs, t.events = s.events ++ evs ∧ (NoSendFailure evs →
        (t.dev i.toNat).pending s.cfg = ((s.dev i.toNat).pending s.cfg).drop ns.length) := by
  induction ns generalizing s with
  | nil =>
    cases hrun
    exact ⟨rfl, Ticked.refl _, [], (List.append_nil _).symm, fun _ => rfl⟩
  | cons n ns ih =>
    obtain ⟨u, hu, hrun⟩ := exists_next_of_runInstrs_cons hrun
    have heff := exec_effect (by simp) hu
    have htick := ticked_of_next hu hi
    obtain ⟨evs, hev, hout⟩ := tick_outcome hu hi hfam
    obtain ⟨hcfg, htick', evs', hev', hpend⟩ :=
      ih (heff.count.symm ▸ hi) (htick.requests.1.symm ▸ hfam) hrun
    refine ⟨hcfg.trans heff.control.cfg, htick.trans htick', evs ++ evs',
      by rw [hev', hev, List.append_assoc], fun hq => ?_⟩
    rw [heff.control.cfg] at hpend
    rw [hpend fun e he => hq e (List.mem_append_right _ he),
      hout.pending rfl fun e he => hq e (List.mem_append_left _ he), ← List.drop_one,
      List.drop_drop, List.length_cons, Nat.add_comm]

end

end Sys2Proof.Machine
end

section
/-!
The obligations about the feedback state machine, settled by the lemmas above.
-/

namespace Sys2Proof.Machine

/-- Settles O29: the good answers send the strings one by one, an error ends the list. -/
theorem sendStopsAtTheFirstFailure : Obligations.SendStopsAtTheFirstFailure := by
  unfold Obligations.SendStopsAtTheFirstFailure
  exact fun s i k => ⟨fun oks rest htape hlen hok => send_of_good hok hlen htape,
    fun oks rest htape hlen hok => send_of_failure hok hlen htape⟩

/-- Settles O30: with no branch selected a tick is the hold-timer update. -/
theorem idleTickMovesOnlyTheHoldTimer : Obligations.IdleTickMovesOnlyTheHoldTimer := by
  unfold Obligations.IdleTickMovesOnlyTheHoldTimer
  intro s i now hs hi
  refine ⟨fun hfam => ⟨_, exec_feedbackTick_of_free hs hi hfam now, ret_answers s .none⟩, ?_⟩
  intro hfam hrum hled hinit hcpled hpower hkeep
  have hnone := selectBranch_none (now := now)
    (pending_eq_nil_iff.2 ⟨hrum, hled, hinit, hcpled⟩) hpower hkeep
  obtain ⟨hdev, honly, hdraw, hans⟩ :=
    setRec_ret_answers hi ((s.dev i.toNat).afterHold s.cfg now) .none
  rw [← holdTimer_eq hi] at hdev honly hdraw hans
  exact ⟨_, exec_feedbackTick_of_none hs hi hfam hnone, hdraw, hans, honly,
    fun hheld => hdev.trans (afterHold_of_held hheld),
    fun hup => hdev.trans (afterHold_of_not_held hup)⟩

/-- Settles O31: each branch is the first whose guard holds, and sends before it writes. -/
theorem successGatedBranches : Obligations.SuccessGatedBranches := by
  unfold Obligations.SuccessGatedBranches
  intro s i now hs hi hfam r caps held r1 hheld hup
  obtain rfl : r1 = r.afterHold s.cfg now := eq_afterHold hheld hup
  rw [← holdTimer_eq hi]
  simp only [send_holdTimer hi, setRec_events]
  refine ⟨fun hcap hne => ?_, fun hrum hcap hne => ?_, fun hrum hled hcap hpend => ?_⟩
  · exact tick_sendThen hs hi hfam (selectBranch_rumble hcap hne) (runBranch_rumble hi)
  · exact tick_sendThen hs hi hfam (selectBranch_led hrum hcap hne) (runBranch_led hi)
  · exact tick_sendThen hs hi hfam (selectBranch_cpInit hrum hled hcap hpend)
      (runBranch_cpInit ..)

/-- Settles O32: a selected timed branch writes its timer whatever the send answers. -/
theorem timedBranches : Obligations.TimedBranches := by
  unfold Obligations.TimedBranches
  intro s i now hs hi hfam r caps held hrum hled hinit hcpled
  have hp : r.pending s.cfg = [] := pending_eq_nil_iff.2 ⟨hrum, hled, hinit, hcpled⟩
  refine ⟨fun hheld hlate => ?_, fun hheld hearly hcap hlate => ?_, fun hup hcap hlate => ?_⟩
  · have htick := tick_sendAnyway hs hi hfam (selectBranch_powerOff hp hheld hlate)
      (runBranch_powerOff ..)
    rwa [afterHold_of_held hheld] at htick
  · have htick := tick_sendAnyway hs hi hfam
      (selectBranch_keepalive hp (fun h => Nat.not_lt.2 hearly h.2) hcap hlate)
      (runBranch_keepalive ..)
    rwa [afterHold_of_held hheld] at htick
  · have htick := tick_sendAnyway hs hi hfam
      (selectBranch_keepalive hp (fun h => hup h.1) hcap hlate) (runBranch_keepalive ..)
    rwa [afterHold_of_not_held hup] at htick

/-- Settles O33: each bit takes its share of the good answers, so every send is OK. -/
theorem chatpadLedBranchSyncsEveryBit : Obligations.ChatpadLedBranchSyncsEveryBit := by
  unfold Obligations.ChatpadLedBranchSyncsEveryBit
  intro s i now oks rest hs hi hfam r caps sent hrum hled hinit hcap hne htape hlen hok
  have hsel := selectBranch_cpLed (now := now) hrum hled hinit hcap hne
  have honly := holdTimer_onlySlot i.toNat now s
  have hi' : i.toNat < (holdTimer i.toNat now s).maxDev := honly.maxDev.symm ▸ hi
  have hsent : ledStrings (holdTimer i.toNat now s).cfg ((holdTimer i.toNat now s).dev i.toNat) 8
      = sent := by
    rw [honly.cfg, holdTimer_dev hi, ledStrings_afterHold]
    rfl
  obtain ⟨htape', hev, hgood⟩ := cpledUpTo_of_good hi' le_rfl hok (hsent ▸ hlen)
    ((holdTimer_upTape hi).trans htape)
  obtain ⟨act, hdev, hfollow⟩ := cpled_ledsFollow hi'
  rw [hsent, holdTimer_events hi, holdTimer_dev hi, afterHold_addr, afterHold_outEp] at hev
  refine ⟨_, exec_feedbackTick_of_some hs hi hfam hsel, htape', ⟨rfl, hev⟩,
    (honly.trans (runBranch_onlySlot ..)).onlyRecords _, ?_⟩
  have hact := hfollow.act_eq hgood
  rw [holdTimer_dev hi, afterHold_cpLedReq] at hact
  exact (congrArg DeviceRecord.cpLedAct hdev).trans hact

/-- Settles O34: only the chatpad LED branch writes the actual LEDs, each bit by its own send. -/
theorem chatpadLedBitsChangeOneByOne : Obligations.ChatpadLedBitsChangeOneByOne := by
  unfold Obligations.ChatpadLedBitsChangeOneByOne
  intro s t i now hi he r r' caps differs
  have hs : Ready .coordinator s := ready_of_next rfl he
  obtain ⟨-, -, -, hreq⟩ := (ticked_of_next he hi).requests
  refine ⟨⟨hreq, fun b => ?_⟩, fun hfam hrum hled hinit hcap hne => ?_⟩
  · by_cases hfam : (s.dev i.toNat).fam = .unknown
    · obtain rfl := Host.Outcome.next.inj
        ((exec_feedbackTick_of_free hs hi hfam now).symm.trans he)
      exact .inl rfl
    · obtain ⟨evs, -, hout⟩ := tick_outcome he hi hfam
      exact hout.getLsbD_cpLedAct b
  · obtain ⟨u, hu, ok, evs, act, hev, hdev, hfollow⟩ :=
      tick_cpLed hs hi hfam (selectBranch_cpLed (now := now) hrum hled hinit hcap hne)
    obtain rfl := Host.Outcome.next.inj (hu.symm.trans he)
    exact ⟨ok, evs, hev, hfollow.sent,
      fun b hb => (congrArg (·.cpLedAct.getLsbD b) hdev).trans (hfollow.bits b hb)⟩

/-- Settles O35: the outcome of the tick for its selected branch. -/
theorem tickRunsAtMostOneBranch : Obligations.TickRunsAtMostOneBranch := by
  unfold Obligations.TickRunsAtMostOneBranch
  intro s t i now hi he r r' held sends
  refine ⟨fun hfam => ?_, fun hfam => ?_⟩
  · obtain rfl := Host.Outcome.next.inj
      ((exec_feedbackTick_of_free (ready_of_next rfl he) hi hfam now).symm.trans he)
    exact ⟨rfl, rfl⟩
  obtain ⟨evs, hev, hout⟩ := tick_outcome he hi hfam
  refine ⟨r.afterHold s.cfg now, afterHold_of_held, afterHold_of_not_held,
    fun pre post b h => selectBranch_eq_some_iff h, ?_⟩
  rw [selectBranch_afterHold]
  generalize hr' : t.dev i.toNat = r1 at hout
  generalize (s.dev i.toNat).selectBranch s.cfg now = sel at hout
  cases hout with
  | idle => exact ⟨hev.trans (List.append_nil _), hr'⟩
  | rumble h | led h | cpInit h | powerOff h | keepalive h => exact ⟨_, ⟨evs, hev, h⟩, hr'⟩
  | @cpLed ok _ _ hfollow =>
    refine ⟨_, ok, _, _, List.filter_sublist, hev, fun b hb => ?_, hr'⟩
    obtain ⟨hb8, hd⟩ := List.mem_filter.1 hb
    exact hfollow.sent b (List.mem_range.1 hb8) hd

/-- Settles O36: each tick takes the first of at most four pending branches. -/
theorem feedbackConvergesInFourTicks : Obligations.FeedbackConvergesInFourTicks := by
  unfold Obligations.FeedbackConvergesInFourTicks
  intro s t i n1 n2 n3 n4 hi hfam hrun hquiet caps r'
  obtain ⟨hcfg, htick, evs, hev, hpend⟩ := runInstrs_ticks [n1, n2, n3, n4] hi hfam hrun
  rw [hev, List.drop_left] at hquiet
  have hnil : r'.pending s.cfg = [] := by
    rw [hpend hquiet]
    exact List.drop_eq_nil_of_le (List.length_filter_le ..)
  obtain ⟨hrum, hled, hinit, hcpled⟩ := pending_eq_nil_iff.1 hnil
  obtain ⟨hfam', hrumReq, hledReq, hcpLedReq⟩ : r'.fam = _ ∧ r'.rumReq = _ ∧ r'.ledReq = _ ∧
    r'.cpLedReq = _ := htick.requests
  rw [hfam'] at hrum hled hinit hcpled
  rw [hrumReq] at hrum
  rw [hledReq] at hled
  rw [hcpLedReq] at hcpled
  refine ⟨fun hcap => ?_, fun hcap => ?_, fun hcap => ?_, fun hcap => ?_, fun now => ?_⟩
  · exact not_not.1 fun hne => hrum ⟨hcap, Ne.symm hne⟩
  · exact not_not.1 fun hne => hled ⟨hcap, Ne.symm hne⟩
  · exact Bool.eq_false_iff.2 fun h => hinit ⟨hcap, h⟩
  · exact not_not.1 fun hne => hcpled ⟨hcap, Ne.symm hne⟩
  · rw [hcfg, selectBranch_of_pending_nil hnil]
    cases hfind : [Branch.powerOff, .keepalive].find? (r'.guard s.cfg now) with
    | none => exact .inl rfl
    | some b => simpa using List.mem_of_find?_eq_some hfind

end Sys2Proof.Machine
end

section
/-!
SUPPORT. The report buffers read by their family (spec/10_state.md rules R40, R41): what a write of one
report leaves as it was, byte by byte.
-/

namespace Sys2Proof.Machine

/-- The connected family of a report buffer. -/
def bufFamily (cockpit : Bool) : TargetFamily := if cockpit then .cockpit else .standard

@[simp] theorem isCockpit_bufFamily (cp : Bool) : isCockpit (bufFamily cp) = cp := by
  cases cp <;> rfl

theorem bufFamily_isCockpit {tf : TargetFamily} (h : tf ≠ .disconnected) :
    bufFamily (isCockpit tf) = tf := by
  cases tf with
  | disconnected => exact absurd rfl h
  | standard | cockpit => rfl

theorem bufFamily_ne_disconnected (cp : Bool) : bufFamily cp ≠ .disconnected := by
  cases cp <;> decide

section
variable (s : State) (k : Fin 4) (cp : Bool) (off : Nat)

theorem readByte_coordIn :
    s.readByte (.coordIn k cp) off = ((s.slot k).inBuf (bufFamily cp))[off]? := by
  cases cp <;> rfl

theorem readByte_coordOut :
    s.readByte (.coordOut k cp) off = ((s.slot k).outBuf (bufFamily cp))[off]? := by
  cases cp <;> rfl

theorem readByte_peerIn : s.readByte (.peerIn cp) off = (s.peer.inBuf (bufFamily cp))[off]? := by
  cases cp <;> rfl

theorem readByte_peerOut : s.readByte (.peerOut cp) off = (s.peer.outBuf (bufFamily cp))[off]? := by
  cases cp <;> rfl

end

@[simp] theorem inBuf_setTf (sl : CtrlSlot) (f g : TargetFamily) :
    ({ sl with tf := f } : CtrlSlot).inBuf g = sl.inBuf g := by cases g <;> rfl

@[simp] theorem outBuf_setTf (sl : CtrlSlot) (f g : TargetFamily) :
    ({ sl with tf := f } : CtrlSlot).outBuf g = sl.outBuf g := by cases g <;> rfl

theorem KeepsPool.sameRecords {s t : State} (h : KeepsPool s t) : SameRecords s t :=
  ⟨maxDev_congr h.pool, fun j _ => h.dev j⟩

/-! ### One coordinator's slot -/

section
variable {s t : State} {k : Fin 4}

/-- The buffers of a coordinator are those of its slots. -/
theorem sameBytesBut_of_slots {touched : BufId → Nat → Prop} (hpeer : t.peer = s.peer)
    (hin : ∀ k cp off, ¬ touched (.coordIn k cp) off →
      ((t.slot k).inBuf (bufFamily cp))[off]? = ((s.slot k).inBuf (bufFamily cp))[off]?)
    (hout : ∀ k cp off, ¬ touched (.coordOut k cp) off →
      ((t.slot k).outBuf (bufFamily cp))[off]? = ((s.slot k).outBuf (bufFamily cp))[off]?) :
    SameBytesBut touched s t := by
  intro b off hb
  cases b with
  | coordIn k cp => rw [readByte_coordIn, readByte_coordIn, hin k cp off hb]
  | coordOut k cp => rw [readByte_coordOut, readByte_coordOut, hout k cp off hb]
  | peerIn cp => rw [readByte_peerIn, readByte_peerIn, hpeer]
  | peerOut cp => rw [readByte_peerOut, readByte_peerOut, hpeer]

/-- An in-report written into a slot changes no other byte (R200). -/
theorem sameBytesBut_setSlot_setIn (s : State) (k : Fin 4) (f : TargetFamily) (bytes : Bytes) :
    SameBytesBut (fun b _ => f ≠ .disconnected ∧ b = .coordIn k (isCockpit f)) s
      (s.setSlot k ({ s.slot k with tf := f }.setIn f bytes)) := by
  refine sameBytesBut_of_slots rfl (fun j cp off hn => ?_) (fun j cp off _ => ?_)
  all_goals
    by_cases hj : j = k
    case neg => rw [slot_setSlot_other s hj]
  · subst hj
    rw [slot_setSlot_same]
    by_cases hf : bufFamily cp = f
    · exact absurd ⟨hf ▸ bufFamily_ne_disconnected cp, by rw [← hf, isCockpit_bufFamily]⟩ hn
    · rw [setIn_inBuf_other _ hf, inBuf_setTf]
  · subst hj
    rw [slot_setSlot_same, setIn_outBuf, outBuf_setTf]

/-- An out-report written into the peer's slot changes no other byte (R213). -/
theorem sameBytesBut_setPeer_setOut (s : State) (f : TargetFamily) (bytes : Bytes) :
    SameBytesBut (fun b _ => b = .peerOut (isCockpit f)) s
      (s.setPeer (s.peer.setOut f bytes)) := by
  intro b off hb
  cases b with
  | coordIn k cp | coordOut k cp => cases cp <;> rfl
  | peerIn cp => rw [readByte_peerIn, readByte_peerIn, setPeer_peer, setOut_inBuf]
  | peerOut cp =>
    have hcp : bufFamily cp ≠ f := fun h => hb (by rw [← h, isCockpit_bufFamily])
    rw [readByte_peerOut, readByte_peerOut, setPeer_peer, setOut_outBuf_other _ hcp]

/-- A slot after the receive step of the string `rx` (R194 to R196). -/
def CtrlSlot.received (c : Config) (rx : Bytes) (sl : CtrlSlot) : CtrlSlot :=
  sl.setOut sl.tf (overwrite (sl.outBuf sl.tf) (rx.take (c.outLen sl.tf)))

@[simp] theorem received_tf (c : Config) (rx : Bytes) (sl : CtrlSlot) :
    (sl.received c rx).tf = sl.tf := setOut_tf ..

@[simp] theorem received_inBuf (c : Config) (rx : Bytes) (sl : CtrlSlot) (g : TargetFamily) :
    (sl.received c rx).inBuf g = sl.inBuf g := setOut_inBuf ..

/-- Byte `off` of an out-report after a receive step: the received byte where one was delivered below
the expected size, else the old one (R194, R196). -/
theorem received_outBuf_getElem? {c : Config} {sl : CtrlSlot} (h : sl.wf c = true) (rx : Bytes)
    {g : TargetFamily} (hg : g ≠ .disconnected) (off : Nat) :
    ((sl.received c rx).outBuf g)[off]? =
      if g = sl.tf ∧ off < rx.length ∧ off < c.outLen sl.tf then rx[off]?
      else (sl.outBuf g)[off]? := by
  unfold CtrlSlot.received
  by_cases hgt : g = sl.tf
  · subst hgt
    have hlen := outBuf_length h hg
    rw [setOut_outBuf_same _ hg]
    by_cases hoff : off < c.outLen sl.tf
    · rw [overwrite_getElem? _ _ _ (hlen ▸ hoff)]
      simp [hoff]
    · rw [if_neg (by simp [hoff]), List.getElem?_eq_none (by simp [hlen]; omega),
        List.getElem?_eq_none (by omega)]
  · rw [if_neg (by simp [hgt]), setOut_outBuf_other _ hgt]

end

/-! ### What a peer answers (R95, R212) -/

/-- A connected peer answers its whole out-report. -/
theorem responseFrame_of_connected {c : Config} {p : CtrlSlot} (h : p.wf c = true)
    (htf : p.tf ≠ .disconnected) : responseFrame c p = p.outBuf p.tf := by
  rw [responseFrame, if_neg htf, List.take_of_length_le (outBuf_length h htf).le]

theorem responseFrame_of_disconnected {c : Config} {p : CtrlSlot} (htf : p.tf = .disconnected) :
    responseFrame c p = [c.placeholder] := if_pos htf

theorem outLen_bounds {c : Config} (hc : c.wf = true) (tf : TargetFamily) :
    1 ≤ c.outLen tf ∧ c.outLen tf ≤ 255 := by
  simp only [Config.wf, Config.lengthsWf, Bool.and_eq_true, decide_eq_true_eq] at hc
  cases tf with
  | disconnected => exact ⟨le_refl 1, (by decide : 1 ≤ 255)⟩
  | standard | cockpit => simp only [Config.outLen]; omega

/-- A response is 1 to 255 bytes (R217). -/
theorem responseFrame_length_bounds {c : Config} {p : CtrlSlot} (hc : c.wf = true)
    (h : p.wf c = true) : 1 ≤ (responseFrame c p).length ∧ (responseFrame c p).length ≤ 255 := by
  by_cases htf : p.tf = .disconnected
  · rw [responseFrame_of_disconnected htf]
    exact ⟨le_refl 1, (by decide : 1 ≤ 255)⟩
  · rw [responseFrame_of_connected h htf, outBuf_length h htf]
    exact outLen_bounds hc _

theorem Ready.cfg_wf {r : Role} {s : State} (h : Ready r s) : s.cfg.wf = true := by
  have hp := h.params
  simp only [State.paramsWf, Bool.and_eq_true] at hp
  obtain ⟨⟨hwf, -⟩, -⟩ := hp
  exact hwf

/-! ### Legal operands (R82) -/

theorem isPlayer_of_lt {k : Byte} (h : k.toNat < 4) : isPlayer k = true := decide_eq_true h

theorem isPeer_of_mem {k : Byte} (h1 : 1 ≤ k.toNat) (h3 : k.toNat ≤ 3) : isPeer k = true := by
  rw [isPeer, decide_eq_true h1]
  exact decide_eq_true h3

theorem inReportOk_of_length {c : Config} {f : TargetFamily} {bytes : Bytes}
    (h : bytes.length = c.inLen f) : inReportOk c f.code bytes = true := by
  rw [inReportOk, targetFamily_ofCode_code]
  exact beq_iff_eq.2 h

theorem outReportOk_of_length {c : Config} {f : TargetFamily} {bytes : Bytes}
    (hf : f ≠ .disconnected) (h : bytes.length = c.outLen f) :
    outReportOk c f.code bytes = true := by
  rw [outReportOk, targetFamily_ofCode_code]
  cases f with
  | disconnected => exact absurd rfl hf
  | standard | cockpit => exact beq_iff_eq.2 h

end Sys2Proof.Machine
end

section
/-!
SUPPORT. PEER_RECEIVE on every transaction (spec/42_transport.md rules R210, R211, R215): the four
things it can be, whatever the state.
-/

namespace Sys2Proof.Machine

/-- A first byte that is neither the ping nor one of the three status bytes discards the transaction
(R210). -/
theorem peerReceiveOp_other {b : Byte} (hp : b ≠ 0xAA)
    (hs : ¬ (0xF0 ≤ b.toNat ∧ b.toNat ≤ 0xF2)) (rest : Bytes) :
    peerReceiveOp (b :: rest) = rejectFrame .tag b (rest.length + 1) := by
  by_cases ht : tagOf b = statusTag
  · obtain ⟨fam, rfl⟩ : ∃ fam, statusByte fam = b := ⟨_, statusByte_of_tag ht⟩
    refine peerReceiveOp_reserved ?_ rest
    revert fam; decide
  · funext s
    rw [peerReceiveOp, if_neg (show b ≠ pingByte from hp), if_neg ht]
    rfl

/-- What PEER_RECEIVE does is fixed by the transaction: nothing, the acknowledgement of a ping, a
status frame's rule, or a discard (R210, R211). -/
theorem peerReceiveOp_cases (t : Bytes) :
    (peerReceiveOp t = fun s => s.ret .none) ∨ peerReceiveOp t = acceptPing ∨
    (∃ tf rest, peerReceiveOp t = acceptStatus tf rest) ∨
    ∃ why b n, peerReceiveOp t = rejectFrame why b n := by
  match t with
  | [] => exact .inl rfl
  | b :: rest =>
    by_cases hp : b = pingByte
    · subst hp
      exact .inr (.inl rfl)
    by_cases ht : tagOf b = statusTag
    · obtain ⟨fam, rfl⟩ : ∃ fam, statusByte fam = b := ⟨_, statusByte_of_tag ht⟩
      cases hf : TargetFamily.ofCode fam with
      | none =>
        exact .inr (.inr (.inr ⟨_, _, _, peerReceiveOp_reserved (targetFamily_ofCode_none.1 hf) rest⟩))
      | some tf =>
        obtain rfl := targetFamily_code_of_ofCode hf
        exact .inr (.inr (.inl ⟨_, _, peerReceiveOp_status tf rest⟩))
    · refine .inr (.inr (.inr ⟨.tag, b, rest.length + 1, ?_⟩))
      funext s
      rw [peerReceiveOp, if_neg hp, if_neg ht]
      rfl

/-- A transaction that only reports E8 changes neither the parameters nor the peer's slot (R219). -/
theorem peer_of_frameReject {t : Bytes} {s : State} {why : FrameError} {b : Byte} {n : Nat}
    (h : (peerReceiveOp t s).events = s.events ++ [.diag (.frameReject why b n)]) :
    (peerReceiveOp t s).peer = s.peer := by
  rcases peerReceiveOp_cases t with ht | ht | ⟨tf, rest, ht⟩ | ⟨why', b', n', ht⟩ <;> rw [ht] at h ⊢
  · rfl
  · rfl
  · by_cases hlen : rest.length = s.cfg.inLen tf
    · have hev := (acceptStatus_of_length hlen).2.events.symm.trans h
      rw [List.append_cancel_left_eq] at hev
      split at hev <;> simp at hev
    · rw [acceptStatus_of_length_ne hlen]
      rfl
  · rfl

/-- What PEER_RECEIVE leaves in the peer's slot and emits depends on the parameters and the peer's slot
alone (R210, R211). -/
theorem peerReceiveOp_congr (t : Bytes) {s u : State} (hc : u.cfg = s.cfg) (hp : u.peer = s.peer) :
    (peerReceiveOp t u).peer = (peerReceiveOp t s).peer ∧
      ∃ evs, (peerReceiveOp t s).events = s.events ++ evs ∧
        (peerReceiveOp t u).events = u.events ++ evs := by
  rcases peerReceiveOp_cases t with ht | ht | ⟨tf, rest, ht⟩ | ⟨why, b, n, ht⟩ <;> rw [ht]
  · exact ⟨hp, [], (List.append_nil _).symm, (List.append_nil _).symm⟩
  · exact ⟨hp, _, rfl, rfl⟩
  · by_cases hlen : rest.length = s.cfg.inLen tf
    · obtain ⟨hs, hsa⟩ := acceptStatus_of_length hlen
      obtain ⟨hu, hua⟩ := acceptStatus_of_length (s := u) (hc ▸ hlen)
      exact ⟨by rw [hu, hs, hp], _, hsa.events, by rw [hua.events, hp]⟩
    · rw [acceptStatus_of_length_ne hlen, acceptStatus_of_length_ne (s := u) (hc ▸ hlen)]
      exact ⟨hp, _, rfl, rfl⟩
  · exact ⟨hp, _, rfl, rfl⟩

end Sys2Proof.Machine
end

section
/-!
SUPPORT. The poll of COORD_POLL (spec/42_transport.md rules R193 to R196) peer by peer: what each one's
code and string make of its slot and of the events, and which answers the scripts give.
-/

namespace Sys2Proof.Machine

/-! ### One peer -/

/-- What the poll of peer `k` emits for its code and its string (R193, R196). -/
def pollEvents (c : Config) (k : Fin 4) (sl : CtrlSlot) (err : Byte) (rx : Bytes) : List Event :=
  .busw k.val (statusFrame c sl) ::
    (if err ≠ 0 then [.diag (.busSendFail k.val err)]
     else .busr k.val (c.outLen sl.tf) ::
      (if rx.length < c.outLen sl.tf then
        [.diag (.busShortRead k.val rx.length (c.outLen sl.tf))] else []))

/-- The error code the poll of peer `k` draws. -/
def State.pollCode (s : State) (k : Fin 4) : Byte := (pollSend k s).1

/-- The string the poll of peer `k` draws after a good send. -/
def State.pollString (s : State) (k : Fin 4) : Bytes :=
  ((pollSend k s).2.emit (.busr k.val (s.cfg.outLen (s.slot k).tf))).drawRx.1

section
variable (k : Fin 4) (s : State)

theorem pollSend_events : (pollSend k s).2.events =
    s.events ++ [.busw k.val (statusFrame s.cfg (s.slot k))] := by
  simp [pollSend, peerAddr]

@[simp] theorem pollSend_slot (j : Fin 4) : (pollSend k s).2.slot j = s.slot j :=
  slot_congr (by simp [pollSend]) j

@[simp] theorem pollSend_cfg : (pollSend k s).2.cfg = s.cfg := by simp [pollSend]

theorem pollPeer_of_good (h : s.pollCode k = 0) :
    pollPeer k s = pollRead k (s.slot k).tf (pollSend k s).2 := by
  rw [pollPeer]
  exact if_neg (not_not.2 h)

theorem pollPeer_of_failed (h : s.pollCode k ≠ 0) :
    pollPeer k s = (pollSend k s).2.emit (.diag (.busSendFail k.val (s.pollCode k))) := by
  rw [pollPeer]
  exact if_pos h

/-- A read stores the drawn string in its slot (R194 to R196). -/
theorem pollRead_slot (tf : TargetFamily) : (pollRead k tf s).slot k = (s.slot k).setOut tf
    (overwrite ((s.slot k).outBuf tf)
      ((s.emit (.busr k.val (s.cfg.outLen tf))).drawRx.1.take (s.cfg.outLen tf))) := by
  have hslot : (s.emit (.busr k.val (s.cfg.outLen tf))).drawRx.2.slot k = s.slot k :=
    slot_congr (by simp) k
  rw [pollRead, peerAddr, receiveStep_slot, hslot]

theorem pollPeer_slot : (pollPeer k s).slot k =
    if s.pollCode k = 0 then (s.slot k).received s.cfg (s.pollString k) else s.slot k := by
  split
  · rename_i h
    rw [pollPeer_of_good k s h, pollRead_slot, pollSend_slot, pollSend_cfg]
    rfl
  · rename_i h
    rw [pollPeer_of_failed k s h, slot_emit, pollSend_slot]

theorem pollPeer_events : (pollPeer k s).events =
    s.events ++ pollEvents s.cfg k (s.slot k) (s.pollCode k) (s.pollString k) := by
  unfold pollEvents
  by_cases h : s.pollCode k = 0
  · rw [pollPeer_of_good k s h, pollRead, receiveStep_events, drawRx_events, emit_events,
      pollSend_events, pollSend_cfg, if_neg (not_not.2 h), List.append_assoc, List.append_assoc]
    rfl
  · rw [pollPeer_of_failed k s h, emit_events, pollSend_events, if_pos h]
    simp

/-- The code is the script's next one, if there is one (R191; log entry 4). -/
theorem pollCode_script {e : Byte} (h : s.errTape[0]? = some e) : s.pollCode k = e :=
  (drawErr_script _).1 e h

/-- The string is the script's next one, if there is one (R191; log entry 4). -/
theorem pollString_script {r : Bytes} (h : s.rxTape[0]? = some r) : s.pollString k = r :=
  (drawRx_script _).1 r (by simpa [pollSend] using h)

end

/-! ### The peers of a list, one after another -/

/-- The peers `ks` were polled in this order with the codes `err` and the strings `rx`: their slots and
the events follow them, nothing else of the node changed, and the scripts gave the codes of all the
sends and the strings of the good ones, each in the order of their peers. -/
structure Polled (ks : List (Fin 4)) (err : Fin 4 → Byte) (rx : Fin 4 → Bytes) (s t : State) :
    Prop where
  keeps : KeepsPool s t
  peer : t.peer = s.peer
  upTape : t.upTape = s.upTape
  slot : ∀ k, t.slot k =
    if k ∈ ks ∧ err k = 0 then (s.slot k).received s.cfg (rx k) else s.slot k
  events : t.events =
    s.events ++ ks.flatMap fun k => pollEvents s.cfg k (s.slot k) (err k) (rx k)
  codes : ∀ (n : Nat) k e, ks[n]? = some k → s.errTape[n]? = some e → err k = e
  errTape : t.errTape = s.errTape.drop ks.length
  strings : ∀ (n : Nat) k r, (ks.filter fun k => err k == 0)[n]? = some k →
    s.rxTape[n]? = some r → rx k = r
  rxTape : t.rxTape = s.rxTape.drop (ks.filter fun k => err k == 0).length

theorem Polled.nil (err : Fin 4 → Byte) (rx : Fin 4 → Bytes) (s : State) : Polled [] err rx s s where
  keeps := ⟨⟨rfl, rfl, rfl, rfl⟩, rfl⟩
  peer := rfl
  upTape := rfl
  slot k := by simp
  events := by simp
  codes := by simp
  errTape := rfl
  strings := by simp
  rxTape := rfl

theorem Polled.cons {k : Fin 4} {ks : List (Fin 4)} {err : Fin 4 → Byte} {rx : Fin 4 → Bytes}
    {s t : State} (hk : k ∉ ks) (h : Polled ks err rx (pollPeer k s) t) (herr : err k = s.pollCode k)
    (hrx : rx k = s.pollString k) : Polled (k :: ks) err rx s t := by
  have honly := pollPeer_only k s
  have hother : ∀ j ∈ ks, (pollPeer k s).slot j = s.slot j := fun j hj =>
    honly.others j fun hjk => hk (hjk ▸ hj)
  have hcode : (pollSend k s).1 = err k := herr.symm
  refine
    { keeps := (KeepsPool.of_outReport honly).trans h.keeps
      peer := h.peer.trans honly.peer
      upTape := h.upTape.trans honly.upTape
      slot := fun j => ?_
      events := ?_
      codes := fun n j e hj he => ?_
      errTape := ?_
      strings := fun n j r hj hr => ?_
      rxTape := ?_ }
  · rw [h.slot, honly.cfg]
    by_cases hjk : j = k
    · subst hjk
      rw [if_neg (by simp [hk]), pollPeer_slot, ← herr, ← hrx]
      simp
    · rw [honly.others j hjk]
      simp [hjk]
  · rw [h.events, pollPeer_events, honly.cfg, List.flatMap_cons, herr, hrx, List.append_assoc]
    congr 2
    exact List.flatMap_congr fun j hj => by rw [hother j hj]
  · cases n with
    | zero =>
      obtain rfl : k = j := Option.some.inj hj
      exact herr.trans (pollCode_script k s he)
    | succ n => exact h.codes n j e hj (by rw [pollPeer_errTape, List.getElem?_drop, Nat.add_comm, he])
  · rw [h.errTape, pollPeer_errTape, List.drop_drop, List.length_cons, Nat.add_comm]
  · by_cases hgood : err k = 0
    · rw [List.filter_cons_of_pos (by simpa using hgood)] at hj
      cases n with
      | zero =>
        obtain rfl : k = j := Option.some.inj hj
        exact hrx.trans (pollString_script k s hr)
      | succ n =>
        refine h.strings n j r hj ?_
        rw [pollPeer_rxTape, hcode, if_pos hgood, List.getElem?_drop, Nat.add_comm, hr]
    · rw [List.filter_cons_of_neg (by simpa using hgood)] at hj
      exact h.strings n j r hj (by rw [pollPeer_rxTape, hcode, if_neg hgood, hr])
  · rw [h.rxTape, pollPeer_rxTape, hcode]
    by_cases hgood : err k = 0
    · rw [if_pos hgood, List.filter_cons_of_pos (by simpa using hgood), List.drop_drop,
        List.length_cons, Nat.add_comm]
    · rw [if_neg hgood, List.filter_cons_of_neg (by simpa using hgood)]

/-- What was polled does not depend on the codes and strings of other peers. -/
theorem Polled.congr {ks : List (Fin 4)} {err err' : Fin 4 → Byte} {rx rx' : Fin 4 → Bytes}
    {s t : State} (h : Polled ks err rx s t) (herr : ∀ k ∈ ks, err' k = err k)
    (hrx : ∀ k ∈ ks, rx' k = rx k) : Polled ks err' rx' s t := by
  have hgood : (ks.filter fun k => err' k == 0) = ks.filter fun k => err k == 0 :=
    List.filter_congr fun k hk => by rw [herr k hk]
  refine { h with
    slot := fun k => ?_
    events := ?_
    codes := fun n k e hk he => ?_
    strings := fun n k r hk hr => ?_
    rxTape := by rw [hgood, h.rxTape] }
  · rw [h.slot]
    by_cases hk : k ∈ ks
    · rw [herr k hk, hrx k hk]
    · simp [hk]
  · rw [h.events]
    congr 1
    exact List.flatMap_congr fun k hk => by rw [herr k hk, hrx k hk]
  · exact (herr k (List.mem_of_getElem? hk)).trans (h.codes n k e hk he)
  · rw [hgood] at hk
    exact (hrx k (List.mem_of_mem_filter (List.mem_of_getElem? hk))).trans (h.strings n k r hk hr)

theorem Polled.ret {ks : List (Fin 4)} {err : Fin 4 → Byte} {rx : Fin 4 → Bytes} {s t : State}
    (h : Polled ks err rx s t) (v : Result) : Polled ks err rx s (t.ret v) :=
  { h with keeps := h.keeps.trans (.ret t v) }

/-- The polls of distinct peers, whatever their codes and strings are (R193). -/
theorem exists_polled {ks : List (Fin 4)} (hks : ks.Nodup) (s : State) :
    ∃ err rx, Polled ks err rx s (ks.foldl (fun s k => pollPeer k s) s) := by
  induction ks generalizing s with
  | nil => exact ⟨fun _ => 0, fun _ => [], .nil ..⟩
  | cons k ks ih =>
    obtain ⟨hk, hks⟩ := List.nodup_cons.1 hks
    obtain ⟨err, rx, h⟩ := ih hks (pollPeer k s)
    have hne : ∀ j ∈ ks, j ≠ k := fun j hj hjk => hk (hjk ▸ hj)
    refine ⟨Function.update err k (s.pollCode k), Function.update rx k (s.pollString k), ?_⟩
    exact (h.congr (fun j hj => Function.update_of_ne (hne j hj) ..)
      fun j hj => Function.update_of_ne (hne j hj) ..).cons hk
      (Function.update_self ..) (Function.update_self ..)

/-- COORD_POLL polls the peers 1, 2 and 3 (R193). -/
theorem exists_polled_coordPollOp (s : State) :
    ∃ err rx, Polled polledPeers err rx s (coordPollOp s) := by
  obtain ⟨err, rx, h⟩ := exists_polled (ks := polledPeers) (by decide) s
  exact ⟨err, rx, h.ret .none⟩

/-! ### The events and bytes of a poll -/

/-- A transaction on the bus: a write or a read (R13). -/
def Event.isBusOutput : Event → Bool
  | .busw _ _ => true
  | .busr _ _ => true
  | _ => false

/-- A peer's poll issues at most two bus outputs (R217). -/
theorem pollEvents_busCount (c : Config) (k : Fin 4) (sl : CtrlSlot) (err : Byte) (rx : Bytes) :
    ((pollEvents c k sl err rx).filter Event.isBusOutput).length ≤ 2 := by
  unfold pollEvents
  split
  · simp [List.filter_cons, Event.isBusOutput]
  · split <;> simp [List.filter_cons, Event.isBusOutput]

/-- A poll writes no ping: every status frame starts with a status byte (R197, C3). -/
theorem busw_ping_notMem_pollEvents (c : Config) (k : Fin 4) (sl : CtrlSlot) (err : Byte)
    (rx : Bytes) (a : Nat) : Event.busw a [0xAA] ∉ pollEvents c k sl err rx := by
  have hne : ([0xAA] : Bytes) ≠ statusFrame c sl := fun h =>
    statusByte_ne_ping sl.tf.code (List.cons.inj h).1.symm
  unfold pollEvents
  rw [List.mem_cons, Event.busw.injEq]
  rintro (⟨-, h⟩ | h)
  · exact hne h
  · split at h
    · simp at h
    · split at h <;> simp at h

/-- With the report buffers at their lengths a status frame carries the whole in-report (R93). -/
theorem statusFrame_of_wf {c : Config} {sl : CtrlSlot} (h : sl.wf c = true) :
    statusFrame c sl = (0xF0#8 ||| sl.tf.code.setWidth 8) :: sl.inBuf sl.tf := by
  rw [statusFrame, statusByte_eq_or, List.take_of_length_le (inBuf_length h _).le]

end Sys2Proof.Machine
end

section
/-!
SUPPORT. Who emits FAMILY_CHANGED (spec/42_transport.md rule R215): a coordinator's operation neither
emits it nor touches the peer's family, and a peer's emits it exactly when it changes the family.
-/

namespace Sys2Proof.Machine

/-- The events emitted from `s` to `t` hold FAMILY_CHANGED exactly if the peer's family changed, and
then for the new family (R215). -/
def ReportsFamily (s t : State) : Prop :=
  ∃ evs, t.events = s.events ++ evs ∧
    ∀ tf, Event.familyChanged tf ∈ evs ↔ (t.peer.tf = tf ∧ s.peer.tf ≠ tf)

/-- The peer's family is unchanged and no FAMILY_CHANGED was emitted. -/
structure Quiet (s t : State) : Prop where
  tf : t.peer.tf = s.peer.tf
  events : ∃ evs, t.events = s.events ++ evs ∧ ∀ tf, Event.familyChanged tf ∉ evs

namespace Quiet

variable {s t u : State}

theorem reportsFamily (h : Quiet s t) : ReportsFamily s t := by
  obtain ⟨evs, he, hn⟩ := h.events
  refine ⟨evs, he, fun tf => ⟨fun hm => absurd hm (hn tf), ?_⟩⟩
  rintro ⟨ht, hs⟩
  exact absurd (h.tf.symm.trans ht) hs

theorem of_events (hp : t.peer = s.peer) (he : t.events = s.events) : Quiet s t :=
  ⟨by rw [hp], [], by rw [he, List.append_nil], by simp⟩

theorem refl (s : State) : Quiet s s := of_events rfl rfl

theorem trans (h : Quiet s t) (g : Quiet t u) : Quiet s u := by
  obtain ⟨e1, h1, n1⟩ := h.events
  obtain ⟨e2, h2, n2⟩ := g.events
  exact ⟨g.tf.trans h.tf, e1 ++ e2, by rw [h2, h1, List.append_assoc],
    fun tf => by simp [n1 tf, n2 tf]⟩

theorem ret (s : State) (v : Result) : Quiet s (s.ret v) := of_events rfl rfl

theorem raise (s : State) (e : ErrorInfo) : Quiet s (s.raise e) :=
  ⟨by rw [raise_peer], _, raise_events s e, fun tf => by split <;> simp⟩

theorem raise_ret (s : State) (e : ErrorInfo) (v : Result) : Quiet s ((s.raise e).ret v) :=
  (raise s e).trans (ret _ v)

theorem setRec (s : State) (i : Nat) (r : DeviceRecord) : Quiet s (s.setRec i r) :=
  of_events rfl rfl

theorem setRec_ret (s : State) (i : Nat) (r : DeviceRecord) (v : Result) :
    Quiet s ((s.setRec i r).ret v) := of_events rfl rfl

theorem updateLive_ret (s : State) (i : Nat) (f : DeviceRecord → DeviceRecord) (v : Result) :
    Quiet s ((s.updateLive i f).ret v) := by
  unfold State.updateLive
  split <;> exact of_events rfl rfl

theorem alloc_ret (f : Family) (addr inEp outEp chan : Byte) (s : State) (v : Result) :
    Quiet s ((s.alloc f addr inEp outEp chan).2.ret v) := by
  rcases alloc_cases s f addr inEp outEp chan with ⟨-, h⟩ | ⟨i, -, h⟩ <;> rw [h]
  · exact raise_ret s (.poolFull addr chan) v
  · exact of_events rfl rfl

theorem of_outReport {k : Fin 4} (h : OnlyOutReport k s t) : Quiet s t :=
  ⟨by rw [h.peer], h.events⟩

/-! The operations on the pool. -/

theorem attachDevice (addr : Byte) (fam : Family) (inEp outEp chan : Byte) (s : State) :
    Quiet s (attachDevice addr fam inEp outEp chan s) := by
  unfold Machine.attachDevice
  split
  · exact raise_ret ..
  split
  · exact raise_ret ..
  split
  · exact ret ..
  split
  · exact ret ..
  · exact alloc_ret ..

theorem detachAddr (addr : Byte) (s : State) : Quiet s (detachAddr addr s) := by
  unfold Machine.detachAddr
  split <;> exact of_events rfl rfl

theorem packetPath (f : Family) (h : PacketHeader) (p : Packet) (s : State) :
    Quiet s (packetPath f h p s) := by
  unfold Machine.packetPath
  split
  · unfold presencePath
    split
    · exact alloc_ret ..
    · exact setRec_ret ..
    · exact ret ..
  · exact setRec_ret ..
  · exact setRec_ret ..
  · exact setRec_ret ..
  · exact raise_ret ..

theorem packetOp (h : PacketHeader) (p : Packet) (s : State) : Quiet s (packetOp h p s) := by
  unfold Machine.packetOp
  dsimp only
  split
  · exact raise_ret ..
  split
  · exact raise_ret ..
  split
  · exact ret ..
  · exact packetPath ..

theorem decodePacketOp (h : PacketHeader) (len : BitVec 9) (buf : Bytes) (s : State) :
    Quiet s (decodePacketOp h len buf s) := by
  unfold Machine.decodePacketOp
  dsimp only
  split
  · exact raise_ret ..
  split
  · exact raise_ret ..
  split
  · exact raise_ret ..
  split
  · exact raise_ret ..
  · exact packetPath ..

theorem wasPressedOp (i : Nat) (x : Byte) (s : State) : Quiet s (wasPressedOp i x s) := by
  unfold Machine.wasPressedOp
  dsimp only
  split
  · exact ret ..
  · exact setRec_ret ..

/-! The feedback tick. -/

theorem send (i : Nat) (k : Cmd) (s : State) : Quiet s (send i k s).2 := by
  have h := send_emitted i k s
  obtain ⟨evs, he, hkind, -⟩ := h.events
  refine ⟨by rw [h.peer], evs, he, fun tf hm => ?_⟩
  rcases hkind _ hm with ⟨p, hp⟩ | hp <;> cases hp

theorem sendThen (i : Nat) (k : Cmd) (f : DeviceRecord → DeviceRecord) (s : State) :
    Quiet s (sendThen i k f s) := by
  have h := send i k s
  unfold Machine.sendThen
  split <;> rename_i t he <;> rw [he] at h
  · exact h.trans (setRec ..)
  · exact h

theorem sendAnyway (i : Nat) (k : Cmd) (f : DeviceRecord → DeviceRecord) (s : State) :
    Quiet s (sendAnyway i k f s) :=
  (send i k s).trans (setRec ..)

theorem cpledBit (i b : Nat) (s : State) : Quiet s (cpledBit i b s) := by
  unfold Machine.cpledBit
  dsimp only
  split
  · exact sendThen ..
  · exact refl s

theorem cpledUpTo (i n : Nat) (s : State) : Quiet s (cpledUpTo i n s) := by
  induction n with
  | zero => exact refl s
  | succ n ih =>
    rw [cpledUpTo_succ]
    exact ih.trans (cpledBit ..)

theorem runBranch (i : Nat) (now : BitVec 32) (b : Branch) (s : State) :
    Quiet s (runBranch i now b s) := by
  cases b <;> unfold Machine.runBranch
  case rumble | led | cpInit => exact sendThen ..
  case cpLed => exact cpledUpTo i 8 s
  case powerOff | keepalive => exact sendAnyway ..

theorem holdTimer (i : Nat) (now : BitVec 32) (s : State) : Quiet s (holdTimer i now s) := by
  unfold Machine.holdTimer
  split
  · exact refl s
  · exact setRec ..

theorem feedbackTickOp (i : Nat) (now : BitVec 32) (s : State) :
    Quiet s (feedbackTickOp i now s) := by
  have hh := holdTimer i now s
  rcases feedbackTickOp_cases i now s with ⟨-, h⟩ | ⟨-, ⟨-, h⟩ | ⟨b, -, h⟩⟩ <;> rw [h]
  · exact ret ..
  · exact hh.trans (ret ..)
  · exact (hh.trans (runBranch ..)).trans (ret ..)

/-! The coordinator's transport. -/

theorem coordPollOp (s : State) : Quiet s (coordPollOp s) := by
  rw [coordPollOp_eq]
  exact (((of_outReport (pollPeer_only 1 s)).trans (of_outReport (pollPeer_only 2 _))).trans
    (of_outReport (pollPeer_only 3 _))).trans (ret _ _)

theorem coordPingOp (k : Byte) (s : State) : Quiet s (coordPingOp k s) := by
  have h := of_outReport (pingSend_only 0 k s)
  unfold Machine.coordPingOp
  dsimp only
  split
  · exact h.trans (raise_ret ..)
  · exact h.trans (ret ..)

theorem slotWriteOp (k : Fin 4) (tf : BitVec 4) (b : Bytes) (s : State) :
    Quiet s (slotWriteOp k tf b s) := by
  unfold Machine.slotWriteOp
  split <;> exact of_events rfl rfl

theorem slotReadOp (k : Fin 4) (tf : BitVec 4) (s : State) : Quiet s (slotReadOp k tf s) := by
  unfold Machine.slotReadOp
  split <;> exact of_events rfl rfl

theorem responseOp (k : Fin 4) (rx : Bytes) (s : State) : Quiet s (responseOp k rx s) :=
  (of_outReport (receiveStep_only ..)).trans (ret ..)

theorem peerSetOutOp (tf : BitVec 4) (b : Bytes) (s : State) : Quiet s (peerSetOutOp tf b s) := by
  unfold Machine.peerSetOutOp
  split
  · exact refl s
  · exact ⟨setOut_tf .., [], by simp, by simp⟩

/-! A discarded frame and a ping. -/

theorem rejectFrame (why : FrameError) (b : Byte) (n : Nat) (s : State) :
    Quiet s (rejectFrame why b n s) := raise_ret ..

theorem acceptPing (s : State) : Quiet s (acceptPing s) :=
  ⟨rfl, [.ackPing], rfl, by simp⟩

end Quiet

/-- A status frame changes the family exactly when it says so (R215). -/
theorem acceptStatus_reportsFamily (tf : TargetFamily) (rest : Bytes) (s : State) :
    ReportsFamily s (acceptStatus tf rest s) := by
  by_cases hlen : rest.length = s.cfg.inLen tf
  · obtain ⟨hpeer, hans⟩ := acceptStatus_of_length hlen
    refine ⟨_, hans.events, fun g => ?_⟩
    rw [hpeer, setIn_tf]
    by_cases htf : s.peer.tf = tf
    · rw [if_neg (not_not.2 htf), htf]
      simp
    · rw [if_pos htf, List.mem_singleton, Event.familyChanged.injEq]
      exact ⟨fun h => ⟨h.symm, h ▸ htf⟩, fun h => h.1.symm⟩
  · rw [acceptStatus_of_length_ne hlen]
    exact (Quiet.rejectFrame ..).reportsFamily

theorem peerReceiveOp_reportsFamily (t : Bytes) (s : State) :
    ReportsFamily s (peerReceiveOp t s) := by
  rcases peerReceiveOp_cases t with h | h | ⟨tf, rest, h⟩ | ⟨why, b, n, h⟩ <;> rw [h]
  · exact (Quiet.ret ..).reportsFamily
  · exact (Quiet.acceptPing s).reportsFamily
  · exact acceptStatus_reportsFamily ..
  · exact (Quiet.rejectFrame ..).reportsFamily

theorem accept_reportsFamily {role : Role} {legal : Bool} {s t : State} {act : State → State}
    (he : accept role legal s act = .next t) (h : ReportsFamily s (act s)) : ReportsFamily s t := by
  obtain ⟨-, -, -, -, rfl⟩ := accept_next.1 he
  exact h

theorem accept_quiet {role : Role} {legal : Bool} {s t : State} {act : State → State}
    (he : accept role legal s act = .next t) (h : Quiet s (act s)) : ReportsFamily s t :=
  accept_reportsFamily he h.reportsFamily

/-- Every operation but RESET emits FAMILY_CHANGED exactly when it changes the peer's family (R215). -/
theorem exec_reportsFamily {i : Instr} {s t : State} (hi : ∀ id, i ≠ .reset id)
    (he : exec i s = .next t) : ReportsFamily s t := by
  cases i with
  | reset id => exact absurd rfl (hi id)
  | attach => exact accept_quiet he (.attachDevice ..)
  | detach => exact accept_quiet he (.detachAddr ..)
  | decode => exact accept_quiet he (.decodePacketOp ..)
  | readPad x => exact accept_quiet (exec_readPad s x ▸ he) (.ret ..)
  | buttonEdge x => exact accept_quiet (exec_buttonEdge s x ▸ he) (.ret ..)
  | isDown x code => exact accept_quiet (exec_isDown s x code ▸ he) (.ret ..)
  | commitEdges x => exact accept_quiet (exec_commitEdges s x ▸ he) (.updateLive_ret ..)
  | wasPressed => exact accept_quiet he (.wasPressedOp ..)
  | setRumble x l r => exact accept_quiet (exec_setRumble s x l r ▸ he) (.updateLive_ret ..)
  | setLed x q => exact accept_quiet (exec_setLed s x q ▸ he) (.updateLive_ret ..)
  | setCpled x b => exact accept_quiet (exec_setCpled s x b ▸ he) (.updateLive_ret ..)
  | feedbackTick => exact accept_quiet he (.feedbackTickOp ..)
  | slotWrite => exact accept_quiet he (.slotWriteOp ..)
  | slotRead => exact accept_quiet he (.slotReadOp ..)
  | coordPoll => exact accept_quiet he (.coordPollOp s)
  | coordPing k => exact accept_quiet he (.coordPingOp k s)
  | response => exact accept_quiet he (.responseOp ..)
  | peerReceive b => exact accept_reportsFamily he (peerReceiveOp_reportsFamily b s)
  | peerRequest => exact accept_quiet (exec_peerRequest s ▸ he) (.ret ..)
  | peerRead => exact accept_quiet (exec_peerRead s ▸ he) (.ret ..)
  | peerSetOut => exact accept_quiet he (.peerSetOutOp ..)
  | statusDisc b | statusStd b | statusCockpit b =>
    exact accept_reportsFamily he (acceptStatus_reportsFamily _ b s)
  | statusReserved => exact accept_quiet he (.rejectFrame ..)
  | ping => exact accept_quiet he (.acceptPing s)
  | pad h p => exact accept_quiet he (.packetOp h (.pad p) s)
  | presence h b => exact accept_quiet he (.packetOp h (.presence b) s)
  | chatpad h m ks => exact accept_quiet he (.packetOp h (.chatpad m ks) s)
  | reinit h => exact accept_quiet he (.packetOp h .reinit s)

end Sys2Proof.Machine
end

section
/-!
The obligations about the coordinator's and the peer's transport on one node, settled by the lemmas
above.
-/

namespace Sys2Proof.Machine

/-! ### The poll -/

/-- Settles O37: the three peers polled one after another, each slot's bytes by its own code and
string. -/
theorem pollServesEveryPeer : Obligations.PollServesEveryPeer := by
  unfold Obligations.PollServesEveryPeer
  intro s hs hmem
  obtain ⟨hwf, -⟩ := memory_wf_iff.1 hmem
  obtain ⟨err, rx, h⟩ := exists_polled_coordPollOp s
  refine ⟨rfl, coordPollOp s, err, rx, ?_⟩
  intro ev peers good replaced
  have hev : ∀ k, ev k = pollEvents s.cfg k (s.slot k) (err k) (rx k) := fun k => by
    rw [pollEvents, statusFrame_of_wf (hwf k)]
  have htf : ∀ k, ((coordPollOp s).slot k).tf = (s.slot k).tf := fun k => by
    rw [h.slot]
    split
    · rw [received_tf]
    · rfl
  have hmem : ∀ k, k ∈ polledPeers ↔ k ≠ 0 := by decide
  refine ⟨accept_ready hs _, ⟨rfl, ?_⟩, h.keeps.control, h.keeps.sameRecords,
    ⟨fun k _ => htf k, fun _ => by rw [h.peer]⟩, h.upTape, ?_, ?_, h.codes, h.errTape, h.strings,
    h.rxTape⟩
  · rw [h.events, hev, hev, hev]
    simp [polledPeers]
  · refine sameBytesBut_of_slots h.peer (fun k cp off _ => ?_) (fun k cp off hn => ?_)
    · rw [h.slot]
      split
      · rw [received_inBuf]
      · rfl
    · rw [h.slot]
      split
      · rename_i hk
        rw [received_outBuf_getElem? (hwf k) _ (bufFamily_ne_disconnected cp), if_neg]
        rintro ⟨hcp, hrx, hlen⟩
        exact hn ⟨k, hcp ▸ bufFamily_ne_disconnected cp, by rw [← hcp, isCockpit_bufFamily],
          (hmem k).1 hk.1, hk.2, hrx, hlen⟩
      · rfl
  · rintro k off hcon ⟨hk, hgood, hrx, hlen⟩
    rw [readByte_coordOut, bufFamily_isCockpit hcon, h.slot, if_pos ⟨(hmem k).2 hk, hgood⟩,
      received_outBuf_getElem? (hwf k) _ hcon, if_pos ⟨rfl, hrx, hlen⟩]

/-- Settles O38: two bus outputs for each of the three peers; a response has its family's length. -/
theorem pollIsBounded : Obligations.PollIsBounded := by
  unfold Obligations.PollIsBounded
  refine ⟨fun s t he => ?_, fun s t hmem he => ?_⟩
  · obtain ⟨-, -, -, -, rfl⟩ := accept_next.1 he
    obtain ⟨err, rx, h⟩ := exists_polled_coordPollOp s
    refine ⟨_, h.events, ?_⟩
    change (List.filter Event.isBusOutput _).length ≤ 2 * 3
    have h1 := pollEvents_busCount s.cfg 1 (s.slot 1) (err 1) (rx 1)
    have h2 := pollEvents_busCount s.cfg 2 (s.slot 2) (err 2) (rx 2)
    have h3 := pollEvents_busCount s.cfg 3 (s.slot 3) (err 3) (rx 3)
    simp only [polledPeers, List.flatMap_cons, List.flatMap_nil, List.append_nil,
      List.filter_append, List.length_append]
    omega
  · have hready := ready_of_next (r := .peer) rfl he
    rw [exec_peerRequest, accept_ready hready] at he
    cases he
    exact ⟨_, rfl, responseFrame_length_bounds hready.cfg_wf (memory_wf_iff.1 hmem).2⟩

/-- Settles O39: one send whose code is only reported; a poll's frames start with a status byte. -/
theorem pingIsOneByteAndChangesNothing : Obligations.PingIsOneByteAndChangesNothing := by
  unfold Obligations.PingIsOneByteAndChangesNothing
  intro s k hs h1 h3
  have hslots : (coordPingOp k s).slots = s.slots := by
    unfold coordPingOp pingSend
    dsimp only
    split <;> simp
  have hpeer : (coordPingOp k s).peer = s.peer := by
    unfold coordPingOp pingSend
    dsimp only
    split <;> simp
  have hkeeps := KeepsPool.coordPingOp k s
  refine ⟨rfl, coordPingOp k s, (pingSend k s).1, ?_, ⟨rfl, ?_⟩, hkeeps.control,
    hkeeps.sameRecords, ⟨fun j _ => by rw [slot_congr hslots], fun _ => by rw [hpeer]⟩, ?_, ?_, ?_,
    ?_, ?_⟩
  · rw [exec_coordPing, isPeer_of_mem h1 h3, accept_ready hs]
  · unfold coordPingOp
    dsimp only
    split <;> simp [pingSend, peerAddr, pingByte]
  · exact sameBytesBut_of_slots hpeer (fun j cp off _ => by rw [slot_congr hslots])
      (fun j cp off _ => by rw [slot_congr hslots])
  · unfold coordPingOp pingSend
    dsimp only
    split <;> simp
  · unfold coordPingOp pingSend
    dsimp only
    split <;> simp
  · intro e es he
    have hdraw := drawErr_cons (s := s.emit (.busw (peerAddr k.toNat) [pingByte])) he
    unfold coordPingOp pingSend
    rw [hdraw]
    dsimp only
    split <;> exact ⟨rfl, by simp⟩
  · intro u hu
    obtain ⟨-, -, -, -, rfl⟩ := accept_next.1 hu
    obtain ⟨err, rx, h⟩ := exists_polled_coordPollOp s
    refine ⟨_, h.events, fun a ha => ?_⟩
    obtain ⟨j, -, hj⟩ := List.mem_flatMap.1 ha
    exact busw_ping_notMem_pollEvents _ _ _ _ _ a hj

/-! ### The slots -/

/-- Settles O40: the write of one slot's family and in-report. -/
theorem slotWriteSetsFamilyAndReport : Obligations.SlotWriteSetsFamilyAndReport := by
  unfold Obligations.SlotWriteSetsFamilyAndReport
  intro s k f bytes hs hk
  refine ⟨?_, fun tf htf => ?_, fun hlen => ?_, fun hlen => ?_⟩
  · exact (decodePort_cons .slotWrite _).trans (narrow_setWidth (by decide) f.code
      fun tf => .instr (.slotWrite k tf bytes))
  · exact accept_operandRange hs (by rw [inReportOk_eq_false_of_family htf, Bool.and_false]) _
  · exact accept_operandRange hs (by rw [inReportOk_eq_false_of_length hlen, Bool.and_false]) _
  · have hop : slotWriteOp (playerIx k) f.code bytes s =
        (s.setSlot (playerIx k) ({ s.slot (playerIx k) with tf := f }.setIn f bytes)).ret .none := by
      rw [slotWriteOp, targetFamily_ofCode_code]
    refine ⟨slotWriteOp (playerIx k) f.code bytes s, ?_, ?_⟩
    · rw [exec_slotWrite, isPlayer_of_lt hk, inReportOk_of_length hlen, Bool.and_true,
        accept_ready hs]
    rw [hop]
    refine ⟨⟨rfl, rfl, rfl, rfl⟩, ⟨rfl, (List.append_nil _).symm⟩,
      ⟨rfl, rfl, rfl, rfl⟩, ⟨rfl, fun _ _ => rfl⟩, ?_,
      ⟨fun j hj => congrArg CtrlSlot.tf (slot_setSlot_other s hj _), fun _ => rfl⟩,
      sameBytesBut_setSlot_setIn s (playerIx k) f bytes, fun hf off => ?_⟩
    · exact (congrArg CtrlSlot.tf (slot_setSlot_same s (playerIx k) _)).trans (setIn_tf ..)
    · rw [readByte_coordIn, bufFamily_isCockpit hf, slot_ret]
      exact congrArg (·[off]?) ((congrArg (·.inBuf f) (slot_setSlot_same s (playerIx k) _)).trans
        (setIn_inBuf_same _ hf bytes))

/-- Settles O41: SLOT_READ only returns. -/
theorem slotReadReturnsTheOutReport : Obligations.SlotReadReturnsTheOutReport := by
  unfold Obligations.SlotReadReturnsTheOutReport
  intro s k hs hk
  have hp := isPlayer_of_lt hk
  refine ⟨rfl, rfl, ?_, ?_, ?_⟩
  · exact accept_operandRange hs (Bool.and_false _) _
  · exact ⟨_, by rw [exec_slotRead, hp]; exact accept_ready hs _, ret_answers ..⟩
  · exact ⟨_, by rw [exec_slotRead, hp]; exact accept_ready hs _, ret_answers ..⟩

/-- Settles O42: the receive step of the peer's slot, byte by byte. -/
theorem responseFrameIsTheReceiveStep : Obligations.ResponseFrameIsTheReceiveStep := by
  unfold Obligations.ResponseFrameIsTheReceiveStep
  intro s k rx hs hmem h1 h3 ix tf e touched
  have hwf := (memory_wf_iff.1 hmem).1
  have hval : ix.val = k.toNat := Nat.mod_eq_of_lt (by omega)
  have honly := receiveStep_only ix tf rx e s
  have hslot : (responseOp ix rx s).slot ix = (s.slot ix).received s.cfg rx :=
    receiveStep_slot ix tf rx e s
  have hother : ∀ j, j ≠ ix → (responseOp ix rx s).slot j = s.slot j := honly.others
  have hcount : (receiveStep ix tf rx e s).drawCount = s.drawCount := by
    unfold receiveStep
    dsimp only
    split <;> simp
  refine ⟨responseOp ix rx s, ?_, ⟨honly.upTape, receiveStep_errTape .., receiveStep_rxTape ..,
    hcount⟩, ⟨rfl, ?_⟩, (KeepsPool.responseOp ix rx s).control,
    (KeepsPool.responseOp ix rx s).sameRecords, ⟨fun j _ => ?_, fun _ => congrArg _ honly.peer⟩,
    ?_, ?_⟩
  · rw [exec_response, isPeer_of_mem h1 h3, accept_ready hs]
    rfl
  · rw [← hval]
    exact receiveStep_events ix tf rx e s
  · by_cases hj : j = ix
    · rw [hj, hslot, received_tf]
    · rw [hother j hj]
  · refine sameBytesBut_of_slots honly.peer (fun j cp off _ => ?_) (fun j cp off hn => ?_)
    all_goals
      by_cases hj : j = ix
      case neg => rw [hother j hj]
    · rw [hj, hslot, received_inBuf]
    · rw [hj, hslot, received_outBuf_getElem? (hwf ix) _ (bufFamily_ne_disconnected cp), if_neg]
      rintro ⟨(hcp : bufFamily cp = tf), hrx, hlen⟩
      exact hn ⟨hcp ▸ bufFamily_ne_disconnected cp, by rw [hj, ← hcp, isCockpit_bufFamily], hrx,
        hlen⟩
  · rintro b off ⟨hcon, rfl, hrx, hlen⟩
    rw [readByte_coordOut, bufFamily_isCockpit hcon, hslot,
      received_outBuf_getElem? (hwf ix) _ hcon, if_pos ⟨rfl, hrx, hlen⟩]

/-! ### The peer -/

/-- Settles O43: the transactions by their first byte, a status frame by its length. -/
theorem peerReceiveFollowsItsRule : Obligations.PeerReceiveFollowsItsRule := by
  unfold Obligations.PeerReceiveFollowsItsRule
  intro s hs
  have hexec : ∀ t, exec (.peerReceive t) s = .next (peerReceiveOp t s) := fun t => accept_ready hs _
  refine ⟨fun t ht => ?_, ⟨_, hexec [], ret_answers s .none⟩,
    fun rest => ⟨_, hexec _, acceptPing_answers s⟩, fun f rest => ?_, fun b rest hp hb => ?_⟩
  · refine (decodePort_cons .peerReceive _).trans (if_pos ?_)
    rw [toNat_append_byte, BitVec.toNat_ofNat, BitVec.toNat_ofNat]
    omega
  · have hhalf := PeerHalf.acceptStatus f rest s
    rw [← statusByte_eq_or, Nat.add_comm 1]
    refine ⟨_, (hexec _).trans (by rw [peerReceiveOp_status]), fun hlen => ?_, fun hlen => ?_⟩
    · obtain ⟨hpeer, hans⟩ := acceptStatus_of_length hlen
      exact ⟨hhalf.noDraw, hhalf.sameControl, hhalf.sameRecords, by rw [hpeer, setIn_tf],
        hhalf.sameFamiliesButPeer, hhalf.sameBytesBut_setIn hpeer, readByte_peerIn_setIn hpeer, hans⟩
    · rw [acceptStatus_of_length_ne hlen]
      exact rejectFrame_answers ..
  · refine ⟨_, hexec _, ?_⟩
    rw [peerReceiveOp_other hp hb, Nat.add_comm 1]
    exact rejectFrame_answers ..

/-- Settles O46: PEER_REQUEST only returns, the placeholder or the whole out-report. -/
theorem peerRequestAnswersItsOwnFamily : Obligations.PeerRequestAnswersItsOwnFamily := by
  unfold Obligations.PeerRequestAnswersItsOwnFamily
  intro s hs hmem
  have hwf := (memory_wf_iff.1 hmem).2
  obtain ⟨honly, hans⟩ := ret_answers s (.bytes (responseFrame s.cfg s.peer))
  have hcon : ∀ tf, tf ≠ .disconnected → s.peer.tf = tf →
      Answers (.bytes (s.peer.outBuf tf)) [] s (s.ret (.bytes (responseFrame s.cfg s.peer))) := by
    rintro tf hne rfl
    rwa [responseFrame_of_connected hwf hne] at hans ⊢
  refine ⟨rfl, _, by rw [exec_peerRequest, accept_ready hs], honly, fun b hb => ?_, fun htf => ?_,
    hcon .standard (by decide), hcon .cockpit (by decide)⟩
  · cases hb
    exact responseFrame_length_bounds hs.cfg_wf hwf
  · rwa [responseFrame_of_disconnected htf] at hans ⊢

/-- Settles O47: the write of one out-report of the peer's slot. -/
theorem peerSetOutReplacesOneReport : Obligations.PeerSetOutReplacesOneReport := by
  unfold Obligations.PeerSetOutReplacesOneReport
  intro s f bytes hs hf hlen
  have hop : peerSetOutOp f.code bytes s = (s.setPeer (s.peer.setOut f bytes)).ret .none := by
    rw [peerSetOutOp, targetFamily_ofCode_code]
  refine ⟨?_, fun b => ?_, peerSetOutOp f.code bytes s, ?_, ?_⟩
  · exact (decodePort_cons .peerSetOut _).trans (narrow_setWidth (by decide) f.code
      fun tf => .instr (.peerSetOut tf bytes))
  · exact accept_operandRange hs (outReportOk_eq_false_of_family (.inl rfl) _ _) _
  · rw [exec_peerSetOut, outReportOk_of_length hf hlen, accept_ready hs]
  · rw [hop]
    refine ⟨⟨rfl, rfl, rfl, rfl⟩, ⟨rfl, (List.append_nil _).symm⟩, ⟨rfl, rfl, rfl, rfl⟩,
      ⟨rfl, fun _ _ => rfl⟩, ⟨fun _ _ => rfl, fun _ => setOut_tf ..⟩,
      sameBytesBut_setPeer_setOut s f bytes, fun off => ?_⟩
    rw [readByte_peerOut, bufFamily_isCockpit hf, ret_peer, setPeer_peer, setOut_outBuf_same _ hf]

/-- Settles O48: PEER_READ only returns. -/
theorem peerReadReturnsFamilyAndReport : Obligations.PeerReadReturnsFamilyAndReport := by
  unfold Obligations.PeerReadReturnsFamilyAndReport
  intro s hs
  obtain ⟨honly, hans⟩ := ret_answers s (.report s.peer.tf (s.peer.inBuf s.peer.tf))
  refine ⟨rfl, _, by rw [exec_peerRead, accept_ready hs], honly, fun htf => ?_, fun htf => ?_,
    fun htf => ?_⟩ <;> rwa [htf] at hans ⊢

/-- Settles O49: only an accepted status frame emits FAMILY_CHANGED, and only where it changes the
family. -/
theorem familyChangedIffTheFamilyChanged : Obligations.FamilyChangedIffTheFamilyChanged := by
  unfold Obligations.FamilyChangedIffTheFamilyChanged
  exact fun i s t hi he => exec_reportsFamily hi he

/-- Settles O50: a discarded transaction leaves the peer's slot, on which alone the next one depends. -/
theorem discardedFramesLeaveNoTrace : Obligations.DiscardedFramesLeaveNoTrace := by
  unfold Obligations.DiscardedFramesLeaveNoTrace
  intro s t u v bad next why b n hbad hev hu hv
  obtain ⟨-, -, -, -, rfl⟩ := accept_next.1 hbad
  obtain ⟨-, -, -, -, rfl⟩ := accept_next.1 hu
  obtain ⟨-, -, -, -, rfl⟩ := accept_next.1 hv
  exact peerReceiveOp_congr next (PeerHalf.peerReceiveOp bad s).cfg (peer_of_frameReject hev)

/-- Settles O9: every operation but RESET is accepted in its own role only. -/
theorem otherRoleIsRefused : Obligations.OtherRoleIsRefused := by
  unfold Obligations.OtherRoleIsRefused
  intro i s r hr hparams hbooted hrole
  obtain ⟨legal, act, hexec⟩ := exec_accepts s hr
  rw [hexec]
  exact accept_wrongRole hparams hbooted hrole

end Sys2Proof.Machine
end

section
/-!
SUPPORT. The listener at a bus address (spec/20_memory.md rule R69, spec/42_transport.md rule R198):
who it is, what it executes, and that a node keeps its address while its identity stays.
-/

namespace Sys2Proof.Machine

/-! ### Who it is -/

theorem answersAt_iff {p : State} {a : Nat} :
    p.answersAt a = true ↔ p.alive = true ∧ p.nodeId ≠ 0 ∧ p.nodeId.toNat = a := by
  simp [State.answersAt, role_peer_iff, peerAddr, and_assoc]

/-- A node answers at one address only. -/
theorem answersAt_unique {p : State} {a b : Nat} (ha : p.answersAt a = true)
    (hb : p.answersAt b = true) : a = b :=
  (answersAt_iff.1 ha).2.2.symm.trans (answersAt_iff.1 hb).2.2

theorem Ready.of_answersAt {p : State} {a : Nat} (h : p.answersAt a = true) : Ready .peer p := by
  obtain ⟨halive, hid, -⟩ := answersAt_iff.1 h
  obtain ⟨hparams, hbooted⟩ := Bool.and_eq_true_iff.1 halive
  exact ⟨hparams, hbooted, role_peer_iff.2 hid⟩

section
variable {y : System} {a j : Nat}

theorem placesAt_eq_nil_iff : y.placesAt a = [] ↔ ∀ n ∈ y.nodes, ¬ n.node.answersAt a = true := by
  rw [List.eq_nil_iff_forall_not_mem]
  constructor
  · intro h n hn hans
    obtain ⟨j, hj⟩ := List.mem_iff_getElem?.1 hn
    exact h j (mem_placesAt.2 ⟨n, hj, hans⟩)
  · intro h j hj
    obtain ⟨n, hn, hans⟩ := mem_placesAt.1 hj
    exact h n (List.mem_of_getElem? hn) hans

/-- The one listener answers at its address. -/
theorem answersAt_of_listener {p : BusNode} (h : y.listener a = .one j) (hp : y.nodes[j]? = some p) :
    p.node.answersAt a = true := by
  have hj : j ∈ y.placesAt a := by
    rw [(listener_one.1 h).1]
    exact List.mem_singleton_self j
  obtain ⟨p', hp', hans⟩ := mem_placesAt.1 hj
  rw [hp] at hp'
  cases hp'
  exact hans

theorem exists_of_listener (h : y.listener a = .one j) : ∃ p, y.nodes[j]? = some p := by
  have hj : j ∈ y.placesAt a := by
    rw [(listener_one.1 h).1]
    exact List.mem_singleton_self j
  obtain ⟨p, hp, -⟩ := mem_placesAt.1 hj
  exact ⟨p, hp⟩

/-- A peer is not among the places of another address. -/
theorem not_mem_placesAt_of_answersAt {p : BusNode} {b : Nat} (hp : y.nodes[j]? = some p)
    (ha : p.node.answersAt a = true) (hab : a ≠ b) : j ∉ y.placesAt b := by
  intro hj
  obtain ⟨p', hp', hb⟩ := mem_placesAt.1 hj
  rw [hp] at hp'
  cases hp'
  exact hab (answersAt_unique ha hb)

/-- A coordinator is not the listener. -/
theorem ne_of_listener {i : Nat} {n : BusNode} (hn : y.nodes[i]? = some n)
    (hr : n.node.role = .coordinator) (h : y.listener a = .one j) : i ≠ j := by
  rintro rfl
  have hready := Ready.of_answersAt (answersAt_of_listener h hn)
  rw [hready.role] at hr
  cases hr

/-! ### What it executes (R198) -/

theorem nodes_setNode_self {n : BusNode} (hn : y.nodes[j]? = some n) (p : BusNode) :
    (y.setNode j p).nodes[j]? = some p :=
  List.getElem?_set_self (List.getElem?_eq_some_iff.1 hn).1

theorem nodeRuns_of_next {p : BusNode} {op : Instr} {q : State} (hp : y.nodes[j]? = some p)
    (he : exec op p.node = .next q) : y.nodeRuns j op = y.setNode j { p with node := q } := by
  simp only [System.nodeRuns, hp, he]

theorem nodes_nodeRuns_of_next {p : BusNode} {op : Instr} {q : State} (hp : y.nodes[j]? = some p)
    (he : exec op p.node = .next q) : (y.nodeRuns j op).nodes[j]? = some { p with node := q } := by
  rw [nodeRuns_of_next hp he, nodes_setNode_self hp]

theorem deliver_of_one (h : y.listener a = .one j) (frame : Bytes) :
    y.deliver a frame 0 = y.nodeRuns j (.peerReceive frame) := by
  simp only [System.deliver, h, if_true]

theorem request_of_nobody (h : y.listener a = .nobody) (raw : Bytes) :
    y.request a raw = (raw, y) := by
  simp only [System.request, h]

theorem request_of_contended {js : List Nat} (h : y.listener a = .contended js) (raw : Bytes) :
    (y.request a raw).1 = raw := by
  simp only [System.request, h]

theorem request_of_one {p : BusNode} (h : y.listener a = .one j) (hp : y.nodes[j]? = some p)
    (raw : Bytes) :
    y.request a raw = (couple p.node.response raw, y.nodeRuns j .peerRequest) := by
  simp only [System.request, h, hp]

/-- The received string is the drawn one with the response over its first bytes (R198(c)). -/
theorem couple_eq_overwrite (resp raw : Bytes) : couple resp raw = overwrite raw resp := rfl

/-- A read of at least the response's length holds the whole response (R198(c)). -/
theorem take_couple {resp raw : Bytes} (h : resp.length ≤ raw.length) :
    (couple resp raw).take resp.length = resp := by
  rw [couple, List.take_of_length_le h, List.take_left]

/-! ### A node that keeps its identity keeps its address -/

theorem listener_setNode {i : Nat} {n n' : BusNode} (hn : y.nodes[i]? = some n)
    (halive : n'.node.alive = n.node.alive) (hid : n'.node.nodeId = n.node.nodeId) (a : Nat) :
    (y.setNode i n').placesAt a = y.placesAt a ∧ (y.setNode i n').listener a = y.listener a := by
  obtain ⟨hi, hget⟩ := List.getElem?_eq_some_iff.1 hn
  have hrole : n'.node.role = n.node.role := by rw [State.role, State.role, hid]
  have hplaces : (y.setNode i n').placesAt a = y.placesAt a := by
    unfold System.placesAt
    rw [setNode_nodes, List.length_set]
    refine List.filter_congr fun j _ => ?_
    by_cases hj : i = j
    · subst hj
      rw [List.getElem?_set_self hi, hn]
      simp [State.answersAt, halive, hrole, hid]
    · rw [List.getElem?_set_ne hj]
  have hcount : (y.setNode i n').coordinators = y.coordinators := by
    unfold System.coordinators
    rw [setNode_nodes, List.countP_set hi, hget, halive, hrole]
    split
    · rename_i hp
      have hpos := List.countP_pos_iff
        (p := fun n : BusNode => n.node.alive && n.node.role == .coordinator).2
        ⟨n, List.mem_of_getElem? hn, hp⟩
      omega
    · rfl
  refine ⟨hplaces, ?_⟩
  unfold System.listener
  rw [hplaces, hcount]

end

end Sys2Proof.Machine
end

section
/-!
SUPPORT. One move of a node of a coupled system (spec/42_transport.md rule R198): the node a transaction
leaves at its own place, the places it can reach, and what the move leaves of every other node.
-/

namespace Sys2Proof.Machine

/-! ### The node that does a transaction -/

/-- The bus address of a transaction. -/
def BusTask.addr : BusTask → Nat
  | .send k => k.val
  | .read k _ => k.val
  | .ping k => k.toNat

/-- A node after the write of peer `k`'s status frame: the read is due, or the send failed (R193). -/
def afterSend (k : Fin 4) (s : State) (rest : List BusTask) : BusNode :=
  if s.pollCode k ≠ 0 then ⟨(pollSend k s).2.raise (.busSendFail k.val (s.pollCode k)), rest⟩
  else ⟨(pollSend k s).2, .read k (s.slot k).tf :: rest⟩

/-- The string a read of peer `k` draws. -/
def State.readString (s : State) (k : Fin 4) (tf : TargetFamily) : Bytes :=
  (s.emit (.busr k.val (s.cfg.outLen tf))).drawRx.1

/-- A node after it read the string `rx` from peer `k` (R194). -/
def afterRead (k : Fin 4) (tf : TargetFamily) (rx : Bytes) (s : State) : State :=
  receiveStep k tf rx (s.cfg.outLen tf) (s.emit (.busr k.val (s.cfg.outLen tf))).drawRx.2

/-- A node after a ping (R197). -/
def afterPing (k : Byte) (s : State) : State :=
  if (pingSend k s).1 ≠ 0 then (pingSend k s).2.raise (.busSendFail k.toNat (pingSend k s).1)
  else (pingSend k s).2

/-- The node at the place that does the transaction, after it. -/
def System.taskNode (y : System) (n : BusNode) (rest : List BusTask) : BusTask → BusNode
  | .send k => afterSend k n.node rest
  | .read k tf => ⟨afterRead k tf (y.request k.val (n.node.readString k tf)).1 n.node, rest⟩
  | .ping k => ⟨afterPing k n.node, rest⟩

theorem afterSend_of_good {k : Fin 4} {s : State} (h : s.pollCode k = 0) (rest : List BusTask) :
    afterSend k s rest = ⟨(pollSend k s).2, .read k (s.slot k).tf :: rest⟩ :=
  if_neg (not_not.2 h)

theorem afterSend_of_failed {k : Fin 4} {s : State} (h : s.pollCode k ≠ 0) (rest : List BusTask) :
    afterSend k s rest = ⟨(pollSend k s).2.raise (.busSendFail k.val (s.pollCode k)), rest⟩ :=
  if_pos h

theorem afterSend_only (k : Fin 4) (s : State) (rest : List BusTask) :
    OnlyOutReport k s (afterSend k s rest).node := by
  have h := pollSend_only k k s
  by_cases hcode : s.pollCode k = 0
  · rw [afterSend_of_good hcode]
    exact h
  · rw [afterSend_of_failed hcode]
    exact h.trans (OnlyOutReport.raise (.busSendFail k.val (s.pollCode k)) _)

theorem afterRead_only (k : Fin 4) (tf : TargetFamily) (rx : Bytes) (s : State) :
    OnlyOutReport k s (afterRead k tf rx s) :=
  (OnlyOutReport.emit (by simp) _).trans ((OnlyOutReport.drawRx _).trans (receiveStep_only ..))

theorem afterPing_only (k : Byte) (s : State) : OnlyOutReport 0 s (afterPing k s) := by
  have h := pingSend_only 0 k s
  unfold afterPing
  split
  · exact h.trans (.raise ..)
  · exact h

theorem taskNode_keeps (y : System) (n : BusNode) (rest : List BusTask) (t : BusTask) :
    KeepsPool n.node (y.taskNode n rest t).node := by
  cases t with
  | send k => exact .of_outReport (afterSend_only ..)
  | read k tf => exact .of_outReport (afterRead_only ..)
  | ping k => exact .of_outReport (afterPing_only ..)

/-- Its own transaction leaves who answers where. -/
theorem listener_taskNode {y : System} {i : Nat} {n : BusNode} (hn : y.nodes[i]? = some n)
    (rest : List BusTask) (t : BusTask) (a : Nat) :
    (y.setNode i (y.taskNode n rest t)).placesAt a = y.placesAt a ∧
      (y.setNode i (y.taskNode n rest t)).listener a = y.listener a :=
  have hk := taskNode_keeps y n rest t
  listener_setNode hn hk.alive hk.control.nodeId a

/-! ### The places a transaction reaches -/

theorem OnlyPlaces.setNode {P : Nat → Prop} {y z : System} (h : OnlyPlaces P y z) (i : Nat)
    (n : BusNode) : OnlyPlaces P (y.setNode i n) (z.setNode i n) where
  turns := h.turns
  count := by simp [h.count]
  others j hj := by
    rw [setNode_nodes, setNode_nodes, List.getElem?_set, List.getElem?_set, h.others j hj, h.count]
  half j m m' hm hm' := by
    rw [setNode_nodes, List.getElem?_set] at hm hm'
    rw [h.count] at hm'
    split at hm
    · rename_i hij
      rw [if_pos hij] at hm'
      split at hm
      · rename_i hi
        rw [if_pos hi] at hm'
        cases hm
        cases hm'
        exact ⟨rfl, .refl _⟩
      · cases hm
    · rename_i hij
      rw [if_neg hij] at hm'
      exact h.half j m m' hm hm'

/-- A transaction writes its own node and reaches the live peers at its address (R198). -/
theorem runTask_only {y : System} {i : Nat} {n : BusNode} (hn : y.nodes[i]? = some n) (t : BusTask)
    (rest : List BusTask) :
    OnlyPlaces (fun j => j ∈ y.placesAt t.addr) (y.setNode i (y.taskNode n rest t))
      (y.runTask i n t rest) := by
  have hplaces := (listener_taskNode hn rest t t.addr).1
  cases t with
  | send k =>
    exact (deliver_only (y.setNode i (afterSend k n.node rest)) k.val
      (statusFrame n.node.cfg (n.node.slot k)) (n.node.pollCode k)).mono
        fun j hj => hplaces ▸ hj
  | read k tf => exact (request_only y k.val (n.node.readString k tf)).setNode i _
  | ping k =>
    exact (deliver_only (y.setNode i ⟨afterPing k n.node, rest⟩) k.toNat [pingByte]
      (pingSend k n.node).1).mono fun j hj => hplaces ▸ hj

/-- What a transaction of the coordinator at place `i` leaves: its own node, every node at another
place that does not answer its address, and who answers where. -/
structure TaskDone (y z : System) (i : Nat) (n' : BusNode) (a : Nat) : Prop where
  node : z.nodes[i]? = some n'
  others : ∀ j, j ≠ i → j ∉ y.placesAt a → z.nodes[j]? = y.nodes[j]?
  places : ∀ b, z.placesAt b = y.placesAt b
  listener : ∀ b, z.listener b = y.listener b
  turns : z.turns = y.turns

theorem runTask_done {y : System} {i : Nat} {n : BusNode} (hn : y.nodes[i]? = some n)
    (hr : n.node.role = .coordinator) (t : BusTask) (rest : List BusTask) :
    TaskDone y (y.runTask i n t rest) i (y.taskNode n rest t) t.addr := by
  have honly := runTask_only hn t rest
  have hlist := listener_taskNode hn rest t
  refine ⟨?_, fun j hj hnot => ?_, fun b => (honly.placesAt b).trans (hlist b).1,
    fun b => (honly.listener b).trans (hlist b).2, honly.turns⟩
  · rw [honly.others i (not_mem_placesAt_of_coordinator hn hr _), nodes_setNode_self hn]
  · rw [honly.others j hnot, setNode_nodes, List.getElem?_set_ne (Ne.symm hj)]

/-! ### Every move -/

/-- All a move of the node at place `i` can be: its next transaction, waiting, or the acceptance of its
next input. -/
theorem nodeStep_cases {y z : System} {i : Nat} {n : BusNode} (hn : y.nodes[i]? = some n)
    (hs : y.nodeStep i = .next z) :
    (∃ t rest, n.todo = t :: rest ∧ z = y.runTask i n t rest) ∨
    (n.todo = [] ∧ n.node.inputs = [] ∧ z = y) ∨
    ∃ x rest op s, n.todo = [] ∧ n.node.inputs = x :: rest ∧
      fetch { n.node with inputs := rest } x = .instr op ∧
      exec op { n.node with inputs := rest } = .next s ∧
      z = y.setNode i (startOp op { n.node with inputs := rest } s) := by
  simp only [System.nodeStep, hn] at hs
  split at hs
  · rename_i t rest ht
    cases hs
    exact .inl ⟨t, rest, ht, rfl⟩
  · rename_i ht
    split at hs
    · rename_i hx
      cases hs
      refine .inr (.inl ⟨ht, ?_, rfl⟩)
      unfold takeInput at hx
      split at hx
      · assumption
      · cases hx
    · rename_i x c hx
      obtain ⟨rest, hin, rfl⟩ := takeInput_some hx
      split at hs
      · rename_i op hf
        unfold System.accept System.lift at hs
        split at hs
        · rename_i s he
          cases hs
          exact .inr (.inr ⟨x, rest, op, s, ht, hin, hf, he, rfl⟩)
        · cases hs
        · cases hs
      · cases hs

theorem nodeStep_of_todo {y : System} {i : Nat} {n : BusNode} {t : BusTask} {rest : List BusTask}
    (hn : y.nodes[i]? = some n) (ht : n.todo = t :: rest) :
    y.nodeStep i = .next (y.runTask i n t rest) := by
  simp only [System.nodeStep, hn, ht]

theorem nodeStep_of_none {y : System} {i : Nat} (hn : y.nodes[i]? = none) :
    y.nodeStep i = .next y := by
  simp only [System.nodeStep, hn]

/-- What moves of other places leave of a node: at most its peer half changed, and nothing of a
coordinator. -/
structure Bystander (n m : BusNode) : Prop where
  todo : m.todo = n.todo
  half : PeerHalf n.node m.node
  coordinator : n.node.role = .coordinator → m = n

theorem Bystander.refl (n : BusNode) : Bystander n n := ⟨rfl, .refl _, fun _ => rfl⟩

theorem OnlyPlaces.bystander {y z : System} {a i : Nat} {n : BusNode}
    (h : OnlyPlaces (fun j => j ∈ y.placesAt a) y z) (hn : y.nodes[i]? = some n) :
    ∃ m, z.nodes[i]? = some m ∧ Bystander n m := by
  obtain ⟨m, hm, htodo, hhalf⟩ := h.exists_node hn
  refine ⟨m, hm, htodo, hhalf, fun hr => ?_⟩
  rw [h.others i (not_mem_placesAt_of_coordinator hn hr a), hn] at hm
  exact (Option.some.inj hm).symm

theorem nodeStep_bystander {y z : System} {i j : Nat} {n : BusNode} (hn : y.nodes[i]? = some n)
    (hij : j ≠ i) (hs : y.nodeStep j = .next z) : ∃ m, z.nodes[i]? = some m ∧ Bystander n m := by
  have hset : ∀ p, (y.setNode j p).nodes[i]? = some n := fun p => by
    rw [setNode_nodes, List.getElem?_set_ne hij, hn]
  cases hp : y.nodes[j]? with
  | none =>
    rw [nodeStep_of_none hp] at hs
    cases hs
    exact ⟨n, hn, .refl n⟩
  | some p =>
    rcases nodeStep_cases hp hs with ⟨t, rest, -, rfl⟩ | ⟨-, -, rfl⟩ | ⟨x, rest, op, s, -, -, -, -, rfl⟩
    · refine ((runTask_only hp t rest).mono fun l hl => ?_).bystander (a := t.addr) (hset _)
      rwa [(listener_taskNode hp rest t t.addr).1]
    · exact ⟨n, hn, .refl n⟩
    · exact ⟨n, hset _, .refl n⟩

theorem startOp_inputs {op : Instr} {c s : State} (he : exec op c = .next s) :
    (startOp op c s).node.inputs = c.inputs := by
  unfold startOp
  split
  · rcases exec_cases he with ⟨id, -, -, rfl⟩ | ⟨-, -, heff⟩
    · rfl
    · exact heff.control.inputs
  · rfl

/-- A move of any node leaves every node's inputs or takes some of them. -/
theorem nodeStep_inputs_le {y z : System} {i j : Nat} {n : BusNode} (hn : y.nodes[i]? = some n)
    (hs : y.nodeStep j = .next z) :
    ∃ m, z.nodes[i]? = some m ∧ m.node.inputs.length ≤ n.node.inputs.length := by
  by_cases hij : j = i
  · subst hij
    rcases nodeStep_cases hn hs with ⟨t, rest, -, rfl⟩ | ⟨-, -, rfl⟩ |
      ⟨x, rest, op, s, -, hin, -, he, rfl⟩
    · obtain ⟨m, hm, -, hhalf⟩ := (runTask_only hn t rest).exists_node (nodes_setNode_self hn _)
      exact ⟨m, hm, by rw [hhalf.inputs, (taskNode_keeps y n rest t).control.inputs]⟩
    · exact ⟨n, hn, le_refl _⟩
    · exact ⟨_, nodes_setNode_self hn _, by simp [startOp_inputs he, hin]⟩
  · obtain ⟨m, hm, hby⟩ := nodeStep_bystander hn hij hs
    exact ⟨m, hm, by rw [hby.half.inputs]⟩

/-! ### Steps of the system -/

/-- All the first of several steps can be: nothing with no turn left, or a move of the node whose turn
it is. -/
theorem steps_succ_cases {y z : System} {m : Nat} (h : y.steps (m + 1) = .next z) :
    (y.turns = [] ∧ y.steps m = .next z) ∨
    ∃ a ts w, y.turns = a :: ts ∧ ({ y with turns := ts } : System).nodeStep a.val = .next w ∧
      w.steps m = .next z := by
  unfold System.steps at h
  split at h
  · rename_i w hw
    unfold System.step at hw
    split at hw
    · rename_i ht
      cases hw
      exact .inl ⟨ht, h⟩
    · rename_i a ts ht
      exact .inr ⟨a, ts, w, ht, hw, h⟩
  · rename_i hno
    exact absurd h (hno z)

theorem steps_succ_of_turn {y w : System} {a : Fin 4} {ts : List (Fin 4)} (ht : y.turns = a :: ts)
    (hs : ({ y with turns := ts } : System).nodeStep a.val = .next w) (m : Nat) :
    y.steps (m + 1) = w.steps m := by
  simp only [System.steps, System.step, ht, hs]

/-- A run never adds to a node's inputs. -/
theorem steps_inputs_le {z : System} {i m : Nat} {n' : BusNode} (hn' : z.nodes[i]? = some n')
    {y : System} {n : BusNode} (hn : y.nodes[i]? = some n) (h : y.steps m = .next z) :
    n'.node.inputs.length ≤ n.node.inputs.length := by
  induction m generalizing y n with
  | zero =>
    cases h
    rw [hn] at hn'
    cases hn'
    exact le_refl _
  | succ m ih =>
    rcases steps_succ_cases h with ⟨-, h⟩ | ⟨a, ts, w, -, hs, h⟩
    · exact ih hn h
    · obtain ⟨k, hk, hle⟩ := nodeStep_inputs_le (y := { y with turns := ts }) hn hs
      exact (ih hk h).trans hle

end Sys2Proof.Machine
end

section
/-!
SUPPORT. An operation in progress on the coupled bus against the same transactions on scripted answers
(spec/42_transport.md rules R191, R198): the codes and strings it met are a script on which the
uncoupled transactions leave the same node.
-/

namespace Sys2Proof.Machine

/-- A transaction on the node's own draws, with no bus (R191). -/
def BusTask.run : BusTask → State → State
  | .send k => pollPeer k
  | .read k tf => pollRead k tf
  | .ping k => afterPing k

/-- Transactions on the node's own draws, one after another. -/
def runTasks (ts : List BusTask) (s : State) : State := ts.foldl (fun s t => t.run s) s

theorem runTasks_cons (t : BusTask) (ts : List BusTask) (s : State) :
    runTasks (t :: ts) s = runTasks ts (t.run s) := rfl

/-- A node with the codes `es` and the strings `rs` scripted; the result port and the count of free
draws are those of `c`. -/
def State.withDraws (s c : State) (es : List Byte) (rs : List Bytes) : State :=
  { s with result := c.result, errTape := es, rxTape := rs, drawCount := c.drawCount }

section
variable (s c : State) (es : List Byte) (rs : List Bytes)

theorem drawErr_withDraws (e : Byte) :
    (s.withDraws c (e :: es) rs).drawErr = (e, s.drawErr.2.withDraws c es rs) := by
  have hdrawn : s.drawErr.2.withDraws c es rs = s.withDraws c es rs := by
    unfold State.drawErr
    split <;> rfl
  rw [hdrawn]
  rfl

theorem drawRx_withDraws (r : Bytes) :
    (s.withDraws c es (r :: rs)).drawRx = (r, s.drawRx.2.withDraws c es rs) := by
  have hdrawn : s.drawRx.2.withDraws c es rs = s.withDraws c es rs := by
    unfold State.drawRx
    split <;> rfl
  rw [hdrawn]
  rfl

theorem raise_withDraws (e : ErrorInfo) :
    (s.withDraws c es rs).raise e = (s.raise e).withDraws c es rs := by
  unfold State.raise
  split <;> rfl

theorem receiveStep_withDraws (k : Fin 4) (tf : TargetFamily) (rx : Bytes) (e : Nat) :
    receiveStep k tf rx e (s.withDraws c es rs) = (receiveStep k tf rx e s).withDraws c es rs := by
  unfold receiveStep
  dsimp only
  split <;> rfl

theorem pollSend_withDraws (k : Fin 4) (e : Byte) :
    pollSend k (s.withDraws c (e :: es) rs) = (e, (pollSend k s).2.withDraws c es rs) :=
  drawErr_withDraws (s.emit (.busw (peerAddr k.val) (statusFrame s.cfg (s.slot k)))) c es rs e

theorem pollPeer_withDraws_of_good (k : Fin 4) : pollPeer k (s.withDraws c (0 :: es) rs) =
    pollRead k (s.slot k).tf ((pollSend k s).2.withDraws c es rs) := by
  have hsend := pollSend_withDraws s c es rs k 0
  rw [pollPeer_of_good _ _ (congrArg Prod.fst hsend), hsend]
  rfl

theorem pollPeer_withDraws_of_failed (k : Fin 4) {e : Byte} (he : e ≠ 0) :
    pollPeer k (s.withDraws c (e :: es) rs) =
      ((pollSend k s).2.raise (.busSendFail k.val e)).withDraws c es rs := by
  have hsend := pollSend_withDraws s c es rs k e
  have hcode : (s.withDraws c (e :: es) rs).pollCode k = e := congrArg Prod.fst hsend
  rw [pollPeer_of_failed _ _ (hcode ▸ he), hcode, hsend]
  rfl

theorem pollRead_withDraws (k : Fin 4) (tf : TargetFamily) (rx : Bytes) :
    pollRead k tf (s.withDraws c es (rx :: rs)) = (afterRead k tf rx s).withDraws c es rs := by
  have hdraw := drawRx_withDraws (s.emit (.busr k.val (s.cfg.outLen tf))) c es rs rx
  have hread : pollRead k tf (s.withDraws c es (rx :: rs)) = receiveStep k tf
      ((s.emit (.busr k.val (s.cfg.outLen tf))).withDraws c es (rx :: rs)).drawRx.1
      (s.cfg.outLen tf)
      ((s.emit (.busr k.val (s.cfg.outLen tf))).withDraws c es (rx :: rs)).drawRx.2 := rfl
  rw [hread, hdraw, receiveStep_withDraws]
  rfl

theorem afterPing_withDraws (k : Byte) :
    afterPing k (s.withDraws c ((pingSend k s).1 :: es) rs) = (afterPing k s).withDraws c es rs := by
  have hsend : pingSend k (s.withDraws c ((pingSend k s).1 :: es) rs) =
      ((pingSend k s).1, (pingSend k s).2.withDraws c es rs) :=
    drawErr_withDraws (s.emit (.busw (peerAddr k.toNat) [pingByte])) c es rs (pingSend k s).1
  unfold afterPing
  rw [hsend]
  split
  · exact raise_withDraws ..
  · rfl

end

/-- A transaction on the coupled bus is the uncoupled one on some code or string. -/
theorem taskNode_scripted (y : System) (n : BusNode) (rest : List BusTask) (t : BusTask)
    (c : State) : ∃ es1 rs1, ∀ es rs,
      runTasks (t :: rest) (n.node.withDraws c (es1 ++ es) (rs1 ++ rs)) =
        runTasks (y.taskNode n rest t).todo ((y.taskNode n rest t).node.withDraws c es rs) := by
  cases t with
  | send k =>
    by_cases hcode : n.node.pollCode k = 0
    · refine ⟨[0], [], fun es rs => ?_⟩
      rw [System.taskNode, afterSend_of_good hcode, runTasks_cons, runTasks_cons]
      exact congrArg (runTasks rest) (pollPeer_withDraws_of_good n.node c es rs k)
    · refine ⟨[n.node.pollCode k], [], fun es rs => ?_⟩
      rw [System.taskNode, afterSend_of_failed hcode, runTasks_cons]
      exact congrArg (runTasks rest) (pollPeer_withDraws_of_failed n.node c es rs k hcode)
  | read k tf =>
    exact ⟨[], [_], fun es rs => congrArg (runTasks rest) (pollRead_withDraws n.node c es rs k tf _)⟩
  | ping k =>
    exact ⟨[_], [], fun es rs => congrArg (runTasks rest) (afterPing_withDraws n.node c es rs k)⟩

section
variable {z : System} {i : Nat} {n' : BusNode} {rest : List Input}
  (hn' : z.nodes[i]? = some n') (hin' : n'.node.inputs = rest)
include hn' hin'

/-- What a coordinator in progress comes to, whichever nodes move in between, its transactions leave
uncoupled on some codes and strings. -/
theorem runTasks_of_steps (hdone : n'.todo = []) (c : State) {m : Nat} {y : System} {n : BusNode}
    (hn : y.nodes[i]? = some n) (hr : n.node.role = .coordinator) (hin : n.node.inputs = rest)
    (h : y.steps m = .next z) :
    ∃ es rs, runTasks n.todo (n.node.withDraws c es rs) = n'.node.withDraws c [] [] := by
  induction m generalizing y n with
  | zero =>
    cases h
    rw [hn] at hn'
    cases hn'
    exact ⟨[], [], by rw [hdone]; rfl⟩
  | succ m ih =>
    rcases steps_succ_cases h with ⟨-, h⟩ | ⟨a, ts, w, -, hs, h⟩
    · exact ih hn hr hin h
    replace hn : ({ y with turns := ts } : System).nodes[i]? = some n := hn
    by_cases hai : a.val = i
    · rw [hai] at hs
      rcases nodeStep_cases hn hs with ⟨t, todo, ht, rfl⟩ | ⟨-, -, rfl⟩ |
        ⟨x, ins, op, s, -, hx, -, he, rfl⟩
      · have hkeeps := taskNode_keeps { y with turns := ts } n todo t
        obtain ⟨es, rs, hrun⟩ := ih (runTask_done hn hr t todo).node (hkeeps.role.trans hr)
          (hkeeps.control.inputs.trans hin) h
        obtain ⟨es1, rs1, hscript⟩ := taskNode_scripted { y with turns := ts } n todo t c
        exact ⟨es1 ++ es, rs1 ++ rs, by rw [ht, hscript, hrun]⟩
      · exact ih hn hr hin h
      · have hle := steps_inputs_le hn' (nodes_setNode_self hn _) h
        rw [startOp_inputs he, hin', ← hin, hx, List.length_cons] at hle
        exact absurd hle (Nat.not_succ_le_self _)
    · obtain ⟨k, hk, hby⟩ := nodeStep_bystander hn hai hs
      obtain rfl := hby.coordinator hr
      exact ih hk hr hin h

/-- A node that has just accepted COORD_POLL with the inputs `rest` left: the three sends are to do
(R193). -/
def State.pollStarted (s : State) (rest : List Input) : BusNode :=
  ⟨{ s with inputs := rest }.ret .none, polledPeers.map .send⟩

omit hn' hin' in
/-- A ready coordinator whose next input is COORD_POLL starts it (R193, R239). -/
theorem nodeStep_of_poll {y : System} {n : BusNode} (hn : y.nodes[i]? = some n)
    (hready : Ready .coordinator n.node) (ht : n.todo = [])
    (hin : n.node.inputs = ⟨.port, [0x12]⟩ :: rest) :
    y.nodeStep i = .next (y.setNode i (n.node.pollStarted rest)) := by
  have hready' : Ready .coordinator { n.node with inputs := rest } :=
    ⟨hready.params, hready.booted, hready.role⟩
  have hfetch : fetch { n.node with inputs := rest } ⟨.port, [0x12]⟩ = .instr .coordPoll := rfl
  have hexec : exec .coordPoll { n.node with inputs := rest } = _ := accept_ready hready' _
  simp only [System.nodeStep, hn, ht, takeInput, hin, hfetch, System.accept, hexec, System.lift]
  rfl

/-- A node whose next input is a COORD_POLL, and which has taken it in the end, was a ready coordinator
and had the poll's three sends to do when it had taken it. -/
theorem exists_poll_start {m : Nat} {y : System} {n : BusNode} (hn : y.nodes[i]? = some n)
    (ht : n.todo = []) (hin : n.node.inputs = ⟨.port, [0x12]⟩ :: rest) (h : y.steps m = .next z) :
    Ready .coordinator { n.node with inputs := rest } ∧ ∃ (m' : Nat) (w : System),
      w.nodes[i]? = some (n.node.pollStarted rest) ∧ w.steps m' = .next z := by
  induction m generalizing y n with
  | zero =>
    cases h
    rw [hn] at hn'
    cases hn'
    exact absurd (hin'.symm.trans hin) List.ne_cons_self
  | succ m ih =>
    rcases steps_succ_cases h with ⟨-, h⟩ | ⟨a, ts, w, -, hs, h⟩
    · exact ih hn ht hin h
    replace hn : ({ y with turns := ts } : System).nodes[i]? = some n := hn
    by_cases hai : a.val = i
    · rw [hai] at hs
      rcases nodeStep_cases hn hs with ⟨t, todo, htodo, -⟩ | ⟨-, hnone, -⟩ |
        ⟨x, ins, op, s, -, hx, hf, he, rfl⟩
      · rw [ht] at htodo
        cases htodo
      · rw [hin] at hnone
        cases hnone
      · obtain ⟨rfl, rfl⟩ := List.cons.inj (hin.symm.trans hx)
        cases hf
        exact ⟨ready_of_next rfl he, m, _, nodes_setNode_self hn _, h⟩
    · obtain ⟨k, hk, hby⟩ := nodeStep_bystander hn hai hs
      have hstart := ih hk (hby.todo.trans ht) (hby.half.inputs.trans hin) h
      have hr : n.node.role = .coordinator := hby.half.role.symm.trans hstart.1.role
      obtain rfl := hby.coordinator hr
      exact hstart

end

/-- COORD_POLL is the sends to its three peers, uncoupled (R193). -/
theorem coordPollOp_eq_runTasks (s : State) :
    coordPollOp s = (runTasks (polledPeers.map .send) s).ret .none := rfl

end Sys2Proof.Machine
end

section
/-!
SUPPORT. A coordinator's transactions with the one live peer at their address (spec/42_transport.md
rules R198, R216, R218), and the transactions of a poll with no other node moving in between.
-/

namespace Sys2Proof.Machine

/-! ### A transaction with the one live peer -/

section
variable {y : System} {i j : Nat} {n p : BusNode} {k : Fin 4}
  (hn : y.nodes[i]? = some n) (hr : n.node.role = .coordinator) (hp : y.nodes[j]? = some p)
  (hl : y.listener k.val = .one j)
include hn hr hp hl

/-- A good send is received whole (R198(a)). -/
theorem peer_after_send (hcode : n.node.pollCode k = 0) (rest : List BusTask) :
    (y.runTask i n (.send k) rest).nodes[j]? =
      some { p with node := peerReceiveOp (statusFrame n.node.cfg (n.node.slot k)) p.node } := by
  have hready := Ready.of_answersAt (answersAt_of_listener hl hp)
  have hset : (y.setNode i (afterSend k n.node rest)).nodes[j]? = some p := by
    rw [setNode_nodes, List.getElem?_set_ne (ne_of_listener hn hr hl), hp]
  have hlist : (y.setNode i (afterSend k n.node rest)).listener k.val = .one j :=
    (listener_taskNode hn rest (.send k) k.val).2.trans hl
  have hrun : y.runTask i n (.send k) rest = (y.setNode i (afterSend k n.node rest)).deliver k.val
      (statusFrame n.node.cfg (n.node.slot k)) 0 := by
    rw [← hcode]
    rfl
  rw [hrun, deliver_of_one hlist, nodes_nodeRuns_of_next hset
    ((exec_peerReceive ..).trans (accept_ready hready _))]

/-- A read takes the response of that moment (R198(c)) and leaves the peer as it was, but for its result
port (R212). -/
theorem peer_after_read (tf : TargetFamily) (rest : List BusTask) :
    (y.request k.val (n.node.readString k tf)).1 =
      couple p.node.response (n.node.readString k tf) ∧
    (y.runTask i n (.read k tf) rest).nodes[j]? =
      some { p with node := p.node.ret (.bytes p.node.response) } := by
  have hready := Ready.of_answersAt (answersAt_of_listener hl hp)
  have hreq := request_of_one hl hp (n.node.readString k tf)
  have hexec : exec .peerRequest p.node = .next (p.node.ret (.bytes p.node.response)) :=
    (exec_peerRequest _).trans (accept_ready hready _)
  constructor
  · rw [hreq]
  · have hrun : (y.runTask i n (.read k tf) rest).nodes[j]? =
        (y.request k.val (n.node.readString k tf)).2.nodes[j]? :=
      List.getElem?_set_ne (ne_of_listener hn hr hl)
    rw [hrun, hreq, nodes_nodeRuns_of_next hp hexec]

end

/-! ### What the transactions carry -/

/-- A peer takes over the family and the in-report of the slot whose status frame it receives (R93,
R210, R215). -/
theorem peerReceiveOp_statusFrame {c : Config} {sl : CtrlSlot} {s : State}
    (hbuf : (sl.inBuf sl.tf).length = c.inLen sl.tf) (hlen : s.cfg.inLen sl.tf = c.inLen sl.tf) :
    (peerReceiveOp (statusFrame c sl) s).peer =
        { s.peer with tf := sl.tf }.setIn sl.tf (sl.inBuf sl.tf) ∧
      Answers .none (if s.peer.tf ≠ sl.tf then [.familyChanged sl.tf] else []) s
        (peerReceiveOp (statusFrame c sl) s) := by
  rw [statusFrame, peerReceiveOp_status, List.take_of_length_le hbuf.le]
  exact acceptStatus_of_length (hbuf.trans hlen.symm)

/-- The status frame of a disconnected slot is the one byte 0xF0 (R93). -/
theorem statusFrame_of_disconnected {c : Config} {sl : CtrlSlot} (h : sl.tf = .disconnected) :
    statusFrame c sl = [0xF0] := by
  rw [statusFrame, h]
  rfl

theorem overwrite_of_length_eq {old new : Bytes} (h : old.length = new.length) :
    overwrite old new = new := by
  rw [overwrite, h, List.take_length, List.drop_eq_nil_of_le h.le, List.append_nil]

/-- The slot whose family a read names gets what was received (R194). -/
theorem afterRead_slot (k : Fin 4) (rx : Bytes) (s : State) :
    (afterRead k (s.slot k).tf rx s).slot k = (s.slot k).received s.cfg rx := by
  have hslot : (s.emit (.busr k.val (s.cfg.outLen (s.slot k).tf))).drawRx.2.slot k = s.slot k :=
    slot_congr (by simp) k
  rw [afterRead, receiveStep_slot, hslot]
  rfl

/-- A read of at least a whole response of the expected size leaves the response in the slot (R194,
R216). -/
theorem received_couple {c : Config} {sl : CtrlSlot} (hwf : sl.wf c = true)
    (htf : sl.tf ≠ .disconnected) {resp raw : Bytes} (hresp : resp.length = c.outLen sl.tf)
    (hraw : c.outLen sl.tf ≤ raw.length) :
    sl.received c (couple resp raw) = sl.setOut sl.tf resp := by
  rw [CtrlSlot.received, ← hresp, take_couple (hresp ▸ hraw),
    overwrite_of_length_eq ((outBuf_length hwf htf).trans hresp.symm)]

/-- Between two STANDARD halves with the same parameters a read leaves the peer's out-report in the
slot (R216). -/
theorem outStd_received_response {s q : State} {k : Fin 4} (hs : Memory.wf s = true)
    (hq : Memory.wf q = true) (hcfg : q.cfg = s.cfg) (htf : (s.slot k).tf = .standard)
    (hqtf : q.peer.tf = .standard) {raw : Bytes} (hraw : s.cfg.outLenStd ≤ raw.length) :
    ((s.slot k).received s.cfg (couple q.response raw)).outStd = q.peer.outStd := by
  have hslot := (memory_wf_iff.1 hs).1 k
  have hpeer := (memory_wf_iff.1 hq).2
  have hresp : q.response = q.peer.outStd := by
    rw [State.response, responseFrame_of_connected hpeer (by simp [hqtf]), hqtf]
    rfl
  have hlen : q.peer.outStd.length = s.cfg.outLenStd := hcfg ▸ (slot_wf_iff.1 hpeer).2.2.1
  rw [received_couple hslot (by simp [htf]) (by rw [hresp, hlen, htf]; rfl) (by rw [htf]; exact hraw),
    hresp, htf]
  rfl

/-! ### The transactions of one node, one after another -/

/-- The system with other turns. -/
def System.withTurns (y : System) (ts : List (Fin 4)) : System := { y with turns := ts }

/-- From `y` to `z` the coordinator at place `a` polled the peers `ks` and no other node moved: what its
own node and every other node are, and who answers where. -/
structure SoloRun (a : Fin 4) (ks : List (Fin 4)) (y z : System) (n n' : BusNode) : Prop where
  moves : ∃ m r, m ≤ 2 * ks.length ∧ y.turns = List.replicate (m + r) a ∧
    z.turns = List.replicate r a ∧ ∀ l, y.steps (m + l) = z.steps l
  node : z.nodes[a.val]? = some n'
  others : ∀ j, j ≠ a.val → (∀ k ∈ ks, j ∉ y.placesAt k.val) → z.nodes[j]? = y.nodes[j]?
  places : ∀ b, z.placesAt b = y.placesAt b
  listener : ∀ b, z.listener b = y.listener b
  keeps : KeepsPool n.node n'.node
  slots : ∀ j, j ∉ ks → n'.node.slot j = n.node.slot j
  errTape : n'.node.errTape = n.node.errTape.drop ks.length
  events : ∃ evs, n'.node.events = n.node.events ++ evs
  idle : ks = [] → n' = n

section
variable {a : Fin 4} {y z w : System} {n n' n'' : BusNode} {k : Fin 4} {ks ls : List (Fin 4)}

theorem SoloRun.trans (h : SoloRun a ks y z n n') (g : SoloRun a ls z w n' n'') :
    SoloRun a (ks ++ ls) y w n n'' where
  moves := by
    obtain ⟨m1, r1, hm1, hy, hz, hs1⟩ := h.moves
    obtain ⟨m2, r2, hm2, hz', hw, hs2⟩ := g.moves
    obtain rfl : r1 = m2 + r2 := by simpa using congrArg List.length (hz.symm.trans hz')
    refine ⟨m1 + m2, r2, ?_, by rw [hy, Nat.add_assoc], hw, fun l => ?_⟩
    · rw [List.length_append]
      omega
    · rw [Nat.add_assoc, hs1, hs2]
  node := g.node
  others j hj hnot := by
    rw [g.others j hj fun k hk => ?_, h.others j hj fun k hk => hnot k (List.mem_append_left _ hk)]
    rw [h.places]
    exact hnot k (List.mem_append_right _ hk)
  places b := (g.places b).trans (h.places b)
  listener b := (g.listener b).trans (h.listener b)
  keeps := h.keeps.trans g.keeps
  slots j hj := by
    rw [List.mem_append, not_or] at hj
    exact (g.slots j hj.2).trans (h.slots j hj.1)
  errTape := by rw [g.errTape, h.errTape, List.drop_drop, List.length_append]
  events := by
    obtain ⟨e1, h1⟩ := h.events
    obtain ⟨e2, h2⟩ := g.events
    exact ⟨e1 ++ e2, by rw [h2, h1, List.append_assoc]⟩
  idle hnil := by
    obtain ⟨rfl, rfl⟩ := List.append_eq_nil_iff.1 hnil
    exact (g.idle rfl).trans (h.idle rfl)

theorem SoloRun.nil (hn : y.nodes[a.val]? = some n) {r : Nat}
    (hturns : y.turns = List.replicate r a) : SoloRun a [] y y n n where
  moves := ⟨0, r, le_refl 0, by rw [Nat.zero_add, hturns], hturns, fun l => by rw [Nat.zero_add]⟩
  node := hn
  others _ _ _ := rfl
  places _ := rfl
  listener _ := rfl
  keeps := ⟨⟨rfl, rfl, rfl, rfl⟩, rfl⟩
  slots _ _ := rfl
  errTape := rfl
  events := ⟨[], (List.append_nil _).symm⟩
  idle _ := rfl

section
variable {rest : List BusTask} (hn : y.nodes[a.val]? = some n) (hr : n.node.role = .coordinator)
include hn

/-- A turn of a node with a transaction to do is that transaction. -/
theorem steps_of_turn {t : BusTask} (ht : n.todo = t :: rest) {r : Nat}
    (hturns : y.turns = List.replicate (r + 1) a) (l : Nat) :
    y.steps (1 + l) = ((y.withTurns (List.replicate r a)).runTask a.val n t rest).steps l := by
  have hstep : (y.withTurns (List.replicate r a)).nodeStep a.val = _ := nodeStep_of_todo hn ht
  rw [Nat.add_comm]
  exact steps_succ_of_turn (hturns.trans (List.replicate_succ ..)) hstep l

include hr

/-- A failed send is the whole poll of its peer (R193). -/
theorem soloRun_of_failed (ht : n.todo = .send k :: rest) {r : Nat}
    (hturns : y.turns = List.replicate (r + 1) a) (hcode : n.node.pollCode k ≠ 0) :
    SoloRun a [k] y ((y.withTurns (List.replicate r a)).runTask a.val n (.send k) rest) n
      (afterSend k n.node rest) := by
  have hdone := runTask_done (y := y.withTurns (List.replicate r a)) hn hr (.send k) rest
  have honly := afterSend_only k n.node rest
  obtain ⟨evs, hevs, -⟩ := honly.events
  exact
    { moves := ⟨1, r, by simp, by rw [hturns, Nat.add_comm], hdone.turns,
        steps_of_turn hn ht hturns⟩
      node := hdone.node
      others := fun j hj hnot => hdone.others j hj (hnot k (List.mem_singleton_self k))
      places := hdone.places
      listener := hdone.listener
      keeps := .of_outReport honly
      slots := fun j hj => honly.others j (by simpa using hj)
      errTape := by simp [afterSend_of_failed hcode, pollSend, drawErr_script]
      events := ⟨evs, hevs⟩
      idle := fun h => absurd h (List.cons_ne_nil _ _) }

/-- A good send and its read are the whole poll of their peer (R193): what the coordinator reads and what
they leave of the one live peer, if one listens there. -/
theorem soloRun_of_good (ht : n.todo = .send k :: rest) {r : Nat}
    (hturns : y.turns = List.replicate (r + 2) a) (hcode : n.node.pollCode k = 0) :
    ∃ z rx, SoloRun a [k] y z n
        ⟨afterRead k (n.node.slot k).tf rx (pollSend k n.node).2, rest⟩ ∧
      ∀ j p, y.listener k.val = .one j → y.nodes[j]? = some p →
        let q := peerReceiveOp (statusFrame n.node.cfg (n.node.slot k)) p.node
        rx = couple q.response (n.node.pollString k) ∧
          z.nodes[j]? = some { p with node := q.ret (.bytes q.response) } := by
  have hsent := runTask_done (y := y.withTurns (List.replicate (r + 1) a)) hn hr (.send k) rest
  have hnode := hsent.node
  rw [System.taskNode, afterSend_of_good hcode] at hnode
  set y1 := (y.withTurns (List.replicate (r + 1) a)).runTask a.val n (.send k) rest
  set n1 : BusNode := ⟨(pollSend k n.node).2, .read k (n.node.slot k).tf :: rest⟩
  have honly := pollSend_only k k n.node
  have hr1 : n1.node.role = .coordinator := (KeepsPool.of_outReport honly).role.trans hr
  have hread := runTask_done (y := y1.withTurns (List.replicate r a)) hnode hr1
    (.read k (n.node.slot k).tf) rest
  set rx := ((y1.withTurns (List.replicate r a)).request k.val
    (n1.node.readString k (n.node.slot k).tf)).1
  have hboth := honly.trans (afterRead_only k (n.node.slot k).tf rx _)
  obtain ⟨evs, hevs, -⟩ := hboth.events
  refine ⟨_, rx,
    { moves := ⟨2, r, by simp, by rw [hturns, Nat.add_comm], hread.turns, fun l => ?_⟩
      node := hread.node
      others := fun j hj hnot => ?_
      places := fun b => (hread.places b).trans (hsent.places b)
      listener := fun b => (hread.listener b).trans (hsent.listener b)
      keeps := .of_outReport hboth
      slots := fun j hj => hboth.others j (by simpa using hj)
      errTape := by simp [afterRead, pollSend, drawErr_script]
      events := ⟨evs, hevs⟩
      idle := fun h => absurd h (List.cons_ne_nil _ _) }, fun j p hl hp => ?_⟩
  · rw [show 2 + l = 1 + (1 + l) by omega, steps_of_turn hn ht hturns]
    exact steps_of_turn hnode rfl hsent.turns l
  · have hk := hnot k (List.mem_singleton_self k)
    exact (hread.others j hj fun h => hk (hsent.places k.val ▸ h)).trans (hsent.others j hj hk)
  · have hq := peer_after_send (y := y.withTurns (List.replicate (r + 1) a)) hn hr hp hl hcode rest
    have hstring : n1.node.readString k (n.node.slot k).tf = n.node.pollString k := by
      rw [State.readString, pollSend_cfg]
      rfl
    rw [← hstring]
    exact peer_after_read (y := y1.withTurns (List.replicate r a)) hnode hr1 hq
      ((hsent.listener k.val).trans hl) (n.node.slot k).tf rest

theorem exists_soloRun_send (ht : n.todo = .send k :: rest) {r : Nat}
    (hturns : y.turns = List.replicate r a) (h2 : 2 ≤ r) :
    ∃ z n', SoloRun a [k] y z n n' ∧ n'.todo = rest := by
  obtain ⟨r, rfl⟩ := Nat.exists_eq_add_of_le' h2
  by_cases hcode : n.node.pollCode k = 0
  · obtain ⟨z, rx, hrun, -⟩ := soloRun_of_good hn hr ht hturns hcode
    exact ⟨z, _, hrun, rfl⟩
  · exact ⟨_, _, soloRun_of_failed hn hr ht hturns hcode, by rw [afterSend_of_failed hcode]⟩

end

/-- The sends to a list of peers, and the reads that follow the good ones, take at most two turns
each. -/
theorem exists_soloRun {rest : List BusTask} (ks : List (Fin 4)) {y : System} {n : BusNode}
    (hn : y.nodes[a.val]? = some n) (hr : n.node.role = .coordinator)
    (ht : n.todo = ks.map .send ++ rest) {r : Nat} (hturns : y.turns = List.replicate r a)
    (hlen : 2 * ks.length ≤ r) : ∃ z n', SoloRun a ks y z n n' ∧ n'.todo = rest := by
  induction ks generalizing y n r with
  | nil => exact ⟨y, n, .nil hn hturns, ht⟩
  | cons k ks ih =>
    rw [List.length_cons] at hlen
    obtain ⟨z1, n1, h1, ht1⟩ := exists_soloRun_send hn hr ht hturns (by omega)
    obtain ⟨m, r1, hm, hy, hz1, -⟩ := h1.moves
    obtain rfl : r = m + r1 := by simpa using congrArg List.length (hturns.symm.trans hy)
    rw [List.length_singleton] at hm
    obtain ⟨z, n', h, ht'⟩ := ih h1.node (h1.keeps.role.trans hr) ht1 hz1 (by omega)
    exact ⟨z, n', h1.trans h, ht'⟩

end

end Sys2Proof.Machine
end

section
/-!
SUPPORT. A whole poll with no other node moving, whose send to one live peer is good
(spec/42_transport.md rules R193, R198).
-/

namespace Sys2Proof.Machine

/-- What a poll from the coordinator `n` to `n'` did with the live peer `p` at peer `k`, whose send was
good: the status frame written and received whole, and the response to the read, in which the string
`raw` was drawn, in the slot. -/
structure PolledGood (k : Fin 4) (raw : Bytes) (n n' p p' : BusNode) : Prop where
  todo : n'.todo = []
  written : .busw k.val (statusFrame n.node.cfg (n.node.slot k)) ∈
    n'.node.events.drop n.node.events.length
  peer : p'.node.peer = (peerReceiveOp (statusFrame n.node.cfg (n.node.slot k)) p.node).peer
  events : p'.node.events = (peerReceiveOp (statusFrame n.node.cfg (n.node.slot k)) p.node).events
  slot : n'.node.slot k = (n.node.slot k).received n.node.cfg
    (couple (peerReceiveOp (statusFrame n.node.cfg (n.node.slot k)) p.node).response raw)

/-- The write of a good send is the first event of its peer's poll. -/
theorem events_of_good (k : Fin 4) (tf : TargetFamily) (rx : Bytes) (s : State) :
    ∃ evs, (afterRead k tf rx (pollSend k s).2).events =
      s.events ++ .busw k.val (statusFrame s.cfg (s.slot k)) :: evs := by
  obtain ⟨evs, hevs, -⟩ := (afterRead_only k tf rx (pollSend k s).2).events
  exact ⟨evs, by rw [hevs, pollSend_events, List.append_assoc, List.singleton_append]⟩

/-- The sends of a list in which `k` stands once, at the place of a good code, and their reads; if `k`
is the first, its read draws the first string of the script. -/
theorem exists_soloRun_polledGood {a k : Fin 4} {y : System} {n p : BusNode} {j r : Nat}
    {pre post : List (Fin 4)} (hn : y.nodes[a.val]? = some n) (hr : n.node.role = .coordinator)
    (ht : n.todo = (pre ++ k :: post).map .send) (hpre : k ∉ pre) (hpost : k ∉ post)
    (hturns : y.turns = List.replicate r a) (hlen : 2 * (pre ++ k :: post).length ≤ r)
    (hcode : n.node.errTape[pre.length]? = some 0)
    (hp : y.nodes[j]? = some p) (hl : y.listener k.val = .one j) :
    ∃ z n' p' raw, SoloRun a (pre ++ k :: post) y z n n' ∧ z.nodes[j]? = some p' ∧
      PolledGood k raw n n' p p' ∧ (pre = [] → ∀ s, n.node.rxTape[0]? = some s → raw = s) := by
  have hj : j ≠ a.val := (ne_of_listener hn hr hl).symm
  have hnot : ∀ ks : List (Fin 4), k ∉ ks → ∀ b ∈ ks, j ∉ y.placesAt b.val := fun ks hks b hb =>
    not_mem_placesAt_of_answersAt hp (answersAt_of_listener hl hp) fun h => hks (Fin.ext h ▸ hb)
  rw [List.length_append, List.length_cons] at hlen
  rw [List.map_append, List.map_cons] at ht
  -- the peers before `k`
  obtain ⟨z1, n1, h1, ht1⟩ := exists_soloRun pre hn hr ht hturns (by omega)
  obtain ⟨m1, r1, hm1, hy, hz1, -⟩ := h1.moves
  have hr1 : r = m1 + r1 := by simpa using congrArg List.length (hturns.symm.trans hy)
  obtain ⟨r1, rfl⟩ : ∃ l, r1 = l + 2 := ⟨r1 - 2, by omega⟩
  have hp1 : z1.nodes[j]? = some p := (h1.others j hj (hnot pre hpre)).trans hp
  have hslot : n1.node.slot k = n.node.slot k := h1.slots k hpre
  have hcfg : n1.node.cfg = n.node.cfg := h1.keeps.control.cfg
  have hcode1 : n1.node.pollCode k = 0 :=
    pollCode_script _ _ (by rwa [h1.errTape, List.getElem?_drop])
  -- peer `k`
  obtain ⟨z2, rx, h2, hpeer⟩ :=
    soloRun_of_good h1.node (h1.keeps.role.trans hr) ht1 hz1 hcode1
  obtain ⟨hrx, hp2⟩ := hpeer j p ((h1.listener _).trans hl) hp1
  rw [hslot, hcfg] at hrx hp2
  -- the peers after it
  obtain ⟨m2, r2, hm2, hz1', hz2, -⟩ := h2.moves
  have hr2 : r1 + 2 = m2 + r2 := by simpa using congrArg List.length (hz1.symm.trans hz1')
  rw [List.length_singleton] at hm2
  obtain ⟨z3, n3, h3, ht3⟩ := exists_soloRun (rest := []) post h2.node
    ((h1.trans h2).keeps.role.trans hr) (List.append_nil _).symm hz2 (by omega)
  have hp3 := (h3.others j hj fun b hb => (h1.trans h2).places b.val ▸ hnot post hpost b hb).trans hp2
  refine ⟨z3, n3, _, n1.node.pollString k, ?_, hp3, ⟨ht3, ?_, rfl, rfl, ?_⟩, ?_⟩
  · have h := (h1.trans h2).trans h3
    rwa [List.append_assoc, List.singleton_append] at h
  · obtain ⟨e1, he1⟩ := h1.events
    obtain ⟨e2, he2⟩ := events_of_good k (n1.node.slot k).tf rx n1.node
    obtain ⟨e3, he3⟩ := h3.events
    rw [he3, he2, he1, hslot, hcfg, List.append_assoc, List.append_assoc, List.drop_left]
    simp
  · rw [h3.slots k hpost, ← pollSend_slot k n1.node k, afterRead_slot, pollSend_slot, pollSend_cfg,
      hslot, hcfg, hrx]
  · rintro rfl s hs
    obtain rfl := h1.idle rfl
    exact pollString_script _ _ hs

/-- Seven turns are enough for a whole poll (R193). -/
theorem exists_polledGood {a k : Fin 4} {y : System} {n p : BusNode} {j : Nat} {ins : List Input}
    {pre post : List (Fin 4)} (hn : y.nodes[a.val]? = some n) (hready : Ready .coordinator n.node)
    (ht : n.todo = []) (hin : n.node.inputs = ⟨.port, [0x12]⟩ :: ins)
    (hturns : y.turns = List.replicate 7 a) (hsplit : polledPeers = pre ++ k :: post)
    (hpre : k ∉ pre) (hpost : k ∉ post) (hcode : n.node.errTape[pre.length]? = some 0)
    (hp : y.nodes[j]? = some p) (hl : y.listener k.val = .one j) :
    ∃ m z n' p' raw, m ≤ 7 ∧ y.steps m = .next z ∧ z.nodes[a.val]? = some n' ∧
      n'.node.inputs = ins ∧ z.nodes[j]? = some p' ∧ PolledGood k raw n n' p p' ∧
      (pre = [] → ∀ s, n.node.rxTape[0]? = some s → raw = s) := by
  have hstep : (y.withTurns (List.replicate 6 a)).nodeStep a.val = _ :=
    nodeStep_of_poll hn hready ht hin
  have hlist := listener_setNode (y := y.withTurns (List.replicate 6 a))
    (n' := n.node.pollStarted ins) hn rfl rfl
  have hj : a.val ≠ j := ne_of_listener hn hready.role hl
  obtain ⟨z, n', p', raw, hrun, hp', hpolled, hraw⟩ := exists_soloRun_polledGood
    (nodes_setNode_self (y := y.withTurns (List.replicate 6 a)) hn (n.node.pollStarted ins))
    hready.role (congrArg (List.map BusTask.send) hsplit) hpre hpost rfl (hsplit ▸ le_refl 6) hcode
    ((List.getElem?_set_ne hj).trans hp) ((hlist k.val).2.trans hl)
  obtain ⟨m, -, hm, -, -, hsteps⟩ := hrun.moves
  rw [← hsplit] at hm
  exact ⟨m + 1, z, n', p', raw, Nat.succ_le_succ hm,
    (steps_succ_of_turn hturns hstep m).trans (hsteps 0), hrun.node, hrun.keeps.control.inputs, hp',
    ⟨hpolled.todo, hpolled.written, hpolled.peer, hpolled.events, hpolled.slot⟩, hraw⟩

/-- Peer `k` has its turn in the poll, at the place of its code (R193). -/
theorem polledPeers_split {k : Fin 4} (hk : k ≠ 0) {e1 e2 e3 : Byte} (es : List Byte)
    (h : (![0, e1, e2, e3] : Fin 4 → Byte) k = 0) :
    ∃ pre post, polledPeers = pre ++ k :: post ∧ k ∉ pre ∧ k ∉ post ∧
      (e1 :: e2 :: e3 :: es)[pre.length]? = some 0 := by
  match k with
  | 0 => exact absurd rfl hk
  | 1 => exact ⟨[], [2, 3], rfl, by decide, by decide, congrArg some h⟩
  | 2 => exact ⟨[1], [3], rfl, by decide, by decide, congrArg some h⟩
  | 3 => exact ⟨[1, 2], [], rfl, by decide, by decide, congrArg some h⟩

end Sys2Proof.Machine
end

section
/-!
The obligations about the coupled bus (spec/42_transport.md), settled by the lemmas above.
-/

namespace Sys2Proof.Machine

/-- Settles O53: the codes and strings the poll met, scripted for the uncoupled one. -/
theorem coupledPollRefinesFreePoll : Obligations.CoupledPollRefinesFreePoll := by
  unfold Obligations.CoupledPollRefinesFreePoll
  intro y z m i n n' rest hn ht hin h hn' hdone hin'
  obtain ⟨hready, m', w, hw, hrun⟩ := exists_poll_start hn' hin' hn ht hin h
  obtain ⟨es, rs, heq⟩ := runTasks_of_steps hn' hin' hdone { n.node with inputs := rest } hw
    hready.role rfl hrun
  have hready' : Ready .coordinator
      { n.node with inputs := rest, errTape := es, rxTape := rs } :=
    ⟨hready.params, hready.booted, hready.role⟩
  refine ⟨es, rs, (n'.node.withDraws { n.node with inputs := rest } [] []).ret .none, ?_, rfl, rfl,
    rfl, rfl, rfl, rfl⟩
  rw [exec_coordPoll, accept_ready hready', coordPollOp_eq_runTasks, ← heq]
  rfl

/-- Settles O54: a coupled string overwrites the drawn one, and the listener is the one place at its
address. -/
theorem coupledReadAgreesWithResponse : Obligations.CoupledReadAgreesWithResponse := by
  unfold Obligations.CoupledReadAgreesWithResponse
  refine ⟨fun resp raw => ⟨?_, fun i hi => ⟨fun h => ?_, fun h => ?_⟩⟩, fun y a raw =>
    ⟨?_, fun h => request_of_nobody h raw, fun js h => request_of_contended h raw, fun j h => ?_⟩⟩
  · rw [couple_eq_overwrite, overwrite_length]
  · rw [couple_eq_overwrite, overwrite_getElem? _ _ _ hi, if_pos h]
  · rw [couple_eq_overwrite, overwrite_getElem? _ _ _ hi, if_neg (Nat.not_lt.2 h)]
  · rw [listener_nobody, placesAt_eq_nil_iff]
    exact forall₂_congr fun n _ => not_congr answersAt_iff
  · obtain ⟨p, hp⟩ := exists_of_listener h
    obtain ⟨halive, hid, haddr⟩ := answersAt_iff.1 (answersAt_of_listener h hp)
    refine ⟨p, hp, halive, hid, haddr, fun j' n' hn' halive' hid' haddr' => ?_, ?_⟩
    · have hmem : j' ∈ y.placesAt a :=
        mem_placesAt.2 ⟨n', hn', answersAt_iff.2 ⟨halive', hid', haddr'⟩⟩
      rw [(listener_one.1 h).1] at hmem
      exact List.mem_singleton.1 hmem
    · rw [request_of_one h hp]

/-- Settles O51: the transactions of the two nodes one by one, and the poll that does both. -/
theorem coupledPollExchangesReports : Obligations.CoupledPollExchangesReports := by
  unfold Obligations.CoupledPollExchangesReports
  intro y i j n p hn hready hwf hp hl hpwf hcfg htf
  replace hl : y.listener (1 : Fin 4).val = .one j := hl
  set q := peerReceiveOp (statusFrame n.node.cfg (n.node.slot 1)) p.node with hq
  have hqhalf : PeerHalf p.node q := PeerHalf.peerReceiveOp _ _
  have hqwf : Memory.wf q = true := memory_wf_peerReceiveOp hpwf _
  have hqpeer : q.peer = { p.node.peer with tf := .standard, inStd := (n.node.slot 1).inStd } := by
    have h := (peerReceiveOp_statusFrame (sl := n.node.slot 1) (s := p.node)
      (inBuf_length ((memory_wf_iff.1 hwf).1 1) _) (hcfg ▸ rfl)).1
    rwa [htf] at h
  refine ⟨fun rest es ht herr => ?_, fun rest r rs ht hptf hrx hlen => ?_,
    fun ins es r rs ht hin herr hrx hlen hi hturns => ?_⟩
  · have hcode : n.node.pollCode 1 = 0 := pollCode_script _ _ (by rw [herr]; rfl)
    have hdone := runTask_done hn hready.role (.send 1) rest
    refine ⟨_, _, _, nodeStep_of_todo hn ht, hdone.node, ?_,
      peer_after_send hn hready.role hp hl hcode rest, (hdone.listener 1).trans hl, ?_, ?_, ?_⟩
    · rw [System.taskNode, afterSend_of_good hcode, htf]
    all_goals rw [← hq, hqpeer]
  · have hread := peer_after_read hn hready.role hp hl .standard rest
    have hstring : n.node.readString 1 .standard = r :=
      (drawRx_script _).1 r (by rw [emit_rxTape, hrx]; rfl)
    refine ⟨_, _, nodeStep_of_todo hn ht, (runTask_done hn hready.role (.read 1 .standard) rest).node,
      rfl, ?_⟩
    have hslot := afterRead_slot 1 (couple p.node.response r) n.node
    rw [htf] at hslot
    rw [System.taskNode, hread.1, hstring, hslot]
    exact outStd_received_response hwf hpwf hcfg htf hptf hlen
  · obtain ⟨a, rfl⟩ : ∃ a : Fin 4, a.val = i := ⟨⟨i, hi⟩, rfl⟩
    rw [Fin.ofNat_val_eq_self] at hturns
    obtain ⟨m, z, n', p', raw, hm, hsteps, hn', hins, hp', hpolled, hraw⟩ :=
      exists_polledGood (k := 1) (pre := []) hn hready ht hin hturns rfl (by decide) (by decide)
        (by rw [herr]; rfl) hp hl
    obtain rfl := hraw rfl r (by rw [hrx]; rfl)
    refine ⟨m, z, n', p', hm, hsteps, hn', hpolled.todo, hins, hp', ?_, ?_, ?_⟩
    · rw [hpolled.peer, ← hq, hqpeer]
    · rw [hpolled.peer, ← hq, hqpeer]
    · rw [hpolled.slot, ← hq, outStd_received_response hwf hqwf (hqhalf.cfg.trans hcfg) htf
        (by rw [hqpeer]) hlen, hqpeer]

/-- Settles O52: the status frame of a DISCONNECTED slot is the byte 0xF0, and a good send delivers
it. -/
theorem disconnectReachesThePeer : Obligations.DisconnectReachesThePeer := by
  unfold Obligations.DisconnectReachesThePeer
  intro y i j k n p hn hready hk hp hl htf
  have hframe : statusFrame n.node.cfg (n.node.slot k) = [0xF0] := statusFrame_of_disconnected htf
  set q := peerReceiveOp (statusFrame n.node.cfg (n.node.slot k)) p.node with hq
  have hreached : q.peer.tf = .disconnected ∧ q.events = p.node.events ++
      (if p.node.peer.tf ≠ .disconnected then [.familyChanged .disconnected] else []) := by
    obtain ⟨hpeer, hans⟩ := peerReceiveOp_statusFrame (c := n.node.cfg) (sl := n.node.slot k)
      (s := p.node) (by rw [htf]; rfl) (by rw [htf]; rfl)
    rw [htf] at hpeer hans
    exact ⟨congrArg CtrlSlot.tf hpeer, hans.events⟩
  refine ⟨fun rest es ht herr => ?_, fun ins e1 e2 e3 es ht hin herr hgood hi hturns => ?_⟩
  · have hcode : n.node.pollCode k = 0 := pollCode_script _ _ (by rw [herr]; rfl)
    refine ⟨_, _, _, nodeStep_of_todo hn ht, (runTask_done hn hready.role (.send k) rest).node, ?_,
      peer_after_send hn hready.role hp hl hcode rest, hreached⟩
    rw [System.taskNode, afterSend_of_good hcode, pollSend_events, hframe]
  · obtain ⟨a, rfl⟩ : ∃ a : Fin 4, a.val = i := ⟨⟨i, hi⟩, rfl⟩
    rw [Fin.ofNat_val_eq_self] at hturns
    obtain ⟨pre, post, hsplit, hpre, hpost, hcode⟩ := polledPeers_split hk es hgood
    obtain ⟨m, z, n', p', raw, hm, hsteps, hn', hins, hp', hpolled, -⟩ :=
      exists_polledGood hn hready ht hin hturns hsplit hpre hpost (by rw [herr]; exact hcode) hp hl
    refine ⟨m, z, n', p', hm, hsteps, hn', hpolled.todo, hins, ?_, hp', ?_, ?_⟩
    · exact hframe ▸ hpolled.written
    · rw [hpolled.peer]
      exact hreached.1
    · rw [hpolled.events]
      exact hreached.2

end Sys2Proof.Machine
end

section
/-!
SUPPORT. What an operation can do to the half of the state that is the other role's
(spec/42_transport.md rule R190, spec/60_exceptions.md rule R244): a coordinator's keeps the peer's
ControllerSlot, and a peer's changes that slot and the output ports only.
-/

namespace Sys2Proof.Machine

/-! ### The coordinator's operations keep the peer's slot -/

/-- A poll writes the coordinator's slots (R193). -/
@[simp] theorem coordPollOp_peer (s : State) : (coordPollOp s).peer = s.peer := by
  rw [coordPollOp_eq, ret_peer, (pollPeer_only 3 _).peer, (pollPeer_only 2 _).peer,
    (pollPeer_only 1 _).peer]

/-- A ping writes no slot (R197). -/
@[simp] theorem coordPingOp_peer (k : Byte) (s : State) : (coordPingOp k s).peer = s.peer := by
  have h := (pingSend_only 0 k s).peer
  unfold coordPingOp
  dsimp only
  split
  · rwa [ret_peer, raise_peer]
  · exact h

@[simp] theorem slotWriteOp_peer (k : Fin 4) (tf : BitVec 4) (b : Bytes) (s : State) :
    (slotWriteOp k tf b s).peer = s.peer := by
  unfold slotWriteOp
  split <;> rfl

@[simp] theorem slotReadOp_peer (k : Fin 4) (tf : BitVec 4) (s : State) :
    (slotReadOp k tf s).peer = s.peer := by
  unfold slotReadOp
  split <;> rfl

@[simp] theorem responseOp_peer (k : Fin 4) (rx : Bytes) (s : State) :
    (responseOp k rx s).peer = s.peer :=
  (receiveStep_only ..).peer

/-- An operation keeps the peer's slot if what it does once accepted does. -/
theorem keeps_peer_of_accept {i : Instr} {role : Role} {legal : Bool} {s t : State}
    {act : State → State} (ha : exec i s = accept role legal s act) (he : exec i s = .next t)
    (h : (act s).peer = s.peer) : t.peer = s.peer := by
  obtain ⟨-, -, -, -, rfl⟩ := accept_next.1 (ha ▸ he)
  exact h

/-- A coordinator's operation never writes `P` (R190, R244). -/
theorem exec_coordinator_keeps_peer {i : Instr} {s t : State}
    (hr : roleOf i = some .coordinator) (he : exec i s = .next t) : t.peer = s.peer := by
  cases i with
  | attach => exact keeps_peer_of_accept (exec_attach ..) he (SameReports.attachDevice ..).peer
  | detach => exact keeps_peer_of_accept (exec_detach ..) he (SameReports.detachAddr ..).peer
  | decode => exact keeps_peer_of_accept (exec_decode ..) he (SameReports.decodePacketOp ..).peer
  | readPad => exact keeps_peer_of_accept (exec_readPad ..) he (ret_peer ..)
  | buttonEdge => exact keeps_peer_of_accept (exec_buttonEdge ..) he (ret_peer ..)
  | commitEdges =>
    exact keeps_peer_of_accept (exec_commitEdges ..) he (SameReports.updateLive ..).peer
  | isDown => exact keeps_peer_of_accept (exec_isDown ..) he (ret_peer ..)
  | wasPressed =>
    exact keeps_peer_of_accept (exec_wasPressed ..) he (SameReports.wasPressedOp ..).peer
  | setRumble => exact keeps_peer_of_accept (exec_setRumble ..) he (SameReports.updateLive ..).peer
  | setLed => exact keeps_peer_of_accept (exec_setLed ..) he (SameReports.updateLive ..).peer
  | setCpled => exact keeps_peer_of_accept (exec_setCpled ..) he (SameReports.updateLive ..).peer
  | feedbackTick =>
    exact keeps_peer_of_accept (exec_feedbackTick ..) he (SameReports.feedbackTickOp ..).peer
  | slotWrite => exact keeps_peer_of_accept (exec_slotWrite ..) he (slotWriteOp_peer ..)
  | slotRead => exact keeps_peer_of_accept (exec_slotRead ..) he (slotReadOp_peer ..)
  | coordPoll => exact keeps_peer_of_accept (exec_coordPoll s) he (coordPollOp_peer s)
  | coordPing => exact keeps_peer_of_accept (exec_coordPing ..) he (coordPingOp_peer ..)
  | response => exact keeps_peer_of_accept (exec_response ..) he (responseOp_peer ..)
  | pad => exact keeps_peer_of_accept (exec_pad ..) he (SameReports.packetOp ..).peer
  | presence => exact keeps_peer_of_accept (exec_presence ..) he (SameReports.packetOp ..).peer
  | chatpad => exact keeps_peer_of_accept (exec_chatpad ..) he (SameReports.packetOp ..).peer
  | reinit => exact keeps_peer_of_accept (exec_reinit ..) he (SameReports.packetOp ..).peer
  | reset | peerReceive | peerRequest | peerSetOut | peerRead | statusDisc | statusStd
  | statusCockpit | statusReserved | ping => cases hr

/-! ### The peer's operations change the peer's half only -/

namespace PeerHalf

theorem ret (s : State) (v : Result) : PeerHalf s (s.ret v) :=
  ⟨rfl, rfl, rfl, rfl, rfl, rfl, rfl, rfl, rfl, rfl⟩

theorem peerSetOutOp (tf : BitVec 4) (b : Bytes) (s : State) :
    PeerHalf s (peerSetOutOp tf b s) := by
  unfold Machine.peerSetOutOp
  split
  · exact refl s
  · exact ⟨rfl, rfl, rfl, rfl, rfl, rfl, rfl, rfl, rfl, rfl⟩

theorem acceptPing (s : State) : PeerHalf s (acceptPing s) :=
  ⟨rfl, rfl, rfl, rfl, rfl, rfl, rfl, rfl, rfl, rfl⟩

end PeerHalf

/-- An operation changes the peer's half only if what it does once accepted does. -/
theorem peerHalf_of_accept {i : Instr} {role : Role} {legal : Bool} {s t : State}
    {act : State → State} (ha : exec i s = accept role legal s act) (he : exec i s = .next t)
    (h : PeerHalf s (act s)) : PeerHalf s t := by
  obtain ⟨-, -, -, -, rfl⟩ := accept_next.1 (ha ▸ he)
  exact h

/-- A peer's operation changes nothing but its ControllerSlot and the output ports (R190, R244). -/
theorem exec_peer_half {i : Instr} {s t : State} (hr : roleOf i = some .peer)
    (he : exec i s = .next t) : PeerHalf s t := by
  cases i with
  | peerReceive => exact peerHalf_of_accept (exec_peerReceive ..) he (.peerReceiveOp ..)
  | peerRequest => exact peerHalf_of_accept (exec_peerRequest s) he (.ret ..)
  | peerSetOut => exact peerHalf_of_accept (exec_peerSetOut ..) he (.peerSetOutOp ..)
  | peerRead => exact peerHalf_of_accept (exec_peerRead s) he (.ret ..)
  | statusDisc => exact peerHalf_of_accept (exec_statusDisc ..) he (.acceptStatus ..)
  | statusStd => exact peerHalf_of_accept (exec_statusStd ..) he (.acceptStatus ..)
  | statusCockpit => exact peerHalf_of_accept (exec_statusCockpit ..) he (.acceptStatus ..)
  | statusReserved => exact peerHalf_of_accept (exec_statusReserved ..) he (.rejectFrame ..)
  | ping => exact peerHalf_of_accept (exec_ping ..) he (.acceptPing s)
  | _ => cases hr

end Sys2Proof.Machine
end

section
/-!
The obligations about acceptance and the two roles (spec/60_exceptions.md), settled by the lemmas
above.
-/

namespace Sys2Proof.Machine

/-- Settles O58: a coordinator's operation keeps `P`, and a peer's touches its own half only. -/
theorem rolesKeepToTheirHalf : Obligations.RolesKeepToTheirHalf := by
  unfold Obligations.RolesKeepToTheirHalf
  intro i s t he
  refine ⟨fun hr => exec_coordinator_keeps_peer hr he, fun hr => ?_⟩
  have hhalf := exec_peer_half hr he
  exact ⟨hhalf.pool, hhalf.slots⟩

/-- Settles O8: every operation but RESET has a role and passes through `accept`, which refuses it
before the first RESET. -/
theorem nothingRunsBeforeReset : Obligations.NothingRunsBeforeReset := by
  unfold Obligations.NothingRunsBeforeReset
  intro i s hparams hbooted hi
  obtain ⟨r, hr⟩ := exists_roleOf hi
  obtain ⟨legal, act, hexec⟩ := exec_accepts s hr
  rw [hexec]
  exact accept_beforeReset hparams hbooted

end Sys2Proof.Machine
end

section
/-!
SUPPORT. The node right after RESET (spec/70_reset_and_hazards.md rule R260): its role, its
ControllerSlots, its report buffers, and that it accepts the operations of its role.
-/

namespace Sys2Proof.Machine

section
variable (s : State) (id : BitVec 2)

theorem role_afterReset : (s.afterReset id).role = if id = 0 then .coordinator else .peer := rfl

theorem noDraw_afterReset : NoDraw s (s.afterReset id) := ⟨rfl, rfl, rfl, rfl⟩

theorem answers_afterReset : Answers .none [] s (s.afterReset id) :=
  ⟨rfl, (List.append_nil _).symm⟩

@[simp] theorem slot_afterReset (k : Fin 4) : (s.afterReset id).slot k = resetSlot s.cfg := by
  fin_cases k <;> rfl

/-- RESET fills every report buffer, up to its length, with 0 (R44). -/
theorem buffer_afterReset (b : BufId) :
    (s.afterReset id).buffer b = List.replicate (b.size s.cfg) 0 := by
  cases b with
  | coordIn k cp | coordOut k cp =>
    cases cp <;> rw [State.buffer, slot_afterReset] <;> rfl
  | peerIn cp | peerOut cp => cases cp <;> rfl

theorem readByte_afterReset (b : BufId) (off : Nat) :
    (s.afterReset id).readByte b off = if off < b.size s.cfg then some 0 else none := by
  rw [State.readByte, buffer_afterReset, List.getElem?_replicate]

end

/-- A node just reset accepts the operations of the role its identity gives it (R22, R263). -/
theorem ready_afterReset {s : State} {id : BitVec 2} {r : Role} (hp : s.paramsWf = true)
    (hr : (s.afterReset id).role = r) : Ready r (s.afterReset id) :=
  ⟨(inv_afterReset hp id).params, rfl, hr⟩

end Sys2Proof.Machine
end

section
/-!
SUPPORT. What a user's queries answer on a ready node, as one equation each (spec/40_decoder.md rules
R149, R152, R153, spec/42_transport.md rules R201, R214).
-/

namespace Sys2Proof.Machine

section
variable {s : State} {i : Byte} (hs : Ready .coordinator s) (hi : i.toNat < s.maxDev)
include hs hi

theorem exec_readPad_of_ready : exec (.readPad i) s = .next (s.ret (.pad (s.dev i.toNat).pad)) :=
  (exec_readPad s i).trans (accept_slot hs hi _)

/-- No code is down on a free slot (R152). -/
theorem exec_isDown_of_free (hfam : (s.dev i.toNat).fam = .unknown) (x : Byte) :
    exec (.isDown i x) s = .next (s.ret (.bit false)) := by
  rw [exec_isDown, accept_slot hs hi, isDown_eq_false (.inl hfam)]

/-- No code is newly pressed on a free slot, and its history stays (R153). -/
theorem exec_wasPressed_of_free (hfree : (s.dev i.toNat).live = false) (x : Byte) :
    exec (.wasPressed i x) s = .next (s.ret (.bit false)) := by
  rw [exec_wasPressed_of_ready hs hi, wasPressedOp_of_free hfree]

end

/-- SLOT_READ of a family with report buffers returns the slot's out-report (R201). -/
theorem exec_slotRead_of_ready {s : State} (hs : Ready .coordinator s) {k : Byte}
    (hk : k.toNat < 4) {f : TargetFamily} (hf : f ≠ .disconnected) :
    exec (.slotRead k f.code) s = .next (s.ret (.bytes ((s.slot (playerIx k)).outBuf f))) := by
  have hreport : isReportFamily f.code = true := by
    cases f with
    | disconnected => exact absurd rfl hf
    | standard | cockpit => rfl
  rw [exec_slotRead, isPlayer_of_lt hk, hreport, Bool.and_true, accept_ready hs, slotReadOp,
    targetFamily_ofCode_code]

theorem exec_peerRead_of_ready {s : State} (hs : Ready .peer s) :
    exec .peerRead s = .next (s.ret (.report s.peer.tf (s.peer.inBuf s.peer.tf))) :=
  (exec_peerRead s).trans (accept_ready hs _)

end Sys2Proof.Machine
end

section
/-!
The obligations about RESET (spec/70_reset_and_hazards.md), settled by the lemmas above.
-/

namespace Sys2Proof.Machine

/-- Settles O7: the queries on a free slot, the out-reports and the peer's family of the reset
state. -/
theorem userViewAfterReset : Obligations.UserViewAfterReset := by
  unfold Obligations.UserViewAfterReset
  intro s t he
  obtain ⟨hp, rfl⟩ := exec_reset_next.1 he
  have hs : Ready .coordinator (s.afterReset 0) :=
    ready_afterReset hp (role_coordinator_iff.2 rfl)
  refine ⟨fun i hi => ?_, fun k hk => ?_, fun id u hid hu => ?_⟩
  · have hzero := dev_afterReset s 0 i.toNat
    have hfam : ((s.afterReset 0).dev i.toNat).fam = .unknown := by rw [hzero]; rfl
    have hfree : ((s.afterReset 0).dev i.toNat).live = false := by rw [hzero]; rfl
    refine ⟨?_, exec_isDown_of_free hs hi hfam, fun x => ?_, exec_feedbackTick_of_free hs hi hfam⟩
    · rw [exec_readPad_of_ready hs hi, hzero]
      rfl
    · exact ⟨_, exec_wasPressed_of_free hs hi hfree x, ret_answers _ _⟩
  · have hout (f : TargetFamily) (hf : f ≠ .disconnected) := exec_slotRead_of_ready hs hk hf
    simp only [slot_afterReset] at hout
    exact ⟨hout .standard (by decide), hout .cockpit (by decide)⟩
  · obtain ⟨-, rfl⟩ := exec_reset_next.1 hu
    exact exec_peerRead_of_ready (ready_afterReset hp (role_peer_iff.2 hid))

/-- Settles O6: RESET's effect is `afterReset`, which holds the value of R44 in every element. -/
theorem resetGivesResetValues : Obligations.ResetGivesResetValues := by
  unfold Obligations.ResetGivesResetValues
  intro id s hp
  refine ⟨(decodePort_cons .reset _).trans (narrow_setWidth (by decide) id fun id =>
      .instr (.reset id)), s.afterReset id, exec_reset_next.2 ⟨hp, rfl⟩, rfl, role_afterReset s id,
    rfl, maxDev_afterReset s id, fun i _ => dev_afterReset s id i, fun k => ?_, rfl,
    readByte_afterReset s id, rfl, rfl, noDraw_afterReset s id, answers_afterReset s id⟩
  rw [slot_afterReset]
  rfl

end Sys2Proof.Machine
end
